-- ==== Sys2Proof/Word.lean ====
section
/-! DEFINITION. The word and byte types of the JR4 (R83, R104). -/

namespace Sys2Proof

/-- A 64-bit scalar word (R83). -/
abbrev Word := BitVec 64

/-- A byte of any storage space (R3). -/
abbrev Byte := BitVec 8

end Sys2Proof
end

