-- ==== Sys2Proof/Syntax.lean ====
section
/-! DEFINITION. Every operation and event of the JR4 as a term: one constructor of `Instr` for each row of the
table of operations and events. A slot operation carries the fields of its slot of the 512-bit bundle (R26 to R33);
an event carries what its originator supplies. -/

namespace Sys2Proof

/-- Scalar slot, SR format (R26). `z` is the reserved field. -/
structure SR where
  g : BitVec 4
  rd : BitVec 6
  ra : BitVec 6
  rb : BitVec 6
  fn : BitVec 12
  z : BitVec 6
  deriving DecidableEq, Repr

/-- Scalar slot, SI format (R26). -/
structure SI where
  g : BitVec 4
  rd : BitVec 6
  ra : BitVec 6
  imm : BitVec 24
  deriving DecidableEq, Repr

/-- Scalar slot, SL format (R26). -/
structure SL where
  g : BitVec 4
  rd : BitVec 6
  imm : BitVec 30
  deriving DecidableEq, Repr

/-- The 17-bit operand field (R33). -/
structure Opnd where
  lvl : BitVec 2
  dir : BitVec 2
  neg : Bool
  zer : Bool
  idx : BitVec 11
  deriving DecidableEq, Repr

/-- A vector slot (R27); `inB` tells vector B from vector A. -/
structure VArgs where
  inB : Bool
  et : BitVec 4
  g1 : BitVec 4
  g2 : BitVec 4
  ch : BitVec 2
  wbs : Bool
  lat : Bool
  line : BitVec 5
  o0 : Opnd
  o1 : Opnd
  o2 : Opnd
  o3 : Opnd
  o4 : Opnd
  deriving DecidableEq, Repr

/-- The matrix slot (R29). -/
structure MArgs where
  g : BitVec 4
  zd : BitVec 6
  oa : Opnd
  ob : Opnd
  mctl : BitVec 28
  deriving DecidableEq, Repr

/-- The load and store slots (R30); `inStore` tells the store slot from the load slot. -/
structure LArgs where
  inStore : Bool
  g : BitVec 4
  ar : BitVec 5
  dat : Opnd
  ch : BitVec 2
  mode : BitVec 5
  deriving DecidableEq, Repr

/-- The copy slot (R31). -/
structure CArgs where
  g : BitVec 4
  sa : BitVec 5
  da : BitVec 5
  xl : BitVec 6
  tok : BitVec 8
  xfm : BitVec 5
  deriving DecidableEq, Repr

/-- The sync slot (R32). -/
structure YArgs where
  scope : BitVec 3
  smask : BitVec 4
  sarg : BitVec 3
  deriving DecidableEq, Repr

/-- The kinds of access that a translation is checked for (R263). -/
inductive Access where
  | read
  | write
  | fetch
  deriving DecidableEq, Repr

/-- A remote transaction of one pair (R307, R310 to R312): its bytes lie in one inbound window or it is refused. -/
inductive Txn where
  /-- Part of an RSTO, or a PEER store: write the bytes at the destination's DEV physical address. -/
  | store (addr : BitVec 48) (bytes : List Byte)
  /-- RFAA: fetch and add. -/
  | faa (addr : BitVec 48) (addend : Word)
  /-- RFEN: write the flag after every lower PSN. -/
  | flag (addr : BitVec 48) (value : Word)
  deriving DecidableEq, Repr

/-- What the fabric brings to a collective: each rank's contribution for this device, in rank order, and the first
rank whose descriptor disagrees, where one does (R315). -/
structure CollInput where
  blocks : List (List Byte)
  bad : Option Nat
  deriving DecidableEq, Repr

/-- How a boot stage ends (R329): it completes, or fails with a reason code. -/
inductive BootResult where
  | done
  | failed (reason : BitVec 8)
  deriving DecidableEq, Repr

/-- A launch that the loader's caller asks for, of a template of the image: what the caller gives its header, and where the
library allocates the header, the spar area, the save areas and the segment pool, as virtual and physical addresses
(R337). -/
structure LaunchArgs where
  template : Nat
  ext : List Nat
  ptok : Nat
  args : List Word
  rem0 : Nat
  rsksz : Nat
  exbud : Nat
  sparn : Nat
  header : BitVec 57 × BitVec 48
  spars : BitVec 57 × BitVec 48
  saves : BitVec 57 × BitVec 48
  pool : BitVec 57 × BitVec 48
  deriving DecidableEq, Repr

/-- Where the loader's caller places an image, the page tables it needs, and the launches it asks for (R63, R337). -/
structure LoadArgs where
  ctx : BitVec 16
  codeVa : BitVec 57
  codePa : BitVec 48
  dataVa : BitVec 57
  dataPa : BitVec 48
  lcores : List Nat
  tables : BitVec 48 := 0
  launches : List LaunchArgs := []
  deriving DecidableEq, Repr

/-- The registers of the CXL.io block that REGISTER_WRITE reaches (R265, R293, R305, R320, R321, R332, R335). -/
inductive CxlReg where
  | mntaddr | mntlen | mntctx | mntcmd | mntstat
  | lanefcb | lanepcb | embase | lanectl
  | lnkstat (n : Nat) | devnum | rtbase | inbtb | pairb | lnkctl
  | clogb | clogn | clognext | cplb | cpln | cplhead | cpltail | disphdr | hostctl
  | hwbase | hwlen | hwhpa
  | thinj | attnonce (n : Nat) | attstat | attrep (n : Nat) | bootstat | pwrctl
  deriving DecidableEq, Repr

/-- One constructor per row of the table of operations and events. -/
inductive Instr where
  /-- R41. A well-formed bundle issues once every stall-mode pop can be met and the scoreboard clears. It reads the snapshot, executes its guarded slots, and either commits all results and sends engine commands or takes one trap. -/
  | bundleIssue (w : BitVec 512)
  /-- R87. Xd := (Xa + Xb) mod 2^64. -/
  | add (a : SR)
  /-- R87. Xd := (Xa - Xb) mod 2^64. -/
  | sub (a : SR)
  /-- R87. Xd := low 64 bits of Xa x Xb. -/
  | mul (a : SR)
  /-- R87. Xd := high 64 bits of the signed or unsigned 128-bit product. -/
  | mulh (a : SR)
  /-- R88. Xd := quotient rounded toward zero, with fixed results for division by zero and overflow. The bundle takes 16 extra issue cycles. -/
  | div (a : SR)
  /-- R88. Xd := remainder taking the sign of Xa, with fixed boundary results. The bundle takes 16 extra issue cycles. -/
  | rem (a : SR)
  /-- R87. Xd := bitwise AND of Xa and Xb. -/
  | and (a : SR)
  /-- R87. Xd := bitwise OR of Xa and Xb. -/
  | or (a : SR)
  /-- R87. Xd := bitwise XOR of Xa and Xb. -/
  | xor (a : SR)
  /-- R87. Xd := Xa shifted left by Xb[5:0]. -/
  | shl (a : SR)
  /-- R87. Xd := Xa shifted logically right by Xb[5:0]. -/
  | shr (a : SR)
  /-- R87. Xd := Xa shifted arithmetically right by Xb[5:0]. -/
  | sra (a : SR)
  /-- R87. Xd := the smaller of Xa and Xb, signed or unsigned. -/
  | min (a : SR)
  /-- R87. Xd := the larger of Xa and Xb, signed or unsigned. -/
  | max (a : SR)
  /-- R87. Xd := the number of leading zero bits of Xa. -/
  | clz (a : SR)
  /-- R87. Xd := the number of one bits in Xa. -/
  | popc (a : SR)
  /-- R89. Xd := (Xa + sext(IMM)) mod 2^64. -/
  | addi (a : SI)
  /-- R89. Xd := Xa AND sext(IMM). -/
  | andi (a : SI)
  /-- R89. Xd := Xa OR sext(IMM). -/
  | ori (a : SI)
  /-- R89. Xd := Xa XOR sext(IMM). -/
  | xori (a : SI)
  /-- R89. Xd := Xa shifted left by IMM[5:0]. -/
  | shli (a : SI)
  /-- R89. Xd := Xa shifted logically right by IMM[5:0]. -/
  | shri (a : SI)
  /-- R89. Xd := Xa shifted arithmetically right by IMM[5:0]. -/
  | srai (a : SI)
  /-- R90. Xd := sext(IMM[29:0]). -/
  | ldi (a : SL)
  /-- R90. Xd := (Xd x 2^30 + IMM[29:0]) mod 2^64. -/
  | ldih (a : SL)
  /-- R92. Xd := Xa when the named predicate is true, and Xb otherwise. -/
  | sel (a : SR)
  /-- R91. Pd := the condition in FN applied to Xa and Xb. -/
  | cmp (a : SR)
  /-- R91. Pd := the condition applied to Xa and the sign-extended 20-bit immediate. -/
  | cmpi (a : SI)
  /-- R93. Pd := AND of Pa and Pb, each optionally inverted. -/
  | pand (a : SR)
  /-- R93. Pd := OR of Pa and Pb, each optionally inverted. -/
  | por (a : SR)
  /-- R93. Pd := XOR of Pa and Pb, each optionally inverted. -/
  | pxor (a : SR)
  /-- R93. Pd := NOT Pa. -/
  | pnot (a : SR)
  /-- R92. Xd := zext of P15..P0. -/
  | movpToX (a : SR)
  /-- R92. Pi := Xa[i] for i from 1 to 15. -/
  | movpToP (a : SR)
  /-- R95. Unconditional branch to PC + offset x 64. -/
  | br (a : SL)
  /-- R95. Branch when the predicate, optionally inverted, is true; otherwise fall through. The branch is predicted. -/
  | brc (a : SI)
  /-- R95. Xd := PC + 64, then branch to the target. -/
  | call (a : SL)
  /-- R95. PC := Xa[56:6] x 64. Faults NCANON when Xa is not canonical. -/
  | ret (a : SR)
  /-- R95. Decrement Xd, and branch while the new value is non-zero. -/
  | loop (a : SI)
  /-- R97. Xd := the control register named by the immediate, read from the snapshot. -/
  | crr (a : SI)
  /-- R97. Write Xa to a control register at commit. W1C registers clear bits, and privileged registers fault PRIV in a spar that is not privileged. -/
  | crw (a : SI)
  /-- R96. Raise a software trap SWTRAP on lane P after the bundle commits, with saved PC = PC + 64. -/
  | trap (a : SI)
  /-- R299. Privileged answer to an open lane record named by X1: resume, abort or end, with the spar's context restored or the stopped command resumed. -/
  | eret (a : SR)
  /-- R278. Create a child spar record at the next free index, with a derived seed and WID. Xd receives the index, or all ones when the spar area is full. -/
  | spawn (a : SR)
  /-- R282. At the yield bundle's commit, write the wait word from Xa and arm a monitor when KIND 1 is named. -/
  | susp (a : SR)
  /-- R280. End the spar at its yield write-back, after its engine commands complete. The spar's segment is discarded. -/
  | exit (a : SR)
  /-- R279. Xd := arxh(SEEDTOP, Xa). -/
  | sdrd (a : SR)
  /-- R279. SEEDTOP := child(SEEDTOP, Xa) at commit. -/
  | sdfk (a : SR)
  /-- R281. Read a level field, the WID, the record index or completion-set bits into Xd. With .csc the returned bits are cleared. -/
  | widr (a : SI)
  /-- R114. Element-wise a + b, rounded once into the element type. -/
  | vadd (a : VArgs)
  /-- R114. Element-wise a - b. -/
  | vsub (a : VArgs)
  /-- R114. Element-wise a x b. -/
  | vmul (a : VArgs)
  /-- R114. Element-wise a x b + c, rounded once. -/
  | vfma (a : VArgs)
  /-- R114. Element-wise a x b - c, rounded once. -/
  | vfms (a : VArgs)
  /-- R114. Element-wise minimum, with -0 ordered below +0. -/
  | vmin (a : VArgs)
  /-- R114. Element-wise maximum, with -0 ordered below +0. -/
  | vmax (a : VArgs)
  /-- R115. Element-wise absolute value. -/
  | vabs (a : VArgs)
  /-- R115. Bitwise AND on the elements' storage bits. -/
  | vand (a : VArgs)
  /-- R115. Bitwise OR on the elements' storage bits. -/
  | vor (a : VArgs)
  /-- R115. Bitwise XOR on the elements' storage bits. -/
  | vxor (a : VArgs)
  /-- R115. Element-wise left shift by the unsigned element of b. -/
  | vshl (a : VArgs)
  /-- R115. Element-wise arithmetic right shift by the unsigned element of b. -/
  | vshr (a : VArgs)
  /-- R116. Compare a with b over the extent, writing a mask and/or a predicate (the OR or the AND of the results). -/
  | vcmp (a : VArgs)
  /-- R117. Select a or b per element under mask k. -/
  | vsel (a : VArgs)
  /-- R118. Mask bit := AND of the non-zero tests over the positions it governs. -/
  | vmskNz (a : VArgs)
  /-- R118. Mk := the bytes of row 0 of a tile. -/
  | vmskLd (a : VArgs)
  /-- R118. Row 0 of td := Mj. -/
  | vmskSt (a : VArgs)
  /-- R118. Mk := NOT Mj. -/
  | vmskNot (a : VArgs)
  /-- R118. Mk := Mk AND Mj. -/
  | vmskAnd (a : VArgs)
  /-- R118. Mk := Mk OR Mj. -/
  | vmskOr (a : VArgs)
  /-- R118. Mk := Mk AND NOT Mj. -/
  | vmskAndn (a : VArgs)
  /-- R118. Set every bit of Mk. -/
  | vmskAll (a : VArgs)
  /-- R119. Copy the element-wise extent at byte width. -/
  | vmov (a : VArgs)
  /-- R119. Fill the whole destination from one element, a row or a column of the source. -/
  | vbcast (a : VArgs)
  /-- R120. Transpose the m x m square of the view. -/
  | vtrn (a : VArgs)
  /-- R121. Reorder elements within each row through an index tile. -/
  | vpermRow (a : VArgs)
  /-- R121. Reorder elements within each column through an index tile. -/
  | vpermCol (a : VArgs)
  /-- R122. Write one queue entry image into row 0, or row k, of td. -/
  | pop (a : VArgs)
  /-- R123. Convert each element between types under a rounding mode. -/
  | vcvt (a : VArgs)
  /-- R124. Quantise 32-element blocks per row, with an E8M0 scale per row. -/
  | qnt (a : VArgs)
  /-- R125. Decode block-scaled elements into FP32, BF16 or FP16. -/
  | dqnt (a : VArgs)
  /-- R126. Write SHAPE from two small immediates. Later bundles see the new value. -/
  | vshp (a : VArgs)
  /-- R137. Row sums into a row statistic. -/
  | vrsum (a : VArgs)
  /-- R137. Column sums into a column statistic. -/
  | vcsum (a : VArgs)
  /-- R137. Row maxima. -/
  | vrmax (a : VArgs)
  /-- R137. Column maxima. -/
  | vcmax (a : VArgs)
  /-- R137. Row minima. -/
  | vrmin (a : VArgs)
  /-- R137. Column minima. -/
  | vcmin (a : VArgs)
  /-- R138. New per-row INT32 exponent max(mo, ceil(g log2 e)). -/
  | vemax (a : VArgs)
  /-- R139. td := e^a x 2^-m, correctly rounded. -/
  | vexps (a : VArgs)
  /-- R140. td := a x 2^(mo - mn), scaled exactly. -/
  | vresc (a : VArgs)
  /-- R141. RMS-normalise each row with gains, optionally writing the scale statistic. -/
  | vrms (a : VArgs)
  /-- R131. Evaluate a piecewise cubic SFU table per element. The results land 12 issue cycles later, to a tile or to QS. -/
  | sfev (a : VArgs)
  /-- R129. Load SFU table slot k from a header tile and a segment tile. SFTBL faults when the header is invalid. -/
  | sfld (a : VArgs)
  /-- R133. An SFEV result, with its flags and saturation events, lands at its landing point tau + 12. -/
  | sfevLand
  /-- R200. Narrow FP32 to BF16 by RNE, pushing a 17-bit-per-element remainder entry. -/
  | rnrw (a : VArgs)
  /-- R200. Pop an NRW entry and restore the FP32 source bit for bit. -/
  | unrw (a : VArgs)
  /-- R201. Q16 multiply with shift SH, pushing the discarded bits. -/
  | rmulq (a : VArgs)
  /-- R201. Pop a MULQ entry and restore x exactly, faulting VALUE on inconsistency. -/
  | umulq (a : VArgs)
  /-- R202. Additive coupling y := x + f, pushing the correction payload. -/
  | raddc (a : VArgs)
  /-- R202. Pop an ADDC entry and restore x exactly. -/
  | uaddc (a : VArgs)
  /-- R203. Leaky rectifier with slope 2^-s, pushing the low bits of negative elements. -/
  | rlrlu (a : VArgs)
  /-- R203. Pop an LRLU entry and restore the source. -/
  | ulrlu (a : VArgs)
  /-- R203. Scale q by 2^k, pushing the discarded bits. -/
  | rscl (a : VArgs)
  /-- R203. Pop an SCL entry and restore q. -/
  | uscl (a : VArgs)
  /-- R204. Push a mark entry with value v. -/
  | rskmk (a : VArgs)
  /-- R204. Pop the top entry, checking that it is a mark with value v. -/
  | rskck (a : VArgs)
  /-- R205. Hint: spill on-core chunks of the remainder stack down to n x 64 KiB. -/
  | rsksp (a : VArgs)
  /-- R205. Hint: fill chunks of the remainder stack up to n x 64 KiB. -/
  | rskfl (a : VArgs)
  /-- R195. The core spills a 64 KiB chunk of the on-core part to the segment once occupancy exceeds 7/8. Faults post RSKSPL. -/
  | rskSpill
  /-- R195. The core fills a 64 KiB chunk from the segment when occupancy falls below 1/8. -/
  | rskFill
  /-- R154. Matrix multiply-accumulate in BF16 from a weight buffer into a Z tile. -/
  | mmaBf16 (a : MArgs)
  /-- R154. Matrix multiply-accumulate in FP16. -/
  | mmaFp16 (a : MArgs)
  /-- R154. Microscaled matrix multiply-accumulate in E4M3. -/
  | mmaE4m3 (a : MArgs)
  /-- R154. Microscaled matrix multiply-accumulate in E5M2. -/
  | mmaE5m2 (a : MArgs)
  /-- R154. Microscaled matrix multiply-accumulate in E2M3. -/
  | mmaE2m3 (a : MArgs)
  /-- R154. Microscaled matrix multiply-accumulate in E3M2. -/
  | mmaE3m2 (a : MArgs)
  /-- R154. Microscaled matrix multiply-accumulate in E2M1. -/
  | mmaE2m1 (a : MArgs)
  /-- R154. Microscaled matrix multiply-accumulate in Q4X. -/
  | mmaQ4x (a : MArgs)
  /-- R155. Form unscaled group partials into consecutive Z tiles. -/
  | mmag (a : MArgs)
  /-- R156. Add a partial Z tile scaled by row and column scales into Zd, as one step. -/
  | sacc (a : MArgs)
  /-- R157. Write +0 to n Z tiles. -/
  | mzero (a : MArgs)
  /-- R150. Load a weight panel into WB0 or WB1 from DEV or from tiles through a weight stream. -/
  | mwld (a : MArgs)
  /-- R146. Write MCFGR (M, N, ASTR, POST) at commit. -/
  | mcfg (a : MArgs)
  /-- R174. Check and correct Zd, then drain the M x N block to tiles, with an optional checksum tile. -/
  | mdrn (a : MArgs)
  /-- R175. Check Zd, correcting or recomputing it, or only report with RPT. -/
  | mchk (a : MArgs)
  /-- R176. Replay the chain of Zd and compare. -/
  | mrecomp (a : MArgs)
  /-- R182. Load an up-projection into Dormer buffer segments with verification. -/
  | mlatLoad (a : MArgs)
  /-- R187. Score or accumulate against gathered latent rows expanded through the projection. -/
  | mlatExpand (a : MArgs)
  /-- R187. Score or accumulate directly against gathered latent rows. -/
  | mlatAbsorb (a : MArgs)
  /-- R144. The matrix engine starts its waiting instruction once the running one completes. -/
  | matrixStart
  /-- R154. A k-step runs once its panel k-rows have landed, committing one group to the accumulator and the checksums. -/
  | matrixKstep
  /-- R158. A matrix instruction completes and, with POST set, pushes its QM entry. -/
  | matrixComplete
  /-- R150. A weight-stream sector lands in its buffer and its k-rows are verified. A fault or failure stops the stream. -/
  | wstreamSector (wb : Bool)
  /-- R212. Load 8 aligned bytes into Xd. -/
  | ld (a : LArgs)
  /-- R212. Store Xs to 8 aligned bytes through the store queue. -/
  | st (a : LArgs)
  /-- R212. Atomic add, returning the old value. -/
  | aadd (a : LArgs)
  /-- R212. Atomic compare and increment, returning the old value. -/
  | acas (a : LArgs)
  /-- R212. Atomic exchange. -/
  | axch (a : LArgs)
  /-- R212. Atomic signed maximum. -/
  | amax (a : LArgs)
  /-- R212. Atomic signed minimum. -/
  | amin (a : LArgs)
  /-- R213. Load the SHAPE view of a tile from memory, optionally verifying a thatched image. -/
  | tld (a : LArgs)
  /-- R213. Store the SHAPE view of a tile, optionally flashing checksums. -/
  | tst (a : LArgs)
  /-- R214. Gather rows by per-row offsets held in the destination tile. -/
  | gld (a : LArgs)
  /-- R215. Stash store: write plain and transposed thatched images through the corner-turn stage. -/
  | tsts (a : LArgs)
  /-- R217. Look up the slot whose tag matches the address. -/
  | tagl (a : LArgs)
  /-- R217. Set tag entry Xs valid with the address and the SD bit. -/
  | tags (a : LArgs)
  /-- R217. Invalidate tag entry Xs. -/
  | tagi (a : LArgs)
  /-- R217. Invalidate the entry whose tag matches the address. -/
  | tagiA (a : LArgs)
  /-- R103. BASE := Xs, IDX := 0, mode linear. -/
  | aset (a : LArgs)
  /-- R103. Apply the update of R101 with increment Xs. -/
  | ainc (a : LArgs)
  /-- R103. LEN := Xs, mode modulo. -/
  | amod (a : LArgs)
  /-- R103. LEN := Xs, mode bit-reversed. -/
  | abrev (a : LArgs)
  /-- R103. STEP := Xs. -/
  | astp (a : LArgs)
  /-- R103. LEN := Xs, mode unchanged. -/
  | alen (a : LArgs)
  /-- R103. Read a field or the effective address of an address register into Xd. -/
  | aget (a : LArgs)
  /-- R103. Clear an address register. -/
  | aclr (a : LArgs)
  /-- R211. A committed store leaves the store queue and is performed; a failure posts a STERR notice. -/
  | storePerform (n : Nat) (status : Byte)
  /-- R226. Copy bytes between scopes, with an optional transform or a tensor shape record. -/
  | cpy (a : CArgs)
  /-- R231. Copy carrying the bundle's matrix instruction as a follow-on. -/
  | cpyf (a : CArgs) (follow : BitVec 80)
  /-- R232. Prefetch hint into L2 or the translation buffer. It never faults. -/
  | pfh (a : CArgs)
  /-- R230. Record-cache fence: wait for earlier captures and stores, then remove one entry or all. -/
  | rcinv (a : CArgs)
  /-- R234. Append a gradient tile with its key to a Gutter log. -/
  | glog (a : CArgs)
  /-- R236. Once TAIL reaches HEAD, write rounded key sums into the targets and push a QG entry. -/
  | gmrg (a : CArgs)
  /-- R229. A copy engine starts a command, capturing its tensor shape record and checking it and its ranges. -/
  | copyStart (e : Nat)
  /-- R222. A copy engine moves one 128-byte sector. A translation fault stops the command with a lane P record. -/
  | copySector (e : Nat)
  /-- R223. A copy command completes or ends, marks its token in the completion set and pushes QC, or posts COPYST for token 0. -/
  | copyComplete (e : Nat)
  /-- R231. A CPYF follow-on enters the matrix engine once the copy's last byte is visible, or is discarded when the copy fails. -/
  | followonEnter
  /-- R235. The Valley engine folds a log record into the exact wide sums and advances TAIL. -/
  | valleyFold
  /-- R310. Remote store of LEN bytes to a peer. -/
  | rsto (a : CArgs)
  /-- R311. Remote fetch-and-add, releasing at FABRIC scope, returning the old value locally. -/
  | rfaa (a : CArgs)
  /-- R312. Remote flag write ordered after every earlier transaction of the pair. -/
  | rfen (a : CArgs)
  /-- R316. All-reduce collective. -/
  | collAr (a : CArgs)
  /-- R315. All-gather collective. -/
  | collAg (a : CArgs)
  /-- R316. Reduce-scatter collective. -/
  | collRs (a : CArgs)
  /-- R315. Variable all-to-all collective. -/
  | collA2a (a : CArgs)
  /-- R318. A collective completes and pushes its QX entry. -/
  | collComplete (got : CollInput)
  /-- R244. Hold the bundle until earlier loads have their values and own stores are performed at CORE scope. -/
  | mark (a : YArgs)
  /-- R245. Wait until the earlier accesses of the named kind and spaces are performed at the scope, and optionally until engine commands complete. -/
  | fence (a : YArgs)
  /-- R250. Invalidate clean tag entries and read copies that match ASIG, clear ASIG, and order as a load fence. -/
  | acq (a : YArgs)
  /-- R248. Wait as a full fence, then move WSIG into RSIG. -/
  | rel (a : YArgs)
  /-- R288. In a yield bundle, wait at the superstep barrier (WAIT KIND 4). -/
  | sstep (a : YArgs)
  /-- R284. Hold issue until the armed monitor fires or a timeout passes. -/
  | waita (a : YArgs)
  /-- R284. Hold issue until the named queue holds a present entry. -/
  | waitk (a : YArgs)
  /-- R284. The WAITA timeout of 2^(8+2s) cycles expires and the bundle issues. -/
  | waitaTimeout
  /-- R283. A write to an armed sector fires its monitor, readying a suspended spar or releasing a WAITA. -/
  | monitorFire (n : Nat)
  /-- R282. A KIND 5 time wait comes due and the spar becomes ready. -/
  | waitTimeDue (spar : Nat)
  /-- R263. A translation-buffer miss walks the four-level tables and installs a translation or raises NOMAP, PROT or PTEBAD. -/
  | pageWalk (ctx : BitVec 16) (va : BitVec 57) (acc : Access)
  /-- R256. A DEV read misses its home slice, opens a merging window and reads HBM4, filling and evicting by rank. -/
  | l2ReadMiss (pa : BitVec 48) (ch : BitVec 2) (cmp : Bool)
  /-- R256. A 64-L2-clock merging window expires. -/
  | mcWindowExpire (sector : Nat)
  /-- R259. A channel's lane-error count crosses the threshold, and firmware sets the channel to half width. -/
  | hbmHalfWidth (chan : Nat)
  /-- R265. A write of MNTCMD OP 01 writes back and drops the lines of a DEV range. -/
  | mntFlush
  /-- R265. A write of MNTCMD OP 10 removes translations of a range and clears record caches. -/
  | mntShoot
  /-- R265. A maintenance command completes, clearing BUSY and setting DONE. -/
  | mntDone
  /-- R285. At a write-back or when idle, the arbiter picks a head by slice fit and age, or steals. -/
  | arbiterChoose
  /-- R85. A picked spar enters after scratchpad images are exchanged and its segment descriptor is read, with the spar-entry state. -/
  | sparEntry
  /-- R300. A checkpointed spar is restored, its engines and projections restart, and issue continues at the saved PC. -/
  | sparResume
  /-- R274. After a yield bundle commits, the spar record is written back with energy debit, binding and wait word. -/
  | yieldWriteback
  /-- R291. Pre-emption saves the spar's context at a bundle boundary and requeues it. -/
  | checkpoint
  /-- R291. Pre-emption stops a restartable spar, aborts its commands and resets its record. -/
  | kill
  /-- R297. A fault or trap stops the spar, saves its context and posts one stop record. -/
  | faultStop
  /-- R292. The device posts a record to lane F or P and advances HEAD, raising MSI-X when enabled. -/
  | lanePost (p : Bool)
  /-- R288. When every live spar waits at SSTEP, the exchange list runs. -/
  | exchangeBegin (launch : Nat)
  /-- R288. The exchange phase ends when every entry is performed, and the waiting spars become ready. -/
  | exchangeEnd (launch : Nat)
  /-- R288. An exchange phase runs past EXBUD, and SSOVR is incremented. -/
  | exbudExpire (launch : Nat)
  /-- R293. A write of LANECTL.EN puts the lanes in service, or sets ERR for a bad control block. -/
  | laneEnable (v : Word)
  /-- R275. An accepted launch packet captures its header and seed top and creates a launch, or is refused. -/
  | launchPacket
  /-- R326. Push a 128-bit seed on the context's seed stack. -/
  | seedPush
  /-- R326. Pop the seed stack. -/
  | seedPop
  /-- R326. Push child(top, i). -/
  | seedFork
  /-- R232. A host prefetch-hint packet acts as PFH. -/
  | prefetchHint
  /-- R289. Replace a launch's remaining budget and re-arm the energy event. -/
  | energyBudget
  /-- R257. Load an eviction schedule table, or refuse it whole. -/
  | evictionScheduleLoad
  /-- R325. Accept a fence packet and reserve its ACCEPT entry, with BAR holding later launches. -/
  | fencePacket
  /-- R325. The fence's ACCEPT entry is posted once earlier launches have finished and their effects are performed. -/
  | fencePost (n : Nat)
  /-- R323. A store to bytes 0-7 of the command port accepts the latched packet when SEQ = NEXT and the log has room, or discards it. -/
  | portAccept
  /-- R320. A write of HOSTCTL.EN = 1 starts the dispatcher launch and opens the port, or sets ERR. -/
  | hostEnable (v : Word)
  /-- R320. A write of HOSTCTL.EN = 0 closes the port and ends every launch. -/
  | hostDisable (v : Word)
  /-- R321. A host CXL.mem access reads or writes DEV through the host window. -/
  | hostWindowAccess (hpa : Nat) (write : Bool) (bytes : List Byte)
  /-- R321. A write of HWLEN = 0 recalls host-held lines and closes the window. -/
  | hostWindowClose
  /-- R319. A host snoop invalidates read copies of a line and fires monitors on it. -/
  | hostSnoop (addr : Nat) (bytes : List Byte)
  /-- R303. A flit arrives and is delivered, discarded as a duplicate, or answered with a negative acknowledgement; a NAK triggers replay. -/
  | flitReceive (link : Nat) (flit : BitVec 2048)
  /-- R304. A lane loses lock or passes its error threshold, and both ends begin a retrain. -/
  | laneFault (link lane : Nat)
  /-- R304. A retrain completes at a narrower width, or the link goes down, and replay resumes from the exchanged ACKSEQ. -/
  | retrainDone (link : Nat) (peerFaults : BitVec 16) (peerAck : BitVec 24)
  /-- R305. A write of LNKCTL.EN brings every held link up. -/
  | linkEnable (v : Word)
  /-- R306. A remote transaction leaves on PRI or ALT, or waits for a retraining link, or ends with status 9. -/
  | routeSend (n : Nat)
  /-- R307. A destination accepts, discards or re-acknowledges a transaction by its pair sequence number, and checks the inbound windows. -/
  | pairReceive (src : BitVec 16) (psn : BitVec 32) (t : Txn)
  /-- R307. A pair acknowledgement completes the acknowledged remote commands. -/
  | pairAck (dst : BitVec 16) (psn : BitVec 32) (status : Byte) (old : Word)
  /-- R307. A 100 us timer expires and the unacknowledged transactions are re-sent, or end with status 12 after 8 re-sends. -/
  | pairResendTimeout (dst : BitVec 16)
  /-- R312. A held flag is performed once every lower PSN of its pair is performed. -/
  | rfenPerform (src : BitVec 16)
  /-- R314. A collective member that fails to join within 1 s ends the command with status 13. -/
  | collPeerTimeout (rank : Nat)
  /-- R329. Device reset starts a boot, entering minimal mode after three failures or when decommissioned. -/
  | deviceReset
  /-- R329. A boot stage completes or fails, advancing STAGE or counting a failure and resetting. -/
  | bootStage (r : BootResult)
  /-- R329. A boot stage passes its 2 s limit and fails with reason WATCHDOG. -/
  | watchdogExpire
  /-- R330. A verified recovery image clears FAILS and resets the device. -/
  | recoveryImage (image : List Byte)
  /-- R332. A write to ATTNONCE3 starts forming an attestation report. -/
  | attRequest (v : Word)
  /-- R332. An attestation report is ready, setting DONE. -/
  | attDone
  /-- R333. A PWRCTL.REQ write requests a power state. -/
  | powerRequest (v : Word)
  /-- R333. A wake event returns the device from P2 to P0. -/
  | p2Wake
  /-- R335. A junction temperature of 105 C caps the device at 1,400 W; 115 C turns it off at once. -/
  | thermalTrip (degC : Nat)
  /-- R334. A signed debug token sets the debug state, or is refused by lifecycle. -/
  | debugToken (dbg : BitVec 2) (token : List Byte)
  /-- R338. A THINJ write arms, disarms or is refused for an injected accumulator upset. -/
  | thinjWrite (v : Word)
  /-- R62. At first load of a portable image, Farord checks, rewrites the scopes, re-signs and caches it. -/
  | farordFinalise (image : List Byte)
  /-- R63. The loader places native kernels on base banks and relocates them, or refuses the image. -/
  | imageLoad (image : List Byte) (place : LoadArgs)
  /-- R63. Unload a kernel, releasing and zeroing its banks, or refuse with code 7. -/
  | kernelUnload (n : Nat)
  /-- R5. A write to a register with no behaviour of its own replaces RW fields and clears W1C bits. -/
  | registerWrite (r : CxlReg) (v : Word)
  /-- R304. A link reset through management restores a narrowed or down link to 16 lanes and brings it up again. -/
  | linkManagementReset (link : Nat)
  /-- R260. On-die error check and scrub runs inside HBM4 refresh, corrects single-bit errors and updates each channel's scrub error count and worst row. -/
  | hbmRefreshScrub (chan errs row : Nat) (bad : List Nat)
  /-- R331. The lifecycle fuses advance the device from manufacturing to owner-unlocked, owner-locked or decommissioned, changing BOOTSTAT.LC and the admitted keys. -/
  | lifecycleFuseAdvance (lc : BitVec 2)
  /-- R323. In minimal mode, firmware on die 0 consumes the next command-log packet in place of the dispatcher and answers it with status 2. -/
  | minimalModePacket
  /-- R329. A request made through the firmware recovery interface ends the boot with reason 8 RECOVERY, counts a failure and resets the device. -/
  | recoveryRequest
  /-- R336. The management controller writes PARTCFG; a valid layout is held for the next device reset, and any other value is refused. -/
  | partcfgWrite (v : Word)
  deriving DecidableEq, Repr

end Sys2Proof
end

