-- ==== Sys2Proof/Decode.lean ====
section
/-! DEFINITION. The 512-bit bundle: its slots' fields, the opcode maps, and the decoder, total on any bytes (R21 to
R39); after it the encoder from the same tables. A bundle that uses one slot under the plain header is read as that
slot's operation; every other bundle as BUNDLE_ISSUE of its bits. -/

namespace Sys2Proof

/-- The fields of an SR slot value (R26, R86). -/
def SR.ofBits (b : BitVec 48) : SR :=
  { g := b.extractLsb' 36 4, rd := b.extractLsb' 30 6, ra := b.extractLsb' 24 6, rb := b.extractLsb' 18 6,
    fn := b.extractLsb' 6 12, z := b.extractLsb' 0 6 }

/-- The SR slot value under an opcode. -/
def SR.toBits (a : SR) (opc : Nat) : BitVec 48 :=
  BitVec.ofNat 8 opc ++ a.g ++ a.rd ++ a.ra ++ a.rb ++ a.fn ++ a.z

/-- The fields of an SI slot value (R26). -/
def SI.ofBits (b : BitVec 48) : SI :=
  { g := b.extractLsb' 36 4, rd := b.extractLsb' 30 6, ra := b.extractLsb' 24 6, imm := b.extractLsb' 0 24 }

/-- The SI slot value under an opcode. -/
def SI.toBits (a : SI) (opc : Nat) : BitVec 48 := BitVec.ofNat 8 opc ++ a.g ++ a.rd ++ a.ra ++ a.imm

/-- The fields of an SL slot value (R26). -/
def SL.ofBits (b : BitVec 48) : SL :=
  { g := b.extractLsb' 36 4, rd := b.extractLsb' 30 6, imm := b.extractLsb' 0 30 }

/-- The SL slot value under an opcode. -/
def SL.toBits (a : SL) (opc : Nat) : BitVec 48 := BitVec.ofNat 8 opc ++ a.g ++ a.rd ++ a.imm

/-- The 17-bit operand field (R33). -/
def Opnd.ofBits (b : BitVec 17) : Opnd :=
  { lvl := b.extractLsb' 15 2, dir := b.extractLsb' 13 2, neg := b.getLsbD 12, zer := b.getLsbD 11,
    idx := b.extractLsb' 0 11 }

/-- The bits of an operand field. -/
def Opnd.toBits (o : Opnd) : BitVec 17 :=
  o.lvl ++ o.dir ++ BitVec.ofBool o.neg ++ BitVec.ofBool o.zer ++ o.idx

/-- The fields of a vector slot value (R27). -/
def VArgs.ofBits (inB : Bool) (b : BitVec 112) : VArgs :=
  { inB := inB, et := b.extractLsb' 102 4, g1 := b.extractLsb' 98 4, g2 := b.extractLsb' 94 4,
    ch := b.extractLsb' 92 2, wbs := b.getLsbD 91, lat := b.getLsbD 90, line := b.extractLsb' 85 5,
    o0 := .ofBits (b.extractLsb' 68 17), o1 := .ofBits (b.extractLsb' 51 17), o2 := .ofBits (b.extractLsb' 34 17),
    o3 := .ofBits (b.extractLsb' 17 17), o4 := .ofBits (b.extractLsb' 0 17) }

/-- The vector slot value under an operation OPC[9:4]. -/
def VArgs.toBits (a : VArgs) (op : Nat) : BitVec 112 :=
  BitVec.ofNat 6 op ++ a.et ++ a.g1 ++ a.g2 ++ a.ch ++ BitVec.ofBool a.wbs ++ BitVec.ofBool a.lat ++ a.line
    ++ a.o0.toBits ++ a.o1.toBits ++ a.o2.toBits ++ a.o3.toBits ++ a.o4.toBits

/-- The fields of the matrix slot value (R29). -/
def MArgs.ofBits (b : BitVec 80) : MArgs :=
  { g := b.extractLsb' 68 4, zd := b.extractLsb' 62 6, oa := .ofBits (b.extractLsb' 45 17),
    ob := .ofBits (b.extractLsb' 28 17), mctl := b.extractLsb' 0 28 }

/-- The matrix slot value under an opcode. -/
def MArgs.toBits (a : MArgs) (opc : Nat) : BitVec 80 :=
  BitVec.ofNat 8 opc ++ a.g ++ a.zd ++ a.oa.toBits ++ a.ob.toBits ++ a.mctl

/-- The fields of a load or store slot value (R30). -/
def LArgs.ofBits (inStore : Bool) (b : BitVec 40) : LArgs :=
  { inStore := inStore, g := b.extractLsb' 29 4, ar := b.extractLsb' 24 5, dat := .ofBits (b.extractLsb' 7 17),
    ch := b.extractLsb' 5 2, mode := b.extractLsb' 0 5 }

/-- The load or store slot value under an opcode. -/
def LArgs.toBits (a : LArgs) (opc : Nat) : BitVec 40 :=
  BitVec.ofNat 7 opc ++ a.g ++ a.ar ++ a.dat.toBits ++ a.ch ++ a.mode

/-- The fields of the copy slot value (R31). -/
def CArgs.ofBits (b : BitVec 40) : CArgs :=
  { g := b.extractLsb' 29 4, sa := b.extractLsb' 24 5, da := b.extractLsb' 19 5, xl := b.extractLsb' 13 6,
    tok := b.extractLsb' 5 8, xfm := b.extractLsb' 0 5 }

/-- The copy slot value under an opcode. -/
def CArgs.toBits (a : CArgs) (opc : Nat) : BitVec 40 :=
  BitVec.ofNat 7 opc ++ a.g ++ a.sa ++ a.da ++ a.xl ++ a.tok ++ a.xfm

/-- The fields of the sync slot value (R32). -/
def YArgs.ofBits (b : BitVec 16) : YArgs :=
  { scope := b.extractLsb' 7 3, smask := b.extractLsb' 3 4, sarg := b.extractLsb' 0 3 }

/-- The sync slot value under an opcode. -/
def YArgs.toBits (a : YArgs) (opc : Nat) : BitVec 16 := BitVec.ofNat 6 opc ++ a.scope ++ a.smask ++ a.sarg

/-- What a slot's bits say: nothing in use (R22), an undefined opcode (reason 1 of R40), opcode zero with another
bit set (reason 2), or an operation. -/
inductive SlotDec where
  | unused
  | undefined
  | dirty
  | op (i : Instr)
  deriving DecidableEq, Repr

/-- The scalar slot map (R36). -/
def decodeScalar (b : BitVec 48) : SlotDec :=
  if b = 0 then .unused else
  match (b.extractLsb' 40 8).toNat with
  | 0 => .dirty
  | 1 => .op (.add (.ofBits b))
  | 2 => .op (.sub (.ofBits b))
  | 3 => .op (.mul (.ofBits b))
  | 4 => .op (.mulh (.ofBits b))
  | 5 => .op (.div (.ofBits b))
  | 6 => .op (.rem (.ofBits b))
  | 7 => .op (.and (.ofBits b))
  | 8 => .op (.or (.ofBits b))
  | 9 => .op (.xor (.ofBits b))
  | 10 => .op (.shl (.ofBits b))
  | 11 => .op (.shr (.ofBits b))
  | 12 => .op (.sra (.ofBits b))
  | 13 => .op (.min (.ofBits b))
  | 14 => .op (.max (.ofBits b))
  | 15 => .op (.clz (.ofBits b))
  | 16 => .op (.addi (.ofBits b))
  | 17 => .op (.andi (.ofBits b))
  | 18 => .op (.ori (.ofBits b))
  | 19 => .op (.xori (.ofBits b))
  | 20 => .op (.shli (.ofBits b))
  | 21 => .op (.shri (.ofBits b))
  | 22 => .op (.srai (.ofBits b))
  | 23 => .op (.ldi (.ofBits b))
  | 24 => .op (.ldih (.ofBits b))
  | 25 => .op (.sel (.ofBits b))
  | 26 => .op (.cmp (.ofBits b))
  | 27 => .op (.cmpi (.ofBits b))
  | 28 => .op (.pand (.ofBits b))
  | 29 => .op (.por (.ofBits b))
  | 30 => .op (.pxor (.ofBits b))
  | 31 => .op (.pnot (.ofBits b))
  | 32 => .op (.br (.ofBits b))
  | 33 => .op (.brc (.ofBits b))
  | 34 => .op (.call (.ofBits b))
  | 35 => .op (.ret (.ofBits b))
  | 36 => .op (.loop (.ofBits b))
  | 37 => .op (.crr (.ofBits b))
  | 38 => .op (.crw (.ofBits b))
  | 39 => .op (.trap (.ofBits b))
  | 40 => .op (.eret (.ofBits b))
  | 41 => .op (.popc (.ofBits b))
  | 48 => .op (.spawn (.ofBits b))
  | 49 => .op (.susp (.ofBits b))
  | 50 => .op (.exit (.ofBits b))
  | 51 => .op (.sdrd (.ofBits b))
  | 52 => .op (.sdfk (.ofBits b))
  | 53 => .op (.widr (.ofBits b))
  | 42 => if (SR.ofBits b).fn.getLsbD 0 then .op (.movpToP (.ofBits b)) else .op (.movpToX (.ofBits b))
  | _ => .undefined

/-- The vector map (R37); the forms of one slot only are undefined in the other. -/
def decodeVector (inB : Bool) (b : BitVec 112) : SlotDec :=
  if b = 0 then .unused else
  let v := VArgs.ofBits inB b
  match (b.extractLsb' 106 6).toNat with
  | 0 => .dirty
  | 1 => .op (.vadd v)
  | 2 => .op (.vsub v)
  | 3 => .op (.vmul v)
  | 4 => .op (.vfma v)
  | 5 => .op (.vfms v)
  | 6 => .op (.vmin v)
  | 7 => .op (.vmax v)
  | 8 => .op (.vabs v)
  | 9 => .op (.vand v)
  | 10 => .op (.vor v)
  | 11 => .op (.vxor v)
  | 12 => .op (.vshl v)
  | 13 => .op (.vshr v)
  | 14 => .op (.vcmp v)
  | 15 => .op (.vsel v)
  | 16 => .op (.vmov v)
  | 17 => .op (.vcvt v)
  | 18 => .op (.qnt v)
  | 19 => .op (.dqnt v)
  | 20 => .op (.vtrn v)
  | 21 => if v.o3.idx.getLsbD 0 then .op (.vpermCol v) else .op (.vpermRow v)
  | 22 => .op (.vbcast v)
  | 23 => .op (.pop v)
  | 24 => .op (.vrsum v)
  | 25 => .op (.vcsum v)
  | 26 => .op (.vrmax v)
  | 27 => .op (.vcmax v)
  | 28 => .op (.vrmin v)
  | 29 => .op (.vcmin v)
  | 30 => match (v.o3.idx.extractLsb' 0 3).toNat with
    | 0 => .op (.vmskNz v)
    | 1 => .op (.vmskLd v)
    | 2 => .op (.vmskSt v)
    | 3 => .op (.vmskNot v)
    | 4 => .op (.vmskAnd v)
    | 5 => .op (.vmskOr v)
    | 6 => .op (.vmskAndn v)
    | _ => .op (.vmskAll v)
  | 31 => .op (.vshp v)
  | 32 => .op (.vemax v)
  | 33 => .op (.vexps v)
  | 34 => .op (.vresc v)
  | 35 => .op (.vrms v)
  | 36 => if inB then .op (.sfev v) else .undefined
  | 37 => if inB then .op (.sfld v) else .undefined
  | 40 => if inB then .undefined else .op (.rnrw v)
  | 41 => if inB then .undefined else .op (.unrw v)
  | 42 => if inB then .undefined else .op (.rmulq v)
  | 43 => if inB then .undefined else .op (.umulq v)
  | 44 => if inB then .undefined else .op (.raddc v)
  | 45 => if inB then .undefined else .op (.uaddc v)
  | 46 => if inB then .undefined else .op (.rlrlu v)
  | 47 => if inB then .undefined else .op (.ulrlu v)
  | 48 => if inB then .undefined else .op (.rscl v)
  | 49 => if inB then .undefined else .op (.uscl v)
  | 50 => if inB then .undefined else .op (.rskmk v)
  | 51 => if inB then .undefined else .op (.rskck v)
  | 52 => if inB then .undefined else .op (.rsksp v)
  | 53 => if inB then .undefined else .op (.rskfl v)
  | _ => .undefined

/-- The matrix slot map (R38); MLAT's forms are told apart by OP (R182, R184). -/
def decodeMatrix (b : BitVec 80) : SlotDec :=
  if b = 0 then .unused else
  let a := MArgs.ofBits b
  match (b.extractLsb' 72 8).toNat with
  | 0 => .dirty
  | 1 => .op (.mmaBf16 a)
  | 2 => .op (.mmaFp16 a)
  | 3 => .op (.mmaE4m3 a)
  | 4 => .op (.mmaE5m2 a)
  | 5 => .op (.mmaE2m3 a)
  | 6 => .op (.mmaE3m2 a)
  | 7 => .op (.mmaE2m1 a)
  | 8 => .op (.mmaQ4x a)
  | 16 => .op (.mmag a)
  | 17 => .op (.sacc a)
  | 18 => match (a.mctl.extractLsb' 0 2).toNat with
    | 1 => .op (.mlatAbsorb a)
    | 2 => .op (.mlatLoad a)
    | _ => .op (.mlatExpand a)
  | 19 => .op (.mdrn a)
  | 20 => .op (.mzero a)
  | 21 => .op (.mwld a)
  | 22 => .op (.mcfg a)
  | 23 => .op (.mchk a)
  | 24 => .op (.mrecomp a)
  | _ => .undefined

/-- The address-unit row, the same in the load and the store slot (R39, R103). -/
def decodeAddressUnit (opc : Nat) (a : LArgs) : SlotDec :=
  match opc with
  | 0 => .dirty
  | 32 => .op (.aset a)
  | 33 => .op (.ainc a)
  | 34 => .op (.amod a)
  | 35 => .op (.abrev a)
  | 36 => .op (.astp a)
  | 37 => .op (.alen a)
  | 38 => .op (.aget a)
  | 39 => .op (.aclr a)
  | _ => .undefined

/-- The load map (R39). -/
def decodeLoad (b : BitVec 40) : SlotDec :=
  if b = 0 then .unused else
  let a := LArgs.ofBits false b
  match (b.extractLsb' 33 7).toNat with
  | 1 => .op (.ld a)
  | 2 => .op (.tld a)
  | 3 => .op (.gld a)
  | 4 => .op (.tagl a)
  | 16 => .op (.aadd a)
  | 17 => .op (.acas a)
  | 18 => .op (.axch a)
  | 19 => .op (.amax a)
  | 20 => .op (.amin a)
  | n => decodeAddressUnit n a

/-- The store map (R39). -/
def decodeStore (b : BitVec 40) : SlotDec :=
  if b = 0 then .unused else
  let a := LArgs.ofBits true b
  match (b.extractLsb' 33 7).toNat with
  | 1 => .op (.st a)
  | 2 => .op (.tst a)
  | 3 => .op (.tsts a)
  | 4 => .op (.tags a)
  | 5 => if a.mode.getLsbD 0 then .op (.tagiA a) else .op (.tagi a)
  | n => decodeAddressUnit n a

/-- The copy map (R39). A CPYF carries its bundle's matrix slot `mtx` (R231). -/
def decodeCopy (mtx : BitVec 80) (b : BitVec 40) : SlotDec :=
  if b = 0 then .unused else
  let a := CArgs.ofBits b
  match (b.extractLsb' 33 7).toNat with
  | 0 => .dirty
  | 1 => .op (.cpy a)
  | 2 => .op (.cpyf a mtx)
  | 3 => .op (.pfh a)
  | 4 => .op (.rcinv a)
  | 16 => .op (.rsto a)
  | 17 => .op (.rfaa a)
  | 18 => .op (.rfen a)
  | 19 => match (a.xfm.extractLsb' 0 2).toNat with
    | 0 => .op (.collAr a)
    | 1 => .op (.collAg a)
    | 2 => .op (.collRs a)
    | _ => .op (.collA2a a)
  | 32 => .op (.glog a)
  | 33 => .op (.gmrg a)
  | _ => .undefined

/-- The sync map (R39). -/
def decodeSync (b : BitVec 16) : SlotDec :=
  if b = 0 then .unused else
  let a := YArgs.ofBits b
  match (b.extractLsb' 10 6).toNat with
  | 0 => .dirty
  | 1 => .op (.mark a)
  | 2 => .op (.fence a)
  | 3 => .op (.acq a)
  | 4 => .op (.rel a)
  | 5 => .op (.sstep a)
  | 6 => .op (.waita a)
  | 7 => .op (.waitk a)
  | _ => .undefined

/-- The bundle header (R23). -/
structure Hdr where
  y : Bool
  run : BitVec 12
  sph : BitVec 2
  rz : BitVec 9
  deriving DecidableEq, Repr

/-- The header of bundle bits [511:488]. -/
def Hdr.ofBits (b : BitVec 24) : Hdr :=
  { y := b.getLsbD 23, run := b.extractLsb' 11 12, sph := b.extractLsb' 9 2, rz := b.extractLsb' 0 9 }

/-- The bits of a header. -/
def Hdr.toBits (h : Hdr) : BitVec 24 := BitVec.ofBool h.y ++ h.run ++ h.sph ++ h.rz

/-- A decoded bundle: the header and its eight slots (R21). -/
structure Bundle where
  hdr : Hdr
  scalar : SlotDec
  vectorA : SlotDec
  vectorB : SlotDec
  matrix : SlotDec
  load : SlotDec
  store : SlotDec
  copy : SlotDec
  sync : SlotDec
  deriving DecidableEq, Repr

/-- The parts of a bundle by their positions (R21). -/
def decodeBundle (w : BitVec 512) : Bundle :=
  { hdr := .ofBits (w.extractLsb' 488 24),
    scalar := decodeScalar (w.extractLsb' 440 48),
    vectorA := decodeVector false (w.extractLsb' 328 112),
    vectorB := decodeVector true (w.extractLsb' 216 112),
    matrix := decodeMatrix (w.extractLsb' 136 80),
    load := decodeLoad (w.extractLsb' 96 40),
    store := decodeStore (w.extractLsb' 56 40),
    copy := decodeCopy (w.extractLsb' 136 80) (w.extractLsb' 16 40),
    sync := decodeSync (w.extractLsb' 0 16) }

/-- The slots of a bundle under their numbers of R40. -/
def Bundle.slots (b : Bundle) : List (Nat × SlotDec) :=
  [(1, b.scalar), (2, b.vectorA), (3, b.vectorB), (4, b.matrix), (5, b.load), (6, b.store), (7, b.copy), (8, b.sync)]

/-- The slots in use. -/
def Bundle.used (b : Bundle) : List (Nat × SlotDec) := b.slots.filter (fun p => decide (p.2 ≠ .unused))

/-- The forms that stand only in a yield bundle (R277, R288). -/
def needsYield : Instr → Bool
  | .susp _ => true
  | .exit _ => true
  | .sstep _ => true
  | _ => false

/-- The header under which a bundle of one operation is read as that operation: no stated run, no hint, and Y where
the operation needs a yield bundle. -/
def plainHdr (i : Instr) : Hdr := { y := needsYield i, run := 0, sph := 0, rz := 0 }

/-- A bundle as an instruction of the table. -/
def decodeWord (w : BitVec 512) : Instr :=
  let b := decodeBundle w
  match b.used with
  | [(_, .op i)] => if b.hdr = plainHdr i then i else .bundleIssue w
  | [(4, .op _), (7, .op (.cpyf a m))] =>
    if b.hdr = plainHdr (.cpyf a m) then .cpyf a m else .bundleIssue w
  | _ => .bundleIssue w

/-- Why bytes are no bundle. -/
inductive DecodeError where
  /-- Fewer than the 64 bytes of a bundle (R21). -/
  | tooFewBytes (n : Nat)
  deriving DecidableEq, Repr

/-- Little-endian value of bytes (R3). -/
def leNat : List Byte → Nat
  | [] => 0
  | b :: bs => b.toNat + 256 * leNat bs

/-- The instruction at the head of a byte sequence, and the bytes after it. -/
def decode (bs : List Byte) : Except DecodeError (Instr × List Byte) :=
  if bs.length < 64 then .error (.tooFewBytes bs.length)
  else .ok (decodeWord (BitVec.ofNat 512 (leNat (bs.take 64))), bs.drop 64)

/-- Little-endian bytes of a value (R3). -/
def leBytes : Nat → Nat → List Byte
  | 0, _ => []
  | n + 1, v => BitVec.ofNat 8 v :: leBytes n (v / 256)

/-- The instruction whose bits are `w`, bit 0 being bit 0 of byte 0; bits above `nbits` are zero. -/
def decodeTableWord (nbits w : Nat) : Option Instr :=
  match decode (leBytes 64 (w % 2 ^ min nbits 512)) with
  | .ok (i, _) => some i
  | .error _ => none

/-- The scalar slot of an operation (R26, R36). -/
def encodeScalar : Instr → Option (BitVec 48)
  | .add a => some (a.toBits 1)
  | .sub a => some (a.toBits 2)
  | .mul a => some (a.toBits 3)
  | .mulh a => some (a.toBits 4)
  | .div a => some (a.toBits 5)
  | .rem a => some (a.toBits 6)
  | .and a => some (a.toBits 7)
  | .or a => some (a.toBits 8)
  | .xor a => some (a.toBits 9)
  | .shl a => some (a.toBits 10)
  | .shr a => some (a.toBits 11)
  | .sra a => some (a.toBits 12)
  | .min a => some (a.toBits 13)
  | .max a => some (a.toBits 14)
  | .clz a => some (a.toBits 15)
  | .addi a => some (a.toBits 16)
  | .andi a => some (a.toBits 17)
  | .ori a => some (a.toBits 18)
  | .xori a => some (a.toBits 19)
  | .shli a => some (a.toBits 20)
  | .shri a => some (a.toBits 21)
  | .srai a => some (a.toBits 22)
  | .ldi a => some (a.toBits 23)
  | .ldih a => some (a.toBits 24)
  | .sel a => some (a.toBits 25)
  | .cmp a => some (a.toBits 26)
  | .cmpi a => some (a.toBits 27)
  | .pand a => some (a.toBits 28)
  | .por a => some (a.toBits 29)
  | .pxor a => some (a.toBits 30)
  | .pnot a => some (a.toBits 31)
  | .br a => some (a.toBits 32)
  | .brc a => some (a.toBits 33)
  | .call a => some (a.toBits 34)
  | .ret a => some (a.toBits 35)
  | .loop a => some (a.toBits 36)
  | .crr a => some (a.toBits 37)
  | .crw a => some (a.toBits 38)
  | .trap a => some (a.toBits 39)
  | .eret a => some (a.toBits 40)
  | .popc a => some (a.toBits 41)
  | .spawn a => some (a.toBits 48)
  | .susp a => some (a.toBits 49)
  | .exit a => some (a.toBits 50)
  | .sdrd a => some (a.toBits 51)
  | .sdfk a => some (a.toBits 52)
  | .widr a => some (a.toBits 53)
  | .movpToX a => some (a.toBits 42)
  | .movpToP a => some (a.toBits 42)
  | _ => none

/-- The vector slot of an operation (R27, R37). -/
def encodeVector : Instr → Option (BitVec 112)
  | .vadd a => some (a.toBits 1)
  | .vsub a => some (a.toBits 2)
  | .vmul a => some (a.toBits 3)
  | .vfma a => some (a.toBits 4)
  | .vfms a => some (a.toBits 5)
  | .vmin a => some (a.toBits 6)
  | .vmax a => some (a.toBits 7)
  | .vabs a => some (a.toBits 8)
  | .vand a => some (a.toBits 9)
  | .vor a => some (a.toBits 10)
  | .vxor a => some (a.toBits 11)
  | .vshl a => some (a.toBits 12)
  | .vshr a => some (a.toBits 13)
  | .vcmp a => some (a.toBits 14)
  | .vsel a => some (a.toBits 15)
  | .vmov a => some (a.toBits 16)
  | .vcvt a => some (a.toBits 17)
  | .qnt a => some (a.toBits 18)
  | .dqnt a => some (a.toBits 19)
  | .vtrn a => some (a.toBits 20)
  | .vpermRow a => some (a.toBits 21)
  | .vpermCol a => some (a.toBits 21)
  | .vbcast a => some (a.toBits 22)
  | .pop a => some (a.toBits 23)
  | .vrsum a => some (a.toBits 24)
  | .vcsum a => some (a.toBits 25)
  | .vrmax a => some (a.toBits 26)
  | .vcmax a => some (a.toBits 27)
  | .vrmin a => some (a.toBits 28)
  | .vcmin a => some (a.toBits 29)
  | .vmskNz a => some (a.toBits 30)
  | .vmskLd a => some (a.toBits 30)
  | .vmskSt a => some (a.toBits 30)
  | .vmskNot a => some (a.toBits 30)
  | .vmskAnd a => some (a.toBits 30)
  | .vmskOr a => some (a.toBits 30)
  | .vmskAndn a => some (a.toBits 30)
  | .vmskAll a => some (a.toBits 30)
  | .vshp a => some (a.toBits 31)
  | .vemax a => some (a.toBits 32)
  | .vexps a => some (a.toBits 33)
  | .vresc a => some (a.toBits 34)
  | .vrms a => some (a.toBits 35)
  | .sfev a => some (a.toBits 36)
  | .sfld a => some (a.toBits 37)
  | .rnrw a => some (a.toBits 40)
  | .unrw a => some (a.toBits 41)
  | .rmulq a => some (a.toBits 42)
  | .umulq a => some (a.toBits 43)
  | .raddc a => some (a.toBits 44)
  | .uaddc a => some (a.toBits 45)
  | .rlrlu a => some (a.toBits 46)
  | .ulrlu a => some (a.toBits 47)
  | .rscl a => some (a.toBits 48)
  | .uscl a => some (a.toBits 49)
  | .rskmk a => some (a.toBits 50)
  | .rskck a => some (a.toBits 51)
  | .rsksp a => some (a.toBits 52)
  | .rskfl a => some (a.toBits 53)
  | _ => none

/-- The matrix slot of an operation (R29, R38). -/
def encodeMatrix : Instr → Option (BitVec 80)
  | .mmaBf16 a => some (a.toBits 1)
  | .mmaFp16 a => some (a.toBits 2)
  | .mmaE4m3 a => some (a.toBits 3)
  | .mmaE5m2 a => some (a.toBits 4)
  | .mmaE2m3 a => some (a.toBits 5)
  | .mmaE3m2 a => some (a.toBits 6)
  | .mmaE2m1 a => some (a.toBits 7)
  | .mmaQ4x a => some (a.toBits 8)
  | .mmag a => some (a.toBits 16)
  | .sacc a => some (a.toBits 17)
  | .mlatExpand a => some (a.toBits 18)
  | .mlatAbsorb a => some (a.toBits 18)
  | .mlatLoad a => some (a.toBits 18)
  | .mdrn a => some (a.toBits 19)
  | .mzero a => some (a.toBits 20)
  | .mwld a => some (a.toBits 21)
  | .mcfg a => some (a.toBits 22)
  | .mchk a => some (a.toBits 23)
  | .mrecomp a => some (a.toBits 24)
  | _ => none

/-- The load or store slot of an operation (R30, R39). -/
def encodeLoadStore : Instr → Option (BitVec 40)
  | .ld a => some (a.toBits 1)
  | .tld a => some (a.toBits 2)
  | .gld a => some (a.toBits 3)
  | .tagl a => some (a.toBits 4)
  | .aadd a => some (a.toBits 16)
  | .acas a => some (a.toBits 17)
  | .axch a => some (a.toBits 18)
  | .amax a => some (a.toBits 19)
  | .amin a => some (a.toBits 20)
  | .st a => some (a.toBits 1)
  | .tst a => some (a.toBits 2)
  | .tsts a => some (a.toBits 3)
  | .tags a => some (a.toBits 4)
  | .tagi a => some (a.toBits 5)
  | .tagiA a => some (a.toBits 5)
  | .aset a => some (a.toBits 32)
  | .ainc a => some (a.toBits 33)
  | .amod a => some (a.toBits 34)
  | .abrev a => some (a.toBits 35)
  | .astp a => some (a.toBits 36)
  | .alen a => some (a.toBits 37)
  | .aget a => some (a.toBits 38)
  | .aclr a => some (a.toBits 39)
  | _ => none

/-- The copy slot of an operation (R31, R39). -/
def encodeCopy : Instr → Option (BitVec 40)
  | .cpy a => some (a.toBits 1)
  | .pfh a => some (a.toBits 3)
  | .rcinv a => some (a.toBits 4)
  | .rsto a => some (a.toBits 16)
  | .rfaa a => some (a.toBits 17)
  | .rfen a => some (a.toBits 18)
  | .collAr a => some (a.toBits 19)
  | .collAg a => some (a.toBits 19)
  | .collRs a => some (a.toBits 19)
  | .collA2a a => some (a.toBits 19)
  | .glog a => some (a.toBits 32)
  | .gmrg a => some (a.toBits 33)
  | .cpyf a _ => some (a.toBits 2)
  | _ => none

/-- The sync slot of an operation (R32, R39). -/
def encodeSync : Instr → Option (BitVec 16)
  | .mark a => some (a.toBits 1)
  | .fence a => some (a.toBits 2)
  | .acq a => some (a.toBits 3)
  | .rel a => some (a.toBits 4)
  | .sstep a => some (a.toBits 5)
  | .waita a => some (a.toBits 6)
  | .waitk a => some (a.toBits 7)
  | _ => none

/-- The bits of slots set side by side (R21). -/
def bundleBits (h : Hdr) (sc : BitVec 48) (va vb : BitVec 112) (m : BitVec 80) (l s c : BitVec 40) (y : BitVec 16) :
    BitVec 512 :=
  h.toBits ++ sc ++ va ++ vb ++ m ++ l ++ s ++ c ++ y

/-- Is this vector operation in slot B. -/
def inVectorB : Instr → Bool
  | i => match encodeVector i with
    | some b => match decodeVector true b with
      | .op j => decide (j = i)
      | _ => false
    | none => false

/-- The store slot holds the operation: a store form, or an address-unit form marked so. -/
def inStoreSlot (i : Instr) : Bool :=
  match i with
  | .aset a | .ainc a | .amod a | .abrev a | .astp a | .alen a | .aget a | .aclr a => a.inStore
  | .st _ | .tst _ | .tsts _ | .tags _ | .tagi _ | .tagiA _ => true
  | _ => false

/-- The matrix slot that goes with an operation: its own, or a CPYF's follow-on. -/
def matrixPart (i : Instr) : BitVec 80 :=
  match i with
  | .cpyf _ m => m
  | _ => (encodeMatrix i).getD 0

/-- The bundle that holds one operation, in its slot, under the plain header. BUNDLE_ISSUE is its own bits; an event
has no words. -/
def encode (i : Instr) : BitVec 512 :=
  match i with
  | .bundleIssue w => w
  | _ =>
    let v := (encodeVector i).getD 0
    let l := (encodeLoadStore i).getD 0
    let b := inVectorB i
    let s := inStoreSlot i
    bundleBits (plainHdr i) ((encodeScalar i).getD 0) (if b then 0 else v) (if b then v else 0) (matrixPart i)
      (if s then 0 else l) (if s then l else 0) ((encodeCopy i).getD 0) ((encodeSync i).getD 0)

end Sys2Proof
end

