-- ==== Sys2Proof/Config.lean ====
section
/-! DEFINITION. What the spec leaves open: opaque constants, of which nothing in Lean can prove a value. A free value
is applied to the model's own counter (`State.tick`) or to the operands it depends on. -/

namespace Sys2Proof.Config

/-- Cycles beyond a bundle's issue cycles, and of other steps (log 4). -/
opaque stallCycles : Nat → Nat

/-- Which of several agents moves next, and which of several allowed choices an engine takes (log 1). -/
opaque pick : Nat → Nat

/-- The energy estimate of a run, in mJ and as a remainder (R289; log 5). -/
opaque energyOf : Nat → Nat

/-- The set of a slice that a line occupies (R254; log 6). -/
opaque l2Set : Nat → Nat

/-- Is a read copy that a store of this device meets dropped, beside being updated (R238; log 18); by free-value number and
copy. -/
opaque dropsCopy : Nat → Nat → Bool

/-- Which translation leaves a full translation buffer (R264; log 6). -/
opaque tbVictim : Nat → Nat

/-- Whether a signature over bytes verifies under an image key the lifecycle admits, which the device firmware key is not
(R59, R332; log 7). -/
opaque signed : BitVec 2 → List Byte → Bool

/-- The version an image carries, against the fused rollback counter (R329; log 7). -/
opaque versionOk : List Byte → Bool

/-- The bytes of an attestation report, from the fields that it signs and the model's counter; the device identity and its key
are its own (R332; log 7). -/
opaque reportByte : List Byte → Nat → Nat → Byte

/-- SHA3-512 (R332; log 7). -/
opaque sha3 : List Byte → BitVec 512

/-- The digest of the stage that a boot measures next (R332; log 7). -/
opaque stageDigest : Nat → List Byte

/-- The bytes of a device's pair state in the area at PAIRB: of the next PSN to send and the next expected (R307; log 27). -/
opaque pairByte : Nat → Nat → Nat → Byte

/-- Does a sent sector of an RSTO land before it is acknowledged, by free-value number and PSN (R310; log 27). -/
opaque landsEarly : Nat → Nat → Bool

/-- Which of the sectors that may land next does, by free-value number and count left (R310; log 27). -/
opaque landPick : Nat → Nat → Nat

/-- The old word of an RFAA whose target the stack cannot deliver (R260, R311; log 27). -/
opaque lostWord : Nat → BitVec 64

/-- The DEV address of a logical core's scratchpad image in the partition's pinned area, its tag-table image following (R18; log
32). -/
opaque pinnedAt : Nat → Nat

/-- FCST as firmware writes it while the arbiter does not run, by free-value number and core (R331; log 36). -/
opaque firmwareFcst : Nat → Nat → Nat

/-- The lines of a core that the array self-test finds failing, rows and columns, by free-value number (R329; log 36). -/
opaque failingRows : Nat → Nat → List Nat
opaque failingCols : Nat → Nat → List Nat

/-- The framing of a transaction inside a flit's payload (R302; log 12). -/
opaque payloadByte : Nat → Nat → Byte

/-- The 64-byte header of a Gutter record, from its key, work identifier and core (R234; log 20). -/
opaque logHeader : Nat → Word → Nat → BitVec 512

/-- The encoding of parts of a saved context that is not architectural (R297; log 9). -/
opaque savedByte : Nat → Nat → Byte

/-- A signature's bytes, which the device firmware key of a lifecycle state makes (R59, R62; log 7). -/
opaque signByte : BitVec 2 → List Byte → Nat → Byte

/-- The KEYID of the device firmware key of a lifecycle state (R59; log 7). -/
opaque firmwareKey : BitVec 2 → BitVec 128

/-- The links that train at a boot, one bit each (R304, R329; log 13). -/
opaque trains : Nat → Nat

/-- A kernel of a native image, as its sections hold it: offset in the code section, bundles, bank count, SHAPE, plan
buffers as (relative bank, offset, size, first, last), SFU tables by slot, and exchange entries as (core, from, to,
bytes) with scratchpad addresses relative to the kernel's base bank (R54, R57; log 11). -/
structure ImageKernel where
  offset : Nat
  bundles : Nat
  banks : Nat
  shape : Word
  plan : List (Nat × Nat × Nat × Nat × Nat)
  sfu : List (Nat × List Byte)
  exch : List (Nat × Nat × Nat × Nat)
  deriving DecidableEq, Repr

/-- The kernels of a native image, in order; the encoding of their section records is not given (R57; log 11). -/
opaque imageKernels : List Byte → List ImageKernel

/-- A launch template of an image (R54, R337): its kernel's number, CLASS, FLAGS, LW by level, AFFM and ENERGY. -/
structure ImageLaunch where
  kernel : Nat
  cls : Nat
  flags : Nat
  lw : List Nat
  affm : Nat
  energy : Nat
  deriving DecidableEq, Repr

/-- The launch templates of an image; the encoding of their section is not given (R56; log 11). -/
opaque imageLaunches : List Byte → List ImageLaunch

/-- The numbers of the symbols that an image's symbols section names (R56, R337; log 11). -/
opaque symbolNames : List Byte → List Nat

/-- The value of a symbol of an image: a scratchpad address relative to the base bank, or an offset in the data section
(R58; log 11). -/
opaque symbol : List Byte → Nat → Nat

/-- The observer table entry of an index in the kernel that holds a bundle of an image, by the bundle's byte offset; none
beyond the table (R60; log 11). -/
opaque observer : List Byte → Nat → Nat → Option Byte

end Sys2Proof.Config
end

