-- ==== Sys2Proof/Machine/Num.lean ====
section
/-! DEFINITION. Number formats, exact values, the one rounding procedure and the counter hash (R64 to R72, R77, R79
to R82). -/

namespace Sys2Proof.Machine

/-- The element types of R28. -/
inductive Fmt where
  | fp32 | bf16 | fp16 | e4m3 | e5m2 | e2m3 | e3m2 | e2m1 | int8 | int32 | q16 | q4x
  deriving DecidableEq, Repr

/-- The element type of an ET code; the codes above 0xB are reserved (R28). -/
def Fmt.ofEt (et : BitVec 4) : Option Fmt :=
  match et.toNat with
  | 0 => some .fp32
  | 1 => some .bf16
  | 2 => some .fp16
  | 3 => some .e4m3
  | 4 => some .e5m2
  | 5 => some .e2m3
  | 6 => some .e3m2
  | 7 => some .e2m1
  | 8 => some .int8
  | 9 => some .int32
  | 10 => some .q16
  | 11 => some .q4x
  | _ => none

/-- Storage bits of an element in the tile file and scratchpad: a six-bit element takes a byte there (R82). -/
def Fmt.bits : Fmt → Nat
  | .fp32 | .int32 => 32
  | .bf16 | .fp16 | .q16 => 16
  | .e4m3 | .e5m2 | .e2m3 | .e3m2 | .int8 => 8
  | .e2m1 | .q4x => 4

/-- The code as a write of an element stores it: a six-bit element's byte has bits [7:6] zero (R82). -/
def Fmt.stored (f : Fmt) (code : Nat) : Nat :=
  match f with
  | .e2m3 | .e3m2 => code % 64
  | _ => code

/-- The exponent and mantissa widths and bias of a floating-point format (R65). -/
structure FloatParams where
  w : Nat
  p : Nat
  bias : Nat
  deriving DecidableEq, Repr

/-- The floating-point formats (R65). -/
def Fmt.float? : Fmt → Option FloatParams
  | .fp32 => some ⟨8, 23, 127⟩
  | .bf16 => some ⟨8, 7, 127⟩
  | .fp16 => some ⟨5, 10, 15⟩
  | .e4m3 => some ⟨4, 3, 7⟩
  | .e5m2 => some ⟨5, 2, 15⟩
  | .e2m3 => some ⟨2, 3, 1⟩
  | .e3m2 => some ⟨3, 2, 3⟩
  | .e2m1 => some ⟨2, 1, 1⟩
  | _ => none

/-- Formats with infinities (R65). -/
def Fmt.hasInf : Fmt → Bool
  | .fp32 | .bf16 | .fp16 | .e5m2 => true
  | _ => false

/-- Formats with NaN, and the canonical one (R66). -/
def Fmt.nan? : Fmt → Option Nat
  | .fp32 => some 0x7FC00000
  | .bf16 => some 0x7FC0
  | .fp16 => some 0x7E00
  | .e4m3 => some 0x7F
  | .e5m2 => some 0x7E
  | _ => none

/-- An exact value: NaN, an infinity, or `m * 2 ^ e` with a sign for zero (R66, R69). -/
inductive Val where
  | nan
  | inf (neg : Bool)
  | fin (neg : Bool) (m : Int) (e : Int)
  deriving DecidableEq, Repr

namespace Val

/-- A finite value that is not a negative zero. -/
def ofDy (m e : Int) : Val := .fin (decide (m < 0)) m e

/-- An integer. -/
def ofInt (n : Int) : Val := ofDy n 0

/-- A zero of a sign. -/
def zero (neg : Bool) : Val := .fin neg 0 0

/-- The sign of a value; NaN has none. -/
def sign : Val → Bool
  | .nan => false
  | .inf s => s
  | .fin s m _ => if m = 0 then s else decide (m < 0)

/-- Is the value NaN. -/
def isNan : Val → Bool
  | .nan => true
  | _ => false

/-- Is the value finite. -/
def isFin : Val → Bool
  | .fin _ _ _ => true
  | _ => false

/-- Is the value a zero. -/
def isZero : Val → Bool
  | .fin _ m _ => decide (m = 0)
  | _ => false

/-- Negation inverts the sign of a zero also (R66). -/
def neg : Val → Val
  | .nan => .nan
  | .inf s => .inf (!s)
  | .fin s m e => .fin (!s) (-m) e

/-- The magnitude. -/
def abs : Val → Val
  | .nan => .nan
  | .inf _ => .inf false
  | .fin _ m e => .fin false m.natAbs e

/-- Exact product; Inf times 0 is NaN (R66). -/
def mul : Val → Val → Val
  | .nan, _ => .nan
  | _, .nan => .nan
  | .inf a, .inf b => .inf (a != b)
  | .inf a, .fin s m e => if m = 0 then .nan else .inf (a != (Val.fin s m e).sign)
  | .fin s m e, .inf b => if m = 0 then .nan else .inf ((Val.fin s m e).sign != b)
  | .fin s m e, .fin s' m' e' => .fin ((Val.fin s m e).sign != (Val.fin s' m' e').sign) (m * m') (e + e')

/-- Exact sum, with the signs of zero of R66. -/
def add : Val → Val → Val
  | .nan, _ => .nan
  | _, .nan => .nan
  | .inf a, .inf b => if a = b then .inf a else .nan
  | .inf a, .fin _ _ _ => .inf a
  | .fin _ _ _, .inf b => .inf b
  | .fin s m e, .fin s' m' e' =>
    if m = 0 ∧ m' = 0 then .zero (s && s')
    else if m = 0 then .fin s' m' e'
    else if m' = 0 then .fin s m e
    else
      let k := min e e'
      ofDy (m * 2 ^ (e - k).toNat + m' * 2 ^ (e' - k).toNat) k

/-- Exact difference. -/
def sub (a b : Val) : Val := a.add b.neg

/-- Multiplication by a power of two. -/
def scale (v : Val) (k : Int) : Val :=
  match v with
  | .nan => .nan
  | .inf s => .inf s
  | .fin s m e => .fin s m (e + k)

/-- Exact sum of terms; the sum of none is +0. -/
def sum : List Val → Val
  | [] => .zero false
  | v :: vs => vs.foldl add v

end Val

/-- Order of `m * 2 ^ e` and `m' * 2 ^ e'`. -/
def dyLt (m e m' e' : Int) : Bool :=
  let k := min e e'
  decide (m * 2 ^ (e - k).toNat < m' * 2 ^ (e' - k).toNat)

namespace Val

/-- Strict order of two values that are not NaN; zeros are equal. -/
def lt : Val → Val → Bool
  | .inf true, .inf true => false
  | .inf true, .fin _ _ _ => true
  | .inf true, .inf false => true
  | .fin _ _ _, .inf false => true
  | .fin _ m e, .fin _ m' e' => dyLt m e m' e'
  | _, _ => false

/-- Equality of two values as numbers; NaN equals nothing. -/
def eqv (a b : Val) : Bool := !a.isNan && !b.isNan && !a.lt b && !b.lt a

end Val

/-- The floor of the base-two logarithm of a non-zero `m * 2 ^ e`. -/
def dyLog2 (m e : Int) : Int := (Nat.log2 m.natAbs : Int) + e

/-- A value read from a code of a format; `qe` is the tile scale of Q16 (R64 to R68). A Q4X nibble reads as its
integer: markers are read by the block decoder (R70). -/
def Fmt.value (f : Fmt) (qe : Int) (code : Nat) : Val :=
  match f with
  | .int8 => .ofInt (BitVec.ofNat 8 code).toInt
  | .int32 => .ofInt (BitVec.ofNat 32 code).toInt
  | .q16 => .ofDy (BitVec.ofNat 16 code).toInt qe
  | .q4x => .ofInt (BitVec.ofNat 4 code).toInt
  | f =>
    match f.float? with
    | none => .nan
    | some ⟨w, p, bias⟩ =>
      let s := (code / 2 ^ (w + p)) % 2 = 1
      let x := (code / 2 ^ p) % 2 ^ w
      let m := code % 2 ^ p
      if f.hasInf && decide (x = 2 ^ w - 1) then
        if m = 0 then .inf s else .nan
      else if f = .e4m3 ∧ x = 15 ∧ m = 7 then .nan
      else
        let mag : Int := if x = 0 then m else 2 ^ p + m
        let ex : Int := (if x = 0 then 1 else x : Int) - bias - p
        .fin s (if s then -mag else mag) ex

/-- The canonical NaN, or +0 in a format without one (R66). -/
def Fmt.nanCode (f : Fmt) : Nat := f.nan?.getD 0

/-- The largest finite value as `m * 2 ^ e` (R65, R68, R70). -/
def Fmt.maxDy (f : Fmt) (qe : Int) : Int × Int :=
  match f with
  | .int8 => (127, 0)
  | .int32 => (2147483647, 0)
  | .q16 => (32767, qe)
  | .q4x => (7, 0)
  | .e4m3 => (14, 5)
  | f =>
    match f.float? with
    | none => (0, 0)
    | some ⟨w, p, bias⟩ =>
      (2 ^ (p + 1) - 1, ((if f.hasInf then 2 ^ w - 2 else 2 ^ w - 1 : Int)) - bias - p)

/-- The most negative finite value (R69). -/
def Fmt.minDy (f : Fmt) (qe : Int) : Int × Int :=
  match f with
  | .int8 => (-128, 0)
  | .int32 => (-2147483648, 0)
  | .q16 => (-32768, qe)
  | f => let (m, e) := f.maxDy qe; (-m, e)

/-- The spacing exponent of the values next to a non-zero `m * 2 ^ e` (R69). -/
def Fmt.quantum (f : Fmt) (qe m e : Int) : Int :=
  match f with
  | .q16 => qe
  | f =>
    match f.float? with
    | none => 0
    | some ⟨_, p, bias⟩ => max (1 - (bias : Int) - p) (dyLog2 m e - p)

/-- The smallest normal exponent of a floating-point format. -/
def Fmt.minNormal? (f : Fmt) : Option Int := f.float?.map (fun q => 1 - (q.bias : Int))

/-- The code of a representable `k * 2 ^ q`, with the sign of zero `neg`. -/
def Fmt.encode (f : Fmt) (qe : Int) (neg : Bool) (k q : Int) : Nat :=
  match f with
  | .int8 => (BitVec.ofInt 8 (k * 2 ^ q.toNat)).toNat
  | .int32 => (BitVec.ofInt 32 (k * 2 ^ q.toNat)).toNat
  | .q16 => (BitVec.ofInt 16 (k * 2 ^ (q - qe).toNat)).toNat
  | .q4x => (BitVec.ofInt 4 (k * 2 ^ q.toNat)).toNat
  | f =>
    match f.float? with
    | none => 0
    | some ⟨w, p, bias⟩ =>
      let sgn := if (if k = 0 then neg else decide (k < 0)) then 2 ^ (w + p) else 0
      if k = 0 then sgn
      else
        let l := dyLog2 k q
        let emin : Int := 1 - (bias : Int)
        if l < emin then
          let sub := emin - p
          let mag := if q ≥ sub then k.natAbs * 2 ^ (q - sub).toNat else k.natAbs / 2 ^ (sub - q).toNat
          sgn + mag
        else
          let mag := if l - p ≤ q then k.natAbs * 2 ^ (q - (l - p)).toNat else k.natAbs / 2 ^ (l - p - q).toNat
          sgn + (l + bias).toNat * 2 ^ p + (mag - 2 ^ p)

/-- The infinity of a format. -/
def Fmt.infCode (f : Fmt) (neg : Bool) : Nat :=
  match f.float? with
  | none => 0
  | some ⟨w, p, _⟩ => (if neg then 2 ^ (w + p) else 0) + (2 ^ w - 1) * 2 ^ p

/-- The bound of a format on one side, as a code. -/
def Fmt.boundCode (f : Fmt) (qe : Int) (neg : Bool) : Nat :=
  let (m, e) := if neg then f.minDy qe else f.maxDy qe
  f.encode qe neg m e

/-- The flags and saturation events an operation raises (R73). -/
structure Flags where
  iv : Bool := false
  dz : Bool := false
  of : Bool := false
  uf : Bool := false
  nx : Bool := false
  zr : Bool := false
  sats : Nat := 0
  deriving DecidableEq, Repr

/-- No flag. -/
def Flags.none : Flags := {}

/-- Flags set together (R73: flags are ORed, events add up). -/
def Flags.join (a b : Flags) : Flags :=
  { iv := a.iv || b.iv, dz := a.dz || b.dz, of := a.of || b.of, uf := a.uf || b.uf, nx := a.nx || b.nx,
    zr := a.zr || b.zr, sats := a.sats + b.sats }

/-- An invalid operation. -/
def Flags.invalid : Flags := { iv := true }

/-- The flags as ASTAT bits (R73). SAT stands for at least one saturation event. -/
def Flags.toAstat (f : Flags) : Word :=
  BitVec.ofNat 64 (f.iv.toNat + 2 * f.dz.toNat + 4 * f.of.toNat + 8 * f.uf.toNat + 16 * f.nx.toNat
    + 32 * (decide (0 < f.sats)).toNat + 64 * f.zr.toNat)

/-- Rounding modes (R69). -/
inductive Rm where
  | rne | rz | sr
  deriving DecidableEq, Repr

/-- The mode a 2-bit code names; code 11 takes ARITH.RM (R69, R73). -/
def Rm.ofCode (arith : Word) (c : Nat) : Rm :=
  let d := if c = 3 then (arith.extractLsb' 0 2).toNat else c
  if d = 0 then .rne else if d = 1 then .rz else .sr

/-- The lower neighbour in units of `2 ^ q`, and whether and how the value lies above it: numerator and width. -/
structure Split where
  a : Int
  num : Int
  den : Int
  deriving DecidableEq, Repr

/-- `m * 2 ^ e` between neighbours of spacing `2 ^ q`. -/
def splitAt (m e q : Int) : Split :=
  if q ≤ e then ⟨m * 2 ^ (e - q).toNat, 0, 1⟩
  else
    let d : Int := 2 ^ (q - e).toNat
    ⟨m / d, m % d, d⟩

/-- The chosen neighbour (R69); `u` is the stochastic word. -/
def Split.choose (s : Split) (mode : Rm) (u : Nat) : Int :=
  if s.num = 0 then s.a
  else match mode with
    | .rne =>
      if 2 * s.num < s.den then s.a
      else if s.den < 2 * s.num then s.a + 1
      else if s.a % 2 = 0 then s.a else s.a + 1
    | .rz => if s.a < 0 then s.a + 1 else s.a
    | .sr => if u * s.den < s.num * 2 ^ 24 then s.a + 1 else s.a

/-- `round_f(v, mode)` (R69): the code and the flags. A NaN result sets IV (R66). -/
def roundF (f : Fmt) (qe : Int) (v : Val) (mode : Rm) (u : Nat) : Nat × Flags :=
  match v with
  | .nan => (f.nanCode, .invalid)
  | .inf s => if f.hasInf then (f.infCode s, .none) else (f.boundCode qe s, { sats := 1 })
  | .fin s m e =>
    if m = 0 then (f.encode qe s 0 0, .none)
    else
      let q := f.quantum qe m e
      let sp := splitAt m e q
      let k := sp.choose mode u
      let nx := decide (sp.num ≠ 0)
      let tiny := match f.minNormal? with
        | some n => decide (dyLog2 m e < n)
        | none => false
      let uf := tiny && nx
      let (xm, xe) := f.maxDy qe
      let (nm, ne) := f.minDy qe
      let high := dyLt xm xe k q
      let low := dyLt k q nm ne
      if high || low then
        if f.hasInf && decide (mode = .rne) then (f.infCode low, { of := true, nx := nx, uf := uf })
        else (f.boundCode qe low, { of := true, nx := nx, uf := uf, sats := 1 })
      else (f.encode qe (decide (m < 0)) k q, { nx := nx, uf := uf })

/-- The largest finite FP32 magnitude. -/
def fp32Max : Int × Int := Fmt.fp32.maxDy 0

/-- R77's guard of a scaled group term; an infinite term passes it (DESIGN CHOICE, log 21). -/
def guardTerm (t : Val) : Val × Flags :=
  match t with
  | .nan => (.nan, .invalid)
  | .inf s => (.inf s, .none)
  | .fin s m e =>
    if m = 0 then (.fin s m e, .none)
    else if dyLt fp32Max.1 fp32Max.2 m.natAbs e then
      (.ofDy (if m < 0 then -fp32Max.1 else fp32Max.1) fp32Max.2, { sats := 1 })
    else if dyLog2 m e < -126 then (.zero (decide (m < 0)), { sats := 1 })
    else (.fin s m e, .none)

/-- The value of an E8M0 code; 0xFF is NaN (R67). -/
def e8m0 (c : Nat) : Val := if c = 255 then .nan else .ofDy 1 ((c : Int) - 127)

/-- `emax_f` of R79. -/
def Fmt.emax : Fmt → Int
  | .e4m3 => 8
  | .e5m2 => 15
  | .e2m3 => 2
  | .e3m2 => 4
  | .e2m1 => 2
  | .int8 => 6
  | .q4x => 2
  | _ => 0

/-- R79's scale code of a block whose largest magnitude is `m * 2 ^ e`, non-zero. -/
def scaleCode (f : Fmt) (m e : Int) : Nat := (max 0 (min 254 (dyLog2 m e - f.emax + 127))).toNat

/-- R70: the values of a Q4X block's slots under a scale, each with its flag: IV for a marker in slot 31. Under a NaN scale
every one of them is NaN (R67). -/
def q4xDecode (scale : Val) : Nat → List Nat → List (Val × Flags)
  | _, [] => []
  | slot, n :: ns =>
    let empty : Val := (Val.zero false).mul scale
    if n = 8 then
      if slot < 31 then
        match ns with
        | h :: ns' =>
          ((Fmt.e4m3.value 0 (h * 16 + 8)).mul scale, .none) :: (empty, .none) :: q4xDecode scale (slot + 2) ns'
        | [] => [(empty, .invalid)]
      else (empty, .invalid) :: q4xDecode scale (slot + 1) ns
    else ((Fmt.q4x.value 0 n).mul scale, .none) :: q4xDecode scale (slot + 1) ns

/-- The outlier E4M3 code of R71 for a value that no slot integer holds: its magnitude is the nearest of the eight,
comparing exponents, the larger on a tie of logarithms. -/
def q4xOutlier (m e : Int) : Nat :=
  -- exponents of the magnitudes are -6, -4, ..., 8; |x| in [2^(2j-1), 2^(2j+1)) takes 2^(2j)
  let l := dyLog2 m e
  let j := max (-6) (min 8 (2 * ((l + 1) / 2)))
  (if m < 0 then 128 else 0) + (j + 7).toNat * 8

/-- R71: the slots of a block of scaled values, each with its stochastic word. `pend` is the high nibble of an outlier
in the previous slot, which takes this slot. An outlier raises no flag of its own (DESIGN CHOICE, log 21). -/
def q4xEncode (mode : Rm) (slot : Nat) (pend : Option Nat) : List (Val × Nat) → List (Nat × Flags)
  | [] => []
  | (v, u) :: vs =>
    match pend with
    | some h => (h, { sats := 1 }) :: q4xEncode mode (slot + 1) none vs
    | none =>
      let r := roundF .q4x 0 v mode u
      match v with
      | .fin _ m e =>
        if r.2.of ∧ slot < 31 then
          let b := q4xOutlier m e
          (b % 16, .none) :: q4xEncode mode (slot + 1) (some (b / 16)) vs
        else r :: q4xEncode mode (slot + 1) none vs
      | _ => r :: q4xEncode mode (slot + 1) none vs

/-- One pass of `arxh` (R72). -/
def arxhPass (st : Word × Word × Word × Word) (pass : Nat) : Word × Word × Word × Word :=
  let (x, y, k, j) := st
  let x := x.rotateRight 8
  let x := x + y
  let x := x ^^^ k
  let y := y.rotateLeft 3
  let y := y ^^^ x
  let k := k.rotateRight 8
  let k := k + j
  let k := k ^^^ BitVec.ofNat 64 pass
  let j := j.rotateLeft 3
  let j := j ^^^ k
  (x, y, k, j)

/-- The counter hash (R72). -/
def arxh (seed : BitVec 128) (ctr : Word) : Word :=
  let st := (List.range 8).foldl arxhPass
    (ctr, ctr ^^^ 0x9E3779B97F4A7C15, seed.extractLsb' 0 64, seed.extractLsb' 64 64)
  st.1 ^^^ st.2.1

/-- The stochastic word of one element (R72). -/
def srWord (seed : BitVec 128) (base : Word) (index : Nat) : Nat :=
  ((arxh seed (base + BitVec.ofNat 64 index)).extractLsb' 40 24).toNat

end Sys2Proof.Machine
end

