-- ==== Sys2Proof/Machine/Tbl.lean ====
section
/-! DEFINITION. Sparse tables in one canonical form: keys strictly rising. Memory is a table of bytes that lists no
byte equal to what an unlisted address reads as. -/

namespace Sys2Proof.Machine

/-- A sparse table: keys strictly rising. -/
abbrev Tbl (β : Type) := List (Nat × β)

namespace Tbl

variable {β : Type}

/-- The entry at a key. -/
def get? : Tbl β → Nat → Option β
  | [], _ => none
  | (k, v) :: t, a => if a = k then some v else if a < k then none else get? t a

/-- The table with `v` at a key. -/
def put : Tbl β → Nat → β → Tbl β
  | [], a, v => [(a, v)]
  | (k, w) :: t, a, v =>
    if a < k then (a, v) :: (k, w) :: t else if a = k then (a, v) :: t else (k, w) :: put t a v

/-- The table without a key. -/
def del : Tbl β → Nat → Tbl β
  | [], _ => []
  | (k, w) :: t, a => if a < k then (k, w) :: t else if a = k then t else (k, w) :: del t a

/-- The entry at a key, or the default of an unlisted one. -/
def getD (t : Tbl β) (a : Nat) (d : β) : β := (t.get? a).getD d

/-- The table with `v` at a key, which is not listed when `v` is the default. -/
def putD [DecidableEq β] (t : Tbl β) (a : Nat) (d v : β) : Tbl β := if v = d then t.del a else t.put a v

/-- Every key lies above `lo`, and the keys rise. -/
def risesAbove : Nat → Tbl β → Bool
  | _, [] => true
  | lo, (k, _) :: t => decide (lo < k) && risesAbove k t

/-- The canonical form of keys: strictly rising. -/
def rising : Tbl β → Bool
  | [] => true
  | (k, _) :: t => risesAbove k t

/-- The entries whose key satisfies `p`, dropped. -/
def drop (t : Tbl β) (p : Nat → Bool) : Tbl β := t.filter (fun e => !p e.1)

end Tbl

/-- A memory: the listed bytes; an unlisted address reads as zero (DESIGN CHOICE, log 2). -/
abbrev Bytes := List Host.Cell

namespace Bytes

/-- What an unlisted address reads as (DESIGN CHOICE, log 2). -/
def blank : Byte := 0

/-- One byte. -/
def read (m : Bytes) (a : Nat) : Byte := Tbl.getD m a blank

/-- The memory with one byte written. -/
def write (m : Bytes) (a : Nat) (v : Byte) : Bytes := Tbl.putD m a blank v

/-- `n` bytes from an address, the lowest first. -/
def readN (m : Bytes) (a : Nat) : Nat → List Byte
  | 0 => []
  | n + 1 => m.read a :: readN m (a + 1) n

/-- The memory with bytes written from an address on. -/
def writeN (m : Bytes) (a : Nat) : List Byte → Bytes
  | [] => m
  | v :: vs => (m.write a v).writeN (a + 1) vs

/-- The canonical form: addresses strictly rising, no byte equal to an unlisted one. -/
def wf (m : Bytes) : Bool := Tbl.rising m && m.all (fun e => decide (e.2 ≠ blank))

end Bytes

/-- Little-endian value of bytes (R3). -/
def ofBytes : List Byte → Nat
  | [] => 0
  | b :: bs => b.toNat + 256 * ofBytes bs

/-- The `n` low bytes of a value, the lowest first (R3). -/
def toBytes : Nat → Nat → List Byte
  | 0, _ => []
  | n + 1, v => BitVec.ofNat 8 v :: toBytes n (v / 256)

/-- The bytes of a bit vector, the lowest first. -/
def bvBytes {n : Nat} (k : Nat) (v : BitVec n) : List Byte := toBytes k v.toNat

/-- Bits `[lo + w - 1 : lo]` of a value. -/
def bits (v lo w : Nat) : Nat := v / 2 ^ lo % 2 ^ w

/-- A bit vector with the field at `lo` replaced. -/
def setField {n : Nat} (t : BitVec n) (lo w v : Nat) : BitVec n :=
  let mask : BitVec n := BitVec.ofNat n ((2 ^ w - 1) * 2 ^ lo)
  (t &&& ~~~mask) ||| (BitVec.ofNat n (v % 2 ^ w * 2 ^ lo) &&& mask)

end Sys2Proof.Machine
end

