-- ==== Sys2Proof/Machine/State.lean ====
section
/-! DEFINITION. The state of the device as plain data, its reset, and the reasons a step stops. -/

namespace Sys2Proof.Machine

/-- A storage space (R3). -/
inductive Space where
  | spm | dev | host | peer
  deriving DecidableEq, Repr

/-- A place of a byte: a space, its owner (logical core of a scratchpad, peer device; 0 otherwise) and an address. -/
structure Place where
  space : Space
  owner : Nat
  addr : Nat
  deriving DecidableEq, Repr

/-- An address register (R99). -/
structure AReg where
  base : Word := 0
  idx : BitVec 32 := 0
  step : BitVec 32 := 0
  len : BitVec 31 := 0
  mode : BitVec 2 := 0
  deriving DecidableEq, Repr

/-- A tile's 1 KiB (R104): byte `b` of row `i` is bits `[8 (64 i + b) + 7 : 8 (64 i + b)]`. -/
abbrev Tile := BitVec 8192

/-- A written tile; `ver` counts writes to it (the model's own, for R172; log 8). -/
structure TileReg where
  val : Tile
  ver : Nat
  deriving DecidableEq, Repr

/-- An accumulator tile: element (i, j) at bits `32 (96 i + j)` (R143). -/
structure ZReg where
  val : BitVec 393216
  ver : Nat
  deriving DecidableEq, Repr

/-- A weight buffer: contents, format tag, KL (R149). -/
structure WBuf where
  data : BitVec 524288 := 0
  tag : Option Fmt := none
  kl : Nat := 0
  ver : Nat := 0
  deriving DecidableEq, Repr

/-- A tag of a Dormer segment (R180). -/
inductive SegTag where
  | none
  | base (dc dh : Nat) (addr : Word) (corner : Option (BitVec 32))
  | continuation
  deriving DecidableEq, Repr

/-- A Dormer segment: tag and contents. -/
structure Seg where
  tag : SegTag := .none
  data : BitVec 524288 := 0
  ver : Nat := 0
  deriving DecidableEq, Repr

/-- A write of `w` bits at bit offset `off` of a tile. -/
structure FieldWr where
  off : Nat
  w : Nat
  v : Nat
  deriving DecidableEq, Repr

/-- A tile register's name: level (R104) and index. -/
structure TileName where
  lvl : Nat
  idx : Nat
  deriving DecidableEq, Repr

/-- An SFEV result not yet landed (R133, R135). -/
structure Landing where
  at_ : Nat
  dests : List TileName
  writes : List FieldWr
  qs : List (BitVec 512)
  flags : Flags
  deriving DecidableEq, Repr

/-- A stop cause with what its record holds (R295). -/
structure TrapInfo where
  cause : Nat
  det : Nat := 0
  pc : Word := 0
  ipc : Word := 0
  addr : Word := 0
  aux : Nat := 0
  deriving DecidableEq, Repr

/-- A source of a chain record beside its tiles (R172). -/
inductive Source where
  | z (n : Nat)
  | wb (n : Nat)
  | seg (n : Nat)
  | spm (unit : Nat)
  deriving DecidableEq, Repr

/-- A matrix instruction as the engine holds it (R144, R146): operation, bundle address, captured MCFGR, seed, counter base
and mode, program-order number, next k-step, address operand (for an expanding MLAT, d_h), saturation events so far, the tiles
it reads as they stood at its commit, how often its other sources had been written then (R172), gathered latent rows; whether
a fault stopped it, whether a latent load gathers its earlier rows again (R300), and whether it entered as the follow-on of a
copy (R231, R245). -/
structure MJob where
  op : Instr
  addr : Word
  cfg : Word
  seed : BitVec 128 := 0
  srBase : Word := 0
  arith : Word := 0
  seq : Nat := 0
  kstep : Nat := 0
  xs : Word := 0
  sats : Nat := 0
  push : Bool := false
  tiles : Tbl TileReg := []
  vers : List (Source × Nat) := []
  rows : Option (List (List Val)) := none
  stopped : Bool := false
  reload : Bool := false
  follow : Bool := false
  deriving DecidableEq, Repr

/-- A weight stream's load (R150, R160): image address or first tile, and sectors landed. -/
structure WLoad where
  fmt : Fmt
  k : Nat
  fromTiles : Bool
  src : Nat
  addr : Word
  seq : Nat
  push : Bool
  landed : Nat := 0
  bytes : List Byte := []
  stopped : Bool := false
  deriving DecidableEq, Repr

/-- A weight stream: one active and one queued load (R144). -/
structure WStream where
  active : Option WLoad := none
  queued : Option WLoad := none
  deriving DecidableEq, Repr

/-- Thatch state of an accumulator (R167); lines are numbered rows 0 to 127, then columns from 128. The chain begins
with an implicit start unless its first record is one; a ninth record stands for any number more. -/
structure ZThatch where
  cr : BitVec 3072 := 0
  cc : BitVec 4096 := 0
  fm : Nat := 128
  fn : Nat := 96
  kt : Nat := 0
  tf : Nat := 4
  el : Tbl Int := []
  ex : List Nat := []
  chain : List MJob := []
  deriving DecidableEq, Repr

/-- A CPYF follow-on held until its copy's last byte is visible (R231). -/
structure Follow where
  job : MJob
  copySeq : Nat
  deriving DecidableEq, Repr

/-- What is kept for a spar across every entry (R297 offset 0x5FF000), whether its segment descriptor is to be initialised
(1), has been read or written (2), is to be read again (3), or that with entries on the core (4) (R189, R196), its pending
software trap (R352), and its record and seed at its first start (R291). -/
structure Kept where
  cset : BitVec 256 := 0
  wsig : BitVec 256 := 0
  rsig : BitVec 256 := 0
  rsigNew : Bool := false
  asig : BitVec 256 := 0
  seedtop : BitVec 128 := 0
  energy : Nat := 0
  rskb : Word := 0
  rskp : Word := 0
  rskDue : Nat := 1
  swpend : Option (BitVec 16 × Word) := none
  first : List Byte := []
  seed0 : BitVec 128 := 0
  deriving DecidableEq, Repr

/-- The context of a spar on a core. `rskFill`: a pop has left, or waits for, a fill (R195). -/
structure Ctx where
  x : Vector Word 64 := .replicate 64 0
  p : BitVec 16 := 1
  a : Vector AReg 32 := .replicate 32 {}
  m : Vector (BitVec 512) 8 := .replicate 8 0
  t : Tbl TileReg := []
  w : Tbl TileReg := []
  l : Tbl TileReg := []
  z : Tbl ZReg := []
  zt : Tbl ZThatch := []
  wb0 : WBuf := {}
  wb1 : WBuf := {}
  segs : Vector Seg 8 := .replicate 8 {}
  sfu : Vector (BitVec 8448) 4 := .replicate 4 0
  shadow : List Landing := []
  arith : Word := 0
  astat : Word := 0
  srctr : Word := 0
  shape : Word := 0x3F0F
  mprog : Word := 0
  mcfgr : Word := 127 + 95 * 2 ^ 7 + 7 * 2 ^ 14
  rskb : Word := 0
  rskl : Word := 0
  rskp : Word := 64
  nseq : Nat := 0
  rsks : Word := 0
  rskCore : Bytes := []
  rskFill : Bool := false
  qm : List (BitVec 512) := []
  qc : List (BitVec 512) := []
  qs : List (BitVec 512) := []
  qx : List (BitVec 512) := []
  qg : List (BitVec 512) := []
  qmRes : Nat := 0
  qcRes : Nat := 0
  qxRes : Nat := 0
  qgRes : Nat := 0
  half : Option Tile := none
  tau : Nat := 0
  running : Option MJob := none
  waiting : Option MJob := none
  ws0 : WStream := {}
  ws1 : WStream := {}
  part : Tbl Val := []
  follow : List Follow := []
  engN : Nat := 0
  writes : Nat := 0
  seq : Nat := 0
  engTraps : List TrapInfo := []
  mBound : Nat := 0
  kept : Kept := {}
  deriving DecidableEq, Repr

/-- A spar's name: its launch and its record index. -/
structure SparId where
  launch : Nat
  idx : Nat
  deriving DecidableEq, Repr

/-- The running spar's identity and run (R273, R274). -/
structure Run where
  id : SparId
  recVa : Word
  ctx : Nat
  sys : Bool
  rst : Bool
  ss : Bool
  lcore : Nat
  wid : Word
  prio : Nat
  kernel : Option Nat
  bank0 : Nat
  banks : Nat
  home : Bool
  started : Nat
  bound : Option Nat := none
  live : Option Nat := none
  srun : Nat := 0
  runField : Nat := 0
  ypc : Word := 0
  ebud : Word := 0
  wait : Word := 0
  exits : Bool := false
  deriving DecidableEq, Repr

/-- A copy-slot command in an engine (R218 to R236, R309): its course is the rows or tiles done, the destination bytes of
the present row formed, data and block scales still to write, whether a write of them faulted, source sectors read, bytes
written, saturation events and status, and the devices that a remote one has sent to. -/
structure Cmd where
  op : Instr
  addr : Word
  id : SparId
  ctx : Nat
  lcore : Nat
  bank0 : Nat
  banks : Nat
  wid : Word
  seq : Nat
  engine : Nat
  sa : Word
  da : Word
  xl : Word
  tok : Nat
  arith : Word := 0
  srBase : Word := 0
  seed : BitVec 128 := 0
  tsr : Option (List Byte) := none
  started : Bool := false
  done : Nat := 0
  pos : Nat := 0
  out : List (Word × List Byte) := []
  scl : List (Word × List Byte) := []
  atWrite : Bool := false
  rd : Tbl (BitVec 1024) := []
  sats : Nat := 0
  wrote : Nat := 0
  status : Nat := 0
  ended : Bool := false
  faddr : Word := 0
  stopped : Option Word := none
  push : Bool := false
  peers : List Nat := []
  deriving DecidableEq, Repr

/-- An RCINV that has not taken effect (R230): one record address, or every record. -/
structure Rcinv where
  seq : Nat
  id : SparId
  ctx : Nat
  addr : Option Word
  deriving DecidableEq, Repr

/-- A committed store in the store queue (R211, R239): the pieces of it that have not been performed, and its CH (R30);
`scope` is the agent scope of a releasing one; `left`: it has left
the core's queue toward its home slice (R237, R244); `sent` counts its remote transactions not yet acknowledged, and
`failed` says that one of them failed (R211, R307). -/
structure StoreEnt where
  segs : List (Place × List Byte)
  ch : Nat := 0
  va : Word
  addr : Word
  id : SparId
  rel : Option (BitVec 256 × Bool) := none
  scope : Nat := 0
  seq : Nat
  left : Bool := false
  sent : Nat := 0
  failed : Bool := false
  lcore : Nat := 0
  deriving DecidableEq, Repr

/-- A cached translation (R264). -/
structure TbEnt where
  ctx : Nat
  base : Nat
  size : Nat
  pte : Word
  deriving DecidableEq, Repr

/-- An unposted lane record: its 64 bytes but SEQ (R294). -/
structure LaneRec where
  laneP : Bool
  bytes : List Byte
  id : Option SparId
  open_ : Bool
  cmd : Option Nat
  held : Bool := false
  emerg : Bool := false
  deriving DecidableEq, Repr

/-- A ready spar in a class queue of a core (R285); `lc` is its logical core (R18), `bound` the logical core it is bound
to (R276), `live` the kernel whose plan binds it (R208), `kern` the kernel it is a spar of (R278). -/
structure Ready where
  id : SparId
  cls : Nat
  core : Nat
  lc : Nat
  srun : Nat
  bound : Option Nat
  live : Option Nat := none
  kern : Option Nat := none
  deriving DecidableEq, Repr

/-- The action of a pre-emption that awaits its point (R291); `drain` names the newcomer launch. -/
inductive Preempt where
  | drain (launch : Nat)
  | checkpoint
  | kill
  deriving DecidableEq, Repr

/-- What a core is doing. `held`: a context kept in the core (R298). -/
inductive Phase where
  | idle
  | picked (r : Ready)
  | running
  | yielding
  | stopping (t : TrapInfo)
  | held (cause : Nat) (pc ipc : Word)
  deriving DecidableEq, Repr

/-- A core (R16). `rskHeld` names a stopped spar whose chunk stays in the on-core part (R298), `rskOwner` one whose part stays
there across its yield (R197). `pickedAt` is the cycle of the latest pick (R285), `image` the logical core whose scratchpad is
in the core (R18). `cmdSeq` counts the bundles committed on it (the model's own), which orders commands and stores. -/
structure Core where
  num : Nat := 0
  ctx : Ctx := {}
  pc : Word := 0
  phase : Phase := .idle
  run : Option Run := none
  satcnt : Word := 0
  satthr : Word := 0
  calArmed : Bool := true
  thcnt : Word := 0
  errmap : Word := 0xFFFF
  retRows : List Nat := []
  retCols : List Nat := []
  pendRows : List Nat := []
  pendCols : List Nat := []
  hitRows : Tbl (List Nat) := []
  hitCols : Tbl (List Nat) := []
  afr : Word := 0
  engines : Vector (List Cmd) 4 := .replicate 4 []
  fabric : List Cmd := []
  gmrg : List Cmd := []
  rcinv : List Rcinv := []
  storeQ : List StoreEnt := []
  tb : List TbEnt := []
  records : List (Nat × Word × List Byte) := []
  lanesUnposted : List LaneRec := []
  emergency : Option SparId := none
  rskHeld : Option SparId := none
  rskOwner : Option SparId := none
  slice : Int := 65536
  ages : Vector Nat 8 := .replicate 8 0
  preempt : Option Preempt := none
  waita : Option Nat := none
  pickedAt : Nat := 0
  image : Option Nat := none
  cmdSeq : Nat := 0
  deriving DecidableEq, Repr

/-- A line present in the L2 (R255): its key, C, whether it counts as its set's oldest (R258), and its filled and dirty
sectors. -/
structure L2Line where
  line : Nat
  c : Bool
  first : Bool
  sectors : List Nat
  dirty : List Nat := []
  deriving DecidableEq, Repr

/-- An eviction schedule entry (R257). -/
structure EvictEnt where
  base : Nat
  nline : Nat
  rank : Nat
  deriving DecidableEq, Repr

/-- The storage spaces and the L2 (R254 to R268). `copyVas` holds the virtual sectors that each read copy was read through
(the model's own, for R250; log 18); `slices` counts the home slices of the partition (R336). -/
structure Mem where
  dev : Bytes := []
  host : Bytes := []
  spm : Bytes := []
  peer : Bytes := []
  tags : Tbl (BitVec 64) := []
  codes : Tbl (BitVec 2) := []
  badAtoms : List Nat := []
  copies : Tbl (BitVec 1024) := []
  copyVas : Tbl (List Nat) := []
  l2 : List L2Line := []
  windows : Tbl Nat := []
  evict : List EvictEnt := []
  psig : List (Nat × BitVec 256) := []
  osig : Tbl (BitVec 256) := []
  spmVer : Tbl Nat := []
  slices : Nat := 128
  deriving DecidableEq, Repr

/-- An aperture (R270), as its 64 bytes. -/
abbrev Aperture := BitVec 512

/-- A context: its table root, apertures and seed stack, the top first (R261, R270, R326). -/
structure Context where
  troot : Nat := 0
  apr : Vector Aperture 8 := .replicate 8 0
  seeds : List (BitVec 128) := []
  deriving DecidableEq, Repr

/-- An armed monitor (R283): its owner and sector. -/
structure Monitor where
  id : SparId
  space : Space
  owner : Nat
  sector : Nat
  fired : Bool
  deriving DecidableEq, Repr

/-- A launch (R275): its captured header and its course. `cseq` is its packet's number and `depth` the seed stack's after it
(R324); the dispatcher's launch has no packet (R320). -/
structure Launch where
  hdr : Word
  ctx : Nat
  entry : Word
  cls : Nat
  ss : Bool
  rst : Bool
  sys : Bool
  ptok : Nat
  lw : List Nat
  affm : Nat
  ext : List Nat
  sparb : Word
  sparn : Nat
  exbud : Nat
  saveb : Word
  rskpb : Word
  rsksz : Nat
  rem0 : Nat
  args : List Word
  seed : BitVec 128
  budget : Nat
  used : Nat := 0
  armed : Bool := true
  cseq : Word
  depth : Nat := 0
  packet : Bool := true
  generated : List Nat := []
  children : List Nat := []
  exited : List Nat := []
  ended : Bool := false
  finished : Bool := false
  exchange : Option Nat := none
  exOver : Bool := false
  deriving DecidableEq, Repr

/-- A spar waiting, or stopped, with its wait word (R282). -/
structure Waiting where
  id : SparId
  cls : Nat
  core : Nat
  lc : Nat
  srun : Nat
  bound : Option Nat
  live : Option Nat := none
  kern : Option Nat := none
  wait : Word
  deriving DecidableEq, Repr

/-- Scheduling of the device (R273 to R291). `saved` holds the parts of saved contexts whose encoding is not
architectural, `stopped` the engine commands saved with them (R224, R297). -/
structure Sched where
  launches : Tbl Launch := []
  nextLaunch : Nat := 1
  ready : List Ready := []
  waiting : List Waiting := []
  kept : Tbl Kept := []
  saved : Tbl Ctx := []
  stopped : List Cmd := []
  monitors : List Monitor := []
  deriving DecidableEq, Repr

/-- An open record of a lane (R299). -/
structure OpenRec where
  laneP : Bool
  seq : Nat
  id : SparId
  core : Nat
  cmd : Option Nat
  held : Bool
  emerg : Bool
  cause : Nat
  deriving DecidableEq, Repr

/-- The lanes (R292, R293) beside their control blocks in memory. -/
structure Lanes where
  fcb : Word := 0
  pcb : Word := 0
  embase : Word := 0
  ctl : Word := 0
  open_ : List OpenRec := []
  msix : List Nat := []
  deriving DecidableEq, Repr

/-- A fence that waits (R325): its packet's number and context, the depth after it, BAR, and the launches of its context
accepted before it that have not finished. -/
structure Fence where
  cseq : Word
  ctx : Nat
  depth : Nat
  bar : Bool
  launches : List Nat
  deriving DecidableEq, Repr

/-- The host interface (R320 to R325). `latch` and `portWrite` are the command port's, `accepted` a packet that has not
taken effect, `hostHeld` the window lines that the host holds, `hostDirty` those of them that it has changed (R15, R321). -/
structure HostIf where
  clogb : Word := 0
  clogn : Word := 0
  next : Word := 0
  cplb : Word := 0
  cpln : Word := 0
  head : Word := 0
  tail : Word := 0
  disphdr : Word := 0
  ctl : Word := 0
  hwbase : Word := 0
  hwlen : Word := 0
  hwhpa : Word := 0
  latch : BitVec 512 := 0
  portWrite : Bool := false
  accepted : List (BitVec 512) := []
  fences : List Fence := []
  hostHeld : List Nat := []
  hostDirty : List Nat := []
  deriving DecidableEq, Repr

/-- Maintenance registers (R265). -/
structure Maint where
  addr : Word := 0
  len : Word := 0
  ctx : Word := 0
  cmd : Word := 0
  stat : Word := 0
  deriving DecidableEq, Repr

/-- One Ridge link (R303 to R305). -/
structure Link where
  state : BitVec 2 := 0
  width : BitVec 2 := 3
  lfault : BitVec 16 := 0
  replay : BitVec 16 := 0
  retrain : BitVec 8 := 0
  trained : Bool := false
  expect : BitVec 24 := 0
  nextSeq : BitVec 24 := 0
  buffer : List (BitVec 2048) := []
  inbound : List (BitVec 1920) := []
  outbound : List (BitVec 2048) := []
  deriving DecidableEq, Repr

/-- An outgoing remote transaction (R307), of a command of a spar, or of a queued store of it: their numbers on their
core. `landed`: its peer has performed it (R310). -/
structure OutTxn where
  dst : Nat
  psn : Nat
  txn : Txn
  core : Nat
  id : SparId
  cmd : Option Nat
  store : Option Nat := none
  va : Word := 0
  sent : Bool := false
  resends : Nat := 0
  landed : Bool := false
  deriving DecidableEq, Repr

/-- The fabric (R302 to R313). `faa` holds (source, PSN, old); `flags` held flags as (source, PSN, address, value);
`unacked` and `acks` acknowledgements to give and given as (source, PSN, status, old), `ackOut` those whose payloads have not
left; `transit` payloads to forward. -/
structure Fabric where
  links : Vector Link 12 := .replicate 12 {}
  devnum : Word := 0
  rtbase : Word := 0
  inbtb : Word := 0
  pairb : Word := 0
  ctl : Word := 0
  out : List OutTxn := []
  nextPsn : Tbl Nat := []
  expect : Tbl Nat := []
  faa : List (Nat × Nat × Word) := []
  flags : List (Nat × Nat × Nat × Word) := []
  unacked : List (Nat × Nat × Nat × Word) := []
  acks : List (Nat × Nat × Nat × Word) := []
  ackOut : List (Nat × Nat) := []
  transit : List (BitVec 1920) := []
  deriving DecidableEq, Repr

/-- A Gutter descriptor that the Valley engine serves: the key of its place, and the context and address it is reached by
(R233). -/
structure Served where
  key : Nat
  ctx : Nat
  va : Word
  deriving DecidableEq, Repr

/-- The Valley engine (R233 to R236), by descriptor: keys of the records between TAIL and HEAD, records appended, folded,
and folded since the last GMRG, the exact wide sums, and the keys that a tile was folded into that could not be corrected
(R165). -/
structure Valley where
  served : List Served := []
  keys : Tbl (List Nat) := []
  appended : Tbl Nat := []
  folded : Tbl Nat := []
  since : Tbl Nat := []
  wide : Tbl (Tbl Val) := []
  bad : Tbl (List Nat) := []
  deriving DecidableEq, Repr

/-- A resident kernel (R57, R63). -/
structure Kernel where
  ctx : Nat
  entry : Nat
  bundles : Nat
  codePa : Nat
  dataPa : Nat
  lcores : List Nat
  bank0 : Nat
  banks : Nat
  shape : Word
  plan : List (Nat × Nat)
  exch : List (Nat × Nat × Nat × Nat)
  sfu : Tbl (BitVec 8448)
  deriving DecidableEq, Repr

/-- What an attestation report holds of the device beside its identity (R332). -/
structure Report where
  lc : BitVec 2
  dbg : BitVec 2
  partcfg : Nat
  part : Nat
  measures : Vector (BitVec 512) 8
  nonce : BitVec 256
  deriving DecidableEq, Repr

/-- Boot, security and power (R329 to R336). `partcfg` is the layout in force, `part` a die of the partition that this state
describes (R17, R336; log 32), `report` and `shown` are the ready report's bytes and contents (R332), `loadCode` is the code
that the last load, finalisation or unload answered (R63), `symbols` the addresses that the last load reported, `headers` the
launch headers that it wrote (R337). -/
structure Platform where
  stage : Nat := 0
  fails : Nat := 0
  min : Bool := false
  reason : Nat := 0
  lc : BitVec 2 := 0
  dbg : BitVec 2 := 0
  pst : BitVec 2 := 0
  booting : Bool := true
  cap : Nat := 2200
  req : BitVec 2 := 0
  measures : Vector (BitVec 512) 8 := .replicate 8 0
  nonce : Vector Word 4 := .replicate 4 0
  att : Word := 0
  report : List Byte := []
  shown : Option Report := none
  partcfg : Nat := 0
  part : Nat := 0
  partNext : Nat := 0
  halfChans : List Nat := []
  scrubs : Tbl (Nat × Nat) := []
  thinj : Word := 0
  loadCode : Nat := 0
  symbols : List (Nat × Word) := []
  headers : List (Option Word) := []
  deriving DecidableEq, Repr

/-- The device: the core that moves, the others, and what they share; `images` pairs each portable image with its native
form (R62); `inputs` holds what the outside world has asked
for, `tick` numbers free values (the model's own, log 1). -/
structure State where
  core : Core := {}
  others : List Core := []
  mem : Mem := {}
  sched : Sched := {}
  lanes : Lanes := {}
  host : HostIf := {}
  maint : Maint := {}
  fabric : Fabric := {}
  valley : Valley := {}
  ctxs : Tbl Context := []
  kernels : Tbl Kernel := []
  images : List (List Byte × List Byte) := []
  plat : Platform := {}
  cycle : Nat := 0
  inputs : List Instr := []
  tick : Nat := 0
  deriving DecidableEq, Repr

/-- Why a step stops with a fault. No instruction of the table ends so: a fault of the machine is a trap, a next state. -/
inductive Fault where
  /-- Raised by `step` where the fetched bytes are no bundle; never on the 64 bytes a fetch reads (safe). -/
  | notABundle
  deriving DecidableEq, Repr

/-- Why an operation is refused. -/
inductive Refusal where
  /-- Raised by no meaning: the arm of an operation without one would answer it (safe). -/
  | notModelled (mnemonic : String)
  deriving DecidableEq, Repr

/-- The device after reset: 96 idle cores, nothing listed in memory, every register at the value its table gives or log
3 names. -/
def State.reset : State :=
  { core := { num := 0 }, others := (List.range 95).map (fun i => { num := i + 1 }) }

end Sys2Proof.Machine
end

