-- ==== Sys2Proof/Machine/Flags.lean ====
section
/-! DEFINITION. Arithmetic status: ASTAT, SATCNT and the calibration event (R73, R75), and the lane records a core
holds unposted (R294, R295). -/

namespace Sys2Proof.Machine

/-- The core with a change of its context. -/
def Core.onCtx (k : Core) (f : Ctx → Ctx) : Core := { k with ctx := f k.ctx }

/-- The state with a change of the core that moves. -/
def State.onCore (s : State) (f : Core → Core) : State := { s with core := f s.core }

/-- The state with a change of the running spar's context. -/
def State.onCtx (s : State) (f : Ctx → Ctx) : State := s.onCore (fun k => k.onCtx f)

/-- The next free-value number (the model's own, log 1). -/
def State.ticked (s : State) : State := { s with tick := s.tick + 1 }

/-- A word by its two unsigned halves. -/
def word2 (hi lo : Nat) : Word := BitVec.ofNat 64 (lo % 2 ^ 32 + 2 ^ 32 * (hi % 2 ^ 32))

/-- A lane record without its sequence number (R295); `flags` is byte 15. -/
def laneBytes (laneP : Bool) (t : TrapInfo) (core lcore flags : Nat) (launch spar : Word) : List Byte :=
  toBytes 2 t.cause ++ toBytes 1 laneP.toNat ++ toBytes 1 t.det ++ toBytes 1 core ++ toBytes 1 lcore
    ++ toBytes 1 0xFF ++ toBytes 1 flags ++ toBytes 8 launch.toNat ++ toBytes 8 spar.toNat ++ toBytes 8 t.pc.toNat
    ++ toBytes 8 t.ipc.toNat ++ toBytes 8 t.addr.toNat ++ toBytes 4 t.aux ++ toBytes 4 0

/-- The first die of the partition that holds a die, under a layout of PARTCFG: four dies; {0,1} with {2,3}; {0,1}, {2}
and {3}; four single dies (R336). -/
def partFirst (cfg die : Nat) : Nat :=
  match cfg with
  | 0 => 0
  | 1 => die / 2 * 2
  | 2 => if die < 2 then 0 else die
  | _ => die

/-- The dies of that partition (R18, R336). -/
def partDies (cfg die : Nat) : Nat :=
  match cfg with
  | 0 => 4
  | 1 => 2
  | 2 => if die < 2 then 2 else 1
  | _ => 1

/-- The first die of the partition this state describes. -/
def State.firstDie (s : State) : Nat := partFirst s.plat.partcfg (s.plat.part % 4)

/-- Its dies. -/
def State.dies (s : State) : Nat := partDies s.plat.partcfg (s.plat.part % 4)

/-- Its physical cores (R18). -/
def State.pcores (s : State) : Nat := 24 * s.dies

/-- The device core number of the core of index `n` in the partition (R19, R98). -/
def State.devCore (s : State) (n : Nat) : Nat := 24 * s.firstDie + n

/-- Is a Ridge link the partition's: links 3d to 3d + 2 of each of its dies d (R336). -/
def State.ownsLink (s : State) (n : Nat) : Bool := decide (3 * s.firstDie ≤ n ∧ n < 3 * (s.firstDie + s.dies))

/-- Is a channel of the HBM4 the partition's: 32 in each stack, and stacks 2d and 2d + 1 of each of its dies d (R13,
R336). -/
def State.ownsChan (s : State) (n : Nat) : Bool := decide (64 * s.firstDie ≤ n ∧ n < 64 * (s.firstDie + s.dies))

/-- Is a device core number the partition's. -/
def State.ownsCore (s : State) (n : Nat) : Bool := decide (24 * s.firstDie ≤ n ∧ n < 24 * (s.firstDie + s.dies))

/-- The device core number of the core that moves. -/
def State.coreNum (s : State) : Nat := s.devCore s.core.num

/-- Causes of lane P (R296). -/
def onLaneP (cause : Nat) : Bool := decide (0x40 ≤ cause)

/-- The header address of a launch. -/
def State.hdrOf (s : State) (n : Nat) : Word := ((s.sched.launches.get? n).map (·.hdr)).getD 0

/-- A core's device number, logical core, launch address and record address for a record about its running spar. -/
def State.recFor (s : State) (t : TrapInfo) (flags : Nat) : List Byte :=
  match s.core.run with
  | some r => laneBytes (onLaneP t.cause) t s.coreNum r.lcore flags (s.hdrOf r.id.launch) r.recVa
  | none => laneBytes (onLaneP t.cause) t s.coreNum s.core.num flags 0 0

/-- A notice about the running spar joins the core's unposted records (R294). -/
def State.notice (s : State) (t : TrapInfo) : State :=
  let r : LaneRec := { laneP := onLaneP t.cause, bytes := s.recFor t 8, id := s.core.run.map (·.id), open_ := false,
                       cmd := none }
  s.onCore (fun k => { k with lanesUnposted := k.lanesUnposted ++ [r] })

/-- ASTAT flags are sticky (R73). -/
def Ctx.raise (c : Ctx) (f : Flags) : Ctx := { c with astat := c.astat ||| f.toAstat }

/-- Largest count a 32-bit counter holds. -/
def count32 : Nat := 0xFFFFFFFF

/-- `n` saturation events on the core's SATCNT, and whether they cross an armed threshold, which disarms it (R75). -/
def State.countSat (s : State) (n : Nat) : State × Bool :=
  let old := s.core.satcnt.toNat
  let new := min count32 (old + n)
  let thr := s.core.satthr.toNat
  let due := s.core.calArmed && decide (n ≠ 0 ∧ thr ≠ 0 ∧ old < thr ∧ thr ≤ new)
  (s.onCore (fun k => { k with satcnt := if n = 0 then k.satcnt else BitVec.ofNat 64 new, calArmed := k.calArmed && !due }), due)

/-- Saturation events of the running spar, with the calibration event at the crossing (R75). -/
def State.saturate (s : State) (n : Nat) : State :=
  match s.countSat n with
  | (s1, true) =>
    (s1.onCtx (fun c => { c with astat := c.astat ||| 128 })).notice { cause := 0x51, addr := s.core.satthr }
  | (s1, false) => s1

/-- Flags and saturation events land (R73, R75). -/
def State.raise (s : State) (f : Flags) : State := (s.onCtx (fun c => c.raise f)).saturate f.sats

/-- A count raised by `n`, holding at its largest value, in a field of a word (R178). -/
def bumpField (w : Word) (lo n : Nat) : Word := setField w lo 32 (min count32 (bits w.toNat lo 32 + n))

end Sys2Proof.Machine
end

