-- ==== Sys2Proof/Machine/Ops.lean ====
section
/-! DEFINITION. The named operations: registers, tiles, storage, translation, the store queue, signatures and monitors,
and taking a trap. -/

namespace Sys2Proof.Machine

/-! ### Registers (R83, R99) -/

/-- X register; X0 reads zero. -/
def Ctx.rx (c : Ctx) (r : BitVec 6) : Word := if r = 0 then 0 else c.x[r.toNat]

/-- Write of an X register; a write to X0 is discarded. -/
def Ctx.wx (c : Ctx) (r : BitVec 6) (v : Word) : Ctx :=
  if r = 0 then c else { c with x := c.x.set r.toNat v }

/-- Predicate; P0 reads true. -/
def Ctx.rp (c : Ctx) (p : BitVec 4) : Bool := if p = 0 then true else c.p.getLsbD p.toNat

/-- Write of a predicate; a write to P0 is discarded. -/
def Ctx.wp (c : Ctx) (p : BitVec 4) (v : Bool) : Ctx :=
  if p = 0 then c else { c with p := setField c.p p.toNat 1 v.toNat }

/-- Address register. -/
def Ctx.ra (c : Ctx) (a : BitVec 5) : AReg := c.a[a.toNat]

/-- Write of an address register. -/
def Ctx.wa (c : Ctx) (a : BitVec 5) (v : AReg) : Ctx := { c with a := c.a.set a.toNat v }

/-- Element mask. -/
def Ctx.rm (c : Ctx) (k : BitVec 3) : BitVec 512 := c.m[k.toNat]

/-- Write of an element mask. -/
def Ctx.wm (c : Ctx) (k : BitVec 3) (v : BitVec 512) : Ctx := { c with m := c.m.set k.toNat v }

/-- The 64-bit sum of R100. -/
def AReg.sum (a : AReg) : Word := a.base + a.idx.signExtend 64

/-- Bits [63:57] all equal to bit 56 (R95, R100). -/
def canonical (v : Word) : Bool := decide ((v.extractLsb' 0 57).signExtend 64 = v)

/-- A 57-bit address sign-extended from bit 56 (R94). -/
def sext57 (v : Word) : Word := (v.extractLsb' 0 57).signExtend 64

/-- Reversal of the `n` low bits (R101). -/
def bitrev : Nat → Nat → Nat
  | 0, _ => 0
  | n + 1, v => v % 2 * 2 ^ n + bitrev n (v / 2)

/-- The post-access update (R101). -/
def AReg.update (a : AReg) (inc : BitVec 32) : AReg :=
  if a.mode = 0 ∨ (a.mode = 1 ∧ a.len = 0) then { a with idx := a.idx + inc }
  else if a.mode = 1 then { a with idx := BitVec.ofInt 32 ((a.idx.toInt + inc.toInt) % (a.len.toNat : Int)) }
  else
    let n := Nat.log2 a.len.toNat
    if a.len = 0 ∨ n = 0 then a
    else
      let sum := (bitrev n (a.idx.toNat % 2 ^ n) + bitrev n (inc.toNat % 2 ^ n)) % 2 ^ n
      { a with idx := BitVec.ofNat 32 (a.idx.toNat / 2 ^ n * 2 ^ n + bitrev n sum) }

/-! ### Tiles (R104) -/

/-- A tile register, where it has been written. -/
def Ctx.tileReg? (c : Ctx) (n : TileName) : Option TileReg :=
  match n.lvl with
  | 0 => c.t.get? n.idx
  | 1 => c.w.get? n.idx
  | _ => c.l.get? n.idx

/-- A tile's bytes; an unwritten tile reads zero (R104). -/
def Ctx.rt (c : Ctx) (n : TileName) : Tile := ((c.tileReg? n).map (·.val)).getD 0

/-- How often a tile has been written (the model's own). -/
def Ctx.tileVer (c : Ctx) (n : TileName) : Nat := ((c.tileReg? n).map (·.ver)).getD 0

/-- A tile register replaced. -/
def Ctx.putTile (c : Ctx) (n : TileName) (r : TileReg) : Ctx :=
  match n.lvl with
  | 0 => { c with t := c.t.put n.idx r }
  | 1 => { c with w := c.w.put n.idx r }
  | _ => { c with l := c.l.put n.idx r }

/-- Field writes on a tile's bits. -/
def applyWrites (t : Tile) (ws : List FieldWr) : Tile := ws.foldl (fun t w => setField t w.off w.w w.v) t

/-- Field writes on a tile; a first write leaves every other byte zero and sets the written bit (R104). -/
def Ctx.wt (c : Ctx) (n : TileName) (ws : List FieldWr) : Ctx :=
  match ws with
  | [] => c
  | ws => { (c.putTile n { val := applyWrites (c.rt n) ws, ver := c.writes + 1 }) with writes := c.writes + 1 }

/-- A field of a tile. -/
def tileField (t : Tile) (off w : Nat) : Nat := (t.extractLsb' off w).toNat

/-- Byte `b` of row `i`. -/
def tileByte (t : Tile) (i b : Nat) : Nat := tileField t (8 * (64 * i + b)) 8

/-- Accumulator tile, +0 until written (R143). -/
def Ctx.rz (c : Ctx) (n : Nat) : BitVec 393216 := ((c.z.get? n).map (·.val)).getD 0

/-- Write counts of an accumulator. -/
def Ctx.zVer (c : Ctx) (n : Nat) : Nat := ((c.z.get? n).map (·.ver)).getD 0

/-- Write of an accumulator. -/
def Ctx.wz (c : Ctx) (n : Nat) (v : BitVec 393216) : Ctx :=
  { c with z := c.z.put n { val := v, ver := c.writes + 1 }, writes := c.writes + 1 }

/-- Thatch state of an accumulator (R167). -/
def Ctx.zth (c : Ctx) (n : Nat) : ZThatch := (c.zt.get? n).getD {}

/-- Thatch state replaced. -/
def Ctx.setZth (c : Ctx) (n : Nat) (v : ZThatch) : Ctx := { c with zt := c.zt.put n v }

/-- Weight buffer. -/
def Ctx.wb (c : Ctx) (b : Bool) : WBuf := if b then c.wb1 else c.wb0

/-- Weight buffer replaced. -/
def Ctx.setWb (c : Ctx) (b : Bool) (v : WBuf) : Ctx := if b then { c with wb1 := v } else { c with wb0 := v }

/-- Weight stream. -/
def Ctx.ws (c : Ctx) (b : Bool) : WStream := if b then c.ws1 else c.ws0

/-- Weight stream replaced. -/
def Ctx.setWs (c : Ctx) (b : Bool) (v : WStream) : Ctx := if b then { c with ws1 := v } else { c with ws0 := v }

/-! ### Storage (R3, R206) -/

/-- The key of a byte in its space's table. -/
def Place.key (p : Place) : Nat :=
  match p.space with
  | .spm => p.owner * 2 ^ 22 + p.addr
  | .peer => p.owner * 2 ^ 48 + p.addr
  | _ => p.addr

/-- One byte of storage. -/
def Mem.get (m : Mem) (p : Place) : Byte :=
  match p.space with
  | .dev => m.dev.read p.key
  | .host => m.host.read p.key
  | .spm => m.spm.read p.key
  | .peer => m.peer.read p.key

/-- Storage with one byte written; a scratchpad write counts in its 128-byte unit (log 8). -/
def Mem.set (m : Mem) (p : Place) (v : Byte) : Mem :=
  match p.space with
  | .dev => { m with dev := m.dev.write p.key v }
  | .host => { m with host := m.host.write p.key v }
  | .spm => { m with spm := m.spm.write p.key v,
                     spmVer := m.spmVer.put (p.key / 128) (m.spmVer.getD (p.key / 128) 0 + 1) }
  | .peer => { m with peer := m.peer.write p.key v }

/-- A place further on. -/
def Place.off (p : Place) (n : Nat) : Place := { p with addr := p.addr + n }

/-- Bytes written from a place on. -/
def Mem.setN (m : Mem) (p : Place) : List Byte → Mem
  | [] => m
  | v :: vs => (m.set p v).setN (p.off 1) vs

/-- The key of a read copy of a HOST or PEER sector (R238). -/
def Place.copyKey (p : Place) : Nat := (if p.space = .host then 0 else 2 ^ 80) + p.owner * 2 ^ 57 + p.addr / 128

/-- A byte as an agent of the device reads it: HOST and PEER bytes from a read copy where one is present (R238). -/
def Mem.view (m : Mem) (p : Place) : Byte :=
  match p.space with
  | .host | .peer =>
    match m.copies.get? p.copyKey with
    | some c => c.extractLsb' (8 * (p.addr % 128)) 8
    | none => m.get p
  | _ => m.get p

/-- Bytes as an agent reads them. -/
def Mem.viewN (m : Mem) (p : Place) : Nat → List Byte
  | 0 => []
  | n + 1 => m.view p :: m.viewN (p.off 1) n

/-- The read copy of a place's sector, filled from the space (R319). -/
def Mem.fillCopy (m : Mem) (p : Place) : Mem :=
  match p.space with
  | .host | .peer =>
    if (m.copies.get? p.copyKey).isSome then m
    else
      let base : Place := { p with addr := p.addr / 128 * 128 }
      let bs := (List.range 128).map (fun i => m.get (base.off i))
      { m with copies := m.copies.put p.copyKey (BitVec.ofNat 1024 (ofBytes bs)) }
  | _ => m

/-- A write through this device updates the read copies of its sectors (R238). -/
def Mem.updateCopy (m : Mem) (p : Place) (v : Byte) : Mem :=
  match p.space with
  | .host | .peer =>
    match m.copies.get? p.copyKey with
    | some c => { m with copies := m.copies.put p.copyKey (setField c (8 * (p.addr % 128)) 8 v.toNat) }
    | none => m
  | _ => m

/-- A write performed at every scope: the byte, and the read copy of its sector. -/
def Mem.perform (m : Mem) (p : Place) : List Byte → Mem
  | [] => m
  | v :: vs => ((m.set p v).updateCopy p v).perform (p.off 1) vs

/-! ### Signatures and monitors (R247, R283) -/

/-- The three bits a sector contributes (R247). -/
def sigBits (ea : Word) : BitVec 256 :=
  let s := (ea.extractLsb' 7 50).setWidth 64
  let m := s * 0x9E3779B97F4A7C15
  let one (n : Nat) : BitVec 256 := BitVec.ofNat 256 (2 ^ n)
  one (m.extractLsb' 56 8).toNat ||| one (m.extractLsb' 48 8).toNat ||| one (m.extractLsb' 40 8).toNat

/-- Does a sector match a signature (R247). -/
def sigMatches (sig : BitVec 256) (ea : Word) : Bool := decide (sigBits ea &&& sig = sigBits ea)

/-- The signature of the sectors of `[va, va + n)`. -/
def sigRange (va : Word) (n : Nat) : BitVec 256 :=
  let first := va.toNat / 128
  let last := (va.toNat + n - 1) / 128
  if n = 0 then 0
  else (List.range (last - first + 1)).foldl (fun g i => g ||| sigBits (BitVec.ofNat 64 ((first + i) * 128))) 0

/-- A write to a sector fires the monitors armed on it (R283). -/
def fireAt (ms : List Monitor) (p : Place) (n : Nat) : List Monitor :=
  ms.map (fun m =>
    if m.space = p.space ∧ m.owner = p.owner ∧ p.addr / 128 ≤ m.sector ∧ m.sector ≤ (p.addr + n - 1) / 128 ∧ n ≠ 0
    then { m with fired := true } else m)

/-- The largest number of monitors (R283). -/
def monitorLimit : Nat := 4096

/-- A spar's monitor armed on a sector, in place of its earlier one, with the fired state cleared (R283). -/
def armMonitor (ms : List Monitor) (id : SparId) (p : Place) : List Monitor :=
  let rest := ms.filter (fun m => decide (m.id ≠ id))
  if rest.length < monitorLimit then
    rest ++ [{ id := id, space := p.space, owner := p.owner, sector := p.addr / 128, fired := false }]
  else rest

/-! ### Causes (R296) -/

namespace Cause
def illegal : Nat := 0x01
def priv : Nat := 0x02
def ncanon : Nat := 0x03
def vline : Nat := 0x04
def mxalign : Nat := 0x05
def midx : Nat := 0x06
def mwpnl : Nat := 0x07
def mwalign : Nat := 0x08
def thshp : Nat := 0x09
def thmis : Nat := 0x0A
def dpnl : Nat := 0x0B
def didx : Nat := 0x0C
def sftbl : Nat := 0x0D
def rskord : Nat := 0x0E
def spmrng : Nat := 0x0F
def malign : Nat := 0x10
def stash : Nat := 0x11
def tagdup : Nat := 0x12
def ascope : Nat := 0x13
def cpyarg : Nat := 0x14
def sparg : Nat := 0x15
def ssviol : Nat := 0x16
def qwait : Nat := 0x17
def aprw : Nat := 0x18
def ptebad : Nat := 0x19
def hwerr : Nat := 0x1A
def qmovf : Nat := 0x1B
def qmunf : Nat := 0x1C
def qsovf : Nat := 0x1D
def qsunf : Nat := 0x1E
def qcovf : Nat := 0x1F
def qcunf : Nat := 0x20
def qgovf : Nat := 0x21
def qgunf : Nat := 0x22
def erarg : Nat := 0x23
def ctxbad : Nat := 0x24
def copyst : Nat := 0x30
def retire : Nat := 0x31
def sterr : Nat := 0x32
def nomap : Nat := 0x40
def prot : Nat := 0x41
def cmprs : Nat := 0x42
def cattr : Nat := 0x43
def rskovf : Nat := 0x44
def rskspl : Nat := 0x45
def swtrap : Nat := 0x46
def savef : Nat := 0x47
def energy : Nat := 0x50
def cal : Nat := 0x51
end Cause

/-- The outcome of a check: a value, or a cause with its faulting address. -/
abbrev Chk (α : Type) := Except TrapInfo α

/-- A fault of a cause at an address. -/
def failAt {α : Type} (cause : Nat) (addr : Word) : Chk α := .error { cause := cause, addr := addr }

/-! ### Translation (R261 to R264, R270) -/

/-- A field of a page-table entry. -/
def pteField (e : Word) (lo w : Nat) : Nat := bits e.toNat lo w

/-- A leaf or table entry that breaks R261: a reserved field, a leaf-only field in a table entry, a PEER without PEER
space, SPACE 11, CMP outside DEV, or an ADDR that is not aligned to `align`. -/
def pteBad (e : Word) (leaf : Bool) (align : Nat) : Bool :=
  decide (pteField e 7 5 ≠ 0) || decide (pteField e 12 36 * 4096 % align ≠ 0) ||
  (if leaf then
    decide (pteField e 3 2 = 3) || (decide (pteField e 5 1 = 1) && decide (pteField e 3 2 ≠ 0)) ||
      (decide (pteField e 3 2 ≠ 2) && decide (pteField e 48 16 ≠ 0))
  else decide (pteField e 1 1 ≠ 0) || decide (pteField e 3 4 ≠ 0) || decide (pteField e 48 16 ≠ 0))

/-- A translation: the leaf, its page and its size. -/
structure Xl where
  pte : Word
  base : Nat
  size : Nat
  deriving DecidableEq, Repr

/-- A table entry at its home slice. -/
def readPte (m : Mem) (addr : Nat) : Word := BitVec.ofNat 64 (ofBytes (m.dev.readN addr 8))

/-- A leaf of a page size, checked. -/
def leafOf (e : Word) (va : Word) (size : Nat) : Chk Xl :=
  if pteBad e true size then failAt Cause.ptebad va
  else .ok { pte := e, base := va.toNat % 2 ^ 57 / size * size, size := size }

/-- Does a DEV sector that no line of the L2 holds have an atom that the stack cannot correct (R260). -/
def Mem.sectorLost (m : Mem) (sec : Nat) : Bool :=
  m.badAtoms.any (fun a => decide (a / 2 = sec)) && !m.l2.any (fun l => decide (l.line = sec / 4 ∧ sec % 4 ∈ l.sectors))

/-- A table entry that a walk for an address reads; one that the stack cannot deliver fails the access with HWERR (R260,
R264). -/
def walkPte (m : Mem) (va : Word) (addr : Nat) : Chk Word :=
  if m.sectorLost (addr / 128) then failAt Cause.hwerr va else .ok (readPte m addr)

/-- The walk (R261 to R263), without the access check. -/
def walk (m : Mem) (troot : Nat) (va : Word) : Chk Xl := do
  let idx (lo w : Nat) := bits va.toNat lo w
  let next (e : Word) := pteField e 12 36 * 4096
  let e3 ← walkPte m va (troot + 8 * idx 48 9)
  if pteField e3 0 1 = 0 then failAt Cause.nomap va
  else if pteField e3 2 1 = 1 || pteBad e3 false 4096 then failAt Cause.ptebad va
  else do
    let e2 ← walkPte m va (next e3 + 8 * idx 39 9)
    if pteField e2 0 1 = 0 then failAt Cause.nomap va
    else if pteField e2 2 1 = 1 || pteBad e2 false 4096 then failAt Cause.ptebad va
    else do
      let e1 ← walkPte m va (next e2 + 8 * idx 30 9)
      if pteField e1 0 1 = 0 then failAt Cause.nomap va
      else if pteField e1 2 1 = 1 then leafOf e1 va (2 ^ 30)
      else if pteBad e1 false (2 ^ 17) then failAt Cause.ptebad va
      else do
        let i0 := idx 16 14
        let head ← walkPte m va (next e1 + 8 * (i0 / 32 * 32))
        if pteField head 0 1 = 1 ∧ pteField head 2 1 = 1 then leafOf head va (2 ^ 21)
        else do
          let e0 ← walkPte m va (next e1 + 8 * i0)
          if pteField e0 0 1 = 0 then failAt Cause.nomap va
          else if pteField e0 2 1 = 1 then failAt Cause.ptebad va
          else leafOf e0 va (2 ^ 16)

/-- The entries that a walk reads, by address (R262). -/
def walkReads (m : Mem) (troot : Nat) (va : Word) : List Nat :=
  let idx (lo w : Nat) := bits va.toNat lo w
  let next (a : Nat) := pteField (readPte m a) 12 36 * 4096
  let goes (a align : Nat) : Bool :=
    let e := readPte m a
    decide (pteField e 0 1 = 1 ∧ pteField e 2 1 = 0) && !pteBad e false align
  let a3 := troot + 8 * idx 48 9
  let a2 := next a3 + 8 * idx 39 9
  let a1 := next a2 + 8 * idx 30 9
  let i0 := idx 16 14
  if !goes a3 4096 then [a3]
  else if !goes a2 4096 then [a3, a2]
  else if !goes a1 (2 ^ 17) then [a3, a2, a1]
  else [a3, a2, a1, next a1 + 8 * (i0 / 32 * 32), next a1 + 8 * i0]

/-- The cached translation of an address (R264). -/
def tbHit (tb : List TbEnt) (ctx : Nat) (va : Word) : Option Xl :=
  (tb.find? (fun e => decide (e.ctx = ctx ∧ e.base ≤ va.toNat % 2 ^ 57 ∧ va.toNat % 2 ^ 57 < e.base + e.size))).map
    (fun e => { pte := e.pte, base := e.base, size := e.size })

/-- Where an address leads: a place with its compression attribute, or a byte of a transforming aperture. -/
inductive Target where
  | place (p : Place) (cmp : Bool)
  | view (a : Aperture) (o : Nat)
  deriving DecidableEq, Repr

/-- Fields of an aperture record (R270). -/
def aprField (a : Aperture) (off n : Nat) : Nat := bits a.toNat (8 * off) (8 * n)

/-- An aperture record within the limits of R270. -/
def aprOk (a : Aperture) : Bool :=
  let view := aprField a 24 1
  let fmt := aprField a 25 1
  decide (aprField a 0 8 % 65536 = 0) && decide (aprField a 8 8 % 65536 = 0) && decide (aprField a 16 8 % 128 = 0)
    && decide (view ≤ 3)
    && (if view = 2 then decide (3 ≤ fmt ∧ fmt ≤ 7) else if view = 3 then decide (fmt = 5 ∨ fmt = 6)
        else decide (fmt ≤ 11))
    && decide (aprField a 26 1 ≤ 1) && decide (aprField a 27 1 = 0) && decide (aprField a 36 4 = 0)
    && decide (aprField a 48 16 = 0)

/-- The lowest-numbered enabled aperture that holds an address (R270). -/
def aprOf (c : Context) (va : Word) : Option Aperture :=
  c.apr.toList.find? (fun a =>
    decide (aprField a 8 8 ≠ 0 ∧ aprField a 0 8 ≤ va.toNat % 2 ^ 57 ∧
      va.toNat % 2 ^ 57 < aprField a 0 8 + aprField a 8 8))

/-- The offset in `n` bytes from an address on at which they enter an aperture that breaks a limit, whose base need then lie
on no page boundary (R270). -/
def aprEntered (c : Context) (va : Word) (n : Nat) : Option Nat :=
  let v := va.toNat % 2 ^ 57
  (c.apr.toList.filterMap (fun a =>
    let b := aprField a 0 8
    if v < b ∧ b < v + n ∧ aprField a 8 8 ≠ 0 ∧ (aprOf c (BitVec.ofNat 64 b)).any (fun q => !aprOk q) then some (b - v) else none)).min?

/-- The place a leaf gives an address. -/
def Xl.target (x : Xl) (va : Word) : Target :=
  let sp := pteField x.pte 3 2
  let addr := pteField x.pte 12 36 * 4096 + (va.toNat % 2 ^ 57 - x.base)
  .place { space := if sp = 1 then .host else if sp = 2 then .peer else .dev,
           owner := if sp = 2 then pteField x.pte 48 16 else 0, addr := addr } (decide (pteField x.pte 5 1 = 1))

/-- The access check of a leaf (R263). -/
def Xl.allows (x : Xl) (acc : Access) : Bool :=
  match acc with
  | .read => true
  | .write => decide (pteField x.pte 1 1 = 1)
  | .fetch => decide (pteField x.pte 6 1 = 1)

/-- The context of a number. -/
def State.ctxOf (s : State) (n : Nat) : Context := (s.ctxs.get? n).getD {}

/-- The translation of one address: an aperture, else a cached translation, else a walk (R263, R264, R270). -/
def translate (s : State) (ctx : Nat) (va : Word) (acc : Access) : Chk Target :=
  match aprOf (s.ctxOf ctx) va with
  | some a =>
    if !aprOk a then failAt Cause.ptebad va
    else
      let o := va.toNat % 2 ^ 57 - aprField a 0 8
      if aprField a 24 1 = 0 then .ok (.place { space := .dev, owner := 0, addr := aprField a 16 8 + o } false)
      else if acc = .write then failAt Cause.aprw va
      else .ok (.view a o)
  | none => do
    let x ← match tbHit s.core.tb ctx va with
      | some x => .ok x
      | none => walk s.mem (s.ctxOf ctx).troot va
    if x.allows acc then .ok (x.target va) else failAt Cause.prot va

/-- The pieces of `[va, va + n)` between 64 KiB boundaries; no page is smaller (R262). -/
def pieces (va : Word) (n : Nat) : Nat → List (Word × Nat)
  | 0 => []
  | fuel + 1 =>
    if n = 0 then []
    else
      let k := min n (65536 - va.toNat % 65536)
      (va, k) :: pieces (va + BitVec.ofNat 64 k) (n - k) fuel

/-- The command port's DEV range (R323). -/
def portBase : Nat := 0xFFFFFFFFF000

/-- Does a place lie in the command port. -/
def inPort (p : Place) : Bool := decide (p.space = .dev ∧ portBase ≤ p.addr)

/-- The first byte of `n` from a place on that lies in the command port. -/
def portAt (p : Place) (n : Nat) : Option Nat :=
  if p.space = .dev ∧ portBase < p.addr + n then some (portBase - p.addr) else none

/-! ### Aperture views (R271) -/

/-- Plain buffer bytes. -/
def bufByte (m : Mem) (a : Aperture) (o : Nat) : Nat := (m.dev.read (aprField a 16 8 + o)).toNat

/-- The stored bits of an element in DEV (R82): six-bit elements packed. -/
def devBits (f : Fmt) : Nat :=
  match f with
  | .e2m3 | .e3m2 => 6
  | f => f.bits

/-- Element `e` of a packed buffer that starts at `base` (R82). -/
def devElem (m : Mem) (f : Fmt) (base e : Nat) : Nat :=
  let w := devBits f
  let bit := e * w
  bits (ofBytes (m.dev.readN (base + bit / 8) 5)) (bit % 8) w

/-- Data bytes of `n` elements of a stored format (R82). -/
def storedBytes (w n : Nat) : Nat := (n * w + 7) / 8

/-- Offsets of a thatched tile of `r` rows, `c` columns and `w` stored bits an element: checksum row, checksum column,
corner, and padded size (R162). -/
structure ThLayout where
  row : Nat
  col : Nat
  corner : Nat
  size : Nat
  deriving DecidableEq, Repr

/-- R162. -/
def thLayout (w r c : Nat) : ThLayout :=
  let d := storedBytes w (r * c)
  let row := (d + 3) / 4 * 4
  let col := row + 4 * c
  let corner := col + 4 * r
  { row := row, col := col, corner := corner, size := (corner + 4 + 127) / 128 * 128 }

/-! ### Taking a trap (R41, R297) -/

/-- A trap is taken: nothing of the bundle commits, a pre-emption that meets it takes no further action, and the spar
stops with the cause's record (R41, R297). FAULT_STOP then saves the context and posts the record. -/
def State.takeTrap (s : State) (t : TrapInfo) : State :=
  s.onCore (fun k => { k with phase := .stopping t, preempt := none, waita := none })

/-- The stop of a pending software trap (R96, R300, R352). -/
def State.takeSwTrap (s : State) (q : BitVec 16 × Word) : State :=
  (s.onCtx (fun c => { c with kept := { c.kept with swpend := none } })).takeTrap
    { cause := Cause.swtrap, pc := s.core.pc, addr := q.2, aux := q.1.toNat }

/-- Does a cause await the next bundle boundary (R352). -/
def State.pendingCause (s : State) : Bool := !s.core.ctx.engTraps.isEmpty || s.core.ctx.kept.swpend.isSome

end Sys2Proof.Machine
end

