-- ==== Sys2Proof/Machine/Thatch.lean ====
section
/-! DEFINITION. Checksums of stored tiles (R162 to R166) and the aperture views that carry or flash them (R271). -/

namespace Sys2Proof.Machine

/-- A list cut into pieces of `n`. -/
def chunks {α : Type} (n : Nat) : Nat → List α → List (List α)
  | 0, _ => []
  | fuel + 1, l => if l.isEmpty then [] else l.take n :: chunks n fuel (l.drop n)

/-- `T_f` of R164. -/
def Fmt.tf : Fmt → Nat
  | .fp32 | .int8 | .int32 | .q16 => 2
  | .fp16 => 4
  | .bf16 => 8
  | .e4m3 | .e5m2 => 16
  | .e2m3 | .e3m2 | .e2m1 | .q4x => 32

/-- An FP32 code's value. -/
def fp32v (c : Nat) : Val := Fmt.fp32.value 0 c

/-- The code of a value rounded to FP32. -/
def fp32c (v : Val) : Nat := (roundF .fp32 0 v .rne 0).1

/-- The checksum of a line: its exact sum rounded once, an exact zero being +0 (R163). -/
def checksum (vs : List Val) : Nat :=
  let s := Val.sum vs
  if s.isZero then 0 else fp32c s

/-- The exponent of the largest magnitude of a line, -149 for a line of zeros (R164). -/
def lineExp (vs : List Val) : Int :=
  vs.foldl (fun e v => match v with
    | .fin _ m x => if m = 0 then e else max e (dyLog2 m x)
    | _ => e) (-149)

/-- `|a - b| > t * 2 ^ (e - 23)` for finite values (R164, R170). -/
def beyond (a b : Val) (t : Nat) (e : Int) : Bool := (Val.ofDy t (e - 23)).lt (a.sub b).abs

/-- A line of elements against its checksum (R164); true when it fails. -/
def lineFails (tf len : Nat) (vs : List Val) (chk : Nat) : Bool :=
  if vs.all (·.isFin) then
    !(fp32v chk).isFin || beyond (Val.sum vs) (fp32v chk) (tf * len) (lineExp vs)
  else decide (checksum vs ≠ chk)

/-- The outcome of verifying a stored tile (R164). -/
inductive Verdict where
  | sound
  | corrected (i j : Nat) (v : Val)
  | uncorrectable
  deriving DecidableEq, Repr

/-- A stored tile: decoded rows and its checksums. -/
structure ThTile where
  rows : List (List Val)
  crow : List Nat
  ccol : List Nat
  corner : Nat
  deriving DecidableEq, Repr

/-- A column of decoded rows. -/
def colOf (rows : List (List Val)) (j : Nat) : List Val := rows.map (fun r => r.getD j (.zero false))

/-- Indexes of the failing rows. -/
def ThTile.badRows (t : ThTile) (tf c : Nat) : List Nat :=
  (List.range t.rows.length).filter (fun i => lineFails tf c (t.rows.getD i []) (t.ccol.getD i 0))

/-- Indexes of the failing columns. -/
def ThTile.badCols (t : ThTile) (tf c : Nat) : List Nat :=
  (List.range c).filter (fun j => lineFails tf t.rows.length (colOf t.rows j) (t.crow.getD j 0))

/-- The correction rule of R171 on a row: its checksum less every other element, rounded at each step. -/
def correctedVal (row : List Val) (chk j : Nat) : Val :=
  (List.range row.length).foldl
    (fun v col => if col = j then v else fp32v (fp32c (v.sub (row.getD col (.zero false))))) (fp32v chk)

/-- Verification of a stored tile of `c` columns; `fix i j v` is row `i` decoded with the corrected element `v`
re-encoded in place at column `j` (R164). -/
def verify (tf c : Nat) (fix : Nat → Nat → Val → List Val) (t : ThTile) : Verdict :=
  let fr := t.badRows tf c
  let fc := t.badCols tf c
  let cornerBad := lineFails tf c (t.crow.map fp32v) t.corner
  match fr, fc, cornerBad with
  | [], [], false => .sound
  | [i], [j], false =>
    let v := correctedVal (t.rows.getD i []) (t.ccol.getD i 0) j
    let rows := t.rows.set i (fix i j v)
    if lineFails tf c (rows.getD i []) (t.ccol.getD i 0) ||
        lineFails tf rows.length (colOf rows j) (t.crow.getD j 0) then .uncorrectable
    else .corrected i j v
  | _, _, _ => .uncorrectable

/-- New checksums of decoded rows (R163): checksum row, checksum column, corner. -/
def flash (c : Nat) (rows : List (List Val)) : List Nat × List Nat × Nat :=
  ((List.range c).map (fun j => checksum (colOf rows j)), rows.map checksum, checksum rows.flatten)

/-- Element codes packed in `w` stored bits each, as a number. -/
def packCodes (w : Nat) (codes : List Nat) : Nat := codes.foldr (fun c acc => c % 2 ^ w + 2 ^ w * acc) 0

/-- `n` element codes of `w` bits from a number. -/
def unpackCodes (w : Nat) : Nat → Nat → List Nat
  | 0, _ => []
  | n + 1, v => v % 2 ^ w :: unpackCodes w n (v / 2 ^ w)

/-- Codes of `w` bits cut again into `n` codes of `w'` bits: the same data bytes seen in another width. -/
def recut (w w' n : Nat) (codes : List Nat) : List Nat := unpackCodes w' n (packCodes w codes)

/-- The codes and checksums of a thatched image (R162). -/
structure ThImage where
  codes : List (List Nat)
  crow : List Nat
  ccol : List Nat
  corner : Nat
  deriving DecidableEq, Repr

/-- A thatched image read from its bytes. -/
def thParse (w r c : Nat) (bs : List Byte) : ThImage :=
  let l := thLayout w r c
  let u32 (o : Nat) : Nat := ofBytes ((bs.drop o).take 4)
  { codes := chunks c r (unpackCodes w (r * c) (ofBytes (bs.take (storedBytes w (r * c))))),
    crow := (List.range c).map (fun j => u32 (l.row + 4 * j)),
    ccol := (List.range r).map (fun i => u32 (l.col + 4 * i)),
    corner := u32 l.corner }

/-- The bytes of a thatched image, padded (R162). -/
def thBuild (w r c : Nat) (t : ThImage) : List Byte :=
  let l := thLayout w r c
  let data := toBytes l.row (packCodes w t.codes.flatten)
  let sums := (t.crow ++ t.ccol ++ [t.corner]).flatMap (toBytes 4)
  let all := data ++ sums
  all ++ List.replicate (l.size - all.length) 0

/-- A row of codes decoded, with a scale for each 32 elements and the flags of decoding (R65, R67, R70). -/
def decodeRowF (f : Fmt) (qe : Int) (scales : Nat → Val) (codes : List Nat) : List (Val × Flags) :=
  if f = .q4x then (chunks 32 codes.length codes).zipIdx.flatMap (fun q => q4xDecode (scales q.2) 0 q.1)
  else codes.zipIdx.map (fun q => ((f.value qe q.1).mul (scales (q.2 / 32)), .none))

/-- The values of a row of codes. -/
def decodeRow (f : Fmt) (qe : Int) (scales : Nat → Val) (codes : List Nat) : List Val :=
  (decodeRowF f qe scales codes).map (·.1)

/-- No block scale. -/
def noScale : Nat → Val := fun _ => .ofInt 1

/-- A code re-encoded under a scale (R164); a scale without a value leaves the element unscaled. -/
def reencode (f : Fmt) (qe : Int) (scale v : Val) : Nat :=
  match scale with
  | .fin _ 1 e => (roundF f qe (v.scale (-e)) .rne 0).1
  | _ => (roundF f qe v .rne 0).1

/-- The decoded tile of an image. -/
def ThImage.decode (t : ThImage) (f : Fmt) (qe : Int) (scale : Nat → Nat → Val) : ThTile :=
  { rows := t.codes.zipIdx.map (fun q => decodeRow f qe (scale q.2) q.1), crow := t.crow, ccol := t.ccol,
    corner := t.corner }

/-- An image verified, with its corrected codes and whether it was corrected; `none` when it is uncorrectable. -/
def ThImage.verified (t : ThImage) (f : Fmt) (qe : Int) (scale : Nat → Nat → Val) (c : Nat) :
    Option (ThImage × Bool) :=
  let put (i j : Nat) (v : Val) : List Nat := (t.codes.getD i []).set j (reencode f qe (scale i (j / 32)) v)
  match verify f.tf c (fun i j v => decodeRow f qe (scale i) (put i j v)) (t.decode f qe scale) with
  | .sound => some (t, false)
  | .corrected i j v => some ({ t with codes := t.codes.set i (put i j v) }, true)
  | .uncorrectable => none

/-- A list of rows exchanged with columns. -/
def transposeRows {α : Type} (d : α) (c : Nat) (rows : List (List α)) : List (List α) :=
  (List.range c).map (fun j => rows.map (fun r => r.getD j d))

/-- The view image of one tile, or of a whole plain buffer of NROW by NCOL elements, in bytes, and whether an element of
the tile was corrected (R164, R271). `t` counts tiles for the scales. An uncorrectable tile of view 2 keeps the bytes as
they were read and the incoming checksums (R165). The roundings of a view raise no flag (the model's choice, log 21). -/
def viewImage (m : Mem) (a : Aperture) (t : Nat) : List Byte × Bool :=
  let f := (Fmt.ofEt (BitVec.ofNat 4 (aprField a 25 1))).getD .fp32
  let nc := aprField a 28 4
  let nr := aprField a 32 4
  let w := devBits f
  let th := aprField a 26 1 = 1
  let base := aprField a 16 8 + (if th then t * (thLayout w nr nc).size else 0)
  let scale (i b : Nat) : Val :=
    e8m0 (m.dev.read (aprField a 40 8 + (t * nr + i) * ((nc + 31) / 32) + b)).toNat
  let img : ThImage :=
    if th then thParse w nr nc (m.dev.readN base (thLayout w nr nc).size)
    else { codes := chunks nc nr ((List.range (nr * nc)).map (devElem m f base)), crow := [], ccol := [], corner := 0 }
  match aprField a 24 1 with
  | 1 =>
    let codes := transposeRows 0 nc img.codes
    (if th then thBuild w nc nr { codes := codes, crow := img.ccol, ccol := img.crow, corner := img.corner }
     else toBytes (storedBytes w (nr * nc)) (packCodes w codes.flatten), false)
  | 2 =>
    let bf (im : ThImage) : List (List Nat) :=
      (im.decode f 0 scale).rows.map (fun r => r.map (fun v => (roundF .bf16 0 v .rne 0).1))
    if th then
      match img.verified f 0 scale nc with
      | some (im, fixed) =>
        let codes := bf im
        let s := flash nc (codes.map (decodeRow .bf16 0 noScale))
        (thBuild 16 nr nc { codes := codes, crow := s.1, ccol := s.2.1, corner := s.2.2 }, fixed)
      | none => (thBuild 16 nr nc { img with codes := chunks nc nr (recut w 16 (nr * nc) img.codes.flatten) }, false)
    else (toBytes (2 * nr * nc) (packCodes 16 (bf img).flatten), false)
  | _ =>
    (if th then thBuild 8 nr nc img else toBytes (nr * nc) (packCodes 8 img.codes.flatten), false)

/-- Bytes of a tile of a thatched view (R162, R271). -/
def viewTileSize (a : Aperture) : Nat :=
  let nc := aprField a 28 4
  let nr := aprField a 32 4
  match aprField a 24 1 with
  | 1 => (thLayout (devBits ((Fmt.ofEt (BitVec.ofNat 4 (aprField a 25 1))).getD .fp32)) nc nr).size
  | 2 => (thLayout 16 nr nc).size
  | _ => (thLayout 8 nr nc).size

/-- A byte of a transforming view (R271); beyond the derived image it reads zero. -/
def viewByte (m : Mem) (a : Aperture) (o : Nat) : Byte :=
  if aprField a 26 1 = 1 then (viewImage m a (o / viewTileSize a)).1.getD (o % viewTileSize a) 0
  else (viewImage m a 0).1.getD o 0

/-- The tiles that reading `n` bytes of a view from offset `o` corrects (R164, R271). -/
def viewFixes (m : Mem) (a : Aperture) (o n : Nat) : Nat :=
  if aprField a 26 1 = 1 ∧ aprField a 24 1 = 2 ∧ 0 < n then
    let z := viewTileSize a
    ((List.range ((o + n - 1) / z - o / z + 1)).filter (fun i => (viewImage m a (o / z + i)).2)).length
  else 0

end Sys2Proof.Machine
end

