-- ==== Sys2Proof/Machine/L2.lean ====
section
/-! DEFINITION. The L2: home slices, lines and their fills, windows and victims, read copies, and the checks that an access
to a line makes (R12, R211, R238, R254 to R260, R267, R268, R271). -/

namespace Sys2Proof.Machine

/-! ### Lines (R254, R255) -/

/-- The home slice of an address (R254). -/
def sliceOf (addr : Nat) : Nat :=
  bits addr 9 7 ^^^ bits addr 16 7 ^^^ bits addr 23 7 ^^^ bits addr 30 7 ^^^ bits addr 37 7 ^^^ bits addr 44 4

/-- A DEV place. -/
def devPlace (a : Nat) : Place := { space := .dev, owner := 0, addr := a }

/-- The first key of a line of read copies; the keys below are DEV lines. -/
def copyLines : Nat := 2 ^ 90

/-- The key of a place's line: the number of a DEV line, or that of four read copies (R254, R255). -/
def Place.l2Key (p : Place) : Nat :=
  match p.space with
  | .host | .peer => copyLines + p.copyKey / 4
  | _ => p.addr / 512

/-- The home slice of a slice number among those of the partition (R254, R336; log 32). -/
def Mem.homeSlice (m : Mem) (slice : Nat) : Nat := slice % m.slices

/-- The set of a line: its slice and the set within it (R254, log 6). -/
def Mem.setOf (m : Mem) (key : Nat) : Nat := m.homeSlice (sliceOf (512 * (key % 2 ^ 39))) * 256 + Config.l2Set key % 256

/-- Lines that a range of addresses meets. -/
def linesOf (addr n : Nat) : List Nat :=
  if n = 0 then [] else (List.range ((addr + n - 1) / 512 - addr / 512 + 1)).map (fun i => addr / 512 + i)

/-- Sectors of a line that a range of addresses meets. -/
def lineSecs (line addr n : Nat) : List Nat :=
  (List.range 4).filter (fun i => decide (addr / 128 ≤ 4 * line + i ∧ 4 * line + i ≤ (addr + n - 1) / 128))

/-- Sectors of one list, then those of another that it has not. -/
def joinSecs (old new : List Nat) : List Nat := old ++ new.filter (· ∉ old)

/-- A line read under CH = 01 (`ev`) or another value: its absent sectors are filled, and it counts as the oldest of its
set only from a fill under 01 to the next read (R258). -/
def L2Line.read (l : L2Line) (secs : List Nat) (ev : Bool) : L2Line :=
  { l with first := ev && !secs.all (· ∈ l.sectors), sectors := joinSecs l.sectors secs }

/-- A line that a hint brings in (R232). -/
def L2Line.hinted (l : L2Line) (secs : List Nat) (ev : Bool) : L2Line :=
  { l with first := if secs.all (· ∈ l.sectors) then l.first else ev, sectors := joinSecs l.sectors secs }

/-- A line written: its sectors are filled and dirty (R255); a write under CH = 01 (`ev`) that fills one makes the line count
as the oldest of its set (R258). -/
def L2Line.written (l : L2Line) (secs : List Nat) (ev : Bool) : L2Line :=
  { l with first := l.first || (ev && !secs.all (· ∈ l.sectors)), sectors := joinSecs l.sectors secs, dirty := joinSecs l.dirty secs }

/-- The rank of a line (R258). -/
def Mem.rank (m : Mem) (l : L2Line) : Nat :=
  if l.first then 0
  else if copyLines ≤ l.line then 4
  else ((m.evict.find? (fun e => decide (e.base ≤ 512 * l.line ∧ 512 * l.line < e.base + 512 * e.nline))).map (·.rank)).getD 4

/-- The victim of a set: the lowest rank, and among those the one filled earliest, a line filled under CH 01 counting as
the oldest (R258). -/
def Mem.victim (m : Mem) (set : List L2Line) : Option L2Line :=
  match set.find? (·.first) with
  | some l => some l
  | none =>
    let low := set.foldl (fun r l => min r (m.rank l)) 8
    set.find? (fun l => decide (m.rank l = low))

/-- Read copies dropped from their lines (R238, R250). -/
def Mem.dropCopies (m : Mem) (p : Nat → Bool) : Mem :=
  { m with
    copies := Tbl.drop m.copies p, copyVas := Tbl.drop m.copyVas p,
    l2 := m.l2.filterMap (fun l =>
      if l.line < copyLines then some l
      else
        let left := l.sectors.filter (fun i => !p (4 * (l.line - copyLines) + i))
        if left.isEmpty then none else some { l with sectors := left }) }

/-- A line leaves the L2. The home bytes of a DEV line are those that the device sees, so that its dirty sectors are
written back already (R255, R258; log 6). -/
def Mem.evictLine (m : Mem) (l : L2Line) : Mem :=
  if l.line < copyLines then { m with l2 := m.l2.erase l }
  else m.dropCopies (fun k => decide (k / 4 = l.line - copyLines))

/-- A full set of 16 lines gives up its victim (R12, R258). -/
def Mem.makeRoom (m : Mem) (key : Nat) : Mem :=
  if m.l2.length < 16 then m
  else
    let set := m.l2.filter (fun l => decide (m.setOf l.line = m.setOf key))
    if set.length < 16 then m
    else match m.victim set with
      | some v => m.evictLine v
      | none => m

/-- A change of a line, which enters the L2 with the attribute of the translation that fills it (R255). -/
def Mem.onLine (m : Mem) (key : Nat) (cmp : Bool) (f : L2Line → L2Line) : Mem :=
  if m.l2.any (fun l => decide (l.line = key)) then
    { m with l2 := m.l2.map (fun l => if l.line = key then f l else l) }
  else
    let m1 := m.makeRoom key
    { m1 with l2 := m1.l2 ++ [f { line := key, c := cmp, first := false, sectors := [] }] }

/-- The lines of a range changed, each by the sectors of it that the range meets; a compressed line moves whole. -/
def Mem.onLines (m : Mem) (p : Place) (n : Nat) (cmp : Bool) (f : List Nat → L2Line → L2Line) : Mem :=
  (linesOf p.addr n).foldl (fun m line =>
    m.onLine ({ p with addr := 512 * line } : Place).l2Key cmp (f (if cmp then [0, 1, 2, 3] else lineSecs line p.addr n))) m

/-- Is the sector of a place present. -/
def Mem.present (m : Mem) (p : Place) : Bool :=
  m.l2.any (fun l => decide (l.line = p.l2Key ∧ p.addr / 128 % 4 ∈ l.sectors))

/-! ### Windows (R256) -/

/-- A DEV read that misses opens the window of its sector, and a later one registers in it, up to 128; one under CH = 10
does neither (R256). -/
def Mem.joinWindow (m : Mem) (ch sec : Nat) : Mem :=
  if ch = 2 then m
  else match m.windows.get? sec with
    | some n => if n < 128 then { m with windows := m.windows.put sec (n + 1) } else m
    | none => if m.present (devPlace (128 * sec)) then m else { m with windows := m.windows.put sec 1 }

/-- The merging windows of the sectors that a write to DEV meets close (R256). -/
def Mem.closeWindows (m : Mem) (p : Place) (n : Nat) : Mem :=
  if p.space = .dev then
    { m with windows := Tbl.drop m.windows (fun q => decide (p.addr / 128 ≤ q ∧ q ≤ (p.addr + n - 1) / 128)) }
  else m

/-! ### Reads and writes of lines -/

/-- Sectors of a range of addresses. -/
def secRange (addr n : Nat) : List Nat :=
  if n = 0 then [] else (List.range ((addr + n - 1) / 128 - addr / 128 + 1)).map (fun i => addr / 128 + i)

/-- The read copies of a range filled, each with the virtual sector that it is read through (R238, R250; log 18). -/
def Mem.fillCopies (m : Mem) (va : Word) (p : Place) (n : Nat) : Mem :=
  (secRange p.addr n).foldl (fun m sec =>
    let q : Place := { p with addr := 128 * sec }
    let v := va.toNat % 2 ^ 57 / 128 + sec - p.addr / 128
    let vas := joinSecs (m.copyVas.getD q.copyKey []) [v]
    { m.fillCopy q with copyVas := m.copyVas.put q.copyKey vas }) m

/-- A range read at its home slices, under a value of CH and an attribute (R238, R255, R256, R258). -/
def Mem.readRange (m : Mem) (ch : Nat) (va : Word) (p : Place) (n : Nat) (cmp : Bool) : Mem :=
  match p.space with
  | .spm => m
  | .dev =>
    ((secRange p.addr n).foldl (fun m sec => m.joinWindow ch sec) m).onLines p n cmp (fun secs l => l.read secs (decide (ch = 1)))
  | _ => (m.onLines p n false (fun secs l => l.read secs (decide (ch = 1)))).fillCopies va p n

/-- A range written at its home slices: windows close, and its sectors are dirty (R255, R256). HOST and PEER bytes are
written at their own home. -/
def Mem.wroteRange (m : Mem) (p : Place) (n : Nat) (cmp ev : Bool) : Mem :=
  if p.space = .dev then (m.closeWindows p n).onLines p n cmp (fun secs l => l.written secs ev) else m

/-! ### The buffer of a transforming view (R271) -/

/-- DEV ranges that `n` bytes of a view from offset `o` are computed from. -/
def viewSources (a : Aperture) (o n : Nat) : List (Nat × Nat) :=
  let w := devBits ((Fmt.ofEt (BitVec.ofNat 4 (aprField a 25 1))).getD .fp32)
  let nc := aprField a 28 4
  let nr := aprField a 32 4
  let base := aprField a 16 8
  let sc := aprField a 40 8
  let per := (nc + 31) / 32
  let els (e k : Nat) : Nat × Nat := (base + e * w / 8, (e * w % 8 + k * w + 7) / 8)
  if n = 0 then []
  else if aprField a 26 1 = 1 then
    let z := viewTileSize a
    let size := (thLayout w nr nc).size
    (List.range ((o + n - 1) / z - o / z + 1)).flatMap (fun i =>
      let t := o / z + i
      (base + t * size, size) :: (if aprField a 24 1 = 2 then [(sc + t * nr * per, nr * per)] else []))
  else
    match aprField a 24 1 with
    | 1 => (List.range ((8 * (o + n) + w - 1) / w - 8 * o / w)).filterMap (fun i =>
        let k := 8 * o / w + i
        if k < nr * nc then some (els (k % nr * nc + k / nr) 1) else none)
    | 2 => (List.range ((o + n - 1) / 2 - o / 2 + 1)).flatMap (fun i =>
        let e := o / 2 + i
        if e < nr * nc then [els e 1, (sc + e / nc * per + e % nc / 32, 1)] else [])
    | _ => if o < nr * nc then [els o (min n (nr * nc - o))] else []

/-- DEV ranges read by one access: each of their sectors registers once, and each of their lines is read once (R256,
R258). -/
def Mem.readOnce (m : Mem) (ch : Nat) (rs : List (Nat × Nat)) : Mem :=
  let secs := (rs.flatMap (fun q => secRange q.1 q.2)).eraseDups
  let lines := (rs.flatMap (fun q => linesOf q.1 q.2)).eraseDups
  lines.foldl (fun m line => m.onLine line false (fun l =>
    l.read ((List.range 4).filter (fun i => decide (4 * line + i ∈ secs))) (decide (ch = 1))))
    (secs.foldl (fun m sec => m.joinWindow ch sec) m)

/-- The tiles that reading `n` bytes of a view corrects are counted (R164, R178). -/
def State.readView (s : State) (ch : Nat) (a : Aperture) (o n : Nat) : State :=
  let fixes := viewFixes s.mem a o n
  { s with mem := s.mem.readOnce ch (viewSources a o n) }.onCore
    (fun k => if fixes = 0 then k else { k with thcnt := bumpField k.thcnt 0 fixes })

/-- What reading the pieces of an access from an address on does to the L2 and its read copies. -/
def State.noteRead (s : State) (ch : Nat) (va : Word) : List (Target × Nat) → State
  | [] => s
  | (.place p cmp, n) :: ts =>
    ({ s with mem := s.mem.readRange ch va p n cmp }).noteRead ch (va + BitVec.ofNat 64 n) ts
  | (.view a o, n) :: ts => (s.readView ch a o n).noteRead ch (va + BitVec.ofNat 64 n) ts

/-! ### Checks of an access (R211, R260, R268) -/

/-- The compression code of a line; raw where the tag store lists none (log 2). -/
def Mem.codeOf (m : Mem) (line : Nat) : Nat := ((m.codes.get? line).map (·.toNat)).getD 3

/-- Sectors that the fill of a line of a code reads (R267). -/
def codeSectors (code : Nat) : Nat := if code = 3 then 4 else code

/-- Does a sector hold an atom that the stack cannot correct (R260). -/
def Mem.badSector (m : Mem) (sec : Nat) : Bool := m.badAtoms.any (fun a => decide (a / 2 = sec))

/-- Offset of the first byte of a range whose line disagrees with a translation's attribute (R268). -/
def Mem.cattrAt (m : Mem) (p : Place) (n : Nat) (cmp : Bool) : Option Nat :=
  if p.space = .dev then
    ((linesOf p.addr n).find? (fun line => m.l2.any (fun l => decide (l.line = line) && (l.c != cmp)))).map
      (fun line => 512 * line - p.addr)
  else none

/-- Offset of the first byte of a read range that the HBM4 stack cannot deliver: of the sectors that no line holds, and
of a compressed line those that its fill reads (R260, R267). -/
def Mem.hwAt (m : Mem) (p : Place) (n : Nat) (cmp : Bool) : Option Nat :=
  if p.space = .dev ∧ m.badAtoms ≠ [] then
    (linesOf p.addr n).findSome? (fun line =>
      let absent := (lineSecs line p.addr n).filter (fun i => !m.present (devPlace (512 * line + 128 * i)))
      if cmp then
        if absent ≠ [] ∧ (List.range (codeSectors (m.codeOf line))).any (fun i => m.badSector (4 * line + i)) then some (512 * line - p.addr) else none
      else (absent.find? (fun i => m.badSector (4 * line + i))).map (fun i => 512 * line + 128 * i - p.addr))
  else none

/-- Does a read of a DEV range fail in the stack (R260). -/
def hwBad (m : Mem) (p : Place) (n : Nat) : Bool := (m.hwAt p n false).isSome

/-- The cause of the lower offset. -/
def lowerOf (a b : Option (Nat × Nat)) : Option (Nat × Nat) :=
  match a, b with
  | some x, some y => if y.2 < x.2 then some y else some x
  | some x, none => some x
  | none, y => y

/-- The first failure of a piece at its lines: CATTR, or HWERR of a read, with the offset of the failing byte (R211, R260,
R268). A view is read from its buffer's plain lines (R271). -/
def Mem.lineFault (m : Mem) (acc : Access) (t : Target) (n : Nat) : Option (Nat × Nat) :=
  let at_ (p : Place) (n : Nat) (cmp : Bool) : Option (Nat × Nat) :=
    lowerOf ((m.cattrAt p n cmp).map (fun o => (Cause.cattr, o)))
      (if acc = .write then none else (m.hwAt p n cmp).map (fun o => (Cause.hwerr, o)))
  match t with
  | .place p cmp => at_ p n cmp
  | .view a o =>
    if m.badAtoms.isEmpty && !m.l2.any (·.c) then none
    else (List.range n).findSome? (fun i =>
      (viewSources a (o + i) 1).findSome? (fun q => (at_ (devPlace q.1) q.2 false).map (fun c => (c.1, i))))

/-- The first failure of a piece beside its translation: of its lines, or of an aperture that it enters (R211, R270). -/
def State.pieceFault (s : State) (ctx : Nat) (acc : Access) (va : Word) (t : Target) (n : Nat) : Option (Nat × Nat) :=
  lowerOf (s.mem.lineFault acc t n) ((aprEntered (s.ctxOf ctx) va n).map (fun o => (Cause.ptebad, o)))

/-- One piece of a load- or store-slot access: its translation, then CMPRS (R268), the faults of its lines, and PRIV for the
port (R323). -/
def piece (s : State) (ctx : Nat) (sys : Bool) (acc : Access) (va : Word) (n : Nat) : Chk (Target × Nat) := do
  let t ← translate s ctx va acc
  match t with
  | .place p cmp =>
    if cmp then failAt Cause.cmprs va
    else
      let priv := if acc = .write ∧ sys = false then (portAt p n).map (fun o => (Cause.priv, o)) else none
      match lowerOf (s.pieceFault ctx acc va t n) priv with
      | some (cause, o) => failAt cause (va + BitVec.ofNat 64 o)
      | none => .ok (t, n)
  | .view _ _ =>
    match s.pieceFault ctx acc va t n with
    | some (cause, o) => failAt cause (va + BitVec.ofNat 64 o)
    | none => .ok (t, n)

/-- Every piece of an access, the lowest fault first (R211). -/
def resolve (s : State) (ctx : Nat) (sys : Bool) (acc : Access) (va : Word) (n : Nat) : Chk (List (Target × Nat)) :=
  (pieces va n (n / 65536 + 2)).mapM (fun q => piece s ctx sys acc q.1 q.2)

end Sys2Proof.Machine
end

