-- ==== Sys2Proof/Machine/Access.lean ====
section
/-! DEFINITION. Loads, stores and atomics of a core: the store queue, its order, and what performing a store does
(R206, R211, R237 to R250, R283, R323). -/

namespace Sys2Proof.Machine

/-- Bytes of a target as an agent reads them at their home: a load's value comes from no store queue (R238). -/
def State.loadTarget (s : State) (t : Target) (n : Nat) : List Byte :=
  match t with
  | .place p _ => s.mem.viewN p n
  | .view a o => (List.range n).map (fun i => viewByte s.mem a (o + i))

/-- Bytes of the pieces of an access. -/
def State.loadPieces (s : State) (ts : List (Target × Nat)) : List Byte :=
  ts.flatMap (fun t => s.loadTarget t.1 t.2)

/-- Does a piece of a store meet `n` bytes at a place. -/
def meetsPiece (p : Place) (n : Nat) (g : Place × List Byte) : Bool :=
  decide (g.1.space = p.space ∧ g.1.owner = p.owner ∧ g.1.addr < p.addr + n ∧ p.addr < g.1.addr + g.2.length)

/-- Does a queued store that `ok` admits write a byte of the pieces of a read. A view is exempt (R240), and so is the port,
which holds no bytes (R323). -/
def State.queueMeets (s : State) (ok : StoreEnt → Bool) (ts : List (Target × Nat)) : Bool :=
  s.core.storeQ.any (fun e => ok e && ts.any (fun t => match t.1 with
    | .place p _ => !inPort p && e.segs.any (meetsPiece p t.2)
    | .view _ _ => false))

/-- A scratchpad range wholly within the running kernel's banks (R206). -/
def spmIn (bank0 banks : Nat) (off : Int) (n : Nat) : Bool :=
  decide ((bank0 * 0x40000 : Int) ≤ off ∧ off + n ≤ ((bank0 + banks) * 0x40000 : Int))

/-- The running spar, where one runs. -/
def State.runOf (s : State) : Run :=
  s.core.run.getD { id := ⟨0, 0⟩, recVa := 0, ctx := 0, sys := false, rst := false, ss := false, lcore := 0, wid := 0,
                    prio := 0, kernel := none, bank0 := 0, banks := 0, home := false, started := 0 }

/-- The pieces of a load- or store-slot access to `n` bytes: the scratchpad's range (SPMRNG), or its translations
(R210, R211), with SSVIOL for an access outside the scratchpad in a compute phase (R287). -/
def access (s : State) (sp : Bool) (acc : Access) (ea : Word) (n : Nat) : Chk (List (Target × Nat)) :=
  let r := s.runOf
  if sp then
    if spmIn r.bank0 r.banks ea.toNat n then
      .ok [(.place { space := .spm, owner := r.lcore, addr := ea.toNat } false, n)]
    else failAt Cause.spmrng ea
  else if r.ss then failAt Cause.ssviol ea
  else resolve s r.ctx r.sys acc ea n

/-- Does more of the device answer than its recovery interface: it is on, and not in minimal mode (R20, R330, R333). -/
def State.serves (s : State) : Bool := !s.plat.min && decide (s.plat.pst ≠ 3)

/-- What the serving device does, and nothing of it otherwise. -/
def State.ifServes (s t : State) : State := if s.serves then t else s

/-- A power state P2 ends at a wake event (R333). -/
def State.wake (s : State) : State := if s.plat.pst = 2 then { s with plat := { s.plat with pst := 0 } } else s

/-! ### Line signatures (R249) -/

/-- The key of a line's signature; its slice is the key modulo 128. -/
def lineKey (p : Place) : Nat :=
  ((if p.space = .host then 1 else if p.space = .peer then 2 else 0) * 2 ^ 80 + p.owner * 2 ^ 60 + p.addr / 512) * 128
    + sliceOf p.addr

/-- The home slice of a line by its key. -/
def Mem.keySlice (m : Mem) (k : Nat) : Nat := m.homeSlice (k % 128)

/-- What an acquiring access collects from a line (R249, R313). -/
def Mem.collect (m : Mem) (p : Place) : BitVec 256 :=
  match p.space with
  | .peer => BitVec.allOnes 256
  | .spm => 0
  | _ =>
    match m.psig.find? (fun e => decide (e.1 = lineKey p)) with
    | some e => e.2
    | none => m.osig.getD (m.keySlice (lineKey p)) 0

/-- A releasing access performed at its line: RSIG ORed into PSIG, or in its place; an RSIG of zero leaves PSIG (R249). A
slice keeps 256 line signatures; the oldest leaves into OSIG. -/
def Mem.release (m : Mem) (p : Place) (sig : BitVec 256) (new : Bool) : Mem :=
  if sig = 0 ∨ p.space = .spm then m
  else
    let k := lineKey p
    match m.psig.find? (fun e => decide (e.1 = k)) with
    | some _ =>
      { m with psig := m.psig.map (fun e => if e.1 = k then (k, if new then sig else e.2 ||| sig) else e) }
    | none =>
      let same := m.psig.filter (fun e => decide (m.keySlice e.1 = m.keySlice k))
      match same with
      | old :: _ =>
        if same.length < 256 then { m with psig := m.psig ++ [(k, sig)] }
        else
          { m with psig := m.psig.filter (fun e => decide (e.1 ≠ old.1)) ++ [(k, sig)],
                   osig := m.osig.putD (m.keySlice k) 0 (m.osig.getD (m.keySlice k) 0 ||| old.2) }
      | [] => { m with psig := m.psig ++ [(k, sig)] }

/-! ### Performing stores -/

/-- The completion-log entries that accepted launches and waiting fences will still take (R323). -/
def State.reservedEntries (s : State) : Nat :=
  (s.sched.launches.filter (fun e => e.2.packet && !e.2.finished)).length + s.host.fences.length

/-- Has the completion log room for one more packet's entries (R323). -/
def State.logRoom (s : State) : Bool :=
  let h := s.host
  decide ((h.head.toNat + 2 ^ 64 - h.tail.toNat) % 2 ^ 64 + s.reservedEntries + 2 ≤ h.cpln.toNat)

/-- A store to the command port writes the packet latch; the port acts when bytes 0 to 7 are written (R323). -/
def HostIf.portStore (h : HostIf) (o : Nat) : List Byte → HostIf
  | [] => h
  | b :: bs =>
    { h with latch := setField h.latch (8 * (o % 64)) 8 b.toNat, portWrite := h.portWrite || decide (o % 64 < 8) }.portStore
      (o + 1) bs

/-- A store of this device to HOST or PEER sectors may drop their read copies beside updating them: a free value each time
(R238; log 18). -/
def State.shedCopies (s : State) (p : Place) (n : Nat) : State :=
  let keys := (secRange p.addr n).map (fun sec => ({ p with addr := 128 * sec } : Place).copyKey)
  let held := keys.filter (fun k => (s.mem.copies.get? k).isSome)
  if (p.space = .host ∨ p.space = .peer) ∧ held ≠ [] then
    { s with mem := s.mem.dropCopies (fun k => decide (k ∈ held) && Config.dropsCopy s.tick k), tick := s.tick + 1 }
  else s

/-- Window lines recalled from the host before an agent of the device writes them, or reads one that the host has changed
(R15, R321). -/
def State.recall (s : State) (write : Bool) (p : Place) (n : Nat) : State :=
  if p.space = .dev ∧ s.host.hostHeld ≠ [] then
    let met (l : Nat) : Bool := decide (p.addr / 64 ≤ l ∧ l ≤ (p.addr + n - 1) / 64)
    let gone (l : Nat) : Bool := met l && (write || decide (l ∈ s.host.hostDirty))
    { s with host := { s.host with hostHeld := s.host.hostHeld.filter (fun l => !gone l),
                                   hostDirty := s.host.hostDirty.filter (fun l => !gone l) } }
  else s

/-- The window lines that reading the pieces of an access recalls. -/
def State.recallRead (s : State) (ts : List (Target × Nat)) : State :=
  ts.foldl (fun s t => match t.1 with
    | .place p _ => s.recall false p t.2
    | .view a o => (viewSources a o t.2).foldl (fun s q => s.recall false (devPlace q.1) q.2) s) s

/-- What a read of an agent does beside delivering its bytes: host-changed lines are recalled, and its lines are filled
(R238, R255, R256, R321). -/
def State.readDone (s : State) (ch : Nat) (va : Word) (ts : List (Target × Nat)) : State :=
  (s.recallRead ts).noteRead ch va ts

/-- A range of a store outside the command port performed at every scope, firing monitors; `ev` says that its CH is 01 (R30,
R237, R238, R255, R256, R283). -/
def State.performAt (s : State) (ev : Bool) (p : Place) (bs : List Byte) : State :=
  let n := bs.length
  (({ s with mem := (s.mem.perform p bs).wroteRange p n false ev,
             sched := { s.sched with monitors := fireAt s.sched.monitors p n } }).recall true p n).shedCopies p n

/-- A range of a store performed; what of it lies in the command port reaches the packet latch (R323). -/
def State.performCh (s : State) (ev : Bool) (p : Place) (bs : List Byte) : State :=
  match portAt p bs.length with
  | none => s.performAt ev p bs
  | some k =>
    let s1 := if k = 0 then s else s.performAt ev p (bs.take k)
    { s1 with host := s1.host.portStore (p.addr + k - portBase) (bs.drop k) }

/-- A range of a store performed under the usual CH. -/
def State.performSeg (s : State) (p : Place) (bs : List Byte) : State := s.performCh false p bs

/-- The ranges of a store performed. -/
def State.performSegs (s : State) (segs : List (Place × List Byte)) : State :=
  segs.foldl (fun s seg => s.performSeg seg.1 seg.2) s

/-- The places of the pieces of an access; a transforming view has none. -/
def placesOf (ts : List (Target × Nat)) : List (Place × Nat) :=
  ts.filterMap (fun t => match t.1 with
    | .place p _ => some (p, t.2)
    | .view _ _ => none)

/-- Bytes dealt to places in order. -/
def dealBytes : List (Place × Nat) → List Byte → List (Place × List Byte)
  | [], _ => []
  | (p, n) :: ps, bs => (p, bs.take n) :: dealBytes ps (bs.drop n)

/-- A range of a store: virtual address, pieces, bytes. -/
structure Range where
  va : Word
  ts : List (Target × Nat)
  bs : List Byte
  deriving DecidableEq, Repr

/-- The bytes of a store that the device performs together: an aligned word of 8 bytes, 64 bytes of the command port, and
what goes to a peer in one transaction (R240, R308, R323). -/
def unitSize (p : Place) : Nat := if inPort p then 64 else 8

/-- A range of a store cut into the pieces that are performed one at a time (R240, R253). -/
def cutUnits : Nat → Place → List Byte → List (Place × List Byte)
  | 0, _, _ => []
  | fuel + 1, p, bs =>
    if bs = [] then []
    else if p.space = .peer then [(p, bs)]
    else
      let k := unitSize p - p.addr % unitSize p
      (p, bs.take k) :: cutUnits fuel (p.off k) (bs.drop k)

/-- The pieces of the ranges of a store. -/
def storeUnits (rs : List Range) : List (Place × List Byte) :=
  (rs.flatMap (fun r => dealBytes (placesOf r.ts) r.bs)).flatMap (fun g => cutUnits (g.2.length + 1) g.1 g.2)

/-- A store enters the store queue at commit; its sectors outside the scratchpad enter WSIG (R211, R247). A releasing
store takes RSIG with its mark, which clears, and its agent scope (R246). -/
def State.queueStore (s : State) (addr : Word) (rs : List Range) (rel sp : Bool) (scope ch : Nat := 0) : State :=
  let k := s.core.ctx.kept
  let e : StoreEnt := { segs := storeUnits rs, ch := ch, va := ((rs.head?).map (·.va)).getD 0,
                        addr := addr, id := s.runOf.id, rel := if rel then some (k.rsig, k.rsigNew) else none,
                        scope := scope, seq := s.core.cmdSeq, lcore := s.runOf.lcore }
  let sig := rs.foldl (fun g r => g ||| sigRange r.va r.bs.length) k.wsig
  s.onCore (fun c =>
    { c with storeQ := c.storeQ ++ [e],
             ctx := { c.ctx with kept := { k with
               wsig := if sp then k.wsig else sig,
               rsig := if rel then 0 else k.rsig, rsigNew := if rel then false else k.rsigNew } } })

/-- Bytes that the device itself reads through a context's translation. -/
def deviceRead (s : State) (ctx : Nat) (va : Word) (n : Nat) : Chk (List Byte) := do
  let ts ← resolve s ctx true .read va n
  .ok (ts.flatMap (fun t => match t.1 with
    | .place p _ => s.mem.viewN p t.2
    | .view a o => (List.range t.2).map (fun i => viewByte s.mem a (o + i))))

/-- What the device's own read of a range through a context's translation does beside delivering its bytes. -/
def State.noteDevice (s : State) (ctx : Nat) (va : Word) (n : Nat) : State :=
  match resolve s ctx true .read va n with
  | .ok ts => s.readDone 0 va ts
  | .error _ => s

/-- What the device's own read of DEV at a physical address does beside delivering its bytes. -/
def State.noteDev (s : State) (a n : Nat) : State := s.readDone 0 0 [(.place (devPlace a) false, n)]

/-- The places that the device itself writes through a context's translation. -/
def deviceDest (s : State) (ctx : Nat) (va : Word) (n : Nat) : Chk (List (Place × Nat)) := do
  let ts ← resolve s ctx true .write va n
  .ok (placesOf ts)

/-- Bytes that the device itself writes through a context's translation, performed at once. -/
def deviceWrite (s : State) (ctx : Nat) (va : Word) (bs : List Byte) : Chk State := do
  let ps ← deviceDest s ctx va bs.length
  .ok (s.performSegs (dealBytes ps bs))

/-- A space as the order of stores takes it: PEER by its device (R239). -/
def Place.home (p : Place) : Space × Nat := (p.space, if p.space = .peer then p.owner else 0)

/-- The spaces that a queued store writes. -/
def StoreEnt.homes (e : StoreEnt) : List (Space × Nat) := e.segs.map (fun g => g.1.home)

/-- Is a storage space among those of an SMASK (R32). -/
def inMask (mask : BitVec 4) (sp : Space) : Bool :=
  match sp with
  | .spm => mask.getLsbD 0
  | .dev => mask.getLsbD 1
  | .host => mask.getLsbD 2
  | .peer => mask.getLsbD 3

/-- Does a queued store hold back a later access to a home, or to the whole of its space: it writes there and has not been
performed. One whose transactions have taken their PSNs holds back no later store of its pair, whose order they keep (R239,
R307). -/
def StoreEnt.holds (e : StoreEnt) (whole : Bool) (h : Space × Nat) : Bool :=
  e.homes.any (fun q => decide (q.1 = h.1) && (whole || (decide (q.2 = h.2) && !(decide (q.1 = .peer) && decide (e.sent ≠ 0)))))

/-- The implied spaces that a releasing access of a scope waits for besides its own: at CORE scope a DEV store needs only to
have left the queue (R237, R246). -/
def releaseSpaces (scope : Nat) : List Space := if scope = 0 then [.spm] else [.spm, .dev]

/-- Does the port take a write of `n` bytes at an offset of its latch now: one of bytes 0 to 7 waits until the port has taken
the packet before, and, where it would be accepted, until the completion log has room (R323). -/
def State.portReady (s : State) (o : Nat) (bs : List Byte) : Bool :=
  decide (8 ≤ o % 64) ||
    (!s.host.portWrite && (!s.host.ctl.getLsbD 0 || s.logRoom
      || decide ((s.host.portStore o bs).latch.extractLsb' 0 64 ≠ s.host.next)))

/-- May a piece of a store be performed behind the stores before it: none of them holds its home (R239), and for a releasing
store none of them in an implied space, the whole of PEER among them (R246). -/
def StoreEnt.mayPerform (e : StoreEnt) (before : List StoreEnt) (g : Place × List Byte) : Bool :=
  let implied : List Space := if e.rel.isSome then releaseSpaces e.scope else []
  before.all (fun b => !b.holds (e.rel.isSome && decide (e.scope ≠ 0)) g.1.home && !implied.any (fun sp => b.holds true (sp, 0)))

/-- Is a piece the first that a store still has at the command port, and does the port take it; any piece elsewhere (R323). -/
def State.portAllows (s : State) (e : StoreEnt) (g : Place × List Byte) : Bool :=
  !inPort g.1 || (decide ((e.segs.filter (fun q => inPort q.1)).head? = some g) && s.portReady (g.1.addr - portBase) g.2)

/-- The pieces of the `n`-th queued store that may be performed now; none of a store whose transactions are under way, and
those of peers together (R211). -/
def State.readyUnits (s : State) (n : Nat) : List (Place × List Byte) :=
  match s.core.storeQ[n]? with
  | none => []
  | some e =>
    if e.sent ≠ 0 then []
    else
      let may := e.mayPerform (s.core.storeQ.take n)
      e.segs.filter (fun g => may g && s.portAllows e g &&
        (decide (g.1.space ≠ .peer) || e.segs.all (fun q => decide (q.1.space ≠ .peer) || may q)))

/-- May a piece of the `n`-th queued store be performed. -/
def storeReady (s : State) (n : Nat) : Bool := !(s.readyUnits n).isEmpty

/-- A store that leaves the queue toward its home takes with it those before it that write a home of its own, so that stores
to one space are performed at CORE scope in their order (R237, R239). The queue, and the homes that have left. -/
def leaveTogether : List StoreEnt → List StoreEnt × List (Space × Nat)
  | [] => ([], [])
  | e :: es =>
    let r := leaveTogether es
    let gone := e.left || e.homes.any (· ∈ r.2)
    ({ e with left := gone } :: r.1, if gone then e.homes ++ r.2 else r.2)

/-- The stores that `p` names leave the queue (R237). -/
def State.leaveQueue (s : State) (p : StoreEnt → Bool) : State :=
  s.onCore (fun k => { k with storeQ := (leaveTogether (k.storeQ.map (fun q => { q with left := q.left || p q }))).1 })

/-- The stores before a releasing access of CORE scope leave, of its implied spaces (R246). -/
def State.releaseLeft (s : State) (scope seq : Nat) : State :=
  if scope = 0 then s.leaveQueue (fun q => decide (q.seq < seq) && q.homes.any (fun h => decide (h.1 = .dev ∨ h.1 = .spm)))
  else s

/-- The place of the first byte of a queued store. -/
def StoreEnt.first (e : StoreEnt) : Place := ((e.segs.head?).map (·.1)).getD { space := .spm, owner := 0, addr := 0 }

/-- Are there queued stores in a space that satisfies `p`. -/
def queuedIn (s : State) (p : Space → Bool) : Bool := s.core.storeQ.any (fun e => e.homes.any (fun h => p h.1))

/-- Request entries that the engines of the core hold: one for each sector in flight on the fabric (R242). -/
def engineRequests (s : State) : Nat :=
  (s.fabric.out.filter (fun o => decide (o.core = s.core.num) && o.store.isNone)).length

/-- The sectors outside the scratchpad that a queued store has still to write (R242). -/
def StoreEnt.entries (e : StoreEnt) : Nat :=
  ((e.segs.filter (fun g => decide (g.1.space ≠ .spm))).flatMap (fun g =>
    (secRange g.1.addr g.2.length).map (fun i => (g.1.home, i)))).eraseDups.length

/-- Request entries in use: those of the queued stores and of the engines (R242). -/
def requestsUsed (s : State) : Nat := engineRequests s + s.core.storeQ.foldl (fun n e => n + e.entries) 0

/-- Are `n` request entries free for the load and store slots (R242). -/
def requestsFree (s : State) (n : Nat) : Bool := decide (requestsUsed s + n ≤ 2048)

/-- Is a request entry free for an engine: the engines share those that are not held back for the load and store slots
(R242). -/
def engineFree (s : State) : Bool := decide (engineRequests s + 1 ≤ 1536) && requestsFree s 1

end Sys2Proof.Machine
end

