-- ==== Sys2Proof/Machine/Operands.lean ====
section
/-! DEFINITION. What a slot reads at issue and what it answers; every operand form of the vector slots (R33 to R35,
R107 to R113) and of the load, store and copy slots (R100, R103). -/

namespace Sys2Proof

open Machine

namespace Machine

/-- What a slot sees at issue: the snapshot, its slot number, the images its bundle pops (slot, operand, image), the
queues its bundle names in pops, the counter base it is allotted, whether the bundle's matrix instruction is a CPYF's
follow-on (R41, R74, R231), and the request entries that slots before it take (R242). -/
structure Env where
  s : State
  slot : Nat
  pops : List (Nat × Nat × BitVec 512) := []
  named : List Nat := []
  srBase : Word := 0
  follow : Bool := false
  ldNeed : Nat := 0

/-- The snapshot's context. -/
def Env.c (e : Env) : Ctx := e.s.core.ctx

/-- The answer of a slot: the bundle is held, the slot faults, or its effects at commit. -/
inductive SlotOut where
  | wait
  | trap (t : TrapInfo)
  | ok (f : State → State)

/-- A slot that changes the context only. -/
def SlotOut.ctx (f : Ctx → Ctx) : SlotOut := .ok (fun s => s.onCtx f)

/-- A fault of a cause. -/
def SlotOut.fault (cause : Nat) (det : Nat := 0) (addr : Word := 0) : SlotOut :=
  .trap { cause := cause, det := det, addr := addr }

/-- A checked computation and what follows it. -/
def SlotOut.bind {α : Type} (x : Chk α) (f : α → SlotOut) : SlotOut :=
  match x with
  | .error t => .trap t
  | .ok a => f a

/-- A fault where a condition holds, and what follows where it does not. -/
def SlotOut.unless (bad : Bool) (cause : Nat) (det : Nat) (addr : Word) (k : SlotOut) : SlotOut :=
  if bad then .trap { cause := cause, det := det, addr := addr } else k

/-! ### Vector operands -/

end Machine

/-- A tile operand's name. -/
def Opnd.tile (o : Opnd) : TileName := ⟨o.lvl.toNat, o.idx.toNat⟩

/-- Is the operand a tile (levels 00 to 10). -/
def Opnd.isTile (o : Opnd) : Bool := decide (o.lvl ≠ 3)

/-- The class of a special operand (R35): 0 zero, 1 small immediate, 2 pop, 3 reserved. -/
def Opnd.special (o : Opnd) : Nat := bits o.idx.toNat 9 2

/-- The signed small immediate (R35). -/
def Opnd.imm (o : Opnd) : Int := (o.idx.extractLsb' 0 9).toInt

/-- The raw field of a control operand (R110). -/
def Opnd.ctl (o : Opnd) : Nat := bits o.idx.toNat 0 9

/-- Is the operand a queue pop. -/
def Opnd.isPop (o : Opnd) : Bool := !o.isTile && decide (o.special = 2)

namespace Machine

/-- Rows of the view (R106, R107). -/
def Ctx.nr (c : Ctx) : Nat := bits c.shape.toNat 0 4 + 1

/-- Bytes per row of the view. -/
def Ctx.nb (c : Ctx) : Nat := bits c.shape.toNat 8 6 + 1

/-- Elements per row at a width of `w` bits (R107). -/
def Ctx.nc (c : Ctx) (w : Nat) : Nat := 8 * c.nb / w

/-- A position of an extent: element (i, j) and its place `p` along a line. -/
structure Pos where
  i : Nat
  j : Nat
  p : Nat
  deriving DecidableEq, Repr

/-- The positions of a whole view or of a line `k`, in row-major order (R108, R109); none in a view without elements
(R107). -/
def extent (dir k nr nc : Nat) : List Pos :=
  if nc = 0 then []
  else match dir with
  | 0 => (List.range nr).flatMap (fun i => (List.range nc).map (fun j => ⟨i, j, j⟩))
  | 1 => (List.range nc).map (fun p => ⟨k, p, p⟩)
  | 2 => (List.range nr).map (fun p => ⟨p, k, p⟩)
  | _ => (List.range nr).map (fun p => ⟨p, (p + k) % nc, p⟩)

/-- Is a line valid (R108); a view without elements raises nothing (R107). -/
def lineValid (dir k nr nc : Nat) : Bool :=
  decide (nc = 0) || (match dir with
    | 0 => true
    | 1 => decide (k < nr)
    | _ => decide (k < nc))

/-- The length of a line (R108). -/
def lineLen (dir nr nc : Nat) : Nat := if dir = 1 then nc else nr

/-- What a source operand supplies. -/
inductive Src where
  | tile (t : Tile) (dir : Nat)
  | const (code : Nat)
  | image (img : BitVec 512)
  deriving DecidableEq, Repr

/-- The direction a source has in R109; an image is a row (R110). -/
def Src.dir : Src → Nat
  | .tile _ d => d
  | .const _ => 0
  | .image _ => 1

/-- The row and column of the element that a tile source supplies at a position of an extent of direction `dd` (R109). -/
def Src.cell (src : Src) (dd k nc : Nat) (q : Pos) : Pos :=
  if dd = 0 then
    match src.dir with
    | 1 => ⟨k, q.j, q.p⟩
    | 2 => ⟨q.i, k, q.p⟩
    | _ => q
  else
    match src.dir with
    | 0 => q
    | 1 => ⟨k, q.p, q.p⟩
    | 2 => ⟨q.p, k, q.p⟩
    | _ => ⟨q.p, (q.p + k) % nc, q.p⟩

/-- The element of a source at a position of an extent of direction `dd` (R109, R110). -/
def Src.at (src : Src) (dd k w nc : Nat) (q : Pos) : Nat :=
  let el (t : Tile) (i j : Nat) := tileField t (512 * i + w * j) w
  match src with
  | .const c => c
  | .image img => (img.extractLsb' (w * q.j) w).toNat
  | .tile t d => let c := (Src.tile t d).cell dd k nc q; el t c.i c.j

/-- An image in a line extent takes its element by position. -/
def Src.atPos (src : Src) (dd k w nc : Nat) (q : Pos) : Nat :=
  match src with
  | .image img => (img.extractLsb' (w * (if dd = 0 then q.j else q.p)) w).toNat
  | s => s.at dd k w nc q

/-- May a source stand with an extent of direction `dd` (R109); a view without elements raises nothing (R107). -/
def Src.fits (src : Src) (dd k nr nc : Nat) : Bool :=
  decide (nc = 0) || (match src with
    | .const _ => true
    | .image _ => decide (dd = 0) || decide (lineLen dd nr nc = nc)
    | .tile _ d =>
      lineValid d k nr nc &&
        (if dd = 0 then decide (d ≠ 3) else decide (d = 0) || decide (lineLen d nr nc = lineLen dd nr nc)))

/-- The storage code of a small immediate (R35). -/
def immCode (f : Fmt) (n : Int) : Nat := (roundF f 0 (.ofInt n) .rne 0).1

/-- The source of operand number `k`, before NEG; `f` gives the type of constants. -/
def Env.src (e : Env) (f : Fmt) (k : Nat) (o : Opnd) : Src :=
  if o.isTile then .tile (e.c.rt o.tile) o.dir.toNat
  else match o.special with
    | 0 => .const 0
    | 1 => .const (immCode f o.imm)
    | _ => .image (((e.pops.find? (fun q => decide (q.1 = e.slot ∧ q.2.1 = k))).map (·.2.2)).getD 0)

/-- NEG on an arithmetic source: the sign bit inverted, or two's-complement negation (R113). -/
def negCode (f : Fmt) (code : Nat) : Nat :=
  match f.float? with
  | some q => code ^^^ 2 ^ (q.w + q.p)
  | none => (2 ^ f.bits - code % 2 ^ f.bits) % 2 ^ f.bits

/-- NEG on a bitwise source: the complement (R113). -/
def notCode (f : Fmt) (code : Nat) : Nat := 2 ^ f.bits - 1 - code % 2 ^ f.bits

end Machine

/-- The element mask a vector slot names (R27, R111). -/
def VArgs.mask (a : VArgs) (c : Ctx) : Option (BitVec 512) :=
  if a.g2.getLsbD 3 then some (c.rm (a.g2.extractLsb' 0 3)) else none

namespace Machine

/-- Does a mask let position (i, j) be written (R111). -/
def maskOn (m : Option (BitVec 512)) (i j : Nat) : Bool :=
  match m with
  | none => true
  | some m => m.getLsbD (32 * i + j % 32)

end Machine

/-- The latch that LAT names. -/
def VArgs.latch (a : VArgs) : TileName := ⟨2, a.ch.toNat⟩

/-- A tile destination of a vector slot, unless NEG suppresses it, or WBS does and it is no latch (R27, R33). -/
def VArgs.dest (a : VArgs) (o : Opnd) : List TileName :=
  if o.neg || (a.wbs && decide (o.lvl ≠ 2)) then [] else [o.tile]

/-- The destinations of a vector slot's OPD0: the tile and the latch of LAT (R27, R33, R105). -/
def VArgs.dests (a : VArgs) : List TileName := a.dest a.o0 ++ (if a.lat then [a.latch] else [])

namespace Machine

/-- Element writes on several destinations. -/
def Ctx.wts (c : Ctx) (ds : List TileName) (ws : List FieldWr) : Ctx := ds.foldl (fun c d => c.wt d ws) c

/-- The writes of computed elements under a mask: a masked element is zeroed where ZER is set and kept otherwise, and
raises no flag (R111). -/
def maskedWrites (m : Option (BitVec 512)) (zer : Bool) (w : Nat) (els : List (Pos × Nat × Flags)) :
    List FieldWr × Flags :=
  els.foldl (fun acc q =>
    let off := 512 * q.1.i + w * q.1.j
    if maskOn m q.1.i q.1.j then (acc.1 ++ [⟨off, w, q.2.1⟩], acc.2.join q.2.2)
    else if zer then (acc.1 ++ [⟨off, w, 0⟩], acc.2)
    else acc) ([], .none)

/-- An element-wise operation (R109, R111, R113): element `n` of the extent, at a position, is `f n q`. VLINE where a
line is invalid or a pairing forbidden (R108). -/
def elementwise (e : Env) (a : VArgs) (w : Nat) (srcs : List Src) (f : Nat → Pos → Nat × Flags) : SlotOut :=
  let c := e.c
  let nr := c.nr
  let nc := c.nc w
  let k := a.line.toNat
  let dd := a.o0.dir.toNat
  if !lineValid dd k nr nc || !(srcs.all (fun s => s.fits dd k nr nc)) then .fault Cause.vline
  else
    let els := (extent dd k nr nc).zipIdx.map (fun q => (q.1, f q.2 q.1))
    let (ws, fl) := maskedWrites (a.mask c) a.o0.zer w els
    .ok (fun s => (s.onCtx (fun c => c.wts a.dests ws)).raise fl)

end Machine

/-- The element type of a vector slot; a well-formed slot has one. -/
def VArgs.fmt (a : VArgs) : Fmt := (Fmt.ofEt a.et).getD .fp32

namespace Machine

/-! ### Address operands -/

/-- The effective address of an address register (R100); NCANON where it is not canonical. -/
def Ctx.ea (c : Ctx) (a : BitVec 5) : Chk Word :=
  let sum := (c.ra a).sum
  if canonical sum then .ok ((sum.extractLsb' 0 57).setWidth 64) else failAt Cause.ncanon sum

/-- The update of R102 on an address register, by its STEP. -/
def Ctx.stepA (c : Ctx) (a : BitVec 5) : Ctx := c.wa a ((c.ra a).update (c.ra a).step)

end Machine

/-- The X register a scalar DAT names (R30). -/
def Opnd.xreg (o : Opnd) : BitVec 6 := o.idx.extractLsb' 0 6

namespace Machine

/-- An element-wise rounding operation's stochastic word (R72). -/
def Env.sr (e : Env) (n : Nat) : Nat := srWord e.c.kept.seedtop e.srBase n

end Machine

end Sys2Proof
end

