-- ==== Sys2Proof/Machine/Queue.lean ====
section
/-! DEFINITION. The ready queues: which spars a core may run, the forecast, and joining a queue (R276, R285, R289, R290). -/

namespace Sys2Proof.Machine

/-- Cores of the partition, the one that moves first. -/
def State.allCoresList (s : State) : List Core := s.core :: s.others

/-- A change of every core. -/
def State.allCores (s : State) (f : Core → Core) : State := { s with core := f s.core, others := s.others.map f }

/-- The launch of a number. -/
def State.launchOf (s : State) (n : Nat) : Option Launch := s.sched.launches.get? n

/-- The record address of a spar. -/
def Launch.recVa (l : Launch) (i : Nat) : Word := l.sparb + BitVec.ofNat 64 (64 * i)

/-- The key of what is kept for a spar. -/
def SparId.key (i : SparId) : Nat := i.launch * 2 ^ 32 + i.idx

/-- The kernel resident on a logical core whose code contains an address (R278). -/
def State.kernelOf (s : State) (lc ctx : Nat) (pc : Word) : Option Nat :=
  (s.kernels.find? (fun k => decide (k.2.ctx = ctx ∧ lc ∈ k.2.lcores ∧ k.2.entry ≤ pc.toNat % 2 ^ 57 ∧
    pc.toNat % 2 ^ 57 < k.2.entry + 64 * k.2.bundles))).map (·.1)

/-- Spars that a launch generates: the product of its extents (R275). -/
def Launch.total (l : Launch) : Nat := l.ext.foldl (· * ·) 1

/-- Spars of one group: the product of the extents below the deepest level that asks for affinity; none without such a
level (R276). -/
def Launch.group (l : Launch) : Option Nat :=
  match ((List.range l.lw.length).filter (fun k => l.affm.testBit k)).getLast? with
  | some k => some ((l.ext.drop (k + 1)).foldl (· * ·) 1)
  | none => none

/-- The logical core on which generated spar `n` stands (R276). -/
def Launch.coreOf (l : Launch) (n : Nat) : Nat := (match l.group with | some g => n / g | none => n) % 96

/-- The lowest spar of a launch not yet generated that satisfies `p`; every physical core is met within 96 groups. -/
def Launch.nextFor (l : Launch) (p : Nat → Bool) : Option Nat :=
  (List.range l.total).find? (fun n => p n && !l.generated.contains n)

/-- The address at which a spar first starts: its record's as it was written, or the launch's ENTRY before that (R276, R278). -/
def State.entryOf (s : State) (l : Launch) (r : Ready) : Word :=
  match s.sched.kept.get? r.id.key with
  | some k => sext57 (BitVec.ofNat 64 (bits (ofBytes ((k.first.drop 8).take 8)) 6 51 * 64))
  | none => l.entry

/-- The kernel that a spar is of on a logical core: the one it was created in where that is resident there, else the one
resident there whose code holds the spar's entry (R278). -/
def State.kernFor (s : State) (r : Ready) (lc : Nat) : Option Nat :=
  let resident (k : Nat) : Bool := (s.kernels.get? k).any (fun q => decide (lc ∈ q.lcores))
  match r.kern.filter resident with
  | some k => some k
  | none => ((s.launchOf r.id.launch).bind (fun l => s.kernelOf lc l.ctx (s.entryOf l r))).orElse
      (fun _ => r.kern.filter (fun k => (s.kernels.get? k).isSome))

/-- Does a core hold a spar of a kernel that is bound there, other than `id` (R208). -/
def State.excluded (s : State) (id : Option SparId) (kern : Option Nat) (lc : Nat) : Bool :=
  match kern with
  | none => false
  | some k =>
    s.sched.ready.any (fun r => decide (r.live = some k ∧ r.lc = lc ∧ some r.id ≠ id)) ||
      s.sched.waiting.any (fun r => decide (r.live = some k ∧ r.lc = lc ∧ some r.id ≠ id))

/-- Is a launch held behind a fence with BAR (R325). -/
def State.barred (s : State) (l : Launch) : Bool :=
  l.packet && s.host.fences.any (fun f => f.bar && decide (f.cseq.toNat < l.cseq.toNat))

/-- May a launch's spars be picked. -/
def State.pickable (s : State) (n : Nat) : Bool :=
  match s.launchOf n with
  | some l => !l.ended && !s.barred l
  | none => false

/-- May a ready spar run on a core: not barred, not excluded, not bound elsewhere, and no other's chunk in the on-core
part (R276, R285, R298). -/
def State.runnable (s : State) (k : Core) (r : Ready) : Bool :=
  s.pickable r.id.launch && !s.excluded (some r.id) (s.kernFor r r.lc) r.lc &&
    (match r.bound with
     | some lc => decide (lc % s.pcores = k.num)
     | none => true) &&
    decide (k.rskHeld = none ∨ k.rskHeld = some r.id)

/-- 16 x RUN of a bundle (R24); zero where it cannot be read (log 35). -/
def State.statedRun (s : State) (ctx : Nat) (pc : Word) : Nat :=
  match deviceRead s ctx (pc &&& 0x1FFFFFFFFFFFFFF) 64 with
  | .ok bs => 16 * (Hdr.ofBits ((BitVec.ofNat 512 (ofBytes bs)).extractLsb' 488 24)).run.toNat
  | .error _ => 0

/-- Spar `n` of a launch's virtual tail as it is generated on a logical core (R276). -/
def State.virtualReady (s : State) (ln : Nat) (l : Launch) (n lc core : Nat) : Ready :=
  { id := ⟨ln, n⟩, cls := l.cls, core := core, lc := lc, srun := s.statedRun l.ctx l.entry,
    bound := l.group.map (fun _ => lc), kern := s.kernelOf lc l.ctx l.entry }

/-- The spars of a launch's virtual tail that stand on a core and may run there (R276, R285). -/
def State.tailOn (s : State) (k : Core) (ln : Nat) (l : Launch) : List Ready :=
  if l.finished then []
  else (((List.range l.total).filter (fun n => decide (l.coreOf n % s.pcores = k.num) && !l.generated.contains n)).map
    (fun n => s.virtualReady ln l n (l.coreOf n) k.num)).filter (s.runnable k)

/-- Ready spars of a core's queues that have a head there: those the core may run, with the spars of virtual tails that are
not yet created (R276, R285, R289, R290; log 5). -/
def State.readyOn (s : State) (k : Core) : List Ready :=
  s.sched.ready.filter (fun r => decide (r.core = k.num) && s.runnable k r)
    ++ s.sched.launches.flatMap (fun e => s.tailOn k e.1 e.2)

/-- 16 x RUN of the bundle a core runs, or is about to run: the running spar's, its yield bundle once that has committed, or
the resume PC's in the record of the spar just picked (R24, R290). -/
def State.currentRun (s : State) (k : Core) : Nat :=
  match k.phase, k.run with
  | .picked r, _ => match s.launchOf r.id.launch with
    | some l => match deviceRead s l.ctx (l.recVa r.id.idx + 8) 8 with
      | .ok bs => s.statedRun l.ctx (BitVec.ofNat 64 (bits (ofBytes bs) 6 51 * 64))
      | .error _ => 0
    | none => 0
  | .yielding, some r => 16 * r.runField
  | _, some r => s.statedRun r.ctx k.pc
  | _, none => 0

/-- S of R290: 16 x RUN of the current bundle, and the SRUN of every ready spar that has a head on the core. -/
def State.forecastSum (s : State) (k : Core) : Nat := (s.readyOn k).foldl (fun n r => n + r.srun) (s.currentRun k)

/-- FCST of one core taken anew, unless HOLD (R290). -/
def State.forecastAt (s : State) (n : Nat) : State :=
  s.allCores (fun k =>
    if k.num = n ∧ !k.afr.getLsbD 16 then { k with afr := setField k.afr 0 8 (min 255 (255 * s.forecastSum k / 19200)) }
    else k)

/-- A spar joins the tail of its class queue on a core (R285, R290). -/
def State.joinQueue (s : State) (r : Ready) : State :=
  ({ s with sched := { s.sched with ready := s.sched.ready ++ [r] } }).forecastAt r.core

/-- A waiting spar becomes ready: its WAIT is met, or its stop is answered (R282, R299). -/
def State.rejoin (s : State) (w : Waiting) : State :=
  let r : Ready := { id := w.id, cls := w.cls, core := w.core, lc := w.lc, srun := w.srun, bound := w.bound, live := w.live,
                     kern := w.kern }
  { s with sched := { s.sched with waiting := s.sched.waiting.filter (fun v => decide (v.id ≠ w.id)) } }.joinQueue r

end Sys2Proof.Machine
end

