-- ==== Sys2Proof/Machine/Scalar.lean ====
section
/-! DEFINITION. Integer, comparison, selection and predicate operations of the scalar slot (R86 to R93). -/

namespace Sys2Proof.Machine

/-- A scalar operation that writes Xd. -/
def setX (rd : BitVec 6) (v : Word) : SlotOut := .ctx (fun c => c.wx rd v)

/-- A scalar operation that writes Pd, named by the low bits of RD. -/
def setP (rd : BitVec 6) (v : Bool) : SlotOut := .ctx (fun c => c.wp (rd.extractLsb' 0 4) v)

/-- Number of one bits in the low `n` bits. -/
def popcount : Nat → Nat → Nat
  | 0, _ => 0
  | n + 1, v => v % 2 + popcount n (v / 2)

/-- The signed immediate of an SI slot (R86). -/
def simm (a : SI) : Word := a.imm.signExtend 64

/-- A condition of CMP and CMPI (R91). -/
def condHolds (code : Nat) (x y : Word) : Bool :=
  match code with
  | 0 => decide (x = y)
  | 1 => decide (x ≠ y)
  | 2 => x.slt y
  | 3 => !x.slt y
  | 4 => x.ult y
  | 5 => !x.ult y
  | 6 => !y.slt x
  | 7 => y.slt x
  | 8 => !y.ult x
  | 9 => y.ult x
  | _ => decide (x &&& y ≠ 0)

/-- Xd := (Xa + Xb) mod 2^64 (R87). -/
def slotAdd (a : SR) (e : Env) : SlotOut :=
  setX a.rd ((e.c.rx a.ra) + (e.c.rx a.rb))

/-- Xd := (Xa - Xb) mod 2^64 (R87). -/
def slotSub (a : SR) (e : Env) : SlotOut :=
  setX a.rd ((e.c.rx a.ra) - (e.c.rx a.rb))

/-- Low 64 bits of Xa x Xb (R87). -/
def slotMul (a : SR) (e : Env) : SlotOut :=
  setX a.rd ((e.c.rx a.ra) * (e.c.rx a.rb))

/-- High 64 bits of the product, signed or unsigned (R87). -/
def slotMulh (a : SR) (e : Env) : SlotOut :=
  setX a.rd
    (if a.fn.getLsbD 0 then BitVec.ofNat 64 ((e.c.rx a.ra).toNat * (e.c.rx a.rb).toNat / 2 ^ 64)
     else BitVec.ofInt 64 ((e.c.rx a.ra).toInt * (e.c.rx a.rb).toInt / 2 ^ 64))

/-- Quotient rounded toward zero (R87, R88). -/
def slotDiv (a : SR) (e : Env) : SlotOut :=
  setX a.rd
    (if (e.c.rx a.rb) = 0 then BitVec.allOnes 64 else if a.fn.getLsbD 0 then (e.c.rx a.ra) / (e.c.rx a.rb) else (e.c.rx a.ra).sdiv (e.c.rx a.rb))

/-- Remainder with the sign of Xa (R87, R88). -/
def slotRem (a : SR) (e : Env) : SlotOut :=
  setX a.rd
    (if (e.c.rx a.rb) = 0 then (e.c.rx a.ra) else if a.fn.getLsbD 0 then (e.c.rx a.ra) % (e.c.rx a.rb) else (e.c.rx a.ra).srem (e.c.rx a.rb))

/-- Bitwise AND (R87). -/
def slotAnd (a : SR) (e : Env) : SlotOut :=
  setX a.rd ((e.c.rx a.ra) &&& (e.c.rx a.rb))

/-- Bitwise OR (R87). -/
def slotOr (a : SR) (e : Env) : SlotOut :=
  setX a.rd ((e.c.rx a.ra) ||| (e.c.rx a.rb))

/-- Bitwise XOR (R87). -/
def slotXor (a : SR) (e : Env) : SlotOut :=
  setX a.rd ((e.c.rx a.ra) ^^^ (e.c.rx a.rb))

/-- Left shift by Xb[5:0] (R87). -/
def slotShl (a : SR) (e : Env) : SlotOut :=
  setX a.rd ((e.c.rx a.ra) <<< ((e.c.rx a.rb).toNat % 64))

/-- Logical right shift by Xb[5:0] (R87). -/
def slotShr (a : SR) (e : Env) : SlotOut :=
  setX a.rd ((e.c.rx a.ra) >>> ((e.c.rx a.rb).toNat % 64))

/-- Arithmetic right shift by Xb[5:0] (R87). -/
def slotSra (a : SR) (e : Env) : SlotOut :=
  setX a.rd ((e.c.rx a.ra).sshiftRight ((e.c.rx a.rb).toNat % 64))

/-- The smaller operand, signed or unsigned (R87). -/
def slotMin (a : SR) (e : Env) : SlotOut :=
  setX a.rd
    (if (if a.fn.getLsbD 0 then (e.c.rx a.rb).ult (e.c.rx a.ra) else (e.c.rx a.rb).slt (e.c.rx a.ra)) then (e.c.rx a.rb) else (e.c.rx a.ra))

/-- The larger operand, signed or unsigned (R87). -/
def slotMax (a : SR) (e : Env) : SlotOut :=
  setX a.rd
    (if (if a.fn.getLsbD 0 then (e.c.rx a.ra).ult (e.c.rx a.rb) else (e.c.rx a.ra).slt (e.c.rx a.rb)) then (e.c.rx a.rb) else (e.c.rx a.ra))

/-- Leading zero bits of Xa, 64 for zero (R87). -/
def slotClz (a : SR) (e : Env) : SlotOut :=
  setX a.rd
    (if (e.c.rx a.ra) = 0 then 64 else BitVec.ofNat 64 (63 - Nat.log2 (e.c.rx a.ra).toNat))

/-- Number of one bits of Xa (R87). -/
def slotPopc (a : SR) (e : Env) : SlotOut :=
  setX a.rd (BitVec.ofNat 64 (popcount 64 (e.c.rx a.ra).toNat))

/-- Xd := Xa + sext(IMM) (R89). -/
def slotAddi (a : SI) (e : Env) : SlotOut :=
  setX a.rd ((e.c.rx a.ra) + simm a)

/-- Xd := Xa AND sext(IMM) (R89). -/
def slotAndi (a : SI) (e : Env) : SlotOut :=
  setX a.rd ((e.c.rx a.ra) &&& simm a)

/-- Xd := Xa OR sext(IMM) (R89). -/
def slotOri (a : SI) (e : Env) : SlotOut :=
  setX a.rd ((e.c.rx a.ra) ||| simm a)

/-- Xd := Xa XOR sext(IMM) (R89). -/
def slotXori (a : SI) (e : Env) : SlotOut :=
  setX a.rd ((e.c.rx a.ra) ^^^ simm a)

/-- Left shift by IMM[5:0] (R89). -/
def slotShli (a : SI) (e : Env) : SlotOut :=
  setX a.rd ((e.c.rx a.ra) <<< (a.imm.toNat % 64))

/-- Logical right shift by IMM[5:0] (R89). -/
def slotShri (a : SI) (e : Env) : SlotOut :=
  setX a.rd ((e.c.rx a.ra) >>> (a.imm.toNat % 64))

/-- Arithmetic right shift by IMM[5:0] (R89). -/
def slotSrai (a : SI) (e : Env) : SlotOut :=
  setX a.rd ((e.c.rx a.ra).sshiftRight (a.imm.toNat % 64))

/-- Xd := sext(IMM[29:0]) (R90). -/
def slotLdi (a : SL) (_ : Env) : SlotOut :=
  setX a.rd (a.imm.signExtend 64)

/-- Xd := Xd x 2^30 + IMM[29:0] (R90). -/
def slotLdih (a : SL) (e : Env) : SlotOut :=
  setX a.rd (e.c.rx a.rd * 2 ^ 30 + a.imm.setWidth 64)

/-- Xd := Xa when P[FN[3:0]] is true, else Xb (R92). -/
def slotSel (a : SR) (e : Env) : SlotOut :=
  setX a.rd (if e.c.rp (a.fn.extractLsb' 0 4) then e.c.rx a.ra else e.c.rx a.rb)

/-- Pd := cond(Xa, Xb) (R91). -/
def slotCmp (a : SR) (e : Env) : SlotOut :=
  setP a.rd (condHolds (bits a.fn.toNat 0 4) (e.c.rx a.ra) (e.c.rx a.rb))

/-- Pd := cond(Xa, sext(IMM[19:0])) (R91). -/
def slotCmpi (a : SI) (e : Env) : SlotOut :=
  setP a.rd (condHolds (bits a.imm.toNat 20 4) (e.c.rx a.ra) ((a.imm.extractLsb' 0 20).signExtend 64))

/-- The predicate that RA names, inverted by FN[0] (R93). -/
def predA (a : SR) (e : Env) : Bool := e.c.rp (a.ra.extractLsb' 0 4) ^^ a.fn.getLsbD 0

/-- The predicate that RB names, inverted by FN[1] (R93). -/
def predB (a : SR) (e : Env) : Bool := e.c.rp (a.rb.extractLsb' 0 4) ^^ a.fn.getLsbD 1

/-- Pd := AND of the terms (R93). -/
def slotPand (a : SR) (e : Env) : SlotOut :=
  setP a.rd (predA a e && predB a e)

/-- Pd := OR of the terms (R93). -/
def slotPor (a : SR) (e : Env) : SlotOut :=
  setP a.rd (predA a e || predB a e)

/-- Pd := XOR of the terms (R93). -/
def slotPxor (a : SR) (e : Env) : SlotOut :=
  setP a.rd (predA a e ^^ predB a e)

/-- Pd := NOT Pa (R93). -/
def slotPnot (a : SR) (e : Env) : SlotOut :=
  setP a.rd (!e.c.rp (a.ra.extractLsb' 0 4))

/-- Xd := zext(P15 .. P0), bit 0 being P0, which is true (R92). -/
def slotMovpToX (a : SR) (e : Env) : SlotOut :=
  setX a.rd ((e.c.p ||| 1).setWidth 64)

/-- Pi := Xa[i] for i from 1 to 15 (R92). -/
def slotMovpToP (a : SR) (e : Env) : SlotOut :=
  .ctx (fun c => { c with p := (c.p &&& 1) ||| ((e.c.rx a.ra).setWidth 16 &&& 0xFFFE) })

end Sys2Proof.Machine
end

