-- ==== Sys2Proof/Machine/Stream.lean ====
section
/-! DEFINITION. Accesses of engines: ranges moved through translations of either compression attribute, and the
compressed form of DEV lines (R226, R267, R268). -/

namespace Sys2Proof.Machine

/-- A byte list as little-endian words of 8 bytes. -/
def words8 (bs : List Byte) : List Nat := (chunks 8 bs.length bs).map ofBytes

/-- The decoded bytes of a stored line under its code; `none` where the mask disagrees with the code (R267). -/
def decodeLine (code : Nat) (stored : List Byte) : Option (List Byte) :=
  match code with
  | 0 => some (List.replicate 512 0)
  | 3 => some stored
  | code =>
    let ws := words8 stored
    let mask := ws.headD 0
    let on := (List.range 64).filter (fun w => mask.testBit w)
    let n := on.length
    if (if code = 1 then decide (1 ≤ n ∧ n ≤ 15) else decide (16 ≤ n ∧ n ≤ 31)) then
      some ((List.range 64).flatMap (fun w =>
        toBytes 8 (if mask.testBit w then ws.getD (1 + (on.filter (· < w)).length) 0 else 0)))
    else none

/-- The code of a line and the bytes its stored form writes (R267). -/
def compressLine (plain : List Byte) : Nat × List Byte :=
  let ws := (words8 plain).zipIdx
  let on := ws.filter (fun w => decide (w.1 ≠ 0))
  let n := on.length
  let mask := on.foldl (fun m w => m + 2 ^ w.2) 0
  let body := (mask :: on.map (·.1)).flatMap (toBytes 8)
  if n = 0 then (0, [])
  else if n ≤ 15 then (1, body ++ List.replicate (128 - body.length) 0)
  else if n ≤ 31 then (2, body ++ List.replicate (256 - body.length) 0)
  else (3, plain)

/-- The decoded bytes of a line. -/
def Mem.lineBytes (m : Mem) (line : Nat) : Option (List Byte) :=
  decodeLine (m.codeOf line) (m.dev.readN (512 * line) 512)

/-- Bytes read through a compressed page (R268). -/
def Mem.readCmp (m : Mem) (addr n : Nat) : Option (List Byte) :=
  ((linesOf addr n).mapM m.lineBytes).map (fun ls => (ls.flatten.drop (addr % 512)).take n)

/-- A stored line with its code. -/
def Mem.storeLine (m : Mem) (line code : Nat) (bs : List Byte) : Mem :=
  { m with dev := m.dev.writeN (512 * line) bs, codes := m.codes.put line (BitVec.ofNat 2 code) }

/-- Bytes written through a compressed page: each line is decoded, changed and compressed again (R255, R268). -/
def Mem.writeCmp (m : Mem) (addr : Nat) (bs : List Byte) : Mem :=
  (linesOf addr bs.length).foldl (fun m line =>
    let old := (m.lineBytes line).getD (m.dev.readN (512 * line) 512)
    let new := old.zipIdx.map (fun b =>
      let a := 512 * line + b.2
      if addr ≤ a then bs.getD (a - addr) b.1 else b.1)
    let c := compressLine new
    m.storeLine line c.1 c.2) m

/-- Offset of the first byte of a write through a compressed page whose line cannot be filled for it: one that the write
covers only in part, with a mask that does not agree with its code, or that the stack cannot deliver (R260, R267). -/
def Mem.partAt (m : Mem) (p : Place) (n : Nat) : Option Nat :=
  ((linesOf p.addr n).find? (fun line =>
    !decide (p.addr ≤ 512 * line ∧ 512 * (line + 1) ≤ p.addr + n) &&
      ((m.lineBytes line).isNone || (m.hwAt (devPlace (512 * line)) 512 true).isSome))).map (fun line => 512 * line - p.addr)

/-- A piece of an engine access: CMPRS where the page's attribute is not the wanted one, then the faults of its lines
(R222, R226, R260, R268). -/
def ioPiece (s : State) (ctx : Nat) (acc : Access) (want : Option Bool) (va : Word) (n : Nat) : Chk (Target × Nat) := do
  let t ← translate s ctx va acc
  let cmp := match t with
    | .place _ cmp => cmp
    | .view _ _ => false
  let part := match t with
    | .place p true => if acc = .write then (s.mem.partAt p n).map (fun o => (Cause.hwerr, o)) else none
    | _ => none
  if want = some (!cmp) then failAt Cause.cmprs va
  else match lowerOf (s.pieceFault ctx acc va t n) part with
    | some (cause, o) => failAt cause (va + BitVec.ofNat 64 o)
    | none => .ok (t, n)

/-- The pieces of an engine access. -/
def ioPieces (s : State) (ctx : Nat) (acc : Access) (want : Option Bool) (va : Word) (n : Nat) :
    Chk (List (Target × Nat)) :=
  (pieces va n (n / 65536 + 2)).mapM (fun q => ioPiece s ctx acc want q.1 q.2)

/-- The answer of a read that cannot take place yet: it is no fault, and what asked for it waits. -/
def holdTrap : TrapInfo := { cause := 0 }

/-- Is an answer such a wait. -/
def TrapInfo.isHold (t : TrapInfo) : Bool := decide (t.cause = 0)

/-- A change that a faulting access would make, or no step at all where the access only waits. -/
def TrapInfo.unlessHold {α : Type} (t : TrapInfo) (x : α) : Option α := if t.isHold then none else some x

/-- Bytes of one piece as an engine reads them. -/
def ioBytes (s : State) (va : Word) (t : Target × Nat) : Chk (List Byte) :=
  match t.1 with
  | .view a o => .ok ((List.range t.2).map (fun i => viewByte s.mem a (o + i)))
  | .place p cmp =>
    if cmp then
      match s.mem.readCmp p.addr t.2 with
      | some bs => .ok bs
      | none => failAt Cause.hwerr va
    else .ok (s.mem.viewN p t.2)

/-- Bytes of a range in virtual memory at their home (R238). -/
def ioFetch (s : State) (ctx : Nat) (want : Option Bool) (va : Word) (n : Nat) : Chk (List Byte) := do
  let ts ← ioPieces s ctx .read want va n
  let bs ← ts.mapM (ioBytes s va)
  .ok bs.flatten

/-- Bytes that an engine reads in virtual memory, at their home (R238). It sees the stores that have left the queue, so that it
waits while one of them is to write a byte that it reads (R237, R241, R244). -/
def ioRead (s : State) (ctx : Nat) (want : Option Bool) (va : Word) (n : Nat) : Chk (List Byte) := do
  let ts ← ioPieces s ctx .read want va n
  if s.queueMeets (·.left) ts then .error holdTrap else ioFetch s ctx want va n

/-- What an engine's read of a range does beside delivering its bytes. -/
def State.noteIo (s : State) (ctx : Nat) (want : Option Bool) (va : Word) (n : Nat) : State :=
  match ioPieces s ctx .read want va n with
  | .ok ts => s.readDone 0 va ts
  | .error _ => s

/-- Bytes that an engine writes, performed at one place. -/
def State.ioPut (s : State) (p : Place) (cmp : Bool) (bs : List Byte) : State :=
  if cmp then
    ({ s with mem := (s.mem.writeCmp p.addr bs).wroteRange p bs.length true false,
              sched := { s.sched with monitors := fireAt s.sched.monitors p bs.length } }).recall true p bs.length
  else s.performSeg p bs

/-- Bytes dealt to the pieces of a write. -/
def ioDeal (s : State) : List (Target × Nat) → List Byte → State
  | [], _ => s
  | (.place p cmp, n) :: ts, bs => ioDeal (s.ioPut p cmp (bs.take n)) ts (bs.drop n)
  | (.view _ _, n) :: ts, bs => ioDeal s ts (bs.drop n)

/-- Bytes that an engine writes in virtual memory. -/
def ioWrite (s : State) (ctx : Nat) (want : Option Bool) (va : Word) (bs : List Byte) : Chk State := do
  let ts ← ioPieces s ctx .write want va bs.length
  .ok (ioDeal s ts bs)

/-- Bytes that an engine reads in the scratchpad. -/
def spmBytes (s : State) (lcore off n : Nat) : List Byte := s.mem.viewN { space := .spm, owner := lcore, addr := off } n

end Sys2Proof.Machine
end

