-- ==== Sys2Proof/Machine/Control.lean ====
section
/-! DEFINITION. Branches, control registers and the software trap (R94 to R98). -/

namespace Sys2Proof.Machine

/-- The bundle address at an offset counted in bundles (R94). -/
def branchTarget (pc : Word) {n : Nat} (off : BitVec n) : Word := sext57 (pc + off.signExtend 64 * 64)

/-- A branch taken at commit: the issue has already set the PC to PC + 64. -/
def goTo (target : Word) : SlotOut := .ok (fun s => s.onCore (fun k => { k with pc := target }))

/-- Unconditional branch (R95). -/
def slotBr (a : SL) (e : Env) : SlotOut :=
  goTo (branchTarget e.s.core.pc a.imm)

/-- Branch when P[RD[3:0]] XOR RD[4] is true (R95). -/
def slotBrc (a : SI) (e : Env) : SlotOut :=
  if e.c.rp (a.rd.extractLsb' 0 4) ^^ a.rd.getLsbD 4 then goTo (branchTarget e.s.core.pc a.imm)
  else .ok id

/-- Xd := PC + 64, then branch (R95). -/
def slotCall (a : SL) (e : Env) : SlotOut :=
  .ok (fun s => s.onCore (fun k =>
    { k with pc := branchTarget e.s.core.pc a.imm, ctx := k.ctx.wx a.rd (sext57 (e.s.core.pc + 64)) }))

/-- PC := Xa[56:6] x 64; NCANON when Xa is not canonical (R95). -/
def slotRet (a : SR) (e : Env) : SlotOut :=
  let x := e.c.rx a.ra
  if canonical x then goTo (sext57 (x &&& ~~~(63 : Word))) else .fault Cause.ncanon 0 x

/-- Xd := Xd - 1; branch while the new value is non-zero (R95). -/
def slotLoop (a : SI) (e : Env) : SlotOut :=
  let v := e.c.rx a.rd - 1
  .ok (fun s => s.onCore (fun k =>
    { k with ctx := k.ctx.wx a.rd v, pc := if v ≠ 0 then branchTarget e.s.core.pc a.imm else k.pc }))

/-- VSHAPE (R19). -/
def State.vshape (s : State) : Word :=
  BitVec.ofNat 64 (96 + 16 * 2 ^ 8 + 16 * 2 ^ 16 + s.pcores * 2 ^ 24 + (2 ^ s.dies - 1) * 2 ^ (32 + s.firstDie) + 2 ^ 36)

/-- CORENUM (R98). -/
def State.corenum (s : State) : Word :=
  BitVec.ofNat 64 (s.runOf.lcore + s.coreNum * 2 ^ 8 + s.coreNum / 24 * 2 ^ 16)

/-- AFR with its DEPTH (R289). -/
def State.afr (s : State) : Word := setField s.core.afr 8 8 (min 255 (s.readyOn s.core).length)

/-- The control register of an index (R97). -/
def readCtl (s : State) (idx : Nat) : Word :=
  let c := s.core.ctx
  match idx with
  | 0x000 => s.vshape
  | 0x001 => s.corenum
  | 0x002 => BitVec.ofNat 64 s.cycle
  | 0x010 => c.arith
  | 0x011 => c.astat
  | 0x012 => c.srctr
  | 0x013 => s.core.satcnt
  | 0x014 => s.core.satthr
  | 0x020 => c.shape
  | 0x021 => c.mprog
  | 0x030 => c.rskp
  | 0x031 => c.rskb
  | 0x032 => c.rskl
  | 0x040 => c.kept.seedtop.extractLsb' 0 64
  | 0x041 => c.kept.seedtop.extractLsb' 64 64
  | 0x050 => s.core.thcnt
  | 0x051 => s.core.errmap
  | 0x060 => s.runOf.ebud
  | 0x061 => s.afr
  | _ => 0

/-- The registers CRW reaches in a privileged spar only (R97). -/
def privCtl (idx : Nat) : Bool := idx == 0x014 || idx == 0x031 || idx == 0x032 || idx == 0x050 || idx == 0x061

/-- The empty segment descriptor (R189). -/
def emptyDescriptor : List Byte := toBytes 8 64 ++ toBytes 56 0

/-- The segment descriptor of a context (R189). -/
def Ctx.descriptor (c : Ctx) : List Byte := toBytes 8 (c.rskp - c.rskb).toNat ++ toBytes 8 c.nseq ++ toBytes 48 0

/-- The trap of a spill or fill: RSKSPL names its chunk (R196). -/
def State.rskTrap (s : State) (chunk : Word) : State :=
  s.onCtx (fun c => { c with engTraps := c.engTraps ++ [{ cause := Cause.rskspl, addr := chunk }] })

/-- The empty descriptor written at the segment's base; where that faults, it is written before the spar's next bundle
(R189, R196). -/
def State.writeDescriptor (s : State) (ctx : Nat) (base : Word) : State :=
  match ioWrite s ctx none base emptyDescriptor with
  | .ok s' => s'
  | .error _ => (s.onCtx (fun c => { c with kept := { c.kept with rskDue := 1 } })).rskTrap base

/-- The segment moved: empty at the new bounds, its descriptor written (R190). -/
def State.moveSegment (s : State) (b l : Word) : State :=
  (s.onCtx (fun c => { c with rskb := b, rskl := l, rskp := b + 64, nseq := 0, rsks := b, rskCore := [] })).writeDescriptor
    s.runOf.ctx b

/-- The 64 KiB base of a bound (R189). -/
def chunkOf (v : Word) : Word := v &&& ~~~(0xFFFF : Word)

/-- What a CRW does at commit (R73, R75, R106, R178, R190, R289). -/
def writeCtl (idx : Nat) (v : Word) (s : State) : State :=
  match idx with
  | 0x010 => s.onCtx (fun c => { c with arith := if v &&& 3 = 3 then 0 else v &&& 3 })
  | 0x011 => s.onCtx (fun c => { c with astat := c.astat &&& ~~~v })
  | 0x012 => s.onCtx (fun c => { c with srctr := v })
  | 0x013 => s.onCore (fun k => { k with satcnt := v &&& 0xFFFFFFFF, calArmed := true })
  | 0x014 => s.onCore (fun k => { k with satthr := v &&& 0xFFFFFFFF, calArmed := true })
  | 0x020 => s.onCtx (fun c => { c with shape := v &&& 0x3F0F })
  | 0x031 => s.moveSegment (chunkOf v) s.core.ctx.rskl
  | 0x032 => s.moveSegment s.core.ctx.rskb (chunkOf v)
  | 0x050 => s.onCore (fun k => { k with thcnt := v })
  | 0x061 => s.onCore (fun k => { k with afr := v &&& 0x100FF })
  | _ => s

/-- Xd := a control register (R97). -/
def slotCrr (a : SI) (e : Env) : SlotOut :=
  setX a.rd (readCtl e.s (bits a.imm.toNat 0 12))

/-- Write of a control register; PRIV where the spar may not, SEGBUSY while the segment holds an entry (R97, R190). -/
def slotCrw (a : SI) (e : Env) : SlotOut :=
  let idx := bits a.imm.toNat 0 12
  let busy := (idx == 0x031 || idx == 0x032) && decide (e.c.rskp ≠ e.c.rskb + 64)
  if privCtl idx && !e.s.runOf.sys then .fault Cause.priv
  else if busy then .fault Cause.rskord 6
  else .ok (writeCtl idx (e.c.rx a.ra))

/-- A software trap, pending from the commit of its bundle (R96, R352). -/
def slotTrap (a : SI) (e : Env) : SlotOut :=
  .ctx (fun c => { c with kept := { c.kept with swpend := some (a.imm.extractLsb' 0 16, e.c.rx a.ra) } })

end Sys2Proof.Machine
end

