-- ==== Sys2Proof/Machine/Array.lean ====
section
/-! DEFINITION. The Truss array: operands, k-steps, the Thatch state of accumulators, their comparison, correction and
replay (R142 to R156, R167 to R179, R183 to R187). -/

namespace Sys2Proof

open Machine

/-- A field of MCTL by its relative position (R29). -/
def MArgs.f (a : MArgs) (lo w : Nat) : Nat := bits a.mctl.toNat lo w

/-- K of an MMA or MMAG (R152). -/
def MArgs.k (a : MArgs) : Nat := a.f 0 10 + 1

/-- KOFF (R152). -/
def MArgs.koff (a : MArgs) : Nat := a.f 10 10

/-- The format of an MLAT's latent rows (R184). -/
def MArgs.lfmt (a : MArgs) : Fmt := if a.f 4 2 = 0 then .bf16 else if a.f 4 2 = 1 then .fp16 else .e4m3

/-- d_c of an MLAT (R184). -/
def MArgs.dc (a : MArgs) : Nat := 32 * (a.f 9 5 + 1)

/-- Is the ROLE of an MLAT VALUE (R184). -/
def MArgs.value (a : MArgs) : Bool := decide (a.f 3 1 = 1)

/-- Tokens of a VALUE MLAT (R184). -/
def MArgs.tokens (a : MArgs) : Nat := 32 * (a.f 14 3 + 1)

/-- The column offset of a VALUE MLAT (R184). -/
def MArgs.coff (a : MArgs) : Nat := 32 * a.f 17 5

/-- K-steps of a group of MMAG (R152, R155). -/
def MArgs.groupSteps (a : MArgs) : Nat := 2 ^ a.f 23 2

namespace Machine

/-! ### Formats and operands -/

/-- Elements of a format in a 64-byte tile row (R142). -/
def Fmt.ef (f : Fmt) : Nat := 512 / f.bits

/-- Stride of a k-row of a weight buffer in bytes (R142). -/
def Fmt.stride (f : Fmt) : Nat := 12 * f.bits

/-- The largest K of a panel (R142). -/
def Fmt.kmax (f : Fmt) : Nat := 8 * (512 / f.bits)

/-- The format of a three-bit FMT code (R150). -/
def fmtOf3 (n : Nat) : Fmt :=
  match n with
  | 0 => .bf16
  | 1 => .fp16
  | 2 => .e4m3
  | 3 => .e5m2
  | 4 => .e2m3
  | 5 => .e3m2
  | 6 => .e2m1
  | _ => .q4x

/-- Microscaled formats: E4M3 to Q4X. -/
def Fmt.micro (f : Fmt) : Bool := !(f == .bf16 || f == .fp16 || f == .fp32)

/-- The key of a tile name in a job's table. -/
def TileName.key (n : TileName) : Nat := n.lvl * 4096 + n.idx

/-- A tile as a job captured it. -/
def MJob.tile (j : MJob) (n : TileName) : Tile := ((j.tiles.get? n.key).map (·.val)).getD 0

/-- M of the captured MCFGR (R145). -/
def MJob.m (j : MJob) : Nat := bits j.cfg.toNat 0 7 + 1

/-- N of the captured MCFGR. -/
def MJob.n (j : MJob) : Nat := bits j.cfg.toNat 7 7 + 1

/-- ASTR of an MCFGR value. -/
def astrOf (cfg : Word) : Nat := bits cfg.toNat 14 6 + 1

/-- POST of an MCFGR value. -/
def postOf (cfg : Word) : Bool := cfg.getLsbD 20

/-- Where chunk `c` of row `i` of A lies: a tile and its row, or a row of zeros (R147). -/
def aChunk (tile : TileName → Tile) (oa : Opnd) (gath : Bool) (astr i c : Nat) : Option (TileName × Nat) :=
  if gath then
    let e := tileField (tile oa.tile) (16 * i) 16
    if e / 2 ^ 15 = 1 then none else some (⟨0, bits e 4 11 + astr * c⟩, e % 16)
  else some (⟨oa.lvl.toNat, oa.idx.toNat + astr * c + i / 16⟩, i % 16)

/-- The 32 elements of row `i` of A for a k-step, each with the flags of its decoding (R70, R147, R154). -/
def aStep (tile : TileName → Tile) (f : Fmt) (oa : Opnd) (gath : Bool) (astr i ks : Nat) : List (Val × Flags) :=
  match aChunk tile oa gath astr i (32 * ks / f.ef) with
  | none => List.replicate 32 (.zero false, .none)
  | some (t, r) =>
    let codes := (List.range 32).map (fun q => tileField (tile t) (512 * r + f.bits * (32 * ks % f.ef + q)) f.bits)
    if f = .q4x then q4xDecode (.ofInt 1) 0 codes else codes.map (fun c => (f.value 0 c, .none))

/-- Element (k, j) of a weight buffer (R149). -/
def wbEl (d : BitVec 524288) (f : Fmt) (k j : Nat) : Nat := (d.extractLsb' (8 * k * f.stride + f.bits * j) f.bits).toNat

/-- A byte of a weight buffer. -/
def wbByte (d : BitVec 524288) (o : Nat) : Nat := (d.extractLsb' (8 * o) 8).toNat

/-- The scale of column `j` for k-block `q` of a panel (R149). -/
def wbScale (d : BitVec 524288) (q j : Nat) : Val := e8m0 (wbByte d (53248 + 96 * q + j))

/-- Column `j` of the 32 k-rows of block `q` of a Q4X panel (R149). -/
def q4xColumn (d : BitVec 524288) (q j : Nat) : List (Val × Flags) :=
  q4xDecode (.ofInt 1) 0 ((List.range 32).map (fun k => wbEl d .q4x (32 * q + k) j))

/-- `n` k-rows of B from k-row `k0`, N columns, without scales, each element with the flags of its decoding. -/
def bStep (d : BitVec 524288) (f : Fmt) (k0 n cols : Nat) : List (List (Val × Flags)) :=
  if f = .q4x then
    let cs := (List.range cols).map (q4xColumn d (k0 / 32))
    (List.range n).map (fun r => cs.map (fun c => c.getD r (.zero false, .none)))
  else (List.range n).map (fun r => (List.range cols).map (fun j => (f.value 0 (wbEl d f (k0 + r) j), .none)))

/-- The flags of elements that are read. -/
def readFlags (rows : List (List (Val × Flags))) : Flags :=
  rows.foldl (fun f r => r.foldl (fun f e => f.join e.2) f) Flags.none

/-- The values of elements. -/
def readVals (rows : List (List (Val × Flags))) : List (List Val) := rows.map (fun r => r.map (·.1))

/-! ### One k-step -/

/-- The operands of a k-step: rows of A, k-rows of B, the scales of rows and columns, and the flags of decoding. -/
structure KBlock where
  a : List (List Val)
  b : List (List Val)
  sa : List Val
  sb : List Val
  fl : Flags
  deriving DecidableEq, Repr

/-- The exact sum of products. -/
def dot (x y : List Val) : Val := Val.sum (List.zipWith Val.mul x y)

/-- A value negated where NEG is set. -/
def negIf (b : Bool) (v : Val) : Val := if b then v.neg else v

/-- Position, new code, term, exemption and flags of an accumulator element. -/
structure ZCell where
  i : Nat
  j : Nat
  code : Nat
  term : Val
  exempt : Bool
  fl : Flags
  deriving DecidableEq, Repr

/-- Element (i, j) of an accumulator. -/
def zEl (z : BitVec 393216) (i j : Nat) : Nat := (z.extractLsb' (32 * (96 * i + j)) 32).toNat

/-- Its value. -/
def zVal (z : BitVec 393216) (i j : Nat) : Val := fp32v (zEl z i j)

/-- An accumulator with an element replaced. -/
def zPut (z : BitVec 393216) (i j v : Nat) : BitVec 393216 := setField z (32 * (96 * i + j)) 32 v

/-- An accumulator with its cells written. -/
def zPuts (z : BitVec 393216) (cs : List ZCell) : BitVec 393216 := cs.foldl (fun z c => zPut z c.i c.j c.code) z

/-- A term added to an accumulator element: R77's guard where `guarded`, then one rounding (R76, R154, R156). -/
def addTerm (acc t : Val) (guarded : Bool) (i j : Nat) : ZCell :=
  let g := if guarded then guardTerm t else (t, .none)
  let r := roundF .fp32 0 (acc.add g.1) .rne 0
  { i := i, j := j, code := r.1, term := g.1, exempt := decide (g.1 ≠ t) || !g.1.isFin, fl := g.2.join r.2 }

/-- The cells of a k-step (R154, R187). -/
def kCells (z : BitVec 393216) (fresh neg micro : Bool) (k : KBlock) : List ZCell :=
  let cols := (transposeRows (.zero false) k.sb.length k.b).zip k.sb
  (k.a.zip k.sa).zipIdx.flatMap (fun r => cols.zipIdx.map (fun c =>
    let s := negIf neg (dot r.1.1 c.1.1)
    let t := if micro then s.mul (r.1.2.mul c.1.2) else s
    addTerm (if fresh then .zero false else zVal z r.2 c.2) t micro r.2 c.2))

/-- Flags of cells. -/
def cellFlags (cs : List ZCell) : Flags := cs.foldl (fun f c => f.join c.fl) Flags.none

/-! ### Thatch state (R167, R168) -/

/-- The key of column `j` as a line. -/
def colLine (j : Nat) : Nat := 128 + j

/-- The larger exponent of a line and a value. -/
def raiseEl (el : Tbl Int) (line : Nat) (v : Val) : Tbl Int :=
  match v with
  | .fin _ m e =>
    if m = 0 then el
    else
      let x := dyLog2 m e
      el.put line (match el.get? line with
        | some o => max o x
        | none => x)
  | _ => el

/-- EL and EX after cells (R167, R168). -/
def ZThatch.lines (t : ZThatch) (cs : List ZCell) : ZThatch :=
  cs.foldl (fun t c =>
    let el := [c.i, colLine c.j].foldl (fun el l => raiseEl (raiseEl el l c.term) l (fp32v c.code)) t.el
    { t with el := el, ex := if c.exempt then (t.ex ++ [c.i, colLine c.j]).eraseDups else t.ex }) t

/-- CC(i). -/
def ZThatch.ccAt (t : ZThatch) (i : Nat) : Nat := (t.cc.extractLsb' (32 * i) 32).toNat

/-- CR(j). -/
def ZThatch.crAt (t : ZThatch) (j : Nat) : Nat := (t.cr.extractLsb' (32 * j) 32).toNat

/-- Terms added to the checksum column and row, each rounded once (R168); a rounding of a checksum raises no flag (the
model's choice, log 21). -/
def ZThatch.addSums (t : ZThatch) (us ws : List Val) : ZThatch :=
  { t with
    cc := us.zipIdx.foldl (fun m u => setField m (32 * u.2) 32 (fp32c ((fp32v (t.ccAt u.2)).add u.1))) t.cc
    cr := ws.zipIdx.foldl (fun m w => setField m (32 * w.2) 32 (fp32c ((fp32v (t.crAt w.2)).add w.1))) t.cr }

/-- The checksum terms of a k-step: u(i) and w(j) (R168). -/
def kSums (neg : Bool) (k : KBlock) : List Val × List Val :=
  let a := (k.a.zip k.sa).map (fun r => r.1.map (fun v => v.mul r.2))
  let b := k.b.map (fun row => List.zipWith Val.mul row k.sb)
  let rho := b.map Val.sum
  let colA := (transposeRows (.zero false) b.length a).map Val.sum
  let colB := transposeRows (.zero false) k.sb.length b
  (a.map (fun r => negIf neg (dot r rho)), colB.map (fun c => negIf neg (dot colA c)))

/-- Does an instruction start a chain (R168). -/
def startsChain : Instr → Bool
  | .mzero _ | .mmag _ => true
  | .mmaBf16 a | .mmaFp16 a | .mmaE4m3 a | .mmaE5m2 a | .mmaE2m3 a | .mmaE3m2 a | .mmaE2m1 a | .mmaQ4x a =>
    decide (a.f 20 1 = 0)
  | .mlatExpand a | .mlatAbsorb a => decide (a.f 2 1 = 0)
  | _ => false

/-- The Thatch state at the start of an instruction that starts a chain (R168). -/
def startThatch (m n kt tf : Nat) (j : MJob) : ZThatch := { fm := m, fn := n, kt := kt, tf := tf, chain := [j] }

/-- The Thatch state as a continuing instruction begins (R168). -/
def ZThatch.continue_ (t : ZThatch) (kt tf : Nat) (j : MJob) : ZThatch :=
  { t with kt := t.kt + kt, tf := max t.tf tf, chain := if t.chain.length < 9 then t.chain ++ [j] else t.chain }

/-- Records of a chain, its start counted (R172). -/
def ZThatch.records (t : ZThatch) : Nat :=
  match t.chain with
  | [] => 1
  | j :: _ => t.chain.length + (if startsChain j.op then 0 else 1)

/-! ### The products of an instruction -/

/-- The format of an MMA by its opcode (R38), with the slot's fields. -/
def mmaFmt : Instr → Option (MArgs × Fmt)
  | .mmaBf16 a => some (a, .bf16)
  | .mmaFp16 a => some (a, .fp16)
  | .mmaE4m3 a => some (a, .e4m3)
  | .mmaE5m2 a => some (a, .e5m2)
  | .mmaE2m3 a => some (a, .e2m3)
  | .mmaE3m2 a => some (a, .e3m2)
  | .mmaE2m1 a => some (a, .e2m1)
  | .mmaQ4x a => some (a, .q4x)
  | .mmag a => some (a, fmtOf3 (a.f 25 3))
  | _ => none

/-- d_h of the projection in a segment. -/
def Ctx.dhOf (c : Ctx) (seg : Nat) : Nat :=
  match (c.segs.toList.getD seg {}).tag with
  | .base _ dh _ _ => dh
  | _ => 0

/-- Element (l, h) of the projection at a segment (R181). -/
def Ctx.uEl (c : Ctx) (seg dh l h : Nat) : Val :=
  let o := 2 * (dh * l + h)
  Fmt.bf16.value 0 (((c.segs.toList.getD (seg + o / 65536) {}).data.extractLsb' (8 * (o % 65536)) 16).toNat)

/-- K of an MLAT whose projection has `dh` columns (R187). -/
def mlatK (a : MArgs) (expand : Bool) (dh : Nat) : Nat :=
  if a.value then a.tokens else if expand then dh else a.dc

/-- Element h of the expanded row: one rounding, whose flags the element raises (R69, R187). -/
def expandEl (c : Ctx) (a : MArgs) (dh : Nat) (row : List Val) (h : Nat) : Val × Flags :=
  let r := roundF .fp32 0 (dot row ((List.range row.length).map (fun l => c.uEl (a.f 6 3) dh l h))) .rne 0
  (fp32v r.1, r.2)

/-- b(k, j) of an MLAT (R187). The row of a null entry is captured as no elements: its expansion is +0 and so is every
element of it that is absorbed. -/
def mlatB (c : Ctx) (a : MArgs) (expand : Bool) (dh : Nat) (rows : List (List Val)) (k j : Nat) : Val × Flags :=
  let t := if a.value then k else j
  let col := if a.value then a.coff + j else k
  match rows.getD t [] with
  | [] => (.zero false, .none)
  | row => if expand then expandEl c a dh row col else (row.getD col (.zero false), .none)

/-- An instruction of k-steps: fields, number of products, operand format of A, whether terms are scaled, whether it
accumulates, T_f (R154, R155, R187). -/
structure Prod where
  a : MArgs
  k : Nat
  fa : Fmt
  micro : Bool
  acc : Bool
  tf : Nat
  deriving DecidableEq, Repr

/-- The products of a job. -/
def MJob.prod (j : MJob) : Option Prod :=
  match j.op with
  | .mlatExpand a => some { a := a, k := mlatK a true j.xs.toNat, fa := if a.lfmt = .fp16 then .fp16 else .bf16, micro := false,
                            acc := decide (a.f 2 1 = 1), tf := a.lfmt.tf }
  | .mlatAbsorb a => some { a := a, k := mlatK a false 0, fa := if a.lfmt = .fp16 then .fp16 else .bf16, micro := false,
                            acc := decide (a.f 2 1 = 1), tf := a.lfmt.tf }
  | .mmag a => some { a := a, k := a.k, fa := fmtOf3 (a.f 25 3), micro := false, acc := false,
                      tf := (fmtOf3 (a.f 25 3)).tf }
  | op => match mmaFmt op with
    | some (a, f) => some { a := a, k := a.k, fa := f, micro := f.micro, acc := decide (a.f 20 1 = 1), tf := f.tf }
    | none => none

/-- The number of k-steps of a job; one for the instructions of a single step, blocks of 32 rows for a load (R142,
R182). -/
def MJob.ksteps (j : MJob) : Nat :=
  match j.op with
  | .mlatLoad a => a.f 9 5 + 1
  | _ => match j.prod with
    | some p => (p.k + 31) / 32
    | none => 1

/-- The operands of k-step `ks` of a job; elements at and beyond K are not read (R147). -/
def MJob.kblock (j : MJob) (c : Ctx) (p : Prod) (ks : Nat) : KBlock :=
  let a := p.a
  let n := min 32 (p.k - 32 * ks)
  let lat := match j.op with
    | .mlatExpand _ | .mlatAbsorb _ => true
    | _ => false
  let ar := (List.range j.m).map (fun i =>
    (aStep j.tile p.fa a.oa (!lat && decide (a.f 22 1 = 1)) (astrOf j.cfg) i ks).take n)
  let ones (k : Nat) : List Val := List.replicate k (.ofInt 1)
  if lat then
    let ex := match j.op with
      | .mlatExpand _ => true
      | _ => false
    let br := (List.range n).map (fun k =>
      (List.range j.n).map (mlatB c a ex j.xs.toNat (j.rows.getD []) (32 * ks + k)))
    { a := readVals ar, b := readVals br, sa := ones j.m, sb := ones j.n, fl := readFlags (ar ++ br) }
  else
    let d := (c.wb (a.f 21 1 = 1)).data
    let br := bStep d p.fa (a.koff + 32 * ks) n j.n
    let scale (i : Nat) : Val := e8m0 (tileByte (j.tile ⟨a.ob.lvl.toNat, a.ob.idx.toNat + ks / 8⟩) ((128 * (ks % 8) + i) / 64)
      ((128 * (ks % 8) + i) % 64))
    { a := readVals ar, b := readVals br,
      sa := if p.micro then (List.range j.m).map scale else ones j.m,
      sb := if p.micro then (List.range j.n).map (wbScale d ((a.koff + 32 * ks) / 32)) else ones j.n,
      fl := readFlags (ar ++ br) }

/-- The exact partials of MMAG after a k-step, keyed 96 i + j (R155). -/
def partials (fresh neg : Bool) (k : KBlock) (p : Tbl Val) : Tbl Val :=
  let cols := transposeRows (.zero false) k.sb.length k.b
  (k.a.zipIdx.flatMap (fun r => cols.zipIdx.map (fun c => (96 * r.2 + c.2, negIf neg (dot r.1 c.1))))).foldl
    (fun t q => t.put q.1 ((if fresh then .zero false else (p.get? q.1).getD (.zero false)).add q.2)) p

/-- The cells of a finished group of MMAG (R155). -/
def groupCells (m n : Nat) (p : Tbl Val) : List ZCell :=
  (List.range m).flatMap (fun i => (List.range n).map (fun j =>
    addTerm (.zero false) ((p.get? (96 * i + j)).getD (.zero false)) false i j))

/-! ### SACC (R156) -/

/-- A scale of SACC: 1 where none is named (R156). -/
def saccScale (j : MJob) (o : Opnd) (named fp32 : Bool) (i : Nat) : Val :=
  if !named then .ofInt 1
  else if fp32 then fp32v (tileField (j.tile o.tile) (32 * i) 32)
  else e8m0 (tileField (j.tile o.tile) (8 * i) 8)

/-- Row scales and column scales of a SACC. -/
def saccScales (j : MJob) (a : MArgs) : List Val × List Val :=
  let f32 := decide (a.f 6 1 = 1)
  ((List.range j.m).map (saccScale j a.oa (a.f 7 1 = 1) f32), (List.range j.n).map (saccScale j a.ob (a.f 8 1 = 1) f32))

/-- The cells of a SACC of `zp` into `z` (R156). -/
def saccCells (j : MJob) (a : MArgs) (zp z : BitVec 393216) : List ZCell :=
  let s := saccScales j a
  s.1.zipIdx.flatMap (fun r => s.2.zipIdx.map (fun c =>
    addTerm (zVal z r.2 c.2) ((zVal zp r.2 c.2).mul (r.1.mul c.1)) true r.2 c.2))

/-- The checksum terms of a SACC (R168). -/
def saccSums (j : MJob) (a : MArgs) (zp : BitVec 393216) : List Val × List Val :=
  let s := saccScales j a
  (s.1.zipIdx.map (fun r => r.1.mul (Val.sum (s.2.zipIdx.map (fun c => c.1.mul (zVal zp r.2 c.2))))),
   s.2.zipIdx.map (fun c => c.1.mul (Val.sum (s.1.zipIdx.map (fun r => r.1.mul (zVal zp r.2 c.2))))))

/-! ### Comparison, correction and replay (R170 to R172) -/

/-- A line compared: its elements against its checksum; an exempt line passes (R170). -/
def ZThatch.lineBad (t : ZThatch) (line len : Nat) (vs : List Val) (chk : Nat) : Bool :=
  !t.ex.contains line && beyond (Val.sum vs) (fp32v chk) (t.tf * (t.kt + len)) ((t.el.get? line).getD (-149))

/-- The elements of row `i` within the footprint. -/
def zRow (z : BitVec 393216) (t : ZThatch) (i : Nat) : List Val := (List.range t.fn).map (zVal z i)

/-- The elements of column `j` within the footprint. -/
def zCol (z : BitVec 393216) (t : ZThatch) (j : Nat) : List Val := (List.range t.fm).map (fun i => zVal z i j)

/-- Does row `i` fail. -/
def rowBad (z : BitVec 393216) (t : ZThatch) (i : Nat) : Bool := t.lineBad i t.fn (zRow z t i) (t.ccAt i)

/-- Does column `j` fail. -/
def colBad (z : BitVec 393216) (t : ZThatch) (j : Nat) : Bool := t.lineBad (colLine j) t.fm (zCol z t j) (t.crAt j)

/-- FR and FC (R170). -/
def failing (z : BitVec 393216) (t : ZThatch) : List Nat × List Nat :=
  ((List.range t.fm).filter (rowBad z t), (List.range t.fn).filter (colBad z t))

/-- Exempt lines of the footprint. -/
def ZThatch.exempt (t : ZThatch) : Nat :=
  (t.ex.filter (fun l => decide (l < t.fm ∨ (128 ≤ l ∧ l < 128 + t.fn)))).length

/-- How often a source has been written. -/
def State.verOf (s : State) : Source → Nat
  | .z n => s.core.ctx.zVer n
  | .wb n => (s.core.ctx.wb (n = 1)).ver
  | .seg n => (s.core.ctx.segs.toList.getD n {}).ver
  | .spm u => s.mem.spmVer.getD u 0

/-- Are the sources of a record as they were at its commit (R172). -/
def State.fresh (s : State) (j : MJob) : Bool :=
  j.tiles.all (fun t => decide (s.core.ctx.tileVer ⟨t.1 / 4096, t.1 % 4096⟩ = t.2.ver))
    && j.vers.all (fun v => decide (s.verOf v.1 = v.2))

/-- Can the chain be recomputed (R172). -/
def State.recomputable (s : State) (t : ZThatch) : Bool := decide (t.records ≤ 8) && t.chain.all s.fresh

/-- The cells of one record replayed into accumulator number `zt`. -/
def replayJob (c : Ctx) (zt : Nat) (z : BitVec 393216) (j : MJob) : BitVec 393216 :=
  match j.op with
  | .mzero _ => 0
  | .sacc a => zPuts z (saccCells j a (c.rz (a.f 0 6)) z)
  | .mmag a =>
    let p := (j.prod).getD { a := a, k := 0, fa := .bf16, micro := false, acc := false, tf := 0 }
    let g := zt - a.zd.toNat
    let steps := (List.range (j.ksteps)).filter (fun ks => decide (ks / a.groupSteps = g))
    zPuts z (groupCells j.m j.n (steps.foldl (fun t ks =>
      partials (decide (ks % a.groupSteps = 0)) a.oa.neg (j.kblock c p ks) t) []))
  | _ => match j.prod with
    | none => z
    | some p => (List.range (j.ksteps)).foldl (fun z ks =>
        zPuts z (kCells z (ks == 0 && !p.acc) p.a.oa.neg p.micro (j.kblock c p ks))) z

/-- The chain replayed from +0 (R172). -/
def replay (c : Ctx) (zt : Nat) (t : ZThatch) : BitVec 393216 := t.chain.foldl (replayJob c zt) 0

/-- The correction of R171 at the crossing of a row and a column. -/
def correctCell (z : BitVec 393216) (t : ZThatch) (i j : Nat) : BitVec 393216 :=
  zPut z i j ((List.range t.fn).foldl (fun v col => if col = j then v else fp32c ((fp32v v).sub (zVal z i col))) (t.ccAt i))

/-! ### Hits and retirement (R178, R179) -/

/-- The physical line of a logical line: the lines in service, ascending. -/
def physical (total : Nat) (retired : List Nat) (i : Nat) : Nat :=
  ((List.range (total + retired.length)).filter (fun p => !retired.contains p)).getD i 0

/-- A hit on a physical line, and whether it is the third within 2^32 cycles. -/
def hitLine (hits : Tbl (List Nat)) (p now : Nat) : Tbl (List Nat) × Bool :=
  match hits.getD p [] with
  | [a, b] => (hits.put p [b, now], decide (now < a + 2 ^ 32))
  | l => (hits.put p (l ++ [now]), false)

/-- A field of ERRMAP set. -/
def Core.errField (k : Core) (lo w v : Nat) : Core := { k with errmap := setField k.errmap lo w v }

/-- A hit on logical row `i`, and whether a RETIRE notice is due. -/
def Core.hitRow (k : Core) (now i : Nat) : Core × Option Nat :=
  let p := physical 128 k.retRows i
  let h := hitLine k.hitRows p now
  let k1 := { k with hitRows := h.1, errmap := bumpField k.errmap 32 1 }.errField 0 8 p
  if h.2 ∧ !k.pendRows.contains p then
    if k.retRows.length + k.pendRows.length < 4 then ({ k1 with pendRows := k.pendRows ++ [p] }.errField 25 1 1, none)
    else (k1.errField 23 1 1, some p)
  else (k1, none)

/-- A hit on logical column `j`. -/
def Core.hitCol (k : Core) (now j : Nat) : Core × Option Nat :=
  let p := physical 96 k.retCols j
  let h := hitLine k.hitCols p now
  let k1 := { k with hitCols := h.1, errmap := bumpField k.errmap 32 1 }.errField 8 8 p
  if h.2 ∧ !k.pendCols.contains p then
    if k.retCols.length + k.pendCols.length < 4 then ({ k1 with pendCols := k.pendCols ++ [p] }.errField 25 1 1, none)
    else (k1.errField 24 1 1, some p)
  else (k1, none)

/-- The notice of a line that cannot be retired (R179); the line stands in ADDR (log 17). -/
def State.retireNotice (s : State) (line : Option Nat) : State :=
  match line with
  | some p => s.notice { cause := Cause.retire, addr := BitVec.ofNat 64 p }
  | none => s

/-- `errmap_hit` (R179). -/
def State.errmapHit (s : State) (rows cols : List Nat) (kind : Nat) : State :=
  let s1 := rows.foldl (fun s i =>
    let r := s.core.hitRow s.cycle i
    { s with core := r.1 }.retireNotice r.2) s
  let s2 := cols.foldl (fun s j =>
    let r := s.core.hitCol s.cycle j
    { s with core := r.1 }.retireNotice r.2) s1
  s2.onCore (fun k => k.errField 16 1 kind)

/-- Retirements take effect at a yield (R179). -/
def Core.retire (k : Core) : Core :=
  let k1 := { k with retRows := k.retRows ++ k.pendRows, retCols := k.retCols ++ k.pendCols, pendRows := [], pendCols := [] }
  ((k1.errField 17 3 k1.retRows.length).errField 20 3 k1.retCols.length).errField 25 1 0

/-! ### The check of R171 -/

/-- What a check finds: the outcome of R177, or the detail of THMIS, with the lines of the first comparison. -/
structure CheckOut where
  outcome : Nat := 0
  mis : Option Nat := none
  rows : Nat := 0
  cols : Nat := 0
  exempt : Nat := 0
  at_ : Option (Nat × Nat) := none
  deriving DecidableEq, Repr

/-- A core counter of THCNT raised (R178). -/
def State.countTh (s : State) (lo : Nat) : State := s.onCore (fun k => { k with thcnt := bumpField k.thcnt lo 1 })

/-- The replay of a chain into an accumulator, then its comparison (R171, R176). -/
def State.recompute (s : State) (n : Nat) (o : CheckOut) : State × CheckOut :=
  let t := s.core.ctx.zth n
  if !s.recomputable t then (s, { o with outcome := 3, mis := some 1 })
  else
    let z := replay s.core.ctx n t
    let s1 := s.onCtx (fun c => c.wz n z)
    if failing z t = ([], []) then (s1.countTh 32, { o with outcome := 2 })
    else (s1, { o with outcome := 3, mis := some 0 })

/-- `check(z)` (R171). -/
def State.checkZ (s : State) (n : Nat) : State × CheckOut :=
  let c := s.core.ctx
  let t := c.zth n
  let z := c.rz n
  let f := failing z t
  let o : CheckOut := { rows := f.1.length, cols := f.2.length, exempt := t.exempt }
  let again := (s.errmapHit f.1 f.2 1).recompute n o
  match f with
  | ([], []) => (s, o)
  | ([i], [j]) =>
    let z' := correctCell z t i j
    if rowBad z' t i || colBad z' t j then again
    else (((s.onCtx (fun c => c.wz n z')).countTh 0).errmapHit [i] [j] 0, { o with outcome := 1, at_ := some (i, j) })
  | _ => again

/-- The comparison alone, for MCHK with RPT (R175). -/
def State.reportZ (s : State) (n : Nat) : CheckOut :=
  let t := s.core.ctx.zth n
  let f := failing (s.core.ctx.rz n) t
  { outcome := if f = ([], []) then 0 else 3, rows := f.1.length, cols := f.2.length, exempt := t.exempt }

end Machine

end Sys2Proof
end

