-- ==== Sys2Proof/Machine/Panel.lean ====
section
/-! DEFINITION. Weight panels and their streams, and the Dormer stage: projections, latent pages and their verification
(R149 to R151, R161, R169, R180 to R188). -/

namespace Sys2Proof.Machine

/-- A size padded to a multiple of 128. -/
def pad128 (n : Nat) : Nat := (n + 127) / 128 * 128

/-- Does a panel's data lie packed in six bits an element in DEV (R150). -/
def packedFmt (f : Fmt) : Bool := f == .e2m3 || f == .e3m2

/-- Bytes of a k-row in an image (R150). -/
def rowBytes (f : Fmt) (fromTiles : Bool) : Nat := if packedFmt f && !fromTiles then 72 else f.stride

/-- Bytes of the scale part of a panel image, unpadded (R150). -/
def scalePart (f : Fmt) (k : Nat) : Nat := if f.micro then (k + 31) / 32 * 96 else 0

/-- Where the checksum part of a panel image starts. -/
def chkOff (f : Fmt) (k : Nat) : Nat := pad128 (scalePart f k)

/-- Where the data part of a panel image starts. -/
def dataOff (f : Fmt) (k : Nat) : Nat := chkOff f k + pad128 (4 * k)

/-- Sectors of a panel image. -/
def panelSectors (f : Fmt) (k : Nat) (fromTiles : Bool) : Nat := (dataOff f k + pad128 (k * rowBytes f fromTiles)) / 128

/-- k-rows whose bytes lie below an image offset. -/
def rowsBelow (f : Fmt) (k : Nat) (fromTiles : Bool) (n : Nat) : Nat := min k ((n - dataOff f k) / rowBytes f fromTiles)

/-- k-rows of a load that a matrix instruction may use: landed and verified, a Q4X block as a whole (R151, R169). -/
def WLoad.rowsReady (l : WLoad) : Nat :=
  let n := rowsBelow l.fmt l.k l.fromTiles (128 * l.landed)
  if l.fmt = .q4x ∧ n < l.k then n / 32 * 32 else n

/-- Bytes at an offset of a buffer. -/
def putBytes (d : BitVec 524288) (o : Nat) (bs : List Byte) : BitVec 524288 :=
  setField d (8 * o) (8 * bs.length) (ofBytes bs)

/-- k-row `r` of an image as its bytes in the buffer: six-bit elements expanded (R82, R150). -/
def rowImage (f : Fmt) (fromTiles : Bool) (bs : List Byte) : List Byte :=
  if packedFmt f && !fromTiles then (unpackCodes 6 96 (ofBytes bs)).map (BitVec.ofNat 8) else bs

/-- The buffer after the image's first `n` bytes have landed (R149, R150). -/
def panelWrite (l : WLoad) (d : BitVec 524288) (n : Nat) : BitVec 524288 :=
  let part (o len : Nat) : List Byte := ((l.bytes.take n).drop o).take len
  let d1 := putBytes d 53248 (part 0 (scalePart l.fmt l.k))
  let d2 := putBytes d1 49152 (part (chkOff l.fmt l.k) (4 * l.k))
  let rb := rowBytes l.fmt l.fromTiles
  if packedFmt l.fmt && !l.fromTiles then
    (List.range (rowsBelow l.fmt l.k l.fromTiles n)).foldl (fun d r =>
      putBytes d (r * l.fmt.stride) (rowImage l.fmt l.fromTiles (part (dataOff l.fmt l.k + r * rb) rb))) d2
  else putBytes d2 0 (part (dataOff l.fmt l.k) (l.k * rb))

/-- The values of k-row `r` of a buffer, scales included (R163, R169). -/
def panelRow (d : BitVec 524288) (f : Fmt) (r : Nat) : List Val :=
  (List.range 96).map (fun j =>
    let v := if f = .q4x then ((q4xColumn d (r / 32) j).getD (r % 32) (.zero false, .none)).1 else f.value 0 (wbEl d f r j)
    if f.micro then v.mul (wbScale d (r / 32) j) else v)

/-- Does k-row `r` fail its verification (R164, R169). -/
def panelRowBad (d : BitVec 524288) (f : Fmt) (r : Nat) : Bool :=
  lineFails f.tf 96 (panelRow d f r) ((d.extractLsb' (8 * (49152 + 4 * r)) 32).toNat)

/-- The first of the newly ready k-rows that fails. -/
def firstBadRow (d : BitVec 524288) (f : Fmt) (from_ last : Nat) : Option Nat :=
  ((List.range last).drop from_).find? (panelRowBad d f)

/-- Does an instruction read a weight buffer. -/
def readsWb (i : Instr) (wb : Bool) : Bool :=
  match mmaFmt i with
  | some (a, _) => decide (a.f 21 1 = wb.toNat)
  | none => false

/-- The jobs of the matrix engine and the held follow-ons. -/
def Ctx.jobs (c : Ctx) : List MJob := c.running.toList ++ c.waiting.toList ++ c.follow.map (·.job)

/-- May a load start: no matrix instruction committed before it still reads the buffer (R151). -/
def Ctx.streamFree (c : Ctx) (wb : Bool) (l : WLoad) : Bool :=
  c.jobs.all (fun j => !(decide (j.seq < l.seq) && readsWb j.op wb))

/-- A QM entry (R158, R177). -/
def qmEntry (addr : Word) (opc byte9 sats : Nat) (tail : List Nat) : BitVec 512 :=
  BitVec.ofNat 512 (ofBytes (toBytes 8 addr.toNat ++ toBytes 1 opc ++ toBytes 1 byte9 ++ toBytes 2 0 ++ toBytes 4 sats
    ++ tail.flatMap (toBytes 1)))

/-- A reserved QM entry lands (R159). -/
def State.pushQm (s : State) (push : Bool) (q : BitVec 512) : State :=
  if push then s.onCtx (fun c => { c with qm := c.qm ++ [q], qmRes := c.qmRes - 1 }) else s

/-- An engine fault awaits the next bundle boundary (R43, R352). -/
def State.engineTrap (s : State) (t : TrapInfo) : State := s.onCtx (fun c => { c with engTraps := c.engTraps ++ [t] })

/-- MPROG reads zero once every resumed instruction has completed (R160); a follow-on that has not entered the engine is
none. -/
def Ctx.settleMprog (c : Ctx) : Ctx :=
  let old (n : Nat) : Bool := decide (n < c.mBound)
  if ((c.running.toList ++ c.waiting.toList).any (fun j => old j.seq)) || ([c.ws0, c.ws1].any (fun w =>
      (w.active.toList ++ w.queued.toList).any (fun l => old l.seq))) then c
  else { c with mprog := 0 }

/-- A stream's load changed. -/
def State.setLoad (s : State) (wb : Bool) (l : WLoad) : State :=
  s.onCtx (fun c => c.setWs wb { c.ws wb with active := some l })

/-- A load has landed whole: the queued one becomes active, and the QM entry lands (R144, R158). -/
def State.finishLoad (s : State) (wb : Bool) (l : WLoad) : State :=
  ((s.onCtx (fun c => c.setWs wb { active := (c.ws wb).queued, queued := none })).pushQm l.push
    (qmEntry l.addr 0x15 wb.toNat 0 [])).onCtx Ctx.settleMprog

/-- The next sector of a load lands: its bytes enter the buffer, the k-rows that it completes are verified, and a failing
row stops the stream at the sector that holds its start (R150, R161, R169). -/
def State.landSector (s : State) (wb : Bool) (l : WLoad) (bs : List Byte) : State :=
  let n := l.landed + 1
  let l1 := { l with bytes := l.bytes.take (128 * l.landed) ++ bs ++ l.bytes.drop (128 * n), landed := n }
  let b := s.core.ctx.wb wb
  let d := panelWrite l1 b.data (128 * n)
  let s1 := s.onCtx (fun c => c.setWb wb { b with data := d })
  match firstBadRow d l.fmt l.rowsReady l1.rowsReady with
  | some r =>
    (s1.setLoad wb { l1 with stopped := true, landed := (dataOff l.fmt l.k + r * rowBytes l.fmt l.fromTiles) / 128 }).engineTrap
      { cause := Cause.thmis, det := 2, ipc := l.addr, addr := BitVec.ofNat 64 l.src }
  | none => if n = panelSectors l.fmt l.k l.fromTiles then s1.finishLoad wb l1 else s1.setLoad wb l1

/-- The slot number of the matrix slot (R40), which a translation fault inside a matrix instruction has in AUX (R295; log
25). -/
def matrixSlot : Nat := 4

/-- The address of the next sector of a DEV load. -/
def WLoad.sectorVa (l : WLoad) : Word := BitVec.ofNat 64 (l.src + 128 * l.landed)

/-- WSTREAM_SECTOR: enabled for an active load that may start and is not stopped (R150, R151). -/
def State.wstreamSector (s : State) (wb : Bool) : Option State :=
  match (s.core.ctx.ws wb).active with
  | none => none
  | some l =>
    if l.stopped || !s.core.ctx.streamFree wb l then none
    else if l.fromTiles then some (s.landSector wb l ((l.bytes.drop (128 * l.landed)).take 128))
    else if !engineFree s then none
    else
      match ioRead s s.runOf.ctx none l.sectorVa 128 with
      | .ok bs => some ((s.noteIo s.runOf.ctx none l.sectorVa 128).landSector wb l bs)
      | .error t => t.unlessHold ((s.setLoad wb { l with stopped := true }).engineTrap { t with ipc := l.addr, aux := matrixSlot })

/-- Have the rows of a k-step landed, for a job that reads a weight buffer (R151). -/
def Ctx.panelReady (c : Ctx) (j : MJob) (p : Prod) (ks : Nat) : Bool :=
  let w := c.ws (p.a.f 21 1 = 1)
  let last := p.a.koff + min p.k (32 * ks + 32)
  (match w.active with
   | some l => decide (j.seq ≤ l.seq) || decide (last ≤ l.rowsReady)
   | none => true) &&
  (match w.queued with
   | some l => decide (j.seq ≤ l.seq)
   | none => true)

/-- Does a job wait for k-rows of a weight stream that has stopped (R161). -/
def Ctx.starved (c : Ctx) (j : MJob) : Bool :=
  [false, true].any (fun wb => readsWb j.op wb && (c.ws wb).active.any (fun l => l.stopped && decide (l.seq < j.seq)))

/-! ### The Dormer stage -/

/-- Bytes of a row of U in an image (R181). -/
def projRow (dh : Nat) : Nat := 2 * dh

/-- Where the data of a projection image starts (R181). -/
def projData (dc : Nat) : Nat := pad128 (4 * dc) + 128

/-- Segments that a projection occupies (R180). -/
def projSegs (dc dh : Nat) : Nat := (2 * dc * dh + 65535) / 65536

/-- d_h of a load (R182). -/
def loadDh (a : MArgs) : Nat := 32 * (a.f 14 4 + 1)

/-- The rows of one block of U and their checksums, verified with the corner: the codes, or a fault (R182). -/
def projBlock (s : State) (base : Word) (dc dh b : Nat) : Chk (List (List Nat)) := do
  let ctx := s.runOf.ctx
  let chk ← ioRead s ctx none base (4 * dc)
  let corner ← ioRead s ctx none (base + BitVec.ofNat 64 (pad128 (4 * dc))) 4
  let data ← ioRead s ctx none (base + BitVec.ofNat 64 (projData dc + 32 * b * projRow dh)) (32 * projRow dh)
  let codes := chunks dh 32 (unpackCodes 16 (32 * dh) (ofBytes data))
  let sums := unpackCodes 32 dc (ofBytes chk)
  let rowsOk := codes.zipIdx.all (fun r => !lineFails 8 dh (r.1.map (Fmt.bf16.value 0)) (sums.getD (32 * b + r.2) 0))
  if rowsOk && !lineFails 8 dc (sums.map fp32v) (ofBytes corner) then .ok codes
  else .error { cause := Cause.thmis, det := 3, addr := base }

/-- What reading a block of a projection does to the L2 (R182, R255). -/
def State.noteProj (s : State) (base : Word) (dc dh b : Nat) : State :=
  let ctx := s.runOf.ctx
  ((s.noteIo ctx none base (4 * dc)).noteIo ctx none (base + BitVec.ofNat 64 (pad128 (4 * dc))) 4).noteIo ctx none
    (base + BitVec.ofNat 64 (projData dc + 32 * b * projRow dh)) (32 * projRow dh)

/-- A byte range of the segments from a base segment on. -/
def segWrite (segs : Vector Seg 8) (seg o w v : Nat) : Vector Seg 8 :=
  let q := seg + o / 65536
  if h : q < 8 then segs.set q { segs[q] with data := setField segs[q].data (8 * (o % 65536)) w v } else segs

/-- A block of rows written into the buffer. -/
def Ctx.putBlock (c : Ctx) (seg dh b : Nat) (codes : List (List Nat)) : Ctx :=
  { c with segs := codes.zipIdx.foldl (fun sg r => r.1.zipIdx.foldl (fun sg q =>
      segWrite sg seg (2 * (dh * (32 * b + r.2) + q.2)) 16 q.1) sg) c.segs }

/-- Blocks of a projection read in order and written at a segment; the first that fails ends it, with its fault (R180,
R182). -/
def State.loadBlocks (s : State) (base : Word) (dc dh seg : Nat) : List Nat → Chk State
  | [] => .ok s
  | b :: bs =>
    match projBlock s base dc dh b with
    | .error t => .error { t with aux := if t.cause = Cause.thmis then seg else matrixSlot }
    | .ok codes => ((s.noteProj base dc dh b).onCtx (fun c => c.putBlock seg dh b codes)).loadBlocks base dc dh seg bs

/-- The device corner of a projection (R180). -/
def Ctx.deviceCorner (c : Ctx) (seg dc dh : Nat) : Nat :=
  checksum ((List.range dc).flatMap (fun l => (List.range dh).map (c.uEl seg dh l)))

/-- Tags of segments set; a projection that a new one overlaps loses its tags (R180). -/
def tagSegs (segs : Vector Seg 8) (seg dc dh : Nat) (addr : Word) : Vector Seg 8 :=
  let n := projSegs dc dh
  -- the base of each segment's projection
  let baseOf (q : Nat) : Nat := ((List.range (q + 1)).reverse.find? (fun b =>
    match (segs.toList.getD b {}).tag with
    | .continuation => false
    | _ => true)).getD q
  let lost (q : Nat) : Bool := (List.range n).any (fun k =>
    decide (baseOf (seg + k) = baseOf q) && decide ((segs.toList.getD (seg + k) {}).tag ≠ .none))
  Vector.ofFn (fun (q : Fin 8) =>
    let old := segs[q]
    if q.val = seg then { old with tag := .base dc dh addr none, ver := old.ver + 1 }
    else if seg < q.val ∧ q.val < seg + n then { old with tag := .continuation, ver := old.ver + 1 }
    else if lost q.val then { old with tag := .none }
    else old)

/-- The tag of a completed load takes its corner, where no later load has been committed to its segment; `ver` is the
segment's count of loads at this one's commit (R180). -/
def Ctx.cornerTag (c : Ctx) (seg dc dh ver : Nat) : Ctx :=
  if h : seg < 8 then
    match (c.segs[seg]).tag with
    | .base d e addr _ =>
      if (c.segs[seg]).ver ≠ ver then c
      else { c with segs := c.segs.set seg { c.segs[seg] with tag := .base d e addr (some (BitVec.ofNat 32 (c.deviceCorner seg dc dh))) } }
    | _ => c
  else c

/-- An index entry (R183). -/
def indexEntry (t : Tile) (k : Nat) : Nat := tileField t (32 * k) 32

/-- Entries that an MLAT reads (R185). -/
def mlatEntries (a : MArgs) (n : Nat) : Nat := if a.value then a.tokens else n

/-- Bytes of a latent page, its scales included (R183). -/
def pageBytes (f : Fmt) (dc : Nat) : Nat :=
  (thLayout f.bits 16 dc).size + (if f = .e4m3 then 16 * (dc / 32) else 0)

/-- Is an index entry one that DIDX refuses (R185). -/
def indexBad (f : Fmt) (dc bank0 banks e : Nat) : Bool :=
  bits e 31 1 = 0 &&
    (bits e 19 12 ≠ 0 || decide (2 ^ 22 < 128 * bits e 0 15 + pageBytes f dc) ||
      !spmIn bank0 banks (128 * bits e 0 15) (pageBytes f dc))

/-- A latent page in the scratchpad, with the scale of a row's block. -/
def pageOf (s : State) (f : Fmt) (dc page : Nat) : ThImage × (Nat → Nat → Val) :=
  let bs := spmBytes s s.runOf.lcore (128 * page) (pageBytes f dc)
  let l := thLayout f.bits 16 dc
  (thParse f.bits 16 dc bs, fun r b => if f = .e4m3 then e8m0 ((bs.getD (l.size + r * (dc / 32) + b) 0).toNat) else .ofInt 1)

/-- The row of one index entry, with the state after a correction in the page; `none` for LATENT (R186). The empty row of a
null entry stands for zeros (R183, R187). -/
def gatherRow (s : State) (f : Fmt) (dc e : Nat) : State × Option (List Val) :=
  if bits e 31 1 = 1 then (s, some [])
  else
    let page := bits e 0 15
    let row := bits e 15 4
    let p := pageOf s f dc page
    let vals (im : ThImage) : List Val := decodeRow f 0 (p.2 row) (im.codes.getD row [])
    if !lineFails f.tf dc (vals p.1) (p.1.ccol.getD row 0) then (s, some (vals p.1))
    else
      match p.1.verified f 0 p.2 dc with
      | none => (s, none)
      | some (im, fixed) =>
        if fixed then
          let at_ : Place := { space := .spm, owner := s.runOf.lcore, addr := 128 * page }
          let data := (thBuild f.bits 16 dc im).take (storedBytes f.bits (16 * dc))
          ((s.performSeg at_ data).countTh 0, some (vals im))
        else (s, some (vals im))

/-- The rows of an MLAT gathered in order; the page of the entry that cannot be repaired otherwise (R186). -/
def gatherRows (s : State) (f : Fmt) (dc : Nat) : List Nat → State × Except Nat (List (List Val))
  | [] => (s, .ok [])
  | e :: es =>
    match gatherRow s f dc e with
    | (s1, none) => (s1, .error (128 * bits e 0 15))
    | (s1, some r) =>
      match gatherRows s1 f dc es with
      | (s2, .ok rs) => (s2, .ok (r :: rs))
      | (s2, .error p) => (s2, .error p)

end Sys2Proof.Machine
end

