-- ==== Sys2Proof/Machine/Matrix.lean ====
section
/-! DEFINITION. The matrix slot's operations: their issue checks and what their commit sends to the matrix engine or to a
weight stream (R144 to R157, R173, R182 to R187). -/

namespace Sys2Proof.Machine

/-- No QM entry can be reserved (R159). -/
def Env.qmFull (e : Env) : Bool :=
  decide (16 + (e.named.filter (· = 0)).length < e.c.qm.length + e.c.qmRes + 1)

/-- Tiles captured by name. -/
def captureTiles (c : Ctx) (ns : List TileName) : Tbl TileReg :=
  ns.foldl (fun t n => t.put n.key { val := c.rt n, ver := c.tileVer n }) []

/-- A job of this bundle (R44, R146, R172). -/
def Env.job (e : Env) (op : Instr) (push : Bool) (ns : List TileName) (srcs : List Source) : MJob :=
  { op := op, addr := e.s.core.pc, cfg := e.c.mcfgr, seed := e.c.kept.seedtop, srBase := e.srBase, arith := e.c.arith,
    seq := e.c.seq, push := push, tiles := captureTiles e.c ns, vers := srcs.map (fun v => (v, e.s.verOf v)) }

/-- A job takes its reservation and its place: running, waiting, or held as a follow-on (R144, R159, R231). -/
def State.sendJob (s : State) (follow : Bool) (j : MJob) : State :=
  s.onCtx (fun c =>
    let c1 := if j.push then { c with qmRes := c.qmRes + 1 } else c
    if follow then { c1 with follow := c1.follow ++ [{ job := j, copySeq := s.core.cmdSeq }] }
    else if c1.running.isNone && c1.waiting.isNone then { c1 with running := some j }
    else { c1 with waiting := some j })

/-- A matrix operation whose checks pass. -/
def sendOr (e : Env) (j : MJob) (faults : List (Bool × Nat)) : SlotOut :=
  match faults.find? (fun f => f.1) with
  | some f => .fault f.2
  | none => .ok (fun s => s.sendJob e.follow j)

/-- Tiles that A occupies (R147), index tile first. -/
def aTiles (c : Ctx) (cfg : Word) (f : Fmt) (oa : Opnd) (gath : Bool) (k : Nat) : List TileName :=
  let m := bits cfg.toNat 0 7 + 1
  let chunks := (k + f.ef - 1) / f.ef
  (if gath then [oa.tile] else []) ++
    (List.range m).flatMap (fun i => (List.range chunks).filterMap (fun ch =>
      (aChunk c.rt oa gath (astrOf cfg) i ch).map (·.1)))

/-- Does A gather a tile that does not exist (R147). -/
def gatherBad (ns : List TileName) : Bool := ns.any (fun n => decide (n.lvl = 0 ∧ 2047 < n.idx))

/-- A continuing writer beyond the footprint (R168). -/
def footBad (c : Ctx) (zd : Nat) : Bool :=
  decide ((c.zth zd).fm < bits c.mcfgr.toNat 0 7 + 1 ∨ (c.zth zd).fn < bits c.mcfgr.toNat 7 7 + 1)

/-- MMA and MMAG: the checks of R147, R153 and R168. -/
def mmaLike (op : Instr) (a : MArgs) (f : Fmt) (acc mx : Bool) (e : Env) : SlotOut :=
  let c := e.c
  let at_ := aTiles c c.mcfgr f a.oa (a.f 22 1 = 1) a.k
  let sc : List TileName := if mx then
    (List.range ((((a.k + 31) / 32) + 7) / 8)).map (fun q => ⟨a.ob.lvl.toNat, a.ob.idx.toNat + q⟩) else []
  let wb := a.f 21 1
  let b := c.wb (wb = 1)
  let push := postOf c.mcfgr
  sendOr e (e.job op push (at_ ++ sc) [.wb wb])
    [(a.f 22 1 = 1 && gatherBad at_, Cause.midx), (f.micro && decide (a.koff % 32 ≠ 0), Cause.mxalign),
     (decide (b.tag ≠ some f) || decide (b.kl < a.koff + a.k), Cause.mwpnl),
     (acc && footBad c a.zd.toNat, Cause.thshp), (push && e.qmFull, Cause.qmovf)]

/-- MMA in BF16 (R154). -/
def slotMmaBf16 (a : MArgs) (e : Env) : SlotOut :=
  mmaLike (.mmaBf16 a) a .bf16 (a.f 20 1 = 1) false e

/-- MMA in FP16 (R154). -/
def slotMmaFp16 (a : MArgs) (e : Env) : SlotOut :=
  mmaLike (.mmaFp16 a) a .fp16 (a.f 20 1 = 1) false e

/-- MMA in E4M3 (R154). -/
def slotMmaE4m3 (a : MArgs) (e : Env) : SlotOut :=
  mmaLike (.mmaE4m3 a) a .e4m3 (a.f 20 1 = 1) true e

/-- MMA in E5M2 (R154). -/
def slotMmaE5m2 (a : MArgs) (e : Env) : SlotOut :=
  mmaLike (.mmaE5m2 a) a .e5m2 (a.f 20 1 = 1) true e

/-- MMA in E2M3 (R154). -/
def slotMmaE2m3 (a : MArgs) (e : Env) : SlotOut :=
  mmaLike (.mmaE2m3 a) a .e2m3 (a.f 20 1 = 1) true e

/-- MMA in E3M2 (R154). -/
def slotMmaE3m2 (a : MArgs) (e : Env) : SlotOut :=
  mmaLike (.mmaE3m2 a) a .e3m2 (a.f 20 1 = 1) true e

/-- MMA in E2M1 (R154). -/
def slotMmaE2m1 (a : MArgs) (e : Env) : SlotOut :=
  mmaLike (.mmaE2m1 a) a .e2m1 (a.f 20 1 = 1) true e

/-- MMA in Q4X (R154). -/
def slotMmaQ4x (a : MArgs) (e : Env) : SlotOut :=
  mmaLike (.mmaQ4x a) a .q4x (a.f 20 1 = 1) true e

/-- MMAG (R155). -/
def slotMmag (a : MArgs) (e : Env) : SlotOut :=
  mmaLike (.mmag a) a (fmtOf3 (a.f 25 3)) false false e

/-- SACC (R156). -/
def slotSacc (a : MArgs) (e : Env) : SlotOut :=
  let push := postOf e.c.mcfgr
  let ns := (if a.f 7 1 = 1 then [a.oa.tile] else []) ++ (if a.f 8 1 = 1 then [a.ob.tile] else [])
  sendOr e (e.job (.sacc a) push ns [.z (a.f 0 6)])
    [(footBad e.c a.zd.toNat, Cause.thshp), (push && e.qmFull, Cause.qmovf)]

/-- MZERO (R157). -/
def slotMzero (a : MArgs) (e : Env) : SlotOut :=
  let push := postOf e.c.mcfgr
  sendOr e (e.job (.mzero a) push [] []) [(push && e.qmFull, Cause.qmovf)]

/-- The format, k and source of an MWLD (R150). -/
def MJob.load (j : MJob) (a : MArgs) : WLoad :=
  let f := fmtOf3 (a.f 2 3)
  let k := a.f 5 10 + 1
  let tiles := decide (a.f 1 1 = 1)
  let n := 128 * panelSectors f k tiles
  { fmt := f, k := k, fromTiles := tiles, src := if tiles then 0 else j.xs.toNat, addr := j.addr, seq := j.seq,
    push := j.push,
    bytes := if tiles then ((List.range ((n + 1023) / 1024)).flatMap (fun q =>
        bvBytes 1024 (j.tile ⟨0, a.oa.idx.toNat + q⟩))).take n else [] }

/-- The buffer a MWLD loads (R150). -/
def loadWb (a : MArgs) : Bool := decide (a.f 0 1 = 1)

/-- Has a stream no place for a load (R144). -/
def WStream.full (w : WStream) : Bool := w.active.isSome && w.queued.isSome

/-- A load accepted by its stream. -/
def Ctx.acceptLoad (c : Ctx) (wb : Bool) (l : WLoad) : Ctx :=
  c.setWs wb (if (c.ws wb).active.isNone then { c.ws wb with active := some l } else { c.ws wb with queued := some l })

/-- Does an MWLD into a buffer hold a position of the matrix engine (R144). -/
def Ctx.holdsLoad (c : Ctx) (wb : Bool) : Bool :=
  (c.running.toList ++ c.waiting.toList).any (fun j => match j.op with
    | .mwld a => loadWb a == wb
    | _ => false)

/-- What an MWLD does at commit: the buffer's tag and KL, its reservation, and its place in its stream, in the engine, or
as a follow-on (R144, R149, R150, R231). -/
def State.sendLoad (s : State) (follow : Bool) (a : MArgs) (j : MJob) : State :=
  let wb := loadWb a
  let l := j.load a
  let s1 := s.onCtx (fun c => c.setWb wb { c.wb wb with tag := some l.fmt, kl := l.k, ver := (c.wb wb).ver + 1 })
  let c := s1.core.ctx
  if follow || (c.ws wb).full || c.holdsLoad wb then s1.sendJob follow j
  else s1.onCtx (fun c => ({ c with qmRes := if j.push then c.qmRes + 1 else c.qmRes }).acceptLoad wb l)

/-- MWLD (R150, R287). -/
def slotMwld (a : MArgs) (e : Env) : SlotOut :=
  let push := postOf e.c.mcfgr
  let x := e.c.rx a.oa.xreg
  let tiles := decide (a.f 1 1 = 1)
  let n := panelSectors (fmtOf3 (a.f 2 3)) (a.f 5 10 + 1) true
  let ns : List TileName := if tiles then (List.range ((n + 7) / 8)).map (fun q => ⟨0, a.oa.idx.toNat + q⟩) else []
  if !tiles && e.s.runOf.ss then .fault Cause.ssviol 0 x
  else if !tiles && !canonical x then .fault Cause.ncanon 0 x
  else if !tiles && decide (x.toNat % 128 ≠ 0) then .fault Cause.mwalign 0 x
  else if push && e.qmFull then .fault Cause.qmovf
  else .ok (fun s => s.sendLoad e.follow a { e.job (.mwld a) push ns [] with xs := x })

/-- MCFG: MCFGR at commit (R146). -/
def slotMcfg (a : MArgs) (_ : Env) : SlotOut :=
  .ctx (fun c => { c with mcfgr := BitVec.ofNat 64 (a.f 0 21) })

/-- MDRN (R173, R174). -/
def slotMdrn (a : MArgs) (e : Env) : SlotOut :=
  let push := postOf e.c.mcfgr
  sendOr e (e.job (.mdrn a) push [] [])
    [(footBad e.c a.zd.toNat, Cause.thshp), (push && e.qmFull, Cause.qmovf)]

/-- MCHK (R175). -/
def slotMchk (a : MArgs) (e : Env) : SlotOut :=
  let push := postOf e.c.mcfgr || decide (a.f 0 1 = 1)
  sendOr e (e.job (.mchk a) push [] []) [(push && e.qmFull, Cause.qmovf)]

/-- MRECOMP (R176). -/
def slotMrecomp (a : MArgs) (e : Env) : SlotOut :=
  let push := postOf e.c.mcfgr
  sendOr e (e.job (.mrecomp a) push [] []) [(push && e.qmFull, Cause.qmovf)]

/-- `mlat.load` (R182, R287): its tags are set at commit; `vers` holds its segment's count with this load. -/
def slotMlatLoad (a : MArgs) (e : Env) : SlotOut :=
  let push := postOf e.c.mcfgr
  let x := e.c.rx a.oa.xreg
  if e.s.runOf.ss then .fault Cause.ssviol 0 x
  else if !canonical x then .fault Cause.ncanon 0 x
  else if x.toNat % 128 ≠ 0 then .fault Cause.mwalign 0 x
  else if push && e.qmFull then .fault Cause.qmovf
  else .ok (fun s =>
    (s.onCtx (fun c => { c with segs := tagSegs c.segs (a.f 6 3) a.dc (loadDh a) x })).sendJob e.follow
      { e.job (.mlatLoad a) push [] [] with xs := x, vers := [(.seg (a.f 6 3), e.s.verOf (.seg (a.f 6 3)) + 1)] })

/-- Units of the scratchpad that a latent page occupies (R172, R188). -/
def pageUnits (lcore : Nat) (f : Fmt) (dc e : Nat) : List Source :=
  if bits e 31 1 = 1 then []
  else (List.range ((pageBytes f dc + 127) / 128)).map (fun u => .spm (lcore * 32768 + bits e 0 15 + u))

/-- The compute forms of MLAT: the checks of R147, R168 and R185. -/
def mlatLike (op : Instr) (a : MArgs) (expand : Bool) (e : Env) : SlotOut :=
  let c := e.c
  let r := e.s.runOf
  let n := bits c.mcfgr.toNat 7 7 + 1
  let seg := a.f 6 3
  let dh := c.dhOf seg
  let k := mlatK a expand dh
  let fa : Fmt := if a.lfmt = .fp16 then .fp16 else .bf16
  let at_ := aTiles c c.mcfgr fa a.oa false k
  let entries := (List.range (mlatEntries a n)).map (indexEntry (c.rt a.ob.tile))
  let push := postOf c.mcfgr
  let noBase := match (c.segs.toList.getD seg {}).tag with
    | .base dc dh _ _ => decide (dc ≠ a.dc) || (a.value && decide (dh < a.coff + n))
    | _ => true
  let segSrc : List Source :=
    if expand then (List.range (projSegs a.dc dh)).map (fun q => .seg (seg + q)) else []
  let srcs := segSrc ++ entries.flatMap (pageUnits r.lcore a.lfmt a.dc)
  sendOr e { e.job op push (a.ob.tile :: at_) srcs with xs := BitVec.ofNat 64 dh }
    [(expand && noBase, Cause.dpnl), (entries.any (indexBad a.lfmt a.dc r.bank0 r.banks), Cause.didx),
     (decide (a.f 2 1 = 1) && footBad c a.zd.toNat, Cause.thshp), (push && e.qmFull, Cause.qmovf)]

/-- MLAT through a projection (R187). -/
def slotMlatExpand (a : MArgs) (e : Env) : SlotOut :=
  mlatLike (.mlatExpand a) a true e

/-- MLAT on latent rows (R187). -/
def slotMlatAbsorb (a : MArgs) (e : Env) : SlotOut :=
  mlatLike (.mlatAbsorb a) a false e

end Sys2Proof.Machine
end

