-- ==== Sys2Proof/Machine/MatrixEngine.lean ====
section
/-! DEFINITION. The matrix engine's own steps: a waiting instruction starts, a k-step runs, an instruction completes
(R43, R144, R154 to R158, R161, R171 to R177, R182, R186, R187, R339). -/

namespace Sys2Proof.Machine

/-- The opcode of a matrix instruction (R38). -/
def matrixOpc (i : Instr) : Nat := ((encodeMatrix i).map (fun b => (b.extractLsb' 72 8).toNat)).getD 0

/-- The running job replaced. -/
def State.setRunning (s : State) (j : MJob) : State := s.onCtx (fun c => { c with running := some j })

/-- The running job stops on a fault and, where it is to run again, stands at its start (R43, R161, R171). -/
def State.stopJob (s : State) (j : MJob) (rerun : Bool) (t : TrapInfo) : State :=
  (s.setRunning { j with stopped := true, kstep := if rerun then 0 else j.kstep,
                         rows := if rerun then none else j.rows }).engineTrap { t with ipc := j.addr }

/-- THMIS of a job (R171, R295). -/
def State.thmis (s : State) (j : MJob) (det aux : Nat) (addr : Word) : State :=
  s.stopJob j true { cause := Cause.thmis, det := det, aux := aux, addr := addr }

/-- Does the matrix engine of a core start instructions and k-steps: not once the spar stops, or is to be checkpointed, at
the next boundary (R43, R44). -/
def Core.matrixOn (k : Core) : Bool :=
  match k.phase with
  | .running => decide (k.preempt ≠ some .checkpoint)
  | .yielding => true
  | _ => false

/-- Does the engine perform k-steps of a job: also those whose rows have landed before a weight stream stopped the spar
(R161, R272). -/
def Core.kstepsOn (k : Core) (j : MJob) : Bool :=
  k.matrixOn || (match k.phase with
    | .stopping _ => k.ctx.starved j
    | _ => false)

/-- MATRIX_START: the waiting instruction starts once nothing runs (R144). -/
def State.matrixStart (s : State) : Option State :=
  if !s.core.matrixOn then none
  else match s.core.ctx.running, s.core.ctx.waiting with
  | none, some j => some (s.onCtx (fun c => { c with running := some j, waiting := none }))
  | _, _ => none

/-- Flags and saturation events of a step land and are counted in the job (R75, R158). -/
def State.landJob (s : State) (j : MJob) (f : Flags) : State :=
  (s.setRunning { j with sats := j.sats + f.sats }).raise f

/-- A k-step of an MMA or MLAT (R154, R168, R187). -/
def State.mmaStep (s : State) (j : MJob) (p : Prod) : State :=
  let c := s.core.ctx
  let zd := p.a.zd.toNat
  let k := j.kblock c p j.kstep
  let first := j.kstep == 0
  let t0 := if first then
      (if p.acc then (c.zth zd).continue_ p.k p.tf j else startThatch j.m j.n p.k p.tf j)
    else c.zth zd
  let cs := kCells (c.rz zd) (first && !p.acc) p.a.oa.neg p.micro k
  let sums := kSums p.a.oa.neg k
  let s1 := s.onCtx (fun c => (c.wz zd (zPuts (c.rz zd) cs)).setZth zd ((t0.lines cs).addSums sums.1 sums.2))
  s1.landJob { j with kstep := j.kstep + 1 } ((cellFlags cs).join k.fl)

/-- A k-step of an MMAG (R155, R168). -/
def State.mmagStep (s : State) (j : MJob) (p : Prod) : State :=
  let c := s.core.ctx
  let gs := p.a.groupSteps
  let g := j.kstep / gs
  let zd := p.a.zd.toNat + g
  let k := j.kblock c p j.kstep
  let fresh := decide (j.kstep % gs = 0)
  let last := decide (j.kstep % gs = gs - 1) || decide (j.kstep + 1 = j.ksteps)
  let part := partials fresh p.a.oa.neg k c.part
  let t0 := if fresh then startThatch j.m j.n (min (32 * gs) (p.k - 32 * gs * g)) p.tf j else c.zth zd
  let sums := kSums p.a.oa.neg k
  let t1 := t0.addSums sums.1 sums.2
  let cs := if last then groupCells j.m j.n part else []
  let s1 := s.onCtx (fun c =>
    let c1 := ({ c with part := if last then [] else part }).setZth zd (t1.lines cs)
    if last then c1.wz zd (zPuts (c1.rz zd) cs) else c1)
  s1.landJob { j with kstep := j.kstep + 1 } ((cellFlags cs).join k.fl)

/-- A block of `mlat.load`; a load that resumes first reads its earlier blocks again (R182). -/
def State.loadStep (s : State) (j : MJob) (a : MArgs) : Option State :=
  let bs := if j.reload then List.range (j.kstep + 1) else [j.kstep]
  if !engineFree s then none
  else match s.loadBlocks j.xs a.dc (loadDh a) (a.f 6 3) bs with
    | .ok s1 => some (s1.setRunning { j with kstep := j.kstep + 1, reload := false })
    | .error t => t.unlessHold (s.stopJob j false t)

/-- The rows of an MLAT are gathered when it starts (R186, R188). -/
def State.gatherFor (s : State) (j : MJob) (a : MArgs) : Except State (State × MJob) :=
  match j.rows with
  | some _ => .ok (s, j)
  | none =>
    let es := (List.range (mlatEntries a j.n)).map (indexEntry (j.tile a.ob.tile))
    match gatherRows s a.lfmt a.dc es with
    | (s1, .ok rows) => .ok (s1, { j with rows := some rows })
    | (s1, .error page) => .error (s1.thmis j 4 a.zd.toNat (BitVec.ofNat 64 page))

/-- Is a job a compute form of MLAT; its fields. -/
def latArgs : Instr → Option MArgs
  | .mlatExpand a => some a
  | .mlatAbsorb a => some a
  | _ => none

/-- MATRIX_KSTEP: the running instruction's next k-step, once its rows have landed; none under a debug halt (R151, R154,
R161, R182, R187, R333). -/
def State.matrixKstep (s : State) : Option State :=
  match s.core.ctx.running with
  | none => none
  | some j =>
    if j.stopped || !s.core.kstepsOn j || decide (s.plat.dbg = 2) || decide (j.ksteps ≤ j.kstep) then none
    else
      match j.op with
      | .mlatLoad a => s.loadStep j a
      | .mmag _ => match j.prod with
        | some p => if s.core.ctx.panelReady j p j.kstep then some (s.mmagStep j p) else none
        | none => none
      | op =>
        match j.prod, latArgs op with
        | some p, some a =>
          match s.gatherFor j a with
          | .ok (s1, j1) => some (s1.mmaStep j1 p)
          | .error s1 => some s1
        | some p, none => if s.core.ctx.panelReady j p j.kstep then some (s.mmaStep j p) else none
        | none, _ => none

/-- A job leaves the engine with its QM entry (R158, R177). -/
def State.finishJob (s : State) (j : MJob) (byte9 : Nat) (tail : List Nat) : State :=
  ((s.onCtx (fun c => { c with running := none })).pushQm j.push (qmEntry j.addr (matrixOpc j.op) byte9 j.sats tail)).onCtx
    Ctx.settleMprog

/-- QM bytes 16 to 23 of a check (R177). -/
def checkTail (o : CheckOut) : List Nat :=
  [o.outcome, min 255 o.rows, min 255 o.cols, min 255 o.exempt, ((o.at_.map (·.1)).getD 0xFF), ((o.at_.map (·.2)).getD 0xFF)]

/-- SACC as one step (R156, R168). -/
def State.saccStep (s : State) (j : MJob) (a : MArgs) : State :=
  let zp := a.f 0 6
  let zd := a.zd.toNat
  match s.checkZ zp with
  | (s1, { mis := some det, .. }) => s1.thmis j det zp 0
  | (s1, _) =>
    let c := s1.core.ctx
    let src := c.rz zp
    let cs := saccCells j a src (c.rz zd)
    let sums := saccSums j a src
    let t := (c.zth zd).continue_ (c.zth zp).kt (c.zth zp).tf j
    let s2 := s1.onCtx (fun c => (c.wz zd (zPuts (c.rz zd) cs)).setZth zd ((t.lines cs).addSums sums.1 sums.2))
    let f := cellFlags cs
    (s2.landJob j f).finishJob { j with sats := j.sats + f.sats } zd []

/-- MZERO as one step (R157, R168). -/
def State.mzeroStep (s : State) (j : MJob) (a : MArgs) : State :=
  let zs := (List.range (a.f 0 6 + 1)).map (fun q => a.zd.toNat + q)
  (s.onCtx (fun c => zs.foldl (fun c z => (c.wz z 0).setZth z { chain := [j] }) c)).finishJob j a.zd.toNat []

/-- An injected upset taken by the check of a tile: no write of it, so that no chain turns stale (R172, R339). -/
def State.inject (s : State) (n : Nat) : State :=
  let v := s.plat.thinj
  if v.getLsbD 33 ∧ bits v.toNat 0 7 = s.coreNum ∧ bits v.toNat 8 6 = n then
    let i := bits v.toNat 14 7
    let j := bits v.toNat 21 7
    let z := s.core.ctx.rz n
    let r : ZReg := { val := zPut z i j (zEl z i j ^^^ 2 ^ bits v.toNat 28 5), ver := ((s.core.ctx.z.get? n).map (·.ver)).getD 0 }
    let s1 := s.onCtx (fun c => { c with z := c.z.put n r })
    { s1 with plat := { s1.plat with thinj := setField (setField v 33 1 0) 34 1 1 } }
  else s

/-- Format and rounding of MDRN (R173). -/
def drainFmt (a : MArgs) : Fmt := if a.f 0 2 = 0 then .fp32 else if a.f 0 2 = 1 then .bf16 else .fp16

/-- The drained elements: position, code and flags (R174). -/
def drainEls (c : Ctx) (j : MJob) (a : MArgs) : List (Nat × Nat × Nat × Flags) :=
  let z := c.rz a.zd.toNat
  let mode := Rm.ofCode j.arith (a.f 2 2)
  (List.range j.m).flatMap (fun i => (List.range j.n).map (fun q =>
    let r := roundF (drainFmt a) 0 (zVal z i q) mode (srWord j.seed j.srBase (i * j.n + q))
    (i, q, r.1, r.2)))

/-- Where MDRN puts element (i, j): a tile and the element's bit offset (R174). -/
def drainPlace (a : MArgs) (n i j : Nat) : TileName × Nat :=
  let sw := (drainFmt a).bits / 8
  let ncb := (n * sw + 63) / 64
  (⟨a.oa.lvl.toNat, a.oa.idx.toNat + i / 16 * ncb + j * sw / 64⟩, 512 * (i % 16) + 8 * (j * sw % 64))

/-- The tiles of the block that MDRN drains (R174). -/
def drainBlock (a : MArgs) (m n : Nat) : List TileName :=
  let ncb := (n * ((drainFmt a).bits / 8) + 63) / 64
  (List.range ((m + 15) / 16 * ncb)).map (fun q => ⟨a.oa.lvl.toNat, a.oa.idx.toNat + q⟩)

/-- The tiles MDRN writes (R174). -/
def drainTiles (a : MArgs) (m n : Nat) : List TileName :=
  drainBlock a m n ++ (if a.f 4 1 = 1 then [a.ob.tile] else [])

/-- The writes of the checksum tile (R174). -/
def drainChecks (f : Fmt) (n : Nat) (els : List (Nat × Nat × Nat × Flags)) : List FieldWr :=
  let s := flash n ((chunks n els.length (els.map (fun e => f.value 0 e.2.2.1))))
  s.1.zipIdx.map (fun c => ⟨32 * c.2, 32, c.1⟩) ++ s.2.1.zipIdx.map (fun c => ⟨8 * 384 + 32 * c.2, 32, c.1⟩)
    ++ [⟨8 * 896, 32, s.2.2⟩]

/-- MDRN as one step (R174). -/
def State.mdrnStep (s : State) (j : MJob) (a : MArgs) : State :=
  let n := a.zd.toNat
  match (s.inject n).checkZ n with
  | (s1, { mis := some det, .. }) => s1.thmis j det n 0
  | (s1, o) =>
    let els := drainEls s1.core.ctx j a
    let f := els.foldl (fun f e => f.join e.2.2.2) Flags.none
    let w := (drainFmt a).bits
    let writes (t : TileName) : List FieldWr := els.filterMap (fun e =>
      let p := drainPlace a j.n e.1 e.2.1
      if p.1 = t then some ⟨p.2, w, e.2.2.1⟩ else none)
    let s2 := s1.onCtx (fun c =>
      let c1 := (drainBlock a j.m j.n).foldl (fun c t => c.wt t (writes t)) c
      if a.f 4 1 = 1 then c1.wt a.ob.tile (drainChecks (drainFmt a) j.n els) else c1)
    (s2.landJob j f).finishJob { j with sats := j.sats + f.sats } n (checkTail o)

/-- MCHK as one step (R175). -/
def State.mchkStep (s : State) (j : MJob) (a : MArgs) : State :=
  let n := a.zd.toNat
  let s0 := s.inject n
  if a.f 0 1 = 1 then s0.finishJob j n (checkTail (s0.reportZ n))
  else
    match s0.checkZ n with
    | (s1, { mis := some det, .. }) => s1.thmis j det n 0
    | (s1, o) => s1.finishJob j n (checkTail o)

/-- MRECOMP as one step (R176): its first comparison is that of the replayed values. -/
def State.mrecompStep (s : State) (j : MJob) (a : MArgs) : State :=
  let n := a.zd.toNat
  let s0 := s.inject n
  match s0.recompute n { exempt := (s0.core.ctx.zth n).exempt } with
  | (s1, { mis := some det, .. }) => s1.thmis j det n 0
  | (s1, o) => s1.finishJob j n (checkTail o)

/-- The engine's running instruction of one step, performed whole. -/
def State.singleStep (s : State) (j : MJob) : Option State :=
  match j.op with
  | .sacc a => some (s.saccStep j a)
  | .mzero a => some (s.mzeroStep j a)
  | .mdrn a => some (s.mdrnStep j a)
  | .mchk a => some (s.mchkStep j a)
  | .mrecomp a => some (s.mrecompStep j a)
  | _ => none

/-- An MWLD that holds a position goes to its stream once there is room (R144). -/
def State.unloadPosition (s : State) : Option State :=
  let c := s.core.ctx
  let go (j : MJob) (c1 : Ctx) : Option State :=
    match j.op with
    | .mwld a =>
      if (c.ws (loadWb a)).full then none
      else some (s.onCtx (fun _ => c1.acceptLoad (loadWb a) (j.load a)))
    | _ => none
  match c.running.bind (fun j => go j { c with running := none }) with
  | some s' => some s'
  | none => c.waiting.bind (fun j => go j { c with waiting := none })

/-- MATRIX_COMPLETE (R144, R156 to R158, R174 to R177, R182). -/
def State.matrixComplete (s : State) : Option State :=
  match s.unloadPosition with
  | some s' => some s'
  | none =>
    match s.core.ctx.running with
    | none => none
    | some j =>
      if j.stopped then none
      else
        match s.singleStep j with
        | some s' => some s'
        | none =>
          if j.ksteps ≤ j.kstep then
            match j.op with
            | .mlatLoad a =>
              let ver := (j.vers.head?.map (·.2)).getD 0
              some ((s.onCtx (fun c => c.cornerTag (a.f 6 3) a.dc (loadDh a) ver)).finishJob j (a.f 6 3) [])
            | _ => some (s.finishJob j ((j.prod.map (fun p => p.a.zd.toNat)).getD 0) [])
          else none

end Sys2Proof.Machine
end

