-- ==== Sys2Proof/Machine/AddrUnit.lean ====
section
/-! DEFINITION. The address-unit operations, the same in the load and the store slot (R103). -/

namespace Sys2Proof.Machine

/-- An address-unit operation that writes An from the register it holds and Xs. -/
def setA (a : LArgs) (e : Env) (f : AReg → Word → AReg) : SlotOut :=
  .ctx (fun c => c.wa a.ar (f (e.c.ra a.ar) (e.c.rx a.dat.xreg)))

/-- BASE := Xs; IDX := 0; mode linear (R103). -/
def slotAset (a : LArgs) (e : Env) : SlotOut :=
  setA a e (fun r x => { r with base := x, idx := 0, mode := 0 })

/-- update(An, Xs[31:0]) (R101, R103). -/
def slotAinc (a : LArgs) (e : Env) : SlotOut :=
  setA a e (fun r x => r.update (x.setWidth 32))

/-- LEN := Xs[30:0]; mode modulo (R103). -/
def slotAmod (a : LArgs) (e : Env) : SlotOut :=
  setA a e (fun r x => { r with len := x.setWidth 31, mode := 1 })

/-- LEN := Xs[30:0]; mode bit-reversed (R103). -/
def slotAbrev (a : LArgs) (e : Env) : SlotOut :=
  setA a e (fun r x => { r with len := x.setWidth 31, mode := 2 })

/-- STEP := Xs[31:0] (R103). -/
def slotAstp (a : LArgs) (e : Env) : SlotOut :=
  setA a e (fun r x => { r with step := x.setWidth 32 })

/-- LEN := Xs[30:0]; mode unchanged (R103). -/
def slotAlen (a : LArgs) (e : Env) : SlotOut :=
  setA a e (fun r x => { r with len := x.setWidth 31 })

/-- The field of an address register that AGET's MODE selects (R103). -/
def AReg.field (r : AReg) (code : Nat) : Word :=
  match code with
  | 0 => r.base
  | 1 => r.idx.signExtend 64
  | 2 => r.step.signExtend 64
  | 3 => r.len.setWidth 64
  | 4 => r.mode.setWidth 64
  | _ => r.sum

/-- Xd := a field of An or its sum, with no fault (R103). -/
def slotAget (a : LArgs) (e : Env) : SlotOut :=
  .ctx (fun c => c.wx a.dat.xreg ((e.c.ra a.ar).field (bits a.mode.toNat 0 3)))

/-- Every field of An zero, mode linear (R103). -/
def slotAclr (a : LArgs) (e : Env) : SlotOut :=
  setA a e (fun _ _ => {})

end Sys2Proof.Machine
end

