-- ==== Sys2Proof/Machine/SparForms.lean ====
section
/-! DEFINITION. The spar forms of the scalar slot (R277 to R283). -/

namespace Sys2Proof.Machine

/-- The seed derivation (R326). -/
def childSeed (s : BitVec 128) (i : Word) : BitVec 128 := arxh s (i ^^^ BitVec.allOnes 64) ++ arxh s i

/-- Bits of the identifier below level `k`'s field (R275). -/
def Launch.shift (l : Launch) (k : Nat) : Nat := (l.lw.drop k).foldl (· + ·) 0

/-- Width of level `k`; zero beyond NLEV. -/
def Launch.width (l : Launch) (k : Nat) : Nat := if k = 0 then 0 else l.lw.getD (k - 1) 0

/-- Level `k`'s field of an identifier; zero beyond NLEV (R281). -/
def Launch.levelOf (l : Launch) (wid : Word) (k : Nat) : Nat := bits wid.toNat (l.shift k) (l.width k)

/-- The bytes of a spar record (R273). `flags` is word 1 [5:0]; `w3` word 3. -/
def recordBytes (wid pc : Word) (flags : Nat) (wait : Word) (w3 : Nat) (xs : List Word) : List Byte :=
  toBytes 8 wid.toNat ++ toBytes 8 (bits pc.toNat 6 51 * 64 + flags) ++ toBytes 8 wait.toNat ++ toBytes 8 w3
    ++ xs.flatMap (fun x => toBytes 8 x.toNat)

/-- Word 3 of a spar record (R273). -/
def recordWord3 (prio srun bind bcore rem : Nat) : Nat :=
  prio + srun * 2 ^ 4 + bind * 2 ^ 20 + bcore * 2 ^ 22 + rem % 2 ^ 32 * 2 ^ 32

/-- X1 to X4. -/
def Ctx.preserved (c : Ctx) : List Word := [c.rx 1, c.rx 2, c.rx 3, c.rx 4]

/-- A launch changed. -/
def State.onLaunch (s : State) (n : Nat) (f : Launch → Launch) : State :=
  match s.sched.launches.get? n with
  | some l => { s with sched := { s.sched with launches := s.sched.launches.put n (f l) } }
  | none => s

/-- Creation of a child at commit (R278): NEXT advances at its home slice, the record is written, the seed derived and
the child ready at the tail of its class queue. -/
def spawnChild (l : Launch) (r : Run) (i : Nat) (wid entry : Word) (seed : BitVec 128) (xs : List Word)
    (nextAt recAt : List (Place × Nat)) (s : State) : State :=
  let rec_ := recordBytes wid entry (2 * r.sys.toNat + 4 * r.rst.toNat) 0 (recordWord3 r.prio 0 0 0 l.rem0) xs
  let s1 := (s.performSegs (dealBytes nextAt (toBytes 4 (i + 1)))).performSegs (dealBytes recAt rec_)
  let id : SparId := ⟨r.id.launch, i⟩
  let q : Ready := { id := id, cls := r.prio, core := s.core.num, lc := r.lcore, srun := 0, bound := none,
                     kern := s.kernelOf r.lcore r.ctx entry }
  let s2 := s1.onLaunch r.id.launch (fun l => { l with children := l.children ++ [i] })
  let seed1 := childSeed seed wid
  let kept : Kept := { seedtop := seed1, seed0 := seed1, first := rec_ }
  { s2 with sched := { s2.sched with kept := s2.sched.kept.put id.key kept } }.joinQueue q

/-- SPAWN (R278). -/
def slotSpawn (a : SR) (e : Env) : SlotOut :=
  let r := e.s.runOf
  let lv := bits a.fn.toNat 0 3
  let xa := e.c.rx a.ra
  let xb := e.c.rx a.rb
  match e.s.launchOf r.id.launch with
  | none => .fault Cause.sparg
  | some l =>
    if l.lw.length < lv ∨ 2 ^ l.width lv ≤ xa.toNat ∨ bits xb.toNat 0 6 ≠ 0 ∨ !canonical xb then .fault Cause.sparg
    else
      .bind (deviceRead e.s r.ctx (l.hdr + 112) 4) fun nx =>
      let i := ofBytes nx
      if l.sparn ≤ i then .ok (fun s => (s.noteDevice r.ctx (l.hdr + 112) 4).onCtx (fun c => c.wx a.rd (BitVec.allOnes 64)))
      else
        .bind (deviceDest e.s r.ctx (l.hdr + 112) 4) fun nextAt =>
        .bind (deviceDest e.s r.ctx (l.recVa i) 64) fun recAt =>
        let wid := setField r.wid (l.shift lv) (l.width lv) xa.toNat
        .ok (fun s => (spawnChild l r i wid xb e.c.kept.seedtop e.c.preserved nextAt recAt (s.noteDevice r.ctx (l.hdr + 112) 4)).onCtx
          (fun c => c.wx a.rd (BitVec.ofNat 64 i)))

/-- May SUSP name this wait word (R282). -/
def waitWordOk (w : Word) : Bool :=
  match bits w.toNat 0 4 with
  | 0 => decide (bits w.toNat 4 60 = 0)
  | 1 => decide (bits w.toNat 54 10 = 0)
  | 2 => decide (bits w.toNat 12 52 = 0)
  | 3 => decide (bits w.toNat 4 60 = 0)
  | 5 => true
  | _ => false

/-- The virtual address of a KIND 1 wait's sector (R282). -/
def waitSector (w : Word) : Word := sext57 (BitVec.ofNat 64 (bits w.toNat 4 50 * 128))

/-- A monitor armed by SUSP, unless its sector is the one already armed (R283). -/
def suspArm (ms : List Monitor) (id : SparId) (p : Place) : List Monitor :=
  if ms.any (fun m => decide (m.id = id ∧ m.space = p.space ∧ m.owner = p.owner ∧ m.sector = p.addr / 128)) then ms
  else armMonitor ms id p

/-- The wait word of the running spar, written at the yield's write-back. -/
def State.setWait (s : State) (w : Word) : State :=
  s.onCore (fun k => { k with run := k.run.map (fun r => { r with wait := w }) })

/-- SUSP (R282, R283). -/
def slotSusp (a : SR) (e : Env) : SlotOut :=
  let w := e.c.rx a.ra
  let r := e.s.runOf
  if !waitWordOk w then .fault Cause.sparg
  else if bits w.toNat 0 4 = 1 then
    .bind (resolve e.s r.ctx r.sys .read (waitSector w) 1) fun ts =>
    match placesOf ts with
    | (p, _) :: _ =>
      .ok (fun s => { s.setWait w with sched := { s.sched with monitors := suspArm s.sched.monitors r.id p } })
    | [] => .ok (fun s => s.setWait w)
  else .ok (fun s => s.setWait w)

/-- EXIT: the spar ends at its yield write-back (R280). -/
def slotExit (_ : SR) (_ : Env) : SlotOut :=
  .ok (fun s => s.onCore (fun k => { k with run := k.run.map (fun r => { r with exits := true }) }))

/-- Xd := arxh(SEEDTOP, Xa) (R279). -/
def slotSdrd (a : SR) (e : Env) : SlotOut :=
  setX a.rd (arxh e.c.kept.seedtop (e.c.rx a.ra))

/-- SEEDTOP := child(SEEDTOP, Xa) (R279). -/
def slotSdfk (a : SR) (e : Env) : SlotOut :=
  .ctx (fun c => { c with kept := { c.kept with seedtop := childSeed e.c.kept.seedtop (e.c.rx a.ra) } })

/-- What WIDR reads (R281). -/
def widrValue (s : State) (sel : Nat) : Word :=
  let r := s.runOf
  if sel = 8 then r.wid
  else if sel = 9 then BitVec.ofNat 64 r.id.idx
  else if 16 ≤ sel then s.core.ctx.kept.cset.extractLsb' (64 * (sel % 8)) 64
  else match s.launchOf r.id.launch with
    | some l => BitVec.ofNat 64 (l.levelOf r.wid sel)
    | none => 0

/-- WIDR; with `.csc` the bits returned are cleared at commit (R281). -/
def slotWidr (a : SI) (e : Env) : SlotOut :=
  let sel := bits a.imm.toNat 0 24
  let v := widrValue e.s sel
  .ctx (fun c =>
    let c1 := c.wx a.rd v
    if 24 ≤ sel then
      { c1 with kept := { c1.kept with cset := c1.kept.cset &&& ~~~(v.setWidth 256 <<< (64 * (sel % 8))) } }
    else c1)

end Sys2Proof.Machine
end

