-- ==== Sys2Proof/Machine/VecArith.lean ====
section
/-! DEFINITION. Element-wise arithmetic, bit forms, comparison, selection and masks (R113 to R118). -/

namespace Sys2Proof.Machine

/-- An exact result in its element type: rounded once for floating point, wrapped for integers (R113, R68). -/
def fitEl (f : Fmt) (v : Val) : Nat × Flags :=
  match f.float?, v with
  | none, .fin _ m _ => ((BitVec.ofInt f.bits m).toNat, .none)
  | _, _ => roundF f 0 v .rne 0

/-- The value of source number `k` at a position, NEG applied (R113). -/
def Env.val (e : Env) (a : VArgs) (f : Fmt) (k : Nat) (o : Opnd) (nc : Nat) (q : Pos) : Val :=
  let code := (e.src f k o).atPos a.o0.dir.toNat a.line.toNat f.bits nc q
  f.value 0 (if o.neg then negCode f code else code)

/-- A form of two sources `a`, `b`. -/
def vec2 (a : VArgs) (e : Env) (f : Val → Val → Val) : SlotOut :=
  let t := a.fmt
  let nc := e.c.nc t.bits
  elementwise e a t.bits [e.src t 1 a.o1, e.src t 2 a.o2]
    (fun _ q => fitEl t (f (e.val a t 1 a.o1 nc q) (e.val a t 2 a.o2 nc q)))

/-- A form of three sources. -/
def vec3 (a : VArgs) (e : Env) (f : Val → Val → Val → Val) : SlotOut :=
  let t := a.fmt
  let nc := e.c.nc t.bits
  elementwise e a t.bits [e.src t 1 a.o1, e.src t 2 a.o2, e.src t 3 a.o3]
    (fun _ q => fitEl t (f (e.val a t 1 a.o1 nc q) (e.val a t 2 a.o2 nc q) (e.val a t 3 a.o3 nc q)))

/-- The smaller value; -0 orders below +0, NaN wins (R114). -/
def valMin (a b : Val) : Val :=
  if a.isNan || b.isNan then .nan
  else if a.lt b then a else if b.lt a then b else if a.sign then a else b

/-- The larger value (R114). -/
def valMax (a b : Val) : Val :=
  if a.isNan || b.isNan then .nan
  else if a.lt b then b else if b.lt a then a else if a.sign then b else a

/-- a + b (R114). -/
def slotVadd (a : VArgs) (e : Env) : SlotOut :=
  vec2 a e Val.add

/-- a - b (R114). -/
def slotVsub (a : VArgs) (e : Env) : SlotOut :=
  vec2 a e Val.sub

/-- a x b (R114). -/
def slotVmul (a : VArgs) (e : Env) : SlotOut :=
  vec2 a e Val.mul

/-- a x b + c, rounded once (R114). -/
def slotVfma (a : VArgs) (e : Env) : SlotOut :=
  vec3 a e (fun x y z => (x.mul y).add z)

/-- a x b - c, rounded once (R114). -/
def slotVfms (a : VArgs) (e : Env) : SlotOut :=
  vec3 a e (fun x y z => (x.mul y).sub z)

/-- The smaller of a, b (R114). -/
def slotVmin (a : VArgs) (e : Env) : SlotOut :=
  vec2 a e valMin

/-- The larger of a, b (R114). -/
def slotVmax (a : VArgs) (e : Env) : SlotOut :=
  vec2 a e valMax

/-- |a| of one element (R115). -/
def absEl (f : Fmt) (v : Val) : Nat × Flags :=
  match f.float?, v with
  | none, .fin _ m _ =>
    if 2 ^ (f.bits - 1) ≤ m.natAbs ∧ m < 0 then (2 ^ (f.bits - 1) - 1, { sats := 1 }) else (m.natAbs, .none)
  | _, v => roundF f 0 v.abs .rne 0

/-- Absolute value (R115). -/
def slotVabs (a : VArgs) (e : Env) : SlotOut :=
  let t := a.fmt
  elementwise e a t.bits [e.src t 1 a.o1] (fun _ q => absEl t (e.val a t 1 a.o1 (e.c.nc t.bits) q))

/-- The storage bits of source number `k` at a position, NEG complementing them (R113). -/
def Env.raw (e : Env) (a : VArgs) (f : Fmt) (k : Nat) (o : Opnd) (nc : Nat) (q : Pos) : Nat :=
  let code := (e.src f k o).atPos a.o0.dir.toNat a.line.toNat f.bits nc q
  if o.neg then notCode f code else code

/-- A bitwise form (R115); a six-bit element is stored with its upper bits zero (R82). -/
def vecBits (a : VArgs) (e : Env) (f : Nat → Nat → Nat) : SlotOut :=
  let t := a.fmt
  let nc := e.c.nc t.bits
  elementwise e a t.bits [e.src t 1 a.o1, e.src t 2 a.o2]
    (fun _ q => (t.stored (f (e.raw a t 1 a.o1 nc q) (e.raw a t 2 a.o2 nc q)), .none))

/-- Bitwise AND on storage bits (R115). -/
def slotVand (a : VArgs) (e : Env) : SlotOut :=
  vecBits a e (· &&& ·)

/-- Bitwise OR on storage bits (R115). -/
def slotVor (a : VArgs) (e : Env) : SlotOut :=
  vecBits a e (· ||| ·)

/-- Bitwise XOR on storage bits (R115). -/
def slotVxor (a : VArgs) (e : Env) : SlotOut :=
  vecBits a e (· ^^^ ·)

/-- A shift form: `a` signed, the count unsigned (R115). -/
def vecShift (a : VArgs) (e : Env) (f : Nat → Int → Nat → Int) : SlotOut :=
  let t := a.fmt
  let nc := e.c.nc t.bits
  elementwise e a t.bits [e.src t 1 a.o1, e.src t 2 a.o2]
    (fun _ q =>
      let x := (e.src t 1 a.o1).atPos a.o0.dir.toNat a.line.toNat t.bits nc q
      let x := (BitVec.ofNat t.bits (if a.o1.neg then negCode t x else x)).toInt
      let n := (e.src t 2 a.o2).atPos a.o0.dir.toNat a.line.toNat t.bits nc q
      ((BitVec.ofInt t.bits (f t.bits x n)).toNat, .none))

/-- Left shift; a count of the width or more gives 0 (R115). -/
def slotVshl (a : VArgs) (e : Env) : SlotOut :=
  vecShift a e (fun w x n => if w ≤ n then 0 else x * 2 ^ n)

/-- Arithmetic right shift; a count of the width or more gives all sign bits (R115). -/
def slotVshr (a : VArgs) (e : Env) : SlotOut :=
  vecShift a e (fun w x n => x / 2 ^ min n w)

/-- The direction of the operand that stands in the destination's part (R116). -/
def lead (o : Opnd) : Nat := if o.isTile then o.dir.toNat else 0

/-- A condition of VCMP (R116). -/
def vcond (code : Nat) (x y : Val) : Bool :=
  let un := x.isNan || y.isNan
  match code with
  | 0 => x.eqv y
  | 1 => !x.eqv y
  | 2 => x.lt y
  | 3 => !un && !y.lt x
  | 4 => y.lt x
  | 5 => !un && !x.lt y
  | 6 => un
  | _ => !un

/-- A mask bit of a compare: the AND over the positions it governs, 0 where it governs none, kept where they are masked
(R116, R118). -/
def maskResult (old : BitVec 512) (g : Option (BitVec 512)) (res : List (Pos × Bool)) : BitVec 512 :=
  let bitOf (q : Pos) : Nat := 32 * q.i + q.j % 32
  let ones : BitVec 512 := res.foldl (fun m r => setField m (bitOf r.1) 1 1) 0
  let all : BitVec 512 := res.foldl (fun m r => if r.2 then m else setField m (bitOf r.1) 1 0) ones
  match g with
  | none => all
  | some g => (all &&& g) ||| (old &&& ~~~g &&& ones)

/-- VCMP (R116); it writes nothing where the view has no element (R107). -/
def slotVcmp (a : VArgs) (e : Env) : SlotOut :=
  let c := e.c
  let t := a.fmt
  let nr := c.nr
  let nc := c.nc t.bits
  let k := a.line.toNat
  let dd := lead a.o1
  let sa := e.src t 1 a.o1
  let sb := e.src t 2 a.o2
  if !lineValid dd k nr nc || !sb.fits dd k nr nc then .fault Cause.vline
  else if nc = 0 then .ok id
  else
    let v (s : Src) (o : Opnd) (q : Pos) : Val :=
      let code := s.atPos dd k t.bits nc q
      t.value 0 (if o.neg then negCode t code else code)
    let ctl := a.o3.ctl
    let pc := a.o4.ctl
    let ps := extent dd k nr nc
    let on (q : Pos) : Bool := maskOn (a.mask c) q.i q.j
    let res := ps.map (fun q => (q, vcond (bits ctl 0 4) (v sa a.o1 q) (v sb a.o2 q)))
    let live := res.filter (fun r => on r.1)
    let iv := ps.any (fun q => on q && ((v sa a.o1 q).isNan || (v sb a.o2 q).isNan))
    let mk := BitVec.ofNat 3 (bits ctl 4 3)
    let pd := BitVec.ofNat 4 (bits pc 0 4)
    let pv := if bits pc 4 1 = 1 then live.all (·.2) else live.any (·.2)
    .ok (fun s =>
      (s.onCtx (fun c' =>
        let c1 := if bits ctl 7 1 = 1 then c'.wm mk (maskResult (c.rm mk) (a.mask c) res) else c'
        if bits pc 5 1 = 1 then c1.wp pd pv else c1)).raise { iv := iv })

/-- VSEL: `a` where mask k holds a 1, `b` elsewhere (R117). Bits [7:6] of a six-bit element's byte are written as zero (R82;
log 23). -/
def slotVsel (a : VArgs) (e : Env) : SlotOut :=
  let t := a.fmt
  let nc := e.c.nc t.bits
  let k := e.c.rm (BitVec.ofNat 3 (bits a.o3.ctl 0 3))
  let pick (i : Nat) (o : Opnd) (q : Pos) : Nat :=
    let code := (e.src t i o).atPos a.o0.dir.toNat a.line.toNat t.bits nc q
    if o.neg then negCode t code else code
  elementwise e a t.bits [e.src t 1 a.o1, e.src t 2 a.o2]
    (fun _ q => (t.stored (if maskOn (some k) q.i q.j then pick 1 a.o1 q else pick 2 a.o2 q), .none))

/-- The destination mask of a VMSK (R118). -/
def VMsk.k (a : VArgs) : BitVec 3 := BitVec.ofNat 3 (bits a.o3.ctl 3 3)

/-- The source mask of a VMSK (R118). -/
def VMsk.j (a : VArgs) : BitVec 3 := BitVec.ofNat 3 (bits a.o3.ctl 6 3)

/-- The element of a source at a position of an extent of direction `dd`, decoded. A Q4X nibble is decoded in its block of 32:
a neighbour of an outlier and a marker in slot 31 are zeros, and the marker has its flag (R70). -/
def Src.decoded (src : Src) (f : Fmt) (dd k nc : Nat) (q : Pos) : Val × Flags :=
  match f, src with
  | .q4x, .tile t _ =>
    let at_ : Pos := src.cell dd k nc q
    let block := (List.range 32).map (fun s => tileField t (512 * at_.i + 4 * (at_.j / 32 * 32 + s)) 4)
    (q4xDecode (.ofInt 1) 0 block).getD (at_.j % 32) (.zero false, .none)
  | .q4x, .image img =>
    let j := if dd = 0 then q.j else q.p
    let block := (List.range 32).map (fun s => (img.extractLsb' (4 * (j / 32 * 32 + s)) 4).toNat)
    (q4xDecode (.ofInt 1) 0 block).getD (j % 32) (.zero false, .none)
  | _, _ => (f.value 0 (src.atPos dd k f.bits nc q), .none)

/-- Mask bits from non-zero tests (R118), a NaN setting IV (R66); nothing is written where the view has no element
(R107). -/
def slotVmskNz (a : VArgs) (e : Env) : SlotOut :=
  let t := a.fmt
  let nr := e.c.nr
  let nc := e.c.nc t.bits
  let k := a.line.toNat
  let dd := lead a.o1
  if !lineValid dd k nr nc then .fault Cause.vline
  else if nc = 0 then .ok id
  else
    let els := (extent dd k nr nc).map (fun q => (q, (e.src t 1 a.o1).decoded t dd k nc q))
    let iv := els.any (fun r => r.2.1.isNan || r.2.2.iv)
    let res := els.map (fun r => (r.1, !r.2.1.isZero))
    .ok (fun s => (s.onCtx (fun c => c.wm (VMsk.k a) (maskResult 0 none res))).raise { iv := iv })

/-- Is the line that a tile operand of `vmsk.ld` or `vmsk.st` names valid, counted in bytes (R108; DEDUCED, log 23). -/
def maskLineOk (e : Env) (a : VArgs) (o : Opnd) : Bool := lineValid (lead o) a.line.toNat e.c.nr (e.c.nc 8)

/-- Mk := row 0 of a (R118). NEG on the source has no effect (the model's choice, log 23). -/
def slotVmskLd (a : VArgs) (e : Env) : SlotOut :=
  let row : BitVec 512 := match e.src .fp32 1 a.o1 with
    | .tile t _ => t.extractLsb' 0 512
    | .image i => i
    | .const v => (List.range 16).foldl (fun m i => setField m (32 * i) 32 v) 0
  if !maskLineOk e a a.o1 then .fault Cause.vline else .ctx (fun c => c.wm (VMsk.k a) row)

/-- Row 0 of td := Mj (R118). -/
def slotVmskSt (a : VArgs) (e : Env) : SlotOut :=
  if !maskLineOk e a a.o0 then .fault Cause.vline
  else .ctx (fun c => c.wts a.dests [⟨0, 512, (e.c.rm (VMsk.j a)).toNat⟩])

/-- Mk := NOT Mj (R118). -/
def slotVmskNot (a : VArgs) (e : Env) : SlotOut :=
  .ctx (fun c => c.wm (VMsk.k a) (~~~e.c.rm (VMsk.j a)))

/-- Mk := Mk AND Mj (R118). -/
def slotVmskAnd (a : VArgs) (e : Env) : SlotOut :=
  .ctx (fun c => c.wm (VMsk.k a) (e.c.rm (VMsk.k a) &&& e.c.rm (VMsk.j a)))

/-- Mk := Mk OR Mj (R118). -/
def slotVmskOr (a : VArgs) (e : Env) : SlotOut :=
  .ctx (fun c => c.wm (VMsk.k a) (e.c.rm (VMsk.k a) ||| e.c.rm (VMsk.j a)))

/-- Mk := Mk AND NOT Mj (R118). -/
def slotVmskAndn (a : VArgs) (e : Env) : SlotOut :=
  .ctx (fun c => c.wm (VMsk.k a) (e.c.rm (VMsk.k a) &&& ~~~e.c.rm (VMsk.j a)))

/-- Every bit of Mk := 1 (R118). -/
def slotVmskAll (a : VArgs) (_ : Env) : SlotOut :=
  .ctx (fun c => c.wm (VMsk.k a) (BitVec.allOnes 512))

end Sys2Proof.Machine
end

