-- ==== Sys2Proof/Machine/VecConv.lean ====
section
/-! DEFINITION. Conversion and block quantisation (R123 to R125, R79 to R81). -/

namespace Sys2Proof.Machine

/-- The element type in a control operand's SET field. -/
def setFmt (ctl : Nat) : Fmt := (Fmt.ofEt (BitVec.ofNat 4 (bits ctl 2 4))).getD .fp32

/-- The rounding mode a control operand's RM names, under ARITH. -/
def Env.mode (e : Env) (ctl : Nat) : Rm := Rm.ofCode e.c.arith (bits ctl 0 2)

/-- VCVT (R123). -/
def slotVcvt (a : VArgs) (e : Env) : SlotOut :=
  let c := e.c
  let dst := a.fmt
  let sf := setFmt a.o2.ctl
  let nr := c.nr
  let nc := c.nc (max sf.bits dst.bits)
  let k := a.line.toNat
  let dd := a.o0.dir.toNat
  let qe := a.o3.imm
  let src := e.src sf 1 a.o1
  if !lineValid dd k nr nc || !src.fits dd k nr nc then .fault Cause.vline
  else
    let els := (extent dd k nr nc).map (fun q =>
      let code := src.atPos dd k sf.bits nc q
      let v := sf.value qe (if a.o1.neg then negCode sf code else code)
      (q, roundF dst qe v (e.mode a.o2.ctl) (e.sr (q.i * nc + q.j))))
    let (ws, fl) := maskedWrites (a.mask c) a.o0.zer dst.bits els
    .ok (fun s => (s.onCtx (fun c => c.wts a.dests ws)).raise fl)

/-- One quantised block: the scale code, the element codes with their flags, and the block's own flags (R79, R80,
R71). -/
structure QBlock where
  scale : Nat
  els : List (Nat × Flags)
  flags : Flags

/-- Quantisation of one block of values, each with its stochastic word (R79, R80, R71). -/
def quantBlock (f : Fmt) (mode : Rm) (vs : List (Val × Nat)) : QBlock :=
  if vs.any (fun v => !v.1.isFin) then
    { scale := 255, els := vs.map (fun _ => (0, .none)), flags := .invalid }
  else
    let big := vs.foldl (fun acc v => match v.1 with
      | .fin _ m e => if dyLt acc.1 acc.2 m.natAbs e then ((m.natAbs : Int), e) else acc
      | _ => acc) ((0 : Int), (0 : Int))
    if big.1 = 0 then
      { scale := 127, els := vs.map (fun v => (f.encode 0 (v.1.sign && f.float?.isSome) 0 0, .none)),
        flags := { zr := true } }
    else
      let code := scaleCode f big.1 big.2
      let scaled := vs.map (fun v => (v.1.scale (127 - (code : Int)), v.2))
      let els := if f = .q4x then q4xEncode mode 0 none scaled
        else scaled.map (fun v =>
          let r := roundF f 0 v.1 mode v.2
          (r.1, { r.2 with sats := if r.2.of then 1 else r.2.sats }))
      { scale := code, els := els, flags := .none }

/-- The 32 source values of row `i` of QNT, NEG applied. -/
def qntRow (e : Env) (a : VArgs) (sf : Fmt) (i : Nat) : List Val :=
  let get (k : Nat) (o : Opnd) (j : Nat) : Val :=
    let code := (e.src sf k o).at 0 0 sf.bits 64 ⟨i, j, j⟩
    sf.value 0 (if o.neg then negCode sf code else code)
  if sf = .fp32 then (List.range 16).map (get 1 a.o1) ++ (List.range 16).map (get 2 a.o2)
  else (List.range 32).map (get 1 a.o1)

/-- QNT (R124). -/
def slotQnt (a : VArgs) (e : Env) : SlotOut :=
  let c := e.c
  let sf := setFmt a.o4.ctl
  let blocks := (List.range c.nr).map (fun i =>
    quantBlock a.fmt (e.mode a.o4.ctl) ((qntRow e a sf i).zipIdx.map (fun v => (v.1, e.sr (32 * i + v.2)))))
  let els := blocks.zipIdx.flatMap (fun b => b.1.els.zipIdx.map (fun q => (⟨b.2, q.2, q.2⟩, q.1.1, q.1.2)))
  let (ws, fl) := maskedWrites (a.mask c) a.o0.zer a.fmt.bits els
  let scales : List FieldWr := blocks.zipIdx.map (fun b => ⟨8 * b.2, 8, b.1.scale⟩)
  let bf := blocks.foldl (fun f b => f.join b.flags) Flags.none
  .ok (fun s => (s.onCtx (fun c => (c.wts a.dests ws).wts (a.dest a.o3) scales)).raise (fl.join bf))

/-- The decoded values of row `i` of a block-scaled tile; NEG on the elements or on the scale negates the decoded value, of
an INT8 element too, and an immediate scale converts as INT8 (R33, R81, R70, R67; both the model's choice, log 23). -/
def dqntRow (e : Env) (a : VArgs) (sf : Fmt) (i : Nat) : List (Val × Flags) :=
  let codes := (List.range 32).map (fun j => (e.src sf 1 a.o1).at 0 0 sf.bits 128 ⟨i, j, j⟩)
  let sc := e8m0 ((e.src .int8 2 a.o2).at 0 0 8 64 ⟨0, i, i⟩)
  let vs := if sf = .q4x then q4xDecode sc 0 codes else codes.map (fun k => ((sf.value 0 k).mul sc, .none))
  vs.map (fun v => (if a.o1.neg != a.o2.neg then v.1.neg else v.1, v.2))

/-- DQNT (R125). -/
def slotDqnt (a : VArgs) (e : Env) : SlotOut :=
  let c := e.c
  let sf := setFmt a.o3.ctl
  let rows := (List.range c.nr).map (dqntRow e a sf)
  let els (lo n : Nat) : List (Pos × Nat × Flags) := rows.zipIdx.flatMap (fun r =>
    ((r.1.drop lo).take n).zipIdx.map (fun v =>
      let y := roundF a.fmt 0 v.1.1 (e.mode a.o3.ctl) (e.sr (32 * r.2 + lo + v.2))
      (⟨r.2, v.2, v.2⟩, y.1, v.1.2.join y.2)))
  if a.fmt = .fp32 then
    let (w0, f0) := maskedWrites (a.mask c) a.o0.zer 32 (els 0 16)
    let (w1, f1) := maskedWrites (a.mask c) a.o4.zer 32 (els 16 16)
    .ok (fun s => (s.onCtx (fun c => (c.wts a.dests w0).wts (a.dest a.o4) w1)).raise (f0.join f1))
  else
    let (ws, fl) := maskedWrites (a.mask c) a.o0.zer a.fmt.bits (els 0 32)
    .ok (fun s => (s.onCtx (fun c => c.wts a.dests ws)).raise fl)

end Sys2Proof.Machine
end

