-- ==== Sys2Proof/Machine/Xfer.lean ====
section
/-! DEFINITION. What a copy command moves: length words, tensor shape records, and the bytes that each of its units writes
(R225 to R228). -/

namespace Sys2Proof.Machine

/-- What a copy command moves, from its length word or its captured record (R225 to R228). Addresses are 57-bit virtual
addresses or scratchpad offsets. -/
structure Xfer where
  code : Nat
  tsr : Bool
  ssp : Bool
  dsp : Bool
  sb : Nat
  db : Nat
  srs : Nat := 0
  drs : Nat := 0
  nrow : Nat := 1
  ncol : Nat
  sf : Fmt := .int8
  df : Fmt := .int8
  sth : Bool := false
  dth : Bool := false
  smx : Bool := false
  dmx : Bool := false
  rm : Nat := 0
  qe : Int := 0
  trows : Nat := 1
  tcols : Nat := 1
  sscl : Nat := 0
  dscl : Nat := 0
  deriving DecidableEq, Repr

/-- A 57-bit address. -/
def lo57 (v : Word) : Nat := v.toNat % 2 ^ 57

/-- A length-word command (R225). -/
def lengthXfer (code : Nat) (xl sa da : Word) : Xfer :=
  { code := code, tsr := false, ssp := xl.getLsbD 62, dsp := xl.getLsbD 63, sb := lo57 sa, db := lo57 da,
    ncol := bits xl.toNat 0 32 }

/-- A field of a tensor shape record (R227). -/
def tsrN (r : List Byte) (off n : Nat) : Nat := ofBytes ((r.drop off).take n)

/-- A flag bit of a record's FLAGS. -/
def tsrFlag (r : List Byte) (b : Nat) : Bool := decide (bits (tsrN r 34 1) b 1 = 1)

/-- The format of an ET code of a record. -/
def etFmt (n : Nat) : Fmt := (Fmt.ofEt (BitVec.ofNat 4 n)).getD .fp32

/-- A record command (R227, R228). -/
def tsrXfer (code : Nat) (r : List Byte) (sa da : Word) : Xfer :=
  { code := code, tsr := true, ssp := tsrFlag r 0, dsp := tsrFlag r 1, sb := lo57 (sa + BitVec.ofNat 64 (tsrN r 0 8)),
    db := lo57 (da + BitVec.ofNat 64 (tsrN r 8 8)), srs := tsrN r 16 4, drs := tsrN r 20 4, nrow := tsrN r 24 4,
    ncol := tsrN r 28 4, sf := etFmt (tsrN r 32 1), df := etFmt (tsrN r 33 1), sth := tsrFlag r 2, dth := tsrFlag r 3,
    smx := tsrFlag r 4, dmx := tsrFlag r 5, rm := bits (tsrN r 34 1) 6 2, qe := (BitVec.ofNat 8 (tsrN r 35 1)).toInt,
    trows := tsrN r 36 2, tcols := tsrN r 38 2, sscl := lo57 (BitVec.ofNat 64 (tsrN r 40 8)),
    dscl := lo57 (BitVec.ofNat 64 (tsrN r 48 8)) }

/-- Is an ET code one that takes block scales (R227). -/
def etMx (n : Nat) : Bool := decide (3 ≤ n ∧ n ≤ 7) || decide (n = 11)

/-- Does a record keep R227 and R228 for a transform code. -/
def tsrOk (code : Nat) (r : List Byte) : Bool :=
  let nrow := tsrN r 24 4
  let ncol := tsrN r 28 4
  let sf := tsrN r 32 1
  let df := tsrN r 33 1
  let qe := (BitVec.ofNat 8 (tsrN r 35 1)).toInt
  let tr := tsrN r 36 2
  let tc := tsrN r 38 2
  let th := tsrFlag r 2 || tsrFlag r 3
  decide (1 ≤ nrow ∧ nrow ≤ 2 ^ 20 ∧ 1 ≤ ncol ∧ ncol ≤ 2 ^ 20) && decide (sf ≤ 11 ∧ df ≤ 11) &&
    decide (-64 ≤ qe ∧ qe ≤ 63) && (r.drop 56).all (· = 0) &&
    (tsrFlag r 4 == etMx sf) && (tsrFlag r 5 == etMx df) && (!(etMx sf || etMx df) || decide (ncol % 32 = 0)) &&
    (!th || decide (1 ≤ tr ∧ tr ≤ 128 ∧ 1 ≤ tc ∧ tc ≤ 96 ∧ nrow % tr = 0 ∧ ncol % tc = 0)) &&
    (decide (code = 6) || decide (sf = df)) && (decide (code ≠ 7) || (tsrFlag r 2 && tsrFlag r 3)) &&
    (decide (code ≠ 4 ∧ code ≠ 5) || decide (ncol % 4 = 0))

/-! ### Extents -/

/-- Stored bits of a source element in its scope (R82, R226). -/
def Xfer.sw (x : Xfer) : Nat := if x.code = 4 then 6 else if x.code = 5 then 8 else if x.ssp then x.sf.bits else devBits x.sf

/-- Stored bits of a destination element in its scope; a plain copy keeps the stored bits of its source. -/
def Xfer.dw (x : Xfer) : Nat :=
  if x.code = 0 then x.sw
  else if x.code = 4 then 8 else if x.code = 5 then 6 else if x.dsp then x.df.bits else devBits x.df

/-- Padded bytes of a source tile (R162). -/
def Xfer.sts (x : Xfer) : Nat := (thLayout x.sw x.trows x.tcols).size

/-- Padded bytes of a destination tile. -/
def Xfer.dts (x : Xfer) : Nat := (thLayout x.dw x.trows x.tcols).size

/-- Do stored bytes move unchanged: codes 0 to 3, but not a plain copy between rows and tiles (R226, R228). -/
def Xfer.carries (x : Xfer) : Bool := decide (x.code ≤ 3) && !(decide (x.code = 0) && (x.sth != x.dth))

/-- Does the command work on thatched tiles element by element (R228). -/
def Xfer.tiled (x : Xfer) : Bool := (x.sth || x.dth) && !x.carries

/-- Does the command convert values. -/
def Xfer.converts (x : Xfer) : Bool := decide (6 ≤ x.code)

/-- Does the command verify its source tiles: a conversion, or a move from tiles to rows (R165, R228). -/
def Xfer.verifies (x : Xfer) : Bool := x.sth && (x.converts || !x.dth)

/-- Does the command read the block scales of its source: it needs the values of microscaled elements, to convert, verify
or flash them (R163, R228). -/
def Xfer.scaled (x : Xfer) : Bool := x.smx && (x.converts || (x.sth != x.dth && !x.carries))

/-- Rows of the source: tile-rows where STH is set. -/
def Xfer.srcRows (x : Xfer) : Nat := if x.sth then x.nrow / x.trows else x.nrow

/-- Bytes of a row of the source. -/
def Xfer.srcRow (x : Xfer) : Nat := if x.sth then x.ncol / x.tcols * x.sts else storedBytes x.sw x.ncol

/-- Rows of the destination; stored bytes that move unchanged keep the rows of the source. -/
def Xfer.dstRows (x : Xfer) : Nat :=
  if x.carries then x.srcRows else if x.dth then x.nrow / x.trows else x.nrow

/-- Bytes of a row of the destination. -/
def Xfer.dstRow (x : Xfer) : Nat :=
  if x.carries then x.srcRow else if x.dth then x.ncol / x.tcols * x.dts else storedBytes x.dw x.ncol

/-- Bytes from the first to the last of the source. -/
def Xfer.srcSpan (x : Xfer) : Nat := (x.srcRows - 1) * x.srs + x.srcRow

/-- Bytes from the first to the last of the destination. -/
def Xfer.dstSpan (x : Xfer) : Nat := (x.dstRows - 1) * x.drs + x.dstRow

/-- Bytes of the block scales of a matrix. -/
def Xfer.scaleSpan (x : Xfer) : Nat := x.nrow * x.ncol / 32

/-- Do the ranges of source and destination meet in one scope (R226). -/
def Xfer.overlaps (x : Xfer) : Bool :=
  (x.ssp == x.dsp) && decide (x.sb < x.db + x.dstSpan ∧ x.db < x.sb + x.srcSpan)

/-- Is a compressed side out of its limits (R226). -/
def Xfer.cmpBad (x : Xfer) : Bool :=
  let side (sp : Bool) (b row stride rows : Nat) : Bool :=
    sp || decide (b % 512 ≠ 0 ∨ row % 512 ≠ 0 ∨ (1 < rows ∧ stride % 512 ≠ 0))
  ((decide (x.code = 2) || decide (x.code = 3)) && side x.ssp x.sb x.srcRow x.srs x.srcRows) ||
    ((decide (x.code = 1) || decide (x.code = 3)) && side x.dsp x.db x.dstRow x.drs x.dstRows)

/-- The first scratchpad range of the command that leaves the kernel's banks (R206, R227). -/
def Xfer.spmOut (x : Xfer) (bank0 banks : Nat) : Option Nat :=
  let rs := (if x.ssp then [(x.sb, x.srcSpan)] ++ (if x.scaled then [(x.sscl, x.scaleSpan)] else []) else []) ++
    (if x.dsp then [(x.db, x.dstSpan)] ++ (if x.dmx && x.converts then [(x.dscl, x.scaleSpan)] else []) else [])
  (rs.find? (fun r => !spmIn bank0 banks r.1 r.2)).map (·.1)

/-- The compression attribute that a code's source column names (R226). -/
def Xfer.wantSrc (x : Xfer) : Option Bool := some (x.code == 2 || x.code == 3)

/-- The compression attribute that a code's destination column names. -/
def Xfer.wantDst (x : Xfer) : Option Bool := some (x.code == 1 || x.code == 3)

/-- Tile columns that are worked on together: one, or a whole tile-row where a block of 32, a byte, or a sector of the
destination or of its scales would span two, or where the source's rows or scales would not be read in ascending order
(R218, R226). -/
def Xfer.grp (x : Xfer) : Nat :=
  if x.sth ∧ !x.scaled ∧ !x.dmx ∧ (x.tcols % 32 = 0 ∨ (!x.smx ∧ !x.dmx ∧ x.tcols * x.sw % 8 = 0 ∧ x.tcols * x.dw % 8 = 0)) ∧
    (x.dth ∨ (x.tcols * x.dw % 1024 = 0 ∧ x.db % 128 = 0 ∧ x.drs % 128 = 0)) then 1 else x.ncol / x.tcols

/-- Blocks of the command: groups of tiles, or rows. -/
def Xfer.blocks (x : Xfer) : Nat := if x.tiled then x.nrow / x.trows * (x.ncol / x.tcols / x.grp) else x.dstRows

/-! ### Source bytes -/

/-- The key of a source sector in the command's own copy. -/
def sectorKey (sp : Bool) (n : Nat) : Nat := sp.toNat * 2 ^ 60 + n

/-- A source sector, read once (R226). -/
def Cmd.sector (c : Cmd) (s : State) (want : Option Bool) (sp : Bool) (n : Nat) : Chk (Cmd × BitVec 1024) :=
  match c.rd.get? (sectorKey sp n) with
  | some b => .ok (c, b)
  | none =>
    (if sp then .ok (spmBytes s c.lcore (128 * n) 128) else ioRead s c.ctx want (BitVec.ofNat 64 (128 * n)) 128).map (fun bs =>
      let b := BitVec.ofNat 1024 (ofBytes bs)
      ({ c with rd := c.rd.put (sectorKey sp n) b }, b))

/-- Source sectors in ascending order. -/
def Cmd.sectors (s : State) (want : Option Bool) (sp : Bool) : Cmd → List Nat → Chk (Cmd × List (BitVec 1024))
  | c, [] => .ok (c, [])
  | c, n :: ns => do
    let (c1, b) ← c.sector s want sp n
    let (c2, bs) ← c1.sectors s want sp ns
    .ok (c2, b :: bs)

/-- Source bytes `[a, a + n)`. -/
def Cmd.readSrc (c : Cmd) (s : State) (want : Option Bool) (sp : Bool) (a n : Nat) : Chk (Cmd × List Byte) := do
  let first := a / 128
  let count := if n = 0 then 0 else (a + n - 1) / 128 - first + 1
  let (c1, bs) ← c.sectors s want sp ((List.range count).map (fun i => first + i))
  .ok (c1, ((bs.flatMap (bvBytes 128)).drop (a % 128)).take n)

/-! ### Rows of elements -/

/-- A row encoded: element codes with their flags, a block's own flags with its first element, and its scales. -/
structure RowOut where
  els : List (Nat × Flags)
  scales : List Nat
  deriving DecidableEq, Repr

/-- Values of row `r` from column `c0` on, encoded (R69, R79, R80, R228). -/
def Xfer.encodeRow (x : Xfer) (c : Cmd) (r c0 : Nat) (vs : List Val) : RowOut :=
  let mode := Rm.ofCode c.arith x.rm
  let us := vs.zipIdx.map (fun v => (v.1, srWord c.seed c.srBase (r * x.ncol + c0 + v.2)))
  if x.dmx then
    let bs := (chunks 32 us.length us).map (quantBlock x.df mode)
    { els := bs.flatMap (fun b => b.els.zipIdx.map (fun e => if e.2 = 0 then (e.1.1, e.1.2.join b.flags) else e.1)),
      scales := bs.map (·.scale) }
  else { els := us.map (fun v => roundF x.df x.qe v.1 mode v.2), scales := [] }

/-- What a unit writes at its destination, the scales it writes, and its flags. -/
structure UnitOut where
  bytes : List Byte
  scales : List (Nat × Byte) := []
  fl : Flags := .none
  deriving DecidableEq, Repr

/-- `n` destination bytes from offset `o` of row `r`, of a command that moves elements. -/
def Xfer.elemUnit (x : Xfer) (c : Cmd) (s : State) (r o n : Nat) : Chk (Cmd × UnitOut) := do
  let al := if x.converts && (x.smx || x.dmx) then 32 else 1
  let e0 := 8 * o / x.dw / al * al
  let e1 := min x.ncol (((8 * (o + n) + x.dw - 1) / x.dw + al - 1) / al * al)
  let b0 := e0 * x.sw / 8
  let b1 := (e1 * x.sw + 7) / 8
  let (c1, bs) ← c.readSrc s x.wantSrc x.ssp (x.sb + r * x.srs + b0) (b1 - b0)
  let codes := unpackCodes x.sw (e1 - e0) (ofBytes bs / 2 ^ (e0 * x.sw % 8))
  let cut (cs : List Nat) : List Byte := toBytes n (packCodes x.dw cs / 2 ^ (8 * o - e0 * x.dw))
  if x.converts then
    let q0 := e0 / 32
    let (c2, sc) ← if x.smx then c1.readSrc s x.wantSrc x.ssp (x.sscl + r * (x.ncol / 32) + q0) ((e1 - e0) / 32)
      else .ok (c1, [])
    let vs := decodeRowF x.sf x.qe (fun q => if x.smx then e8m0 (sc.getD q 0).toNat else .ofInt 1) codes
    let out := x.encodeRow c2 r e0 (vs.map (·.1))
    let mine (k : Nat) : Bool := decide (8 * o ≤ (e0 + k) * x.dw ∧ (e0 + k) * x.dw < 8 * (o + n))
    let fl := (vs.map (·.2) ++ out.els.map (·.2)).zipIdx.foldl
      (fun g e => if mine (e.2 % vs.length) then g.join e.1 else g) Flags.none
    .ok (c2, { bytes := cut (out.els.map (·.1)), fl := fl,
               scales := out.scales.zipIdx.filterMap (fun q => if mine (32 * q.2) then
                 some (x.dscl + r * (x.ncol / 32) + q0 + q.2, BitVec.ofNat 8 q.1) else none) })
  else .ok (c1, { bytes := cut codes })

/-- Where a unit of row `done` starts and how many bytes it has: up to the end of a destination sector, or of a
compressed line. -/
def Xfer.unitAt (x : Xfer) (c : Cmd) : Nat × Nat :=
  let a := x.db + c.done * x.drs + c.pos
  let g := if x.wantDst = some true then 512 else 128
  (a, min (x.dstRow - c.pos) (g - a % g))

/-- The unit of a command of rows that stands at `done` and `pos`. -/
def Xfer.rowUnit (x : Xfer) (c : Cmd) (s : State) : Chk (Cmd × UnitOut) :=
  let n := (x.unitAt c).2
  if x.carries then
    (c.readSrc s x.wantSrc x.ssp (x.sb + c.done * x.srs + c.pos) n).map (fun q => (q.1, { bytes := q.2 }))
  else x.elemUnit c s c.done c.pos n

/-! ### Thatched tiles -/

/-- Bytes cut at 128-byte sectors from an address on. -/
def cutSectors : Nat → Nat → List Byte → List (Word × List Byte)
  | 0, _, _ => []
  | fuel + 1, a, bs =>
    if bs.isEmpty then []
    else
      let k := 128 - a % 128
      (BitVec.ofNat 64 a, bs.take k) :: cutSectors fuel (a + k) (bs.drop k)

/-- Columns `[lo, lo + n)` of rows. -/
def slice {α : Type} (lo n : Nat) (rows : List (List α)) : List (List α) := rows.map (fun r => (r.drop lo).take n)

/-- Rows set side by side. -/
def beside {α : Type} (h : Nat) (ts : List (List (List α))) : List (List α) :=
  (List.range h).map (fun i => ts.flatMap (fun t => t.getD i []))

/-- A group of source tiles as the command works on it: element codes, incoming checksums, whether a tile was corrected,
and the first tile that cannot be. -/
structure Band where
  codes : List (List Nat)
  sums : List (List Nat × List Nat × Nat)
  fixed : Nat
  bad : Option Nat
  deriving DecidableEq, Repr

/-- Verification of the tiles of a band in order, up to the first that cannot be corrected (R164, R228). -/
def Xfer.verifyBand (x : Xfer) (scale : Nat → Nat → Val) : Band → List Nat → Band
  | b, [] => b
  | b, t :: ts =>
    let c0 := t * x.tcols
    let put (i j : Nat) (v : Val) : List Nat :=
      (b.codes.getD i []).set (c0 + j) (reencode x.sf x.qe (scale i ((c0 + j) / 32)) v)
    let mine (vs : List Val) : List Val := (vs.drop c0).take x.tcols
    let s := b.sums.getD t ([], [], 0)
    match verify x.sf.tf x.tcols (fun i j v => mine (decodeRow x.sf x.qe (scale i) (put i j v)))
        { rows := b.codes.zipIdx.map (fun r => mine (decodeRow x.sf x.qe (scale r.2) r.1)),
          crow := s.1, ccol := s.2.1, corner := s.2.2 } with
    | .sound => x.verifyBand scale b ts
    | .corrected i j v => x.verifyBand scale { b with codes := b.codes.set i (put i j v), fixed := b.fixed + 1 } ts
    | .uncorrectable => { b with bad := some t }

/-- A tile of a band with its data bytes as they were read, seen in the destination's width (R165). -/
def Xfer.asRead (x : Xfer) (t : Nat) (before after : List (List Nat)) : List (List Nat) :=
  let tile := chunks x.tcols x.trows
    (recut x.sw x.dw (x.trows * x.tcols) (slice (t * x.tcols) x.tcols before).flatten)
  after.zipIdx.map (fun r => r.1.take (t * x.tcols) ++ tile.getD r.2 [] ++ r.1.drop ((t + 1) * x.tcols))

/-- What a group of tiles writes, its flags, how many tiles were corrected, and whether one could not be. -/
structure BandOut where
  out : List (Word × List Byte)
  scales : List (Nat × Byte)
  fl : Flags
  fixed : Nat
  bad : Bool
  deriving DecidableEq, Repr

/-- Scales of the rows of a band from column `c0` on. -/
def Xfer.bandScales (x : Xfer) (s : State) (r0 c0 n : Nat) : Cmd → List Nat → Chk (Cmd × List (List Byte))
  | c, [] => .ok (c, [])
  | c, i :: is => do
    let (c1, b) ← c.readSrc s x.wantSrc x.ssp (x.sscl + (r0 + i) * (x.ncol / 32) + c0 / 32) n
    let (c2, bs) ← x.bandScales s r0 c0 n c1 is
    .ok (c2, b :: bs)

/-- Pieces of the source read in turn. -/
def Xfer.readPieces (x : Xfer) (s : State) : Cmd → List (Nat × Nat) → Chk (Cmd × List (List Byte))
  | c, [] => .ok (c, [])
  | c, (a, n) :: ps => do
    let (c1, b) ← c.readSrc s x.wantSrc x.ssp a n
    let (c2, bs) ← x.readPieces s c1 ps
    .ok (c2, b :: bs)

/-- The writes of a worked band: tiles up to `last`, or the columns of as many in rows. -/
def Xfer.bandWrites (x : Xfer) (br ct0 last : Nat) (codes : List (List Nat)) (sums : List (List Nat × List Nat × Nat)) :
    List (Word × List Byte) :=
  if x.dth then
    (List.range last).flatMap (fun t =>
      let u := sums.getD t ([], [], 0)
      let img := thBuild x.dw x.trows x.tcols
        { codes := slice (t * x.tcols) x.tcols codes, crow := u.1, ccol := u.2.1, corner := u.2.2 }
      cutSectors (img.length + 1) (x.db + br * x.drs + (ct0 + t) * x.dts) img)
  else
    codes.zipIdx.flatMap (fun r =>
      let bs := toBytes ((last * x.tcols * x.dw + 7) / 8) (packCodes x.dw r.1)
      cutSectors (bs.length + 1) (x.db + (br * x.trows + r.2) * x.drs + ct0 * x.tcols * x.dw / 8) bs)

/-- A group of tiles worked on (R163, R164, R165, R228). -/
def Xfer.bandUnit (x : Xfer) (c : Cmd) (s : State) (g : Nat) : Chk (Cmd × BandOut) := do
  let per := x.ncol / x.tcols / x.grp
  let br := g / per
  let ct0 := g % per * x.grp
  let c0 := ct0 * x.tcols
  let width := x.grp * x.tcols
  let r0 := br * x.trows
  let rowAt (i : Nat) : Nat × Nat :=
    (x.sb + (r0 + i) * x.srs + c0 * x.sw / 8, ((c0 + width) * x.sw + 7) / 8 - c0 * x.sw / 8)
  let tileAt (t : Nat) : Nat × Nat := (x.sb + br * x.srs + (ct0 + t) * x.sts, x.sts)
  let (c1, bs) ← x.readPieces s c (if x.sth then (List.range x.grp).map tileAt else (List.range x.trows).map rowAt)
  let imgs := bs.map (thParse x.sw x.trows x.tcols)
  let codes := if x.sth then beside x.trows (imgs.map (·.codes))
    else bs.map (fun b => unpackCodes x.sw width (ofBytes b / 2 ^ (c0 * x.sw % 8)))
  let sums := if x.sth then imgs.map (fun m => (m.crow, m.ccol, m.corner)) else []
  let (c2, sc) ← if x.scaled then x.bandScales s r0 c0 (width / 32) c1 (List.range x.trows) else .ok (c1, [])
  let sbyte (i q : Nat) : Nat := ((sc.getD i []).getD q 0).toNat
  let scale (i q : Nat) : Val := if x.scaled then e8m0 (sbyte i q) else .ofInt 1
  let b0 : Band := { codes := codes, sums := sums, fixed := 0, bad := none }
  let b := if x.verifies then x.verifyBand scale b0 (List.range x.grp) else b0
  let good := (b.bad.getD x.grp) * x.tcols
  let last := (b.bad.map (· + 1)).getD x.grp
  let dec := b.codes.zipIdx.map (fun r => decodeRowF x.sf x.qe (scale r.2) r.1)
  let outs : List RowOut := dec.zipIdx.map (fun r =>
    if x.converts then x.encodeRow c2 (r0 + r.2) c0 (r.1.map (·.1))
    else { els := (b.codes.getD r.2 []).map (fun k => (k, .none)), scales := [] })
  let oc := outs.map (fun o => o.els.map (·.1))
  let out := (b.bad.map (fun t => x.asRead t codes oc)).getD oc
  let vals := outs.zipIdx.map (fun o =>
    if x.converts then decodeRow x.df x.qe (fun q => if x.dmx then e8m0 (o.1.scales.getD q 127) else .ofInt 1) (oc.getD o.2 [])
    else (dec.getD o.2 []).map (·.1))
  let new := if x.sth && !x.converts then sums
    else (List.range x.grp).map (fun t => flash x.tcols (slice (t * x.tcols) x.tcols vals))
  let kept := (b.bad.map (fun t => new.set t (sums.getD t ([], [], 0)))).getD new
  let fl := (if x.converts then dec.flatMap (fun r => (r.take good).map (·.2)) else []) ++
    outs.flatMap (fun o => (o.els.take good).map (·.2))
  let scales := outs.zipIdx.flatMap (fun o => o.1.scales.zipIdx.filterMap (fun q =>
    if 32 * q.2 < good then some (o.2, q.2, q.1)
    else if 32 * q.2 < last * x.tcols ∧ x.smx then some (o.2, q.2, sbyte o.2 q.2) else none))
  .ok (c2, { out := x.bandWrites br ct0 last out kept, fl := fl.foldl Flags.join Flags.none, fixed := b.fixed,
             bad := b.bad.isSome,
             scales := scales.map (fun q => (x.dscl + (r0 + q.1) * (x.ncol / 32) + c0 / 32 + q.2.1, BitVec.ofNat 8 q.2.2)) })

end Sys2Proof.Machine
end

