-- ==== Sys2Proof/Machine/Copy.lean ====
section
/-! DEFINITION. The copy engines: CPY, CPYF and RCINV, and the events of their commands (R218 to R231). -/

namespace Sys2Proof

open Machine

/-- A field of XFM (R31). -/
def CArgs.f (a : CArgs) (lo w : Nat) : Nat := bits a.xfm.toNat lo w

namespace Machine

/-! ### Issue -/

/-- The copy-slot fields of an operation. -/
def copyArgs : Instr → Option CArgs
  | .cpy a | .cpyf a _ | .pfh a | .rcinv a | .glog a | .gmrg a | .rsto a | .rfaa a | .rfen a | .collAr a | .collAg a
  | .collRs a | .collA2a a => some a
  | _ => none

/-- The opcode of a copy-slot operation (R39). -/
def copyOpc : Instr → Nat
  | .cpy _ => 0x01
  | .cpyf _ _ => 0x02
  | .pfh _ => 0x03
  | .rcinv _ => 0x04
  | .rsto _ => 0x10
  | .rfaa _ => 0x11
  | .rfen _ => 0x12
  | .collAr _ | .collAg _ | .collRs _ | .collA2a _ => 0x13
  | .glog _ => 0x20
  | .gmrg _ => 0x21
  | _ => 0

/-- A command as its bundle sends it (R44, R74, R224). -/
def Env.cmd (e : Env) (op : Instr) (a : CArgs) (sa da : Word) (push : Bool) : Cmd :=
  let r := e.s.runOf
  { op := op, addr := e.s.core.pc, id := r.id, ctx := r.ctx, lcore := r.lcore, bank0 := r.bank0, banks := r.banks,
    wid := r.wid, seq := e.s.core.cmdSeq, engine := e.c.engN % 4, sa := sa, da := da, xl := e.c.rx a.xl, tok := a.tok.toNat,
    arith := e.c.arith, srBase := e.srBase, seed := e.c.kept.seedtop, push := push }

/-- A command joins the engine of the rotation, with its QC reservation (R218, R223). -/
def State.sendCopy (s : State) (c : Cmd) : State :=
  let s1 := s.onCore (fun k =>
    if h : c.engine < 4 then { k with engines := k.engines.set c.engine (k.engines[c.engine] ++ [c]) } else k)
  s1.onCtx (fun d => { d with engN := d.engN + 1, qcRes := if c.push then d.qcRes + 1 else d.qcRes })

/-- No QC entry can be reserved for a command with a token (R221). -/
def Env.qcFull (e : Env) : Bool :=
  decide (64 + (e.named.filter (· = 1)).length < e.c.qc.length + e.c.qcRes + 1)

/-- Does a range meet an aperture of a transforming view (R271). -/
def viewMeets (s : State) (ctx : Nat) (a n : Nat) : Option Word :=
  ((pieces (BitVec.ofNat 64 a) n (n / 65536 + 2)).find? (fun q =>
    match aprOf (s.ctxOf ctx) q.1 with
    | some r => aprOk r && decide (aprField r 24 1 ≠ 0)
    | none => false)).map (·.1)

/-- Is a length word out of R225 and R226. -/
def lengthBad (x : Xfer) (xl : Word) : Bool :=
  decide (x.ncol = 0) || decide (bits xl.toNat 32 30 ≠ 0) ||
    ((decide (x.code = 4) || decide (x.code = 5)) && decide (x.ncol % 4 ≠ 0)) || x.cmpBad ||
    (decide (x.code ≠ 0) && x.overlaps)

/-- What CPY and CPYF check at issue, and the command (R221, R225 to R227, R271, R287). -/
def copySlot (op : Instr) (a : CArgs) (e : Env) : SlotOut :=
  .bind (e.c.ea a.sa) fun sa =>
  .bind (e.c.ea a.da) fun da =>
  let r := e.s.runOf
  let xl := e.c.rx a.xl
  let push := decide (a.tok ≠ 0)
  let send : SlotOut :=
    if push && e.qcFull then .fault Cause.qcovf else .ok (fun s => s.sendCopy (e.cmd op a sa da push))
  if a.f 4 1 = 1 then
    if !canonical xl || decide (xl.toNat % 128 ≠ 0) then .fault Cause.cpyarg 0 xl
    else if r.ss then .fault Cause.ssviol 0 xl
    else send
  else
    let x := lengthXfer (a.f 0 4) xl sa da
    if lengthBad x xl then .fault Cause.cpyarg 0 xl
    else
      match x.spmOut r.bank0 r.banks with
      | some o => .fault Cause.spmrng 0 (BitVec.ofNat 64 o)
      | none =>
        if r.ss && !(x.ssp && x.dsp) then .fault Cause.ssviol 0 (if x.ssp then da else sa)
        else
          match (if x.dsp then none else viewMeets e.s r.ctx x.db x.dstSpan) with
          | some v => .fault Cause.aprw 0 v
          | none => send

/-- CPY (R225, R226, R227). -/
def slotCpy (a : CArgs) (e : Env) : SlotOut :=
  copySlot (.cpy a) a e

/-- CPYF: its follow-on is held by the matrix slot of its bundle (R231). -/
def slotCpyf (a : CArgs) (follow : BitVec 80) (e : Env) : SlotOut :=
  copySlot (.cpyf a follow) a e

/-- RCINV joins the fences of the record cache; it takes effect once its conditions hold (R230). -/
def slotRcinv (a : CArgs) (e : Env) : SlotOut :=
  let r := e.s.runOf
  let f : Rcinv := { seq := e.s.core.cmdSeq, id := r.id, ctx := r.ctx,
                     addr := if a.f 0 1 = 1 then none else some (e.c.rx a.xl) }
  .ok (fun s => s.onCore (fun k => { k with rcinv := k.rcinv ++ [f] }))

/-! ### Effects on the spar -/

/-- Is a spar the running one of a core. -/
def Core.runs (k : Core) (id : SparId) : Bool := decide (k.run.map (·.id) = some id)

/-- The context of a spar changed, where it is running on a core; `none` where it runs nowhere. -/
def State.onSpar (s : State) (id : SparId) (f : Ctx → Ctx) : Option State :=
  if s.core.runs id then some (s.onCtx f)
  else if s.others.any (fun k => k.runs id) then
    some { s with others := s.others.map (fun k => if k.runs id then k.onCtx f else k) }
  else none

/-- What is kept for a spar, changed (R224, R247). -/
def State.onKept (s : State) (id : SparId) (f : Kept → Kept) : State :=
  match s.onSpar id (fun c => { c with kept := f c.kept }) with
  | some s' => s'
  | none => { s with sched := { s.sched with kept := s.sched.kept.put id.key (f (s.sched.kept.getD id.key {})) } }

/-- The save area of a spar (R297). -/
def State.saveArea (s : State) (id : SparId) : Word :=
  ((s.launchOf id.launch).map (fun l => l.saveb + BitVec.ofNat 64 (0x600000 * id.idx))).getD 0

/-- Bits ORed into the ASTAT of a saved context (R228). -/
def State.orSaved (s : State) (id : SparId) (ctx : Nat) (w : Word) : State :=
  if (s.sched.saved.get? id.key).isNone then s
  else
    let at_ := s.saveArea id + 0x250
    match (do
      let old ← deviceRead s ctx at_ 8
      deviceWrite (s.noteDevice ctx at_ 8) ctx at_ (toBytes 8 (BitVec.ofNat 64 (ofBytes old) ||| w).toNat)) with
    | .ok s' => s'
    | .error _ => s

/-- Bits ORed into the ASTAT of a command's spar, where it runs or in its saved context (R75, R228). -/
def State.orAstat (s : State) (c : Cmd) (w : Word) : State :=
  match s.onSpar c.id (fun d => { d with astat := d.astat ||| w }) with
  | some s' => s'
  | none => s.orSaved c.id c.ctx w

/-- A record about a command of a spar (R295). -/
def State.cmdRec (s : State) (c : Cmd) (t : TrapInfo) (flags : Nat) (laneP : Bool) : LaneRec :=
  let rec_ := ((s.launchOf c.id.launch).map (fun l => l.recVa c.id.idx)).getD 0
  { laneP := laneP, bytes := laneBytes laneP { t with ipc := c.addr } s.coreNum c.lcore flags (s.hdrOf c.id.launch) rec_,
    id := some c.id, open_ := flags = 4, cmd := if flags = 4 then some c.seq else none }

/-- A record joins the core's unposted records. -/
def State.post (s : State) (r : LaneRec) : State := s.onCore (fun k => { k with lanesUnposted := k.lanesUnposted ++ [r] })

/-- Flags and saturation events of an engine's rounding land: the events count on its core, and a calibration event names
the spar whose command crossed the threshold (R75, R228). -/
def State.engineRaise (s : State) (c : Cmd) (f : Flags) : State :=
  match (s.orAstat c f.toAstat).countSat f.sats with
  | (s1, true) =>
    let rec_ := ((s.launchOf c.id.launch).map (fun l => l.recVa c.id.idx)).getD 0
    (s1.orAstat c 128).post
      { laneP := true, id := some c.id, open_ := false, cmd := none,
        bytes := laneBytes true { cause := Cause.cal, addr := s.core.satthr } s.coreNum c.lcore 8 (s.hdrOf c.id.launch) rec_ }
  | (s1, false) => s1

/-- A fault of a command: CMPRS and HWERR end it; a translation fault or CATTR stops it at its 128-byte sector with a record
on the lane of its cause, whose ENGINE flag is set (R222, R295, R296, R314; log 25). -/
def State.cmdFault (s : State) (c : Cmd) (t : TrapInfo) : State × Cmd :=
  let sector := t.addr &&& ~~~(127 : Word)
  if t.cause = Cause.cmprs then (s, { c with ended := true, status := 3, faddr := t.addr })
  else if t.cause = Cause.hwerr then (s, { c with ended := true, status := 4, faddr := t.addr })
  else
    (s.post (s.cmdRec c { cause := t.cause, addr := sector, aux := c.engine } 4 (onLaneP t.cause)),
      { c with stopped := some sector })

/-- A spar whose wait names its completion set is made ready where a bit of it satisfies the wait (R282). -/
def State.wakeByToken (s : State) (id : SparId) (tok : Nat) : State :=
  match s.sched.waiting.find? (fun w => decide (w.id = id)) with
  | some w =>
    let k := bits w.wait.toNat 0 4
    if k = 3 ∨ (k = 2 ∧ bits w.wait.toNat 4 8 = tok) then s.rejoin w else s
  | none => s

/-- A completion marks its token (R224). -/
def State.markToken (s : State) (id : SparId) (tok : Nat) : State :=
  (s.onKept id (fun k => { k with cset := k.cset ||| BitVec.ofNat 256 (2 ^ tok) })).wakeByToken id tok

/-! ### The record cache -/

/-- Is a command one that captures a record. -/
def Cmd.isTsr (c : Cmd) : Bool :=
  match c.op with
  | .cpy a => decide (a.f 4 1 = 1)
  | .cpyf a _ => decide (a.f 4 1 = 1)
  | _ => false

/-- Entries of the record cache without one, or without any. -/
def dropRecord (rs : List (Nat × Word × List Byte)) (ctx : Nat) (addr : Option Word) : List (Nat × Word × List Byte) :=
  match addr with
  | none => []
  | some a => rs.filter (fun r => decide (¬ (r.1 = ctx ∧ r.2.1 = a)))

/-- May an RCINV take effect: earlier record commands of its spar have captured, earlier stores have reached home (R230). -/
def Core.rcinvReady (k : Core) (f : Rcinv) : Bool :=
  k.engines.toList.flatten.all (fun c => !(decide (c.id = f.id ∧ c.seq < f.seq) && c.isTsr && !c.started)) &&
    k.storeQ.all (fun q => decide (f.seq ≤ q.seq))

/-- Every RCINV whose conditions hold takes effect (R230). -/
def Core.settleRcinv (k : Core) : Core :=
  let due := k.rcinv.filter k.rcinvReady
  { k with records := due.foldl (fun rs f => dropRecord rs f.ctx f.addr) k.records,
           rcinv := k.rcinv.filter (fun f => !k.rcinvReady f) }

/-- Does the record cache hold the record of a command (R229). -/
def State.hasRecord (s : State) (c : Cmd) : Bool := s.core.records.any (fun r => decide (r.1 = c.ctx ∧ r.2.1 = c.xl))

/-- A record captured by a command: from the cache, or read and to be installed (R229). -/
def State.captureTsr (s : State) (c : Cmd) : Chk (List Byte × Bool) :=
  match s.core.records.find? (fun r => decide (r.1 = c.ctx ∧ r.2.1 = c.xl)) with
  | some r => .ok (r.2.2, true)
  | none => (ioRead s c.ctx (some false) c.xl 128).map (fun bs => (bs, false))

/-- The cache with a record installed, the oldest displaced (R229). -/
def installRecord (rs : List (Nat × Word × List Byte)) (c : Cmd) (bs : List Byte) : List (Nat × Word × List Byte) :=
  (if rs.length < 32 then rs else rs.drop 1) ++ [(c.ctx, c.xl, bs)]

/-! ### The engines' events -/

/-- The command at the head of an engine. -/
def State.headCmd (s : State) (e : Nat) : Option Cmd := (s.core.engines.toList.getD e []).head?

/-- An engine's queue changed. -/
def State.onEngine (s : State) (e : Nat) (f : List Cmd → List Cmd) : State :=
  s.onCore (fun k => if h : e < 4 then { k with engines := k.engines.set e (f k.engines[e]) } else k)

/-- The head command replaced. -/
def State.setHead (s : State) (e : Nat) (c : Cmd) : State :=
  s.onEngine e (fun q => match q with
    | _ :: cs => c :: cs
    | [] => [])

/-- The transform code of a copy. -/
def Cmd.code (c : Cmd) : Nat := ((copyArgs c.op).map (fun a => a.f 0 4)).getD 0

/-- What a started copy moves. -/
def Cmd.xfer (c : Cmd) : Xfer :=
  match c.tsr with
  | some r => tsrXfer c.code r c.sa c.da
  | none => lengthXfer c.code c.xl c.sa c.da

/-- The checks of a captured record and its ranges, and the command as started or ended (R227, R229). -/
def State.startTsr (s : State) (e : Nat) (c : Cmd) (bs : List Byte) (hit : Bool) : State :=
  if !tsrOk c.code bs then
    (s.onCore (fun k => { k with records := dropRecord k.records c.ctx (some c.xl) })).setHead e
      { c with started := true, ended := true, status := 6 }
  else
    let s1 := if hit then s else s.onCore (fun k => { k with records := installRecord k.records c bs })
    let x := tsrXfer c.code bs c.sa c.da
    let bad := (x.spmOut c.bank0 c.banks).isSome || (decide (c.code ≠ 0) && x.overlaps) || x.cmpBad
    s1.setHead e { c with tsr := some bs, started := true, ended := bad, status := if bad then 7 else 0 }

/-- COPY_START: the head command of an engine starts; a record command captures its record (R218, R229, R230). -/
def State.copyStart (s0 : State) (e : Nat) : Option State :=
  let s := s0.onCore Core.settleRcinv
  match s.headCmd e with
  | none => none
  | some c =>
    if c.started || c.ended || c.stopped.isSome then none
    else if !c.isTsr then some (s.setHead e { c with started := true })
    else if s.core.rcinv.any (fun f => decide (f.seq < c.seq)) then none
    else if !s.hasRecord c && !engineFree s then none
    else
      match s.captureTsr c with
      | .ok (bs, hit) => some ((if hit then s else s.noteIo c.ctx (some false) c.xl 128).startTsr e c bs hit)
      | .error t =>
        let (s1, c1) := s.cmdFault c t
        t.unlessHold (s1.setHead e c1)

/-- Destination bytes of a command written, with WSIG (R219, R247). -/
def State.putDst (s : State) (c : Cmd) (want : Option Bool) (sp : Bool) (a : Word) (bs : List Byte) : Chk State :=
  if sp then .ok (s.performSeg { space := .spm, owner := c.lcore, addr := a.toNat } bs)
  else (ioWrite s c.ctx want a bs).map (fun s1 =>
    s1.onKept c.id (fun k => { k with wsig := k.wsig ||| sigRange a bs.length }))

/-- Corrections of stored tiles counted (R164). -/
def State.countFixed (s : State) (n : Nat) : State := s.onCore (fun k => { k with thcnt := bumpField k.thcnt 0 n })

/-- A line of a `.rcmp` copy: its stored bytes and its code move unchanged (R226, R267). -/
def State.moveLine (s : State) (c : Cmd) (x : Xfer) : Chk State := do
  let o := c.done * x.srs + c.pos
  let ts ← ioPieces s c.ctx .read x.wantSrc (BitVec.ofNat 64 (x.sb + o)) 512
  let d := (x.unitAt c).1
  let td ← ioPieces s c.ctx .write x.wantDst (BitVec.ofNat 64 d) 512
  match placesOf ts, placesOf td with
  | (p, _) :: _, (q, _) :: _ =>
    if s.queueMeets (·.left) ts then .error holdTrap else
    let m := s.mem.storeLine (q.addr / 512) (s.mem.codeOf (p.addr / 512)) (s.mem.dev.readN (p.addr / 512 * 512) 512)
    let s1 := { s.readDone 0 (BitVec.ofNat 64 (x.sb + o)) ts with
      mem := ((m.readRange 0 0 p 512 true).wroteRange q 512 true false),
      sched := { s.sched with monitors := fireAt s.sched.monitors q 512 } }
    .ok ((s1.recall true q 512).onKept c.id (fun k => { k with wsig := k.wsig ||| sigRange (BitVec.ofNat 64 d) 512 }))
  | _, _ => .ok s

/-- A row of a copy has grown by `n` destination bytes. -/
def Cmd.advance (c : Cmd) (x : Xfer) (n : Nat) : Cmd :=
  let pos := c.pos + n
  let row := decide (x.dstRow ≤ pos)
  { c with done := if row then c.done + 1 else c.done, pos := if row then 0 else pos }

/-- The source sectors that a unit has read enter the L2 (R255). -/
def State.noteUnit (s : State) (want : Option Bool) (c c1 : Cmd) : State :=
  (c1.rd.filter (fun e => decide (e.1 < 2 ^ 60) && (c.rd.get? e.1).isNone)).foldl
    (fun s e => s.noteIo c.ctx want (BitVec.ofNat 64 (128 * e.1)) 128) s

/-- One unit of a copy is worked on: a part of a row, or a group of tiles. What it writes joins the writes to come; a line of
a `.rcmp` copy moves at once (R222, R226, R228). -/
def State.copyUnit (s : State) (c : Cmd) (x : Xfer) : Chk (State × Cmd) :=
  if x.tiled then do
    let (c1, b) ← x.bandUnit c s c.done
    .ok (((s.noteUnit x.wantSrc c c1).countFixed b.fixed).engineRaise c b.fl,
      { c1 with done := if b.bad then x.blocks else c.done + 1, status := if b.bad then 1 else 0, out := c.out ++ b.out,
                scl := c.scl ++ b.scales.map (fun q => (BitVec.ofNat 64 q.1, [q.2])), sats := c.sats + b.fl.sats })
  else if x.code = 3 then do
    let s1 ← s.moveLine c x
    .ok (s1, { c.advance x 512 with wrote := c.wrote + 512 })
  else do
    let (c1, u) ← x.rowUnit c s
    .ok ((s.noteUnit x.wantSrc c c1).engineRaise c u.fl,
      { c1.advance x u.bytes.length with
          out := c.out ++ [(BitVec.ofNat 64 (x.unitAt c).1, u.bytes)],
          scl := c.scl ++ u.scales.map (fun q => (BitVec.ofNat 64 q.1, [q.2])), sats := c.sats + u.fl.sats })

/-- Has a copy no unit left to work on. -/
def Cmd.worked (c : Cmd) : Bool := c.started && decide (c.xfer.blocks ≤ c.done)

/-- Has a copy no unit left, and nothing to write. -/
def Cmd.copied (c : Cmd) : Bool := c.worked && c.out.isEmpty && c.scl.isEmpty

/-- The block of `g` bytes that an address lies in. -/
def blockOf (g : Nat) (a : Word) : Nat := a.toNat / g

/-- The leading writes of a list that lie in one block. -/
def leading (g : Nat) : List (Word × List Byte) → List (Word × List Byte)
  | [] => []
  | (a, bs) :: rest => (a, bs) :: rest.takeWhile (fun w => decide (blockOf g w.1 = blockOf g a))

/-- The writes that are due now: those of one destination sector, or of one compressed line, once no unit to come adds to
it, so that the sector is written whole in one step (R218). The flag says that they are block scales. -/
def Cmd.due (c : Cmd) (x : Xfer) : Option (Bool × List (Word × List Byte)) :=
  let g := if x.wantDst = some true then 512 else 128
  let last := c.ended || c.worked
  let whole (l : List (Word × List Byte)) (next : Option Nat) : Bool :=
    !l.isEmpty && (last || decide ((leading g l).length < l.length) ||
      (next.any (fun b => l.any (fun w => decide (blockOf g w.1 ≠ b)))))
  if whole c.out (if x.tiled then none else some ((x.unitAt c).1 / g)) then some (false, leading g c.out)
  else if whole c.scl none then some (true, leading g c.scl)
  else none

/-- Homes of the bytes that a command writes (R239). -/
def State.dstHomes (s : State) (c : Cmd) (want : Option Bool) (sp : Bool) (a : Word) (n : Nat) : List (Space × Nat) :=
  if sp then [(.spm, 0)]
  else match ioPieces s c.ctx .write want a n with
    | .ok ts => (placesOf ts).map (fun p => p.1.home)
    | .error _ => []

/-- Have the stores before a command to these homes been performed (R241); its bundle's store slot stands before it
(R239). -/
def State.storesClear (s : State) (c : Cmd) (hs : List (Space × Nat)) : Bool :=
  s.core.storeQ.all (fun q => !((decide (q.id ≠ c.id) || decide (q.seq ≤ c.seq)) && q.homes.any (fun h => decide (h ∈ hs))))

/-- Destination writes of a command. -/
def State.putAll (s : State) (c : Cmd) (want : Option Bool) (sp : Bool) : List (Word × List Byte) → Chk State
  | [] => .ok s
  | (a, bs) :: ws => do
    let s1 ← s.putDst c want sp a bs
    s1.putAll c want sp ws

/-- The due writes of a copy are made. -/
def State.copyWrite (s : State) (c : Cmd) (x : Xfer) (scales : Bool) (ws : List (Word × List Byte)) : Chk (State × Cmd) := do
  let s1 ← s.putAll c x.wantDst x.dsp ws
  let n := (ws.map (fun w => w.2.length)).sum
  .ok (s1, { c with out := if scales then c.out else c.out.drop ws.length, scl := if scales then c.scl.drop ws.length else c.scl,
                    wrote := c.wrote + n, atWrite := false })

/-- A sector step of a CPY or CPYF: the writes that are due, or the next unit (R222). A command that a write ended writes
nothing more; one that ended otherwise writes the sectors before the failing one. -/
def State.copyStep (s : State) (e : Nat) (c : Cmd) : Option State :=
  let x := c.xfer
  if c.copied || (c.ended && c.atWrite) || !engineFree s then none
  else
    match c.due x with
    | some (sc, ws) =>
      if !s.storesClear c (ws.flatMap (fun w => s.dstHomes c x.wantDst x.dsp w.1 w.2.length)) then none
      else
        match s.copyWrite c x sc ws with
        | .ok (s1, c1) => some (s1.setHead e c1)
        | .error t =>
          let (s1, c1) := s.cmdFault c t
          t.unlessHold (s1.setHead e { c1 with atWrite := true })
    | none =>
      if c.ended || c.worked then none
      else if x.code = 3 && !s.storesClear c (s.dstHomes c x.wantDst x.dsp (BitVec.ofNat 64 (x.unitAt c).1) 512) then none
      else
        match s.copyUnit c x with
        | .ok (s1, c1) => some (s1.setHead e c1)
        | .error t =>
          let (s1, c1) := s.cmdFault c t
          t.unlessHold (s1.setHead e c1)

/-- The QC entry of a command (R223). -/
def qcEntry (c : Cmd) : BitVec 512 :=
  BitVec.ofNat 512 (ofBytes (toBytes 8 c.addr.toNat ++ toBytes 1 (copyOpc c.op) ++ toBytes 1 c.tok ++ toBytes 1 c.engine
    ++ toBytes 1 c.status ++ toBytes 4 (min count32 c.sats) ++ toBytes 8 c.wrote ++ toBytes 8 c.faddr.toNat))

/-- The QC entry of a command lands while its spar runs on this core; a COPYST notice for token 0 with a status (R222 to
R224). -/
def State.reportCmd (s : State) (c : Cmd) : State :=
  if c.tok = 0 then
    if c.status = 0 then s
    else s.post (s.cmdRec c { cause := Cause.copyst, det := c.status, addr := c.faddr, aux := c.engine } 8 false)
  else if s.core.runs c.id then
    s.onCtx (fun d => { d with qc := d.qc ++ [qcEntry c], qcRes := if c.push then d.qcRes - 1 else d.qcRes })
  else s

/-- The follow-on of a command that failed is discarded with its QM reservation (R231). -/
def State.dropFollow (s : State) (c : Cmd) : State :=
  match s.onSpar c.id (fun d =>
    let gone := d.follow.filter (fun f => decide (f.copySeq = c.seq))
    { d with follow := d.follow.filter (fun f => decide (f.copySeq ≠ c.seq)),
             qmRes := d.qmRes - (gone.filter (·.job.push)).length }) with
  | some s' => s'
  | none => s

/-- A command leaves its engine (R218, R222 to R224, R231). -/
def State.finishCmd (s : State) (c : Cmd) : State :=
  let s1 := if c.status ≠ 0 then s.dropFollow c else s
  (s1.markToken c.id c.tok).reportCmd c

/-- COPY_COMPLETE: the head command of an engine ends (R218, R222 to R224). -/
def State.copyComplete (s : State) (e : Nat) : Option State :=
  match s.headCmd e with
  | none => none
  | some c =>
    let beyond := match c.op with
      | .glog _ => decide (c.done = 1)
      | _ => c.copied
    let flushed := c.atWrite || (c.out.isEmpty && c.scl.isEmpty)
    if (c.ended && flushed) || beyond then some ((s.onEngine e (fun q => q.drop 1)).finishCmd c) else none

/-- Has a copy-slot command read every byte of its source: every unit of it is done (R244). -/
def Cmd.sourceRead (c : Cmd) : Bool :=
  c.ended || (match c.op with
    | .cpy _ | .cpyf _ _ => c.worked
    | .glog _ => decide (c.done = 1)
    | .rfen _ | .gmrg _ => true
    | _ => c.started)

/-! ### Follow-ons -/

/-- A follow-on's job as it enters: ordered after every matrix instruction in the engine (R231). -/
def Ctx.enterFollow (c : Ctx) (j0 : MJob) : Option Ctx :=
  let j := { j0 with seq := c.seq, follow := true }
  let c1 := { c with seq := c.seq + 1 }
  let place : Option Ctx :=
    if c1.running.isNone && c1.waiting.isNone then some { c1 with running := some j }
    else if c1.waiting.isNone then some { c1 with waiting := some j }
    else none
  match j.op with
  | .mwld a =>
    if (c1.ws (loadWb a)).full || c1.holdsLoad (loadWb a) then place else some (c1.acceptLoad (loadWb a) (j.load a))
  | _ => place

/-- FOLLOWON_ENTER: the oldest follow-on whose copy has completed enters the matrix engine (R231). -/
def State.followonEnter (s : State) : Option State :=
  let c := s.core.ctx
  let live (f : Follow) : Bool :=
    s.core.engines.toList.flatten.any (fun q => decide (q.id = s.runOf.id ∧ q.seq = f.copySeq))
  match c.follow.find? (fun f => !live f) with
  | none => none
  | some f =>
    (({ c with follow := c.follow.erase f }).enterFollow f.job).map (fun d => s.onCtx (fun _ => d))

end Machine

end Sys2Proof
end

