-- ==== Sys2Proof/Machine/Gutter.lean ====
section
/-! DEFINITION. The Gutter: GLOG, GMRG and the Valley engine (R233 to R236). -/

namespace Sys2Proof.Machine

/-- A Gutter descriptor (R233). -/
structure Gutter where
  logb : Word
  len : Nat
  head : Nat
  tail : Nat
  tgtb : Word
  nkey : Nat
  tr : Nat
  tc : Nat
  mseq : Nat
  deriving DecidableEq, Repr

/-- A descriptor read from its bytes. -/
def gutterOf (b : List Byte) : Gutter :=
  { logb := BitVec.ofNat 64 (tsrN b 0 8), len := tsrN b 8 8 - tsrN b 0 8, head := tsrN b 16 8, tail := tsrN b 24 8,
    tgtb := BitVec.ofNat 64 (tsrN b 40 8), nkey := tsrN b 48 4, tr := tsrN b 52 1, tc := tsrN b 53 1, mseq := tsrN b 56 8 }

/-- Padded bytes of a tile of the Gutter. -/
def Gutter.tsz (g : Gutter) : Nat := (thLayout 32 g.tr g.tc).size

/-- Bytes of a record. -/
def Gutter.rec_ (g : Gutter) : Nat := 64 + g.tsz

/-- Bytes between TAIL and HEAD, taken circularly. -/
def Gutter.used (g : Gutter) : Nat := (g.head + g.len - g.tail) % g.len

/-- Key of the place of a descriptor. -/
def gutterKey (s : State) (ctx : Nat) (va : Word) : Chk Nat := do
  let ts ← ioPieces s ctx .read (some false) va 128
  .ok (((placesOf ts).head?.map (fun p => p.1.key)).getD 0)

/-- The pieces of `n` log bytes from an offset on, the log being circular. -/
def Gutter.logPieces (g : Gutter) (off n : Nat) : List (Word × Nat) :=
  let first := min n (g.len - off % g.len)
  (g.logb + BitVec.ofNat 64 (off % g.len), first) :: (if first < n then [(g.logb, n - first)] else [])

/-- Bytes of the log read. -/
def readLog (s : State) (ctx : Nat) : List (Word × Nat) → Chk (List Byte)
  | [] => .ok []
  | (a, n) :: ps => do
    let b ← ioRead s ctx (some false) a n
    let bs ← readLog s ctx ps
    .ok (b ++ bs)

/-- Bytes of the log written for a command. -/
def writeLog (c : Cmd) : State → List (Word × Nat) → List Byte → Chk State
  | s, [], _ => .ok s
  | s, (a, n) :: ps, bs => do
    let s1 ← s.putDst c (some false) false a (bs.take n)
    writeLog c s1 ps (bs.drop n)

/-! ### GLOG -/

/-- Bytes of a GLOG's source that are known at issue: the tile of its descriptor where that can be read, else one unit of
128 (R206, R221, R234; log 25). -/
def glogSize (s : State) (ctx : Nat) (da : Word) : Nat :=
  match ioFetch s ctx (some false) da 128 with
  | .ok b => (gutterOf b).tsz
  | .error _ => 128

/-- GLOG (R206, R221, R234, R287). -/
def slotGlog (a : CArgs) (e : Env) : SlotOut :=
  .bind (e.c.ea a.sa) fun sa =>
  .bind (e.c.ea a.da) fun da =>
  let xl := e.c.rx a.xl
  let push := decide (a.tok ≠ 0)
  if bits xl.toNat 24 38 ≠ 0 ∨ bits xl.toNat 63 1 ≠ 0 then .fault Cause.cpyarg 0 xl
  else if sa.toNat % 128 ≠ 0 then .fault Cause.cpyarg 0 sa
  else if da.toNat % 128 ≠ 0 then .fault Cause.cpyarg 0 da
  else if xl.getLsbD 62 && !spmIn e.s.runOf.bank0 e.s.runOf.banks sa.toNat (glogSize e.s e.s.runOf.ctx da) then
    .fault Cause.spmrng 0 sa
  else if e.s.runOf.ss then .fault Cause.ssviol 0 da
  else if push && e.qcFull then .fault Cause.qcovf
  else .ok (fun s => s.sendCopy (e.cmd (.glog a) a sa da push))

/-- The source tile of a GLOG, corrected where it can be (R164, R234). -/
def glogTile (s : State) (c : Cmd) (g : Gutter) : Chk (Option (ThImage × Bool)) := do
  let sp := c.xl.getLsbD 62
  let bs ← if sp then .ok (spmBytes s c.lcore c.sa.toNat g.tsz) else ioRead s c.ctx (some false) c.sa g.tsz
  .ok ((thParse 32 g.tr g.tc bs).verified .fp32 0 (fun _ => noScale) g.tc)

/-- What a GLOG does where its log has room: the record, HEAD, and the Valley engine's note of it (R234). -/
def State.appendRecord (s : State) (c : Cmd) (g : Gutter) (key k : Nat) (im : ThImage) (fixed : Bool) : Chk State := do
  let hdr := bvBytes 64 (Config.logHeader k c.wid s.coreNum)
  let s1 ← writeLog c s (g.logPieces g.head g.rec_) (hdr ++ thBuild 32 g.tr g.tc im)
  let s2 ← s1.putDst c (some false) false (c.da + 16) (toBytes 8 ((g.head + g.rec_) % g.len))
  let v := s2.valley
  let served := if v.served.any (fun d => decide (d.key = key)) then v.served else v.served ++ [⟨key, c.ctx, c.da⟩]
  .ok ({ s2 with valley := { v with served := served, keys := v.keys.put key (v.keys.getD key [] ++ [k]),
                                    appended := v.appended.put key (v.appended.getD key 0 + 1) } }.countFixed fixed.toNat)

/-- A GLOG at its engine: `none` while it waits for room or for the Valley engine (R233, R234). -/
def State.glogUnit (s : State) (c : Cmd) : Chk (Option (State × Cmd)) := do
  let key ← gutterKey s c.ctx c.da
  let d ← ioRead s c.ctx (some false) c.da 128
  let g := gutterOf d
  let k := bits c.xl.toNat 0 24
  let full := decide (64 ≤ s.valley.served.length) && !(s.valley.served.any (fun q => decide (q.key = key)))
  if g.nkey ≤ k then .ok (some (s, { c with ended := true, status := 5 }))
  else if c.xl.getLsbD 62 && !spmIn c.bank0 c.banks c.sa.toNat g.tsz then
    .ok (some (s, { c with ended := true, status := 7 }))
  else
    match ← glogTile s c g with
    | none => .ok (some (s, { c with ended := true, status := 1 }))
    | some (im, fixed) =>
      let hs := ((c.da + 16, 8) :: g.logPieces g.head g.rec_).flatMap (fun q => s.dstHomes c (some false) false q.1 q.2)
      if full || decide (g.len ≤ g.used + g.rec_) || !s.storesClear c hs then .ok none
      else do
        let src := if c.xl.getLsbD 62 then s else s.noteIo c.ctx (some false) c.sa g.tsz
        let s1 ← (src.noteIo c.ctx (some false) c.da 128).appendRecord c g key k im fixed
        .ok (some (s1, { c with done := 1, wrote := g.rec_ }))

/-- COPY_SECTOR: the head command of an engine moves on by one step (R222, R226, R228, R234). -/
def State.copySector (s : State) (e : Nat) : Option State :=
  match s.headCmd e with
  | none => none
  | some c =>
    if !c.started || c.stopped.isSome then none
    else
      match c.op with
      | .glog _ =>
        if c.ended || decide (c.done = 1) || !engineFree s then none
        else
          match s.glogUnit c with
          | .ok (some (s1, c1)) => some (s1.setHead e c1)
          | .ok none => none
          | .error t =>
            let (s1, c1) := s.cmdFault c t
            t.unlessHold (s1.setHead e c1)
      | _ => s.copyStep e c

/-! ### GMRG -/

/-- GMRG (R221, R236, R287). -/
def slotGmrg (a : CArgs) (e : Env) : SlotOut :=
  .bind (e.c.ea a.da) fun da =>
  if da.toNat % 128 ≠ 0 then .fault Cause.cpyarg 0 da
  else if e.s.runOf.ss then .fault Cause.ssviol 0 da
  else if 16 + (e.named.filter (· = 4)).length < e.c.qg.length + e.c.qgRes + 1 then .fault Cause.qgovf
  else
    let c := e.cmd (.gmrg a) a 0 da true
    .ok (fun s => (s.onCore (fun k => { k with gmrg := k.gmrg ++ [{ c with engine := 0 }] })).onCtx
      (fun d => { d with qgRes := d.qgRes + 1 }))

/-- The new value of a target element and its flags; the flags are those of byte 24 (R236). -/
def mergeEl (wide target : Val) : Nat × Flags :=
  let v := wide.add target
  match v with
  | .nan => (Fmt.fp32.nanCode, .invalid)
  | .inf n => (Fmt.fp32.infCode n, .none)
  | v => if v.isZero then (0, .none) else roundF .fp32 0 v .rne 0

/-- Byte 24 of a QG entry (R236). -/
def mergeFlags (f : Flags) : Nat := f.iv.toNat + 2 * f.of.toNat + 4 * f.nx.toNat

/-- One key's target tile written; its wide sum becomes zero, and the flags land in the spar's ASTAT too (R66, R236). For a
GMRG `done` counts keys and `sats` holds the bits of byte 24. A key that a tile was folded into that could not be corrected
ends it with status 1, and its sum goes (R165; log 20). -/
def State.mergeKey (s : State) (c : Cmd) (g : Gutter) (key : Nat) (acc : Bool) : Chk (State × Cmd) := do
  let k := c.done
  let va := g.tgtb + BitVec.ofNat 64 (k * g.tsz)
  let old ← if acc then ioRead s c.ctx (some false) va g.tsz else .ok []
  let w := s.valley.wide.getD key []
  let rest := s.valley.wide.put key (Tbl.drop w (fun q => decide (q / 256 = k)))
  let bad := s.valley.bad.getD key []
  if k ∈ bad then
    .ok ({ s with valley := { s.valley with wide := rest, bad := s.valley.bad.put key (bad.filter (· ≠ k)) } },
      { c with ended := true, status := 1 })
  else
  match (if acc then (thParse 32 g.tr g.tc old).verified .fp32 0 (fun _ => noScale) g.tc
      else some ({ codes := [], crow := [], ccol := [], corner := 0 }, false)) with
  | none => .ok (s, { c with ended := true, status := 1 })
  | some (im, fixed) =>
    let els := (List.range g.tr).map (fun i => (List.range g.tc).map (fun j =>
      mergeEl (w.getD (k * 256 + i * g.tc + j) (.zero false))
        (if acc then Fmt.fp32.value 0 ((im.codes.getD i []).getD j 0) else .zero false)))
    let codes := els.map (fun r => r.map (·.1))
    let fl := els.flatten.foldl (fun f q => f.join q.2) Flags.none
    let sums := flash g.tc (codes.map (decodeRow .fp32 0 noScale))
    let img := thBuild 32 g.tr g.tc { codes := codes, crow := sums.1, ccol := sums.2.1, corner := sums.2.2 }
    let s0 := if acc then s.noteIo c.ctx (some false) va g.tsz else s
    let s1 ← s0.putDst c (some false) false va img
    .ok (({ s1 with valley := { s1.valley with wide := rest } }.countFixed fixed.toNat).engineRaise c fl,
      { c with done := k + 1, wrote := c.wrote + 1, sats := c.sats ||| mergeFlags fl })

/-- The QG entry of a GMRG (R236). -/
def qgEntry (c : Cmd) (since : Nat) : BitVec 512 :=
  BitVec.ofNat 512 (ofBytes (toBytes 8 c.addr.toNat ++ toBytes 1 0x21 ++ toBytes 1 c.tok ++ toBytes 1 0
    ++ toBytes 1 c.status ++ toBytes 4 c.wrote ++ toBytes 8 since ++ toBytes 1 c.sats))

/-- A GMRG ends: its QG entry lands while its spar runs on this core, and its token is marked (R224, R236). -/
def State.finishMerge (s : State) (c : Cmd) (key : Nat) : State :=
  let since := s.valley.since.getD key 0
  let s1 := { s with valley := { s.valley with since := s.valley.since.put key 0 } }
  let s2 := (s1.onCore (fun k => { k with gmrg := k.gmrg.drop 1 })).markToken c.id c.tok
  let res (d : Ctx) : Nat := if c.push then d.qgRes - 1 else d.qgRes
  if s2.core.runs c.id then s2.onCtx (fun d => { d with qg := d.qg ++ [qgEntry c since], qgRes := res d }) else s2

/-- Is a GMRG one that adds to its targets. -/
def Cmd.accumulates (c : Cmd) : Bool := ((copyArgs c.op).map (fun a => decide (a.f 0 1 = 1))).getD false

/-- A step of the core's oldest GMRG: it reads HEAD, then, once TAIL has reached it, writes one key, and ends after the
last (R236). Its writes wait for the earlier stores of its spar to their spaces (R219, R241). -/
def State.mergeStep (s : State) (c : Cmd) : Chk (Option State) := do
  if !engineFree s then .error holdTrap else
  let key ← gutterKey s c.ctx c.da
  let d ← ioRead s c.ctx (some false) c.da 128
  let g := gutterOf d
  let put (s : State) (c : Cmd) : State := s.onCore (fun k => { k with gmrg := c :: k.gmrg.drop 1 })
  if !c.started then .ok (some (put s { c with started := true, pos := s.valley.appended.getD key 0 }))
  else if s.valley.folded.getD key 0 < c.pos then .ok none
  else if !s.storesClear c (s.dstHomes c (some false) false (c.da + 56) 8 ++
      s.dstHomes c (some false) false (g.tgtb + BitVec.ofNat 64 (c.done * g.tsz)) g.tsz) then .ok none
  else if c.done < g.nkey then do
    let (s1, c1) ← s.mergeKey c g key c.accumulates
    .ok (some (put s1 c1))
  else do
    let s1 ← s.putDst c (some false) false (c.da + 56) (toBytes 8 (g.mseq + 1))
    .ok (some (s1.finishMerge c key))

/-! ### The Valley engine -/

/-- A record of a served descriptor folded: its tile is verified, the exact sums of its key grow, TAIL advances, and a
descriptor whose TAIL has reached HEAD is served no longer (R164, R165, R233, R235). The values of a tile that cannot be
corrected are added as they were read, and its key's next GMRG reports it (log 20). -/
def State.foldRecord (s : State) (d : Served) : Chk (Option State) := do
  match s.valley.keys.getD d.key [] with
  | [] => .ok none
  | k :: ks =>
    let b ← ioRead s d.ctx (some false) d.va 128
    let g := gutterOf b
    let r ← readLog s d.ctx (g.logPieces g.tail g.rec_)
    let got := thParse 32 g.tr g.tc (r.drop 64)
    let fixed := got.verified .fp32 0 (fun _ => noScale) g.tc
    let im := (fixed.map (·.1)).getD got
    let w := im.codes.flatten.zipIdx.foldl (fun w q =>
      let at_ := k * 256 + q.2
      Tbl.put w at_ ((Tbl.getD w at_ (.zero false)).add (Fmt.fp32.value 0 q.1))) (s.valley.wide.getD d.key [])
    let s0 := (g.logPieces g.tail g.rec_).foldl (fun s q => s.noteIo d.ctx (some false) q.1 q.2)
      (s.noteIo d.ctx (some false) d.va 128)
    let s1 ← ioWrite s0 d.ctx (some false) (d.va + 24) (toBytes 8 ((g.tail + g.rec_) % g.len))
    let v := s1.valley
    .ok (some ({ s1 with valley := { v with
      bad := if fixed.isSome then v.bad else v.bad.put d.key (joinSecs (v.bad.getD d.key []) [k]),
      served := if ks.isEmpty then v.served.filter (fun q => decide (q.key ≠ d.key)) else v.served,
      keys := v.keys.put d.key ks, folded := v.folded.put d.key (v.folded.getD d.key 0 + 1),
      since := v.since.put d.key (v.since.getD d.key 0 + 1), wide := v.wide.put d.key w } }.countFixed ((fixed.map (fun (q : ThImage × Bool) => q.2.toNat)).getD 0)))

/-- The first served descriptor with a record to fold. -/
def State.foldFirst (s : State) : List Served → Option State
  | [] => none
  | d :: ds =>
    match s.foldRecord d with
    | .ok (some s') => some s'
    | _ => s.foldFirst ds

/-- VALLEY_FOLD: the core's oldest GMRG moves on, or a record is folded (R235, R236). -/
def State.valleyFold (s : State) : Option State :=
  match s.core.gmrg with
  | c :: _ =>
    if c.stopped.isSome then s.foldFirst s.valley.served
    else if c.ended then some (s.finishMerge c ((gutterKey s c.ctx c.da).toOption.getD 0))
    else
      match s.mergeStep c with
      | .ok (some s') => some s'
      | .ok none => s.foldFirst s.valley.served
      | .error t =>
        let (s1, c1) := s.cmdFault c t
        if t.isHold then s.foldFirst s.valley.served
        else some (s1.onCore (fun k => { k with gmrg := c1 :: k.gmrg.drop 1 }))
  | [] => s.foldFirst s.valley.served

end Sys2Proof.Machine
end

