-- ==== Sys2Proof/Machine/Remote.lean ====
section
/-! DEFINITION. The fabric queue, the pair layer and the remote commands RSTO, RFAA and RFEN (R306 to R314). -/

namespace Sys2Proof.Machine

/-! ### The commands of a spar -/

/-- Commands in a core's engines, fabric queue and at the Valley engine. -/
def Core.cmds (k : Core) : List Cmd := k.engines.toList.flatten ++ k.fabric ++ k.gmrg

/-- The commands of a spar, on whatever core it committed them (R224). -/
def State.cmdsOf (s : State) (id : SparId) : List Cmd :=
  (s.allCoresList.flatMap Core.cmds).filter (fun c => decide (c.id = id))

/-- Is a job a load of a projection. -/
def isLatLoad (j : MJob) : Bool :=
  match j.op with
  | .mlatLoad _ => true
  | _ => false

/-- Is a job an MWLD that no stream has accepted. -/
def isPanelLoad (j : MJob) : Bool :=
  match j.op with
  | .mwld _ => true
  | _ => false

/-- Weight streams and projection loads still at work. -/
def Ctx.loading (c : Ctx) : Bool :=
  c.ws0.active.isSome || c.ws1.active.isSome || c.jobs.any (fun j => isPanelLoad j || (isLatLoad j && decide (j.kstep < j.ksteps)))

/-! ### Issue -/

/-- A command joins the fabric queue, with its QC reservation (R309). -/
def State.sendFabric (s : State) (c : Cmd) : State :=
  (s.onCore (fun k => { k with fabric := k.fabric ++ [{ c with engine := 0 }] })).onCtx
    (fun d => { d with qcRes := if c.push then d.qcRes + 1 else d.qcRes })

/-- RSIG and its mark clear as a releasing access commits (R246). -/
def State.clearRsig (s : State) : State := s.onCtx (fun c => { c with kept := { c.kept with rsig := 0, rsigNew := false } })

/-- The last checks of a remote command, and the command; RFAA is releasing (R221, R246, R287, R309, R311). -/
def sendRemote (op : Instr) (a : CArgs) (sa da : Word) (e : Env) (rel : Bool := false) : SlotOut :=
  let push := decide (a.tok ≠ 0)
  if e.s.runOf.ss then .fault Cause.ssviol 0 da
  else if push && e.qcFull then .fault Cause.qcovf
  else .ok (fun s => (if rel then s.clearRsig else s).sendFabric (e.cmd op a sa da push))

/-- RSTO (R309, R310). -/
def slotRsto (a : CArgs) (e : Env) : SlotOut :=
  .bind (e.c.ea a.sa) fun sa =>
  .bind (e.c.ea a.da) fun da =>
  let xl := e.c.rx a.xl
  let n := bits xl.toNat 0 32
  let r := e.s.runOf
  if n = 0 ∨ bits xl.toNat 32 30 ≠ 0 ∨ xl.getLsbD 63 then .fault Cause.cpyarg 0 xl
  else if xl.getLsbD 62 && !spmIn r.bank0 r.banks sa.toNat n then .fault Cause.spmrng 0 sa
  else sendRemote (.rsto a) a sa da e

/-- RFAA (R309, R311). -/
def slotRfaa (a : CArgs) (e : Env) : SlotOut :=
  .bind (e.c.ea a.sa) fun sa =>
  .bind (e.c.ea a.da) fun da =>
  let r := e.s.runOf
  if sa.toNat % 8 ≠ 0 then .fault Cause.cpyarg 0 sa
  else if da.toNat % 8 ≠ 0 then .fault Cause.cpyarg 0 da
  else if a.f 0 1 = 1 && !spmIn r.bank0 r.banks sa.toNat 8 then .fault Cause.spmrng 0 sa
  else sendRemote (.rfaa a) a sa da e true

/-- RFEN (R309, R312). -/
def slotRfen (a : CArgs) (e : Env) : SlotOut :=
  .bind (e.c.ea a.da) fun da =>
  if da.toNat % 8 ≠ 0 then .fault Cause.cpyarg 0 da
  else sendRemote (.rfen a) a 0 da e

/-! ### Cores by number -/

/-- The core of a number made the one that moves; the state as it is where it moves already. -/
def State.swapTo (s : State) (n : Nat) : State :=
  match s.others.find? (fun k => decide (k.num = n)) with
  | some k => if s.core.num = n then s
    else { s with core := k, others := s.others.map (fun q => if q.num = n then s.core else q) }
  | none => s

/-- A change made with the core of a number as the one that moves. -/
def State.withCore (s : State) (n : Nat) (f : State → State) : State := (f (s.swapTo n)).swapTo s.core.num

/-! ### Transactions -/

/-- The next PSN of the pair with a destination (R307). -/
def Fabric.psn (f : Fabric) (dst : Nat) : Nat := f.nextPsn.getD dst 0

/-- The pair state of a device in its 64 bytes of the area at PAIRB, whose encoding the spec does not give (R305, R307;
log 27). -/
def State.writePair (s : State) (dev : Nat) : State :=
  let f := s.fabric
  s.performSeg (devPlace (f.pairb.toNat + 64 * dev))
    ((List.range 64).map (Config.pairByte (f.psn dev) (f.expect.getD dev 0)))

/-- A transaction takes the next PSN of its pair. -/
def State.sendTxn (s : State) (o : OutTxn) : State :=
  let f := s.fabric
  ({ s with fabric := { f with out := f.out ++ [{ o with psn := f.psn o.dst }],
                               nextPsn := f.nextPsn.put o.dst ((f.psn o.dst + 1) % 2 ^ 32) } } : State).writePair o.dst

/-- A transaction of a command. -/
def State.openTxn (s : State) (c : Cmd) (dst : Nat) (t : Txn) (va : Word) : State :=
  s.sendTxn { dst := dst, psn := 0, txn := t, core := s.core.num, id := c.id, cmd := some c.seq, va := va }

/-- The range of a queued PEER store sent as one transaction, so that it is refused whole or not at all (R308; log 27). -/
def State.openStore (s : State) (e : StoreEnt) (g : Place × List Byte) : State :=
  s.sendTxn { dst := g.1.owner, psn := 0, txn := .store (BitVec.ofNat 48 g.1.addr) g.2, core := s.core.num, id := e.id,
              cmd := none, store := some e.seq, va := e.va }

/-- A fabric command replaced, by its number. -/
def State.setFabric (s : State) (c : Cmd) : State :=
  s.onCore (fun k => { k with fabric := k.fabric.map (fun q => if q.seq = c.seq ∧ q.id = c.id then c else q) })

/-- A fabric command leaves the queue and reports (R222 to R224). -/
def State.endFabric (s : State) (c : Cmd) : State :=
  (s.onCore (fun k => { k with fabric := k.fabric.filter (fun q => decide (¬ (q.seq = c.seq ∧ q.id = c.id))) })).finishCmd c


/-- The PEER place that an address translates to; `none` for another space (R309). -/
def peerPlace (s : State) (c : Cmd) (va : Word) (n : Nat) : Chk (Option Place) := do
  let ts ← ioPieces s c.ctx .write (some false) va n
  .ok (match placesOf ts with
    | (p, _) :: _ => if p.space = .peer then some p else none
    | [] => none)

/-- The variant of a COLL: 0 all-reduce, 1 all-gather, 2 reduce-scatter, 3 all-to-all. -/
def collVariant : Instr → Option Nat
  | .collAr _ => some 0
  | .collAg _ => some 1
  | .collRs _ => some 2
  | .collA2a _ => some 3
  | _ => none

/-- Is a fabric command a COLL. -/
def Cmd.isColl (c : Cmd) : Bool := (collVariant c.op).isSome

/-- Is nothing of a remote command to start, to be acknowledged or to be written. -/
def Cmd.over (c : Cmd) : Bool := (c.ended || (c.started && !c.isColl && c.out.isEmpty)) && decide (c.pos ≤ c.done)

/-- The devices that a remote command has sent to, and the one that its destination translates to. -/
def State.peersOf (s : State) (c : Cmd) : List Nat :=
  c.peers ++ (match peerPlace s c c.da 1 with
    | .ok (some p) => [p.owner]
    | _ => [])

/-- The earlier remote commands of a command's spar, on every core. -/
def State.remoteBefore (s : State) (c : Cmd) : List Cmd :=
  s.allCoresList.flatMap (fun k => k.fabric.filter (fun q => decide (q.id = c.id ∧ q.seq < c.seq) && !q.isColl))

/-- Is an earlier remote command of the spar to the same device still to report (R349). -/
def State.reportsAfter (s : State) (c : Cmd) : Bool :=
  let dests := s.peersOf c
  (s.remoteBefore c).any (fun q => (s.peersOf q).any (fun d => decide (d ∈ dests)))

/-- A fabric command after a change: it leaves the queue once it is over and those before it have reported (R349). -/
def State.settleFabric (s : State) (c : Cmd) : State :=
  if c.over && !s.reportsAfter c then s.endFabric c else s.setFabric c

/-- A fabric command whose source or destination lies in the wrong space ends with status 8 once its transactions are
acknowledged (R309, R314). -/
def State.wrongSpace (s : State) (c : Cmd) : State := s.settleFabric { c with ended := true, status := 8 }

/-- Does a range of the source translate to PEER. -/
def fromPeer (s : State) (c : Cmd) (va : Word) (n : Nat) : Chk Bool := do
  let ts ← ioPieces s c.ctx .read (some false) va n
  .ok ((placesOf ts).any (fun p => decide (p.1.space = .peer)))

/-- Is a queued store of the command's spar, up to the command's own bundle, still to be performed in a home that `p`
admits (R239). -/
def State.storesBefore (s : State) (c : Cmd) (p : Space × Nat → Bool) : Bool :=
  s.core.storeQ.any (fun q => decide (q.id = c.id ∧ q.seq ≤ c.seq) && q.homes.any p)

/-- Has every earlier PEER store of the command's spar to a device taken its PSN (R240, R310, R312). -/
def State.psnsTaken (s : State) (c : Cmd) (dst : Nat) : Bool :=
  s.core.storeQ.all (fun q => !(decide (q.id = c.id ∧ q.seq ≤ c.seq) && q.holds false (.peer, dst)))

/-- Bytes of an RSTO from an offset up to the end of its destination sector (R310). -/
def rstoPart (da n off : Nat) : Nat := min (n - off) (128 - (da + off) % 128)

/-- The offset of the `k`-th destination sector of an RSTO. -/
def rstoOffset (da k : Nat) : Nat := if k = 0 then 0 else 128 * k - da % 128

/-- An RSTO moves on by one destination sector: its source bytes are read, and the sector takes its PSN once the earlier
PEER stores of the spar have taken theirs and a request entry is free (R241, R242, R307, R310). -/
def State.rstoStep (s : State) (c : Cmd) : Chk (Option State) := do
  let n := bits c.xl.toNat 0 32
  let sp := c.xl.getLsbD 62
  let off := rstoOffset c.da.toNat c.pos
  let k := rstoPart c.da.toNat n off
  let src := c.sa + BitVec.ofNat 64 off
  let va := c.da + BitVec.ofNat 64 off
  let wrong ← if sp then .ok false else fromPeer s c src k
  let bs ← if sp then .ok (spmBytes s c.lcore src.toNat k) else ioRead s c.ctx (some false) src k
  match ← peerPlace s c va k with
  | none => .ok (some (s.wrongSpace c))
  | some p =>
    if wrong then .ok (some (s.wrongSpace c))
    else if !s.psnsTaken c p.owner || !engineFree s then .ok none
    else
      let s1 := (if sp then s else s.noteIo c.ctx (some false) src k).openTxn c p.owner (.store (BitVec.ofNat 48 p.addr) bs) va
      .ok (some (s1.setFabric { c with pos := c.pos + 1, started := decide (n ≤ off + k), peers := c.peers ++ [p.owner] }))

/-- Are 16 RFAA of a pair outstanding (R311). -/
def State.faaFull (s : State) (dst : Nat) : Bool :=
  decide (16 ≤ (s.fabric.out.filter (fun o => decide (o.dst = dst) && (match o.txn with
    | .faa _ _ => true
    | _ => false))).length)

/-- Is an earlier engine command of the command's spar, or a load of its weight streams and projections, still to complete
(R311). -/
def State.accessBefore (s : State) (c : Cmd) : Bool :=
  (s.cmdsOf c.id).any (fun q => decide (q.seq < c.seq)) || s.allCoresList.any (fun k => k.runs c.id && k.ctx.loading)

/-- An RFAA starts: after every earlier access to SPM, DEV and PEER, own bundle included (R311). `none` while it waits. -/
def State.startRfaa (s : State) (c : Cmd) (rsp : Bool) : Chk (Option State) := do
  if s.storesBefore c (fun h => decide (h.1 ≠ .host)) || s.accessBefore c || !engineFree s then .ok none
  else do
    let local_ ← if rsp then .ok false else fromPeer s c c.sa 8
    let _ ← if rsp then .ok [] else ioPieces s c.ctx .write (some false) c.sa 8
    match ← peerPlace s c c.da 8 with
    | none => .ok (some (s.wrongSpace c))
    | some p =>
      if local_ then .ok (some (s.wrongSpace c))
      else if s.faaFull p.owner then .ok none
      else .ok (some ((s.openTxn c p.owner (.faa (BitVec.ofNat 48 p.addr) c.xl) c.da).setFabric
        { c with started := true, pos := 1, peers := [p.owner] }))

/-- An RFEN starts: after every earlier PEER store of the spar to the same device has taken its PSN (R312). -/
def State.startRfen (s : State) (c : Cmd) : Chk (Option State) := do
  match ← peerPlace s c c.da 8 with
  | none => .ok (some (s.wrongSpace c))
  | some p =>
    if !s.psnsTaken c p.owner || !engineFree s then .ok none
    else .ok (some ((s.openTxn c p.owner (.flag (BitVec.ofNat 48 p.addr) c.xl) c.da).setFabric
      { c with started := true, pos := 1, peers := [p.owner] }))

/-! ### Completion -/

/-- The bytes of a transaction, as the completed command counts them. -/
def txnSize : Txn → Nat
  | .store _ bs => bs.length
  | _ => 8

/-- Is a transaction an addition of an RFAA. -/
def OutTxn.isFaa (o : OutTxn) : Bool :=
  match o.txn with
  | .faa _ _ => true
  | _ => false

/-- Is a transaction a sector of an RSTO. -/
def OutTxn.isRsto (o : OutTxn) : Bool :=
  o.cmd.isSome && (match o.txn with
    | .store _ _ => true
    | _ => false)

/-- The effect of a transaction that its peer performs, on the peer's bytes; a sector of an RSTO enters WSIG as it lands
(R247, R307, R310 to R312). -/
def State.landTxn (s : State) (o : OutTxn) (old : Word) : State :=
  let at_ (a : BitVec 48) : Place := { space := .peer, owner := o.dst, addr := a.toNat }
  let s1 : State := { s with fabric := { s.fabric with out := s.fabric.out.map (fun (q : OutTxn) =>
    if q.dst = o.dst ∧ q.psn = o.psn then { q with landed := true } else q) } }
  match o.txn with
  | .store a bs => (s1.performSeg (at_ a) bs).onKept o.id (fun q => { q with wsig := q.wsig ||| sigRange o.va bs.length })
  | .faa a x => s1.performSeg (at_ a) (toBytes 8 (old + x).toNat)
  | .flag a v => s1.performSeg (at_ a) (toBytes 8 v.toNat)

/-- Has the result word of an RFAA come that is still to be written (R311). -/
def Cmd.hasOld (c : Cmd) : Bool := c.started && !c.isColl && !c.ended && c.stopped.isNone && !c.out.isEmpty

/-- Is an RFAA's result in the scratchpad. -/
def Cmd.oldSp (c : Cmd) : Bool :=
  match c.op with
  | .rfaa a => decide (a.f 0 1 = 1)
  | _ => false

/-- Have the stores before an RFAA to the home of its result been performed (R241). -/
def State.oldClear (s : State) (c : Cmd) : Bool := s.storesClear c (s.dstHomes c (some false) c.oldSp c.sa 8)

/-- The result word of an RFAA written, before its QC entry lands (R311). -/
def State.putOld (s : State) (c : Cmd) : Chk State :=
  (s.putAll c (some false) c.oldSp c.out).map (fun s1 => s1.settleFabric { c with out := [] })

/-- The STERR notice of a store that fails with a status, for a PEER store with its destination (R211, R295). -/
def State.sterr (s : State) (e : StoreEnt) (status dst : Nat) : State :=
  let rec_ := ((s.launchOf e.id.launch).map (fun l => l.recVa e.id.idx)).getD 0
  let t : TrapInfo := { cause := Cause.sterr, det := status, ipc := e.addr, addr := e.va, aux := dst }
  s.post { laneP := false, bytes := laneBytes false t s.coreNum e.lcore 8 (s.hdrOf e.id.launch) rec_, id := some e.id,
           open_ := false, cmd := none }

/-- A queued store leaves, and its releasing signature reaches its line (R246, R249). -/
def State.closeStore (s : State) (e : StoreEnt) : State :=
  let s1 := s.onCore (fun k => { k with storeQ := k.storeQ.filter (fun q => decide (¬ (q.seq = e.seq ∧ q.id = e.id))) })
  match e.rel with
  | some (sig, new) => if e.failed then s1 else { s1 with mem := s1.mem.release e.first sig new }
  | none => s1

/-- The bytes of a peer store written, all of them with its last acknowledgement, and none where one of its ranges was refused
(R211, R237). -/
def State.landStore (s : State) (e : StoreEnt) : State :=
  if e.failed then s
  else (e.segs.filter (fun g => decide (g.1.space = .peer))).foldl (fun s g => s.performCh (decide (e.ch = 1)) g.1 g.2) s

/-- A transaction of a queued store has ended with a status: a failure is reported once, and its PEER bytes are performed with
its last acknowledgement (R211, R237, R307). What it writes elsewhere may still be queued. -/
def State.settleStore (s : State) (o : OutTxn) (seq status : Nat) : State :=
  match s.core.storeQ.find? (fun q => decide (q.seq = seq ∧ q.id = o.id)) with
  | none => s
  | some e =>
    let s1 := if status ≠ 0 ∧ !e.failed then s.sterr e status o.dst else s
    let e1 := { e with sent := e.sent - 1, failed := e.failed || decide (status ≠ 0) }
    let rest := e1.segs.filter (fun g => decide (g.1.space ≠ .peer))
    let put (s : State) (e1 : StoreEnt) : State :=
      s.onCore (fun k => { k with storeQ := k.storeQ.map (fun q => if q.seq = seq ∧ q.id = o.id then e1 else q) })
    if e1.sent ≠ 0 then put s1 e1
    else if rest = [] then (s1.landStore e1).closeStore e1
    else put (s1.landStore e1) { e1 with segs := rest }

/-- A transaction of a command has ended with a status; the command reports once its last has, an RFAA once its result is
written too (R222, R310, R311, R314). -/
def State.settleCmd (s : State) (o : OutTxn) (seq status : Nat) (old : Word) : State :=
  match s.core.fabric.find? (fun c => decide (c.seq = seq ∧ c.id = o.id)) with
  | none => s
  | some c =>
    s.settleFabric
      { c with done := c.done + 1,
               out := if decide (status = 0) && o.isFaa then [(c.sa, toBytes 8 old.toNat)] else c.out, status := if c.status = 0 then status else c.status,
               faddr := if c.status = 0 ∧ status ≠ 0 then o.va else c.faddr,
               wrote := if status = 0 then c.wrote + txnSize o.txn else c.wrote }

/-- A transaction has ended with a status. -/
def State.settleTxn (s : State) (o : OutTxn) (status : Nat) (old : Word) : State :=
  s.withCore o.core (fun s =>
    match o.store, o.cmd with
    | some seq, _ => s.settleStore o seq status
    | none, some seq => s.settleCmd o seq status old
    | none, none => s)

/-- The n-th outstanding transaction removed. -/
def State.dropTxn (s : State) (n : Nat) : State := { s with fabric := { s.fabric with out := s.fabric.out.eraseIdx n } }

/-! ### Routes (R306) -/

/-- A route entry. -/
def State.route (s : State) (dst : Nat) : Nat := ofBytes (s.mem.dev.readN (s.fabric.rtbase.toNat % 2 ^ 48 + 4 * dst) 4)

/-- What reading a route entry does beside. -/
def State.noteRoute (s : State) (dst : Nat) : State := s.noteDev (s.fabric.rtbase.toNat % 2 ^ 48 + 4 * dst) 4

/-- The valid links of a route, primary first. -/
def routeLinks (r : Nat) : List Nat :=
  (if bits r 8 1 = 1 then [bits r 0 4] else []) ++ (if bits r 9 1 = 1 then [bits r 4 4] else [])

/-- STATE of a link. -/
def State.linkState (s : State) (n : Nat) : Nat := ((s.fabric.links.toList[n]?).map (fun l => l.state.toNat)).getD 0

/-- A flit of a link: sequence number, type, acknowledged sequence number and payload, with its CRC (R302). -/
def flitBody (seq : Nat) (type : Nat) (ack : Nat) (payload : BitVec 1920) : BitVec 1984 :=
  payload ++ (0 : BitVec 8) ++ BitVec.ofNat 24 ack ++ BitVec.ofNat 8 type ++ BitVec.ofNat 24 seq

/-- CRC-64 with the ECMA-182 polynomial over bytes, the most significant bit of each first (R302; log 12). -/
def crc64 (bs : List Byte) : Word :=
  bs.foldl (fun c b => (List.range 8).foldl (fun c i =>
    let top := c.getLsbD 63 ^^ b.getLsbD (7 - i)
    (c <<< 1) ^^^ (if top then 0x42F0E1EBA9EA3693 else 0)) c) 0

/-- A body with its CRC. -/
def flitOf (body : BitVec 1984) : BitVec 2048 := (crc64 (bvBytes 248 body)).append body

/-- A link changed. -/
def State.onLink (s : State) (n : Nat) (f : Link → Link) : State :=
  if h : n < 12 then { s with fabric := { s.fabric with links := s.fabric.links.set n (f s.fabric.links[n]) } } else s

/-- A data flit joins a link's replay buffer and goes out (R303). -/
def State.sendPayload (s : State) (n : Nat) (payload : BitVec 1920) : State :=
  s.onLink n (fun l =>
    let fl := flitOf (flitBody l.nextSeq.toNat 0 l.expect.toNat payload)
    { l with nextSeq := l.nextSeq + 1, buffer := l.buffer ++ [fl], outbound := l.outbound ++ [fl] })

/-- The payload of a transaction or of its acknowledgement: the pair fields of R307, source, destination and PSN, at its first
8 bytes (R302; log 12). The framing of the rest is not architectural. -/
def State.payloadOf (s : State) (dst psn : Nat) : BitVec 1920 :=
  BitVec.ofNat 1920 (ofBytes (toBytes 2 s.fabric.devnum.toNat ++ toBytes 2 dst ++ toBytes 4 psn ++
    (List.range 232).map (Config.payloadByte s.tick)))

/-- A transaction, or the acknowledgement of one, goes out on a link. -/
def State.sendFlit (s : State) (n dst psn : Nat) : State := (s.sendPayload n (s.payloadOf dst psn)).ticked

/-- Is a replay buffer full (R303). -/
def State.linkFull (s : State) (n : Nat) : Bool :=
  decide (4096 ≤ ((s.fabric.links.toList[n]?).map (fun l => l.buffer.length)).getD 0)

/-- The outcome of a route: a link that is up, a wait, or status 9 (R306). A transaction ends with status 9 only once
no older one of its pair is outstanding, so that the entries of a pair land in order (R349). -/
def State.transmit (s : State) (n : Nat) (o : OutTxn) : Option State :=
  let ls := routeLinks (s.route o.dst)
  match ls.find? (fun l => decide (s.linkState l = 2)) with
  | some l =>
    if s.linkFull l then none
    else some ({ s with fabric := { s.fabric with out := s.fabric.out.set n { o with sent := true } } }.noteRoute o.dst |>.sendFlit l o.dst o.psn)
  | none =>
    if ls.any (fun l => decide (s.linkState l = 3)) || (s.fabric.out.take n).any (fun q => decide (q.dst = o.dst)) then none
    else some (((s.dropTxn n).noteRoute o.dst).settleTxn o 9 0)

/-- The destination that a payload names (R307; log 12). -/
def payloadDst (p : BitVec 1920) : Nat := (p.extractLsb' 16 16).toNat

/-- The first payload to forward leaves by this device's own entry for its destination, on a link that is up; without a
route it goes no further, and its source re-sends (R306, R307). -/
def State.forward (s : State) : Option State :=
  match s.fabric.transit with
  | [] => none
  | p :: ps =>
    let ls := routeLinks (s.route (payloadDst p))
    let rest := { s with fabric := { s.fabric with transit := ps } }
    match ls.find? (fun l => decide (s.linkState l = 2)) with
    | some l => if s.linkFull l then none else some ((rest.noteRoute (payloadDst p)).sendPayload l p)
    | none => if ls.any (fun l => decide (s.linkState l = 3)) then none else some (rest.noteRoute (payloadDst p))

/-- The first acknowledgement to send leaves on its source's route; without one it is lost, and its source re-sends (R306,
R307). -/
def State.sendAck (s : State) : Option State :=
  match s.fabric.ackOut with
  | [] => none
  | (src, psn) :: as =>
    let ls := routeLinks (s.route src)
    let rest := { s with fabric := { s.fabric with ackOut := as } }
    match ls.find? (fun l => decide (s.linkState l = 2)) with
    | some l => if s.linkFull l then none else some ((rest.noteRoute src).sendFlit l src psn)
    | none => if ls.any (fun l => decide (s.linkState l = 3)) then none else some (rest.noteRoute src)

/-! ### Acknowledgements and time-outs -/

/-- An acknowledged transaction, which has landed where it was to, ends with a status; those of a queued store land together
(R211). -/
def State.ackOne (s : State) (o : OutTxn) (status : Nat) (old : Word) : State :=
  ({ s with fabric := { s.fabric with out := s.fabric.out.filter (fun (q : OutTxn) =>
    decide (¬ (q.dst = o.dst ∧ q.psn = o.psn))) } }).settleTxn o status old

/-- May a transaction land before those of its pair in a list: a sector of an RSTO before all but a store of the queue, any
other before none (R310, R312). -/
def OutTxn.mayLand (o : OutTxn) (before : List OutTxn) : Bool :=
  before.isEmpty || (o.isRsto && before.all (fun q => q.store.isNone))

/-- The order in which transactions of a pair land at the peer: any that R310 and R312 leave, which free values pick. -/
def landOrder (pick : Nat → Nat) : Nat → List OutTxn → List OutTxn
  | 0, l => l
  | fuel + 1, l =>
    match l.filter (fun o => o.mayLand (l.takeWhile (fun q => decide (q ≠ o)))) with
    | [] => l
    | a :: as =>
      let o := (a :: as).getD (pick fuel % (as.length + 1)) a
      o :: landOrder pick fuel (l.erase o)

/-- The transactions of a pair that land with an acknowledgement of those in `batch`: these, and sectors of later RSTO that
were sent, which may land before they are acknowledged (R310; log 27). -/
def landBatch (tick : Nat) (batch later : List OutTxn) : List OutTxn :=
  batch.filter (fun o => o.store.isNone && !o.landed) ++
    (later.takeWhile (fun o => o.store.isNone)).filter (fun o => o.sent && o.isRsto && !o.landed && Config.landsEarly tick o.psn)

/-- PAIR_ACK: an outstanding transaction of a pair is acknowledged. The destination acknowledges a PSN once every lower one
of the pair is performed, so that the older ones count as acknowledged with it, but not past an RFAA, whose old value comes
with its own acknowledgement (R307, R308, R311; log 27). -/
def State.pairAck (s : State) (dst psn status : Nat) (old : Word) : Option State :=
  let pair := s.fabric.out.filter (fun o => decide (o.dst = dst))
  let older := pair.takeWhile (fun o => decide (o.psn ≠ psn))
  match pair.drop older.length with
  | [] => none
  | o :: later =>
    if older.any OutTxn.isFaa || !decide (status = 0 ∨ status = 10) || (o.landed && decide (status = 10)) then none
    else
      let s1 := { s with fabric := { s.fabric with out := s.fabric.out.map (fun (q : OutTxn) =>
        if q.dst = dst then { q with resends := 0 } else q) } }
      let batch := if status = 0 then older ++ [o] else older
      let lands := landBatch s.tick batch later
      let s2 := (landOrder (Config.landPick s.tick) lands.length lands).foldl (fun s q => s.landTxn q old) s1
      some ((older.foldl (fun s q => s.ackOne q 0 0) s2).ackOne o status old)

/-- Every outstanding transaction of a pair ends with status 12. -/
def State.endPair (s : State) (dst : Nat) : State :=
  let gone := s.fabric.out.filter (fun o => decide (o.dst = dst))
  let s1 := { s with fabric := { s.fabric with out := s.fabric.out.filter (fun o => decide (o.dst ≠ dst)) } }
  gone.foldl (fun s o => s.settleTxn o 12 0) s1

/-- PAIR_RESEND_TIMEOUT: a pair's unacknowledged transactions are sent again, the oldest first (`routeSend`), or end after 8
re-sends (R307). -/
def State.pairResend (s : State) (dst : Nat) : Option State :=
  match s.fabric.out.find? (fun o => decide (o.dst = dst ∧ o.sent)) with
  | none => none
  | some o =>
    if 8 ≤ o.resends then some (s.endPair dst)
    else some { s with fabric := { s.fabric with out := s.fabric.out.map (fun (q : OutTxn) =>
      if q.dst = dst then { q with sent := false, resends := q.resends + 1 } else q) } }

/-! ### The destination (R307, R308, R311 to R313) -/

/-- The entries of the inbound window table: base and length in bytes (R308). -/
def State.windows (s : State) : List (Nat × Nat) :=
  (List.range 16).map (fun i =>
    let w := ofBytes (s.mem.dev.readN (s.fabric.inbtb.toNat % 2 ^ 48 + 8 * i) 8)
    (bits w 16 32 * 65536, bits w 48 16 * 65536))

/-- Does a range lie inside one window. -/
def State.inWindow (s : State) (a n : Nat) : Bool :=
  s.windows.any (fun w => decide (w.2 ≠ 0 ∧ w.1 ≤ a ∧ a + n ≤ w.1 + w.2))

/-- Address of a transaction. -/
def txnAddr : Txn → Nat
  | .store a _ => a.toNat
  | .faa a _ => a.toNat
  | .flag a _ => a.toNat

/-- The word of DEV that an RFAA adds to; one that the stack cannot deliver is a free value (R260; log 27). -/
def State.devWord (s : State) (a : Nat) : Word :=
  if hwBad s.mem (devPlace a) 8 then Config.lostWord s.tick else BitVec.ofNat 64 (ofBytes (s.mem.dev.readN a 8))

/-- Is a PSN below another, modulo 2^32 (R307). -/
def psnBelow (a b : Nat) : Bool := decide (a ≠ b ∧ (b + 2 ^ 32 - a % 2 ^ 32) % 2 ^ 32 < 2 ^ 31)

/-- A replacing release of all ones at a line (R313). -/
def State.releaseAll (s : State) (a : Nat) : State :=
  { s with mem := s.mem.release (devPlace a) (BitVec.allOnes 256) true }

/-- RFAA recorded for its source, the last 16 of each kept (R311). -/
def recordFaa (rs : List (Nat × Nat × Word)) (src psn : Nat) (old : Word) : List (Nat × Nat × Word) :=
  let mine := rs.filter (fun r => decide (r.1 = src))
  (if mine.length < 16 then rs else match mine with
    | m :: _ => rs.erase m
    | [] => rs) ++ [(src, psn, old)]

/-- Acknowledgements leave once every lower transaction of their pair is performed (R307): they are answered, and a payload
of each goes out to its source (R351). -/
def State.releaseAcks (s : State) (src : Nat) : State :=
  let f := s.fabric
  let limit := (f.flags.find? (fun q => decide (q.1 = src))).map (·.2.1)
  let ready (q : Nat × Nat × Nat × Word) : Bool := decide (q.1 = src) && (match limit with
    | some l => psnBelow q.2.1 l
    | none => true)
  let out := f.unacked.filter ready
  { s with fabric := { f with acks := f.acks ++ out, ackOut := f.ackOut ++ out.map (fun q => (q.1, q.2.1)),
                              unacked := f.unacked.filter (fun q => !ready q) } }

/-- An acknowledgement to send. -/
def State.oweAck (s : State) (src psn status : Nat) (old : Word) : State :=
  { s with fabric := { s.fabric with unacked := s.fabric.unacked ++ [(src, psn, status, old)] } }

/-- An accepted transaction inside a window, handed to its home slice. -/
def State.acceptTxn (s : State) (src psn : Nat) (t : Txn) : State :=
  match t with
  | .store a bs => (s.performSeg (devPlace a.toNat) bs).oweAck src psn 0 0
  | .faa a x =>
    let old := s.devWord a.toNat
    let s1 := ((s.noteDev a.toNat 8).performSeg (devPlace a.toNat) (toBytes 8 (old + x).toNat)).releaseAll a.toNat
    { s1 with fabric := { s1.fabric with faa := recordFaa s1.fabric.faa src psn old } }.oweAck src psn 0 old |>.ticked
  | .flag a v =>
    { s with fabric := { s.fabric with flags := s.fabric.flags ++ [(src, psn, a.toNat, v)] } }.oweAck src psn 0 0

/-- PAIR_RECEIVE: a transaction arrives from a source (R307, R308); a device that does not serve takes none, and one in P2 wakes
(R20, R333). -/
def State.pairReceive (s0 : State) (src psn : Nat) (t : Txn) : State :=
  s0.ifServes <|
  let s := s0.wake
  let expected := s.fabric.expect.getD src 0
  if psn = expected then
    let s1 := ({ s with fabric := { s.fabric with expect := s.fabric.expect.put src ((psn + 1) % 2 ^ 32) } } : State).writePair src
    let s2 := s1.noteDev (s.fabric.inbtb.toNat % 2 ^ 48) 128
    (if s.inWindow (txnAddr t) (txnSize t) then s2.acceptTxn src psn t else s2.oweAck src psn 10 0).releaseAcks src
  else if psnBelow psn expected then
    let old := ((s.fabric.faa.find? (fun r => decide (r.1 = src ∧ r.2.1 = psn))).map (·.2.2)).getD 0
    let status := (((s.fabric.acks ++ s.fabric.unacked).find? (fun q => decide (q.1 = src ∧ q.2.1 = psn))).map
      (·.2.2.1)).getD 0
    (s.oweAck src psn status old).releaseAcks src
  else s

/-- RFEN_PERFORM: the oldest held flag of a source is performed, every lower transaction being performed (R312, R313). -/
def State.rfenPerform (s : State) (src : Nat) : Option State :=
  match s.fabric.flags.find? (fun q => decide (q.1 = src)) with
  | none => none
  | some q =>
    let s1 := (s.performSeg (devPlace q.2.2.1) (toBytes 8 q.2.2.2.toNat)).releaseAll q.2.2.1
    some ({ s1 with fabric := { s1.fabric with flags := s1.fabric.flags.erase q } }.releaseAcks src)

end Sys2Proof.Machine
end

