-- ==== Sys2Proof/Machine/Coll.lean ====
section
/-! DEFINITION. Collectives (R309, R315 to R318), and the start of the fabric queue's commands (R309). -/

namespace Sys2Proof.Machine

/-- A collective descriptor (R315). -/
structure Desc where
  memb : Word
  n : Nat
  rank : Nat
  cid : Nat
  fmt : Nat
  op : Nat
  flags : Nat
  trows : Nat
  tcols : Nat
  count : Nat
  arrays : List Nat
  rest : Bool
  deriving DecidableEq, Repr

/-- A descriptor read from its bytes; `rest` says that the reserved bytes are zero. -/
def descOf (b : List Byte) : Desc :=
  { memb := BitVec.ofNat 64 (tsrN b 0 8), n := tsrN b 8 4, rank := tsrN b 12 4, cid := tsrN b 16 4, fmt := tsrN b 20 1, op := tsrN b 21 1,
    flags := tsrN b 22 1, trows := tsrN b 28 2, tcols := tsrN b 30 2, count := tsrN b 32 8,
    arrays := (List.range 4).map (fun i => tsrN b (40 + 8 * i) 8), rest := tsrN b 23 5 = 0 && tsrN b 72 56 = 0 }

/-- Thatched tiles. -/
def Desc.th (d : Desc) : Bool := decide (bits d.flags 0 1 = 1)

/-- Send buffer in the scratchpad. -/
def Desc.ssp (d : Desc) : Bool := decide (bits d.flags 1 1 = 1)

/-- Receive buffer in the scratchpad. -/
def Desc.dsp (d : Desc) : Bool := decide (bits d.flags 2 1 = 1)

/-- Element type. -/
def Desc.f (d : Desc) : Fmt := etFmt d.fmt

/-- Does a descriptor keep the limits of R315; `v` is the variant. -/
def Desc.ok (d : Desc) (v : Nat) : Bool :=
  decide (2 ≤ d.n ∧ d.n ≤ 65536 ∧ d.rank < d.n) && decide (d.fmt ∈ [0, 1, 2, 9]) &&
    (if v = 0 ∨ v = 2 then decide (d.op ≤ 2) else decide (d.op = 0)) && decide (d.flags < 8) && d.rest &&
    (if d.th then decide (1 ≤ d.trows ∧ d.trows ≤ 16 ∧ 1 ≤ d.tcols ∧ d.tcols ≤ 96) else decide (d.trows = 0 ∧ d.tcols = 0)) &&
    decide (1 ≤ d.count) && d.arrays.all (fun a => if v = 3 then decide (a % 128 = 0) else decide (a = 0))

/-- Bytes of an element or tile. -/
def Desc.unit (d : Desc) : Nat := if d.th then (thLayout d.f.bits d.trows d.tcols).size else d.f.bits / 8

/-- Bytes of a block. -/
def Desc.block (d : Desc) : Nat := d.count * d.unit

/-- The variant of a command. -/
def Cmd.variant (c : Cmd) : Nat := (collVariant c.op).getD 0

/-! ### Issue -/

/-- COLL's checks, its QX reservation, and the command (R221, R287, R309, R318). -/
def collSlot (op : Instr) (a : CArgs) (e : Env) : SlotOut :=
  .bind (e.c.ea a.sa) fun sa =>
  .bind (e.c.ea a.da) fun da =>
  let xl := e.c.rx a.xl
  let push := decide (a.tok ≠ 0)
  if !canonical xl || decide (xl.toNat % 128 ≠ 0) then .fault Cause.cpyarg 0 xl
  else if e.s.runOf.ss then .fault Cause.ssviol 0 xl
  else if push && decide (32 + (e.named.filter (· = 3)).length < e.c.qx.length + e.c.qxRes + 1) then .wait
  else
    let c := e.cmd op a sa da push
    .ok (fun s => (s.onCore (fun k => { k with fabric := k.fabric ++ [{ c with engine := 0 }] })).onCtx
      (fun d => { d with qxRes := if push then d.qxRes + 1 else d.qxRes }))

/-- `coll.ar` (R316). -/
def slotCollAr (a : CArgs) (e : Env) : SlotOut :=
  collSlot (.collAr a) a e

/-- `coll.ag` (R315). -/
def slotCollAg (a : CArgs) (e : Env) : SlotOut :=
  collSlot (.collAg a) a e

/-- `coll.rs` (R316). -/
def slotCollRs (a : CArgs) (e : Env) : SlotOut :=
  collSlot (.collRs a) a e

/-- `coll.a2a` (R315). -/
def slotCollA2a (a : CArgs) (e : Env) : SlotOut :=
  collSlot (.collA2a a) a e

/-! ### Completion -/

/-- The QX entry of a collective; `faddr` holds the tiles corrected and `pos` the rank (R318). -/
def qxEntry (c : Cmd) (fixed rank : Nat) : BitVec 512 :=
  BitVec.ofNat 512 (ofBytes (toBytes 8 c.addr.toNat ++ toBytes 1 0x13 ++ toBytes 1 c.tok ++ toBytes 1 c.variant
    ++ toBytes 1 c.status ++ toBytes 4 (min count32 c.sats) ++ toBytes 8 c.wrote ++ toBytes 4 fixed ++ toBytes 2 rank))

/-- No rank. -/
def noRank : Nat := 0xFFFF

/-- A collective leaves the fabric queue with its QX entry, its token and, for token 0, its notice (R222, R224, R318). -/
def State.endColl (s : State) (c : Cmd) (fixed rank : Nat) : State :=
  let s1 := s.onCore (fun k => { k with fabric := k.fabric.filter (fun q => decide (¬ (q.seq = c.seq ∧ q.id = c.id))) })
  let s2 := s1.markToken c.id c.tok
  if c.tok = 0 then s2.reportCmd c
  else if s2.core.runs c.id then
    s2.onCtx (fun d => { d with qx := d.qx ++ [qxEntry c fixed rank], qxRes := if c.push then d.qxRes - 1 else d.qxRes })
  else s2

/-- Bytes of a buffer of the command. -/
def sendBytes (s : State) (c : Cmd) (sp : Bool) (off n : Nat) : Chk (List Byte) :=
  if sp then
    if spmIn c.bank0 c.banks (c.sa.toNat + off) n then .ok (spmBytes s c.lcore (c.sa.toNat + off) n)
    else failAt Cause.spmrng (c.sa + BitVec.ofNat 64 off)
  else ioRead s c.ctx (some false) (c.sa + BitVec.ofNat 64 off) n

/-- Word `i` of an array of the descriptor. -/
def descWord (s : State) (c : Cmd) (base i : Nat) : Chk Nat := do
  let b ← ioRead s c.ctx (some false) (BitVec.ofNat 64 (base + 8 * i)) 8
  .ok (ofBytes b)

/-- The parts of the send buffer, by rank where the variant has one for each: offsets and lengths (R315). -/
def sendRanges (s : State) (c : Cmd) (d : Desc) : Chk (List (Nat × Nat)) :=
  match c.variant with
  | 2 => .ok ((List.range d.n).map (fun r => (r * d.block, d.block)))
  | 3 => (List.range d.n).mapM (fun r => do
    let n ← descWord s c (d.arrays.getD 0 0) r
    let o ← descWord s c (d.arrays.getD 1 0) r
    .ok (o, n))
  | _ => .ok [(0, d.block)]

/-- Does a part of the send buffer lie at PEER (R309). -/
def sendsPeer (s : State) (c : Cmd) (d : Desc) (rs : List (Nat × Nat)) : Chk Bool :=
  if d.ssp then .ok false
  else (rs.mapM (fun q => fromPeer s c (c.sa + BitVec.ofNat 64 q.1) q.2)).map (fun l => l.any id)

/-- This device's contribution to itself among the parts of its send buffer (R315). -/
def ownBlock (c : Cmd) (d : Desc) (parts : List (List Byte)) : List Byte :=
  if c.variant = 2 ∨ c.variant = 3 then parts.getD d.rank [] else parts.headD []

/-- What a collective reads beside its send buffer: its descriptor, its own entry of the member list, and its arrays (R315). -/
def Desc.reads (d : Desc) (c : Cmd) : List (Word × Nat) :=
  (c.xl, 128) :: (d.memb + BitVec.ofNat 64 (2 * d.rank), 2) ::
    (if c.variant = 3 then d.arrays.map (fun a => (BitVec.ofNat 64 a, 8 * d.n)) else [])

/-- A collective starts: its descriptor is read and checked, and its send buffer read; `out` holds this device's own block, then
the blocks for the ranks, which the members' own steps take in (R309, R315, R317; log 31). -/
def State.startColl (s : State) (c : Cmd) : Chk State := do
  let b ← ioRead s c.ctx (some false) c.xl 128
  let d := descOf b
  if !d.ok c.variant then .ok (s.endColl { c with status := 11 } 0 noRank)
  else do
    let m ← ioRead s c.ctx (some false) (d.memb + BitVec.ofNat 64 (2 * d.rank)) 2
    if ofBytes m ≠ bits s.fabric.devnum.toNat 0 16 then .ok (s.endColl { c with status := 11 } 0 noRank)
    else do
      let rs ← sendRanges s c d
      if ← sendsPeer s c d rs then .ok (s.endColl { c with status := 8 } 0 noRank)
      else do
        let parts ← rs.mapM (fun q => sendBytes s c d.ssp q.1 q.2)
        let read := if d.ssp then [] else rs.map (fun q => (c.sa + BitVec.ofNat 64 q.1, q.2))
        .ok (((d.reads c ++ read).foldl (fun s q => s.noteIo c.ctx (some false) q.1 q.2) s).setFabric
          { c with started := true, tsr := some b, out := (0, ownBlock c d parts) :: parts.zipIdx.map (fun q => (BitVec.ofNat 64 q.2, q.1)) })

/-! ### Reduction (R316, R317) -/

/-- A reduction of values in rank order. -/
def reduceVals (op : Nat) (int : Bool) : Val × Flags → List Val → Val × Flags
  | acc, [] => acc
  | (acc, f), v :: vs =>
    if op = 0 then
      if int then reduceVals op int (acc.add v, f) vs
      else
        let r := roundF .fp32 0 (acc.add v) .rne 0
        reduceVals op int (fp32v r.1, f.join r.2) vs
    else reduceVals op int (if op = 1 then valMax acc v else valMin acc v, f) vs

/-- One reduced element: its code and flags. -/
def reduceEl (d : Desc) (codes : List Nat) : Nat × Flags :=
  match codes.map (d.f.value 0) with
  | [] => (0, .none)
  | v :: vs =>
    let r := reduceVals d.op (d.f == .int32) (v, .none) vs
    let o := roundF d.f 0 r.1 .rne 0
    (o.1, r.2.join o.2)

/-- What a unit of a block becomes: bytes, flags, tiles corrected, and whether a tile could not be. -/
structure CollUnit where
  bytes : List Byte
  fl : Flags := .none
  fixed : Nat := 0
  bad : Bool := false
  deriving DecidableEq, Repr

/-- A tile verified, corrected where it can be; `none` where it cannot (R164). -/
def collTile (d : Desc) (bs : List Byte) : Option (ThImage × Bool) :=
  (thParse d.f.bits d.trows d.tcols bs).verified d.f 0 (fun _ => noScale) d.tcols

/-- Unit `u` of the reduction of blocks in rank order. -/
def reduceUnit (d : Desc) (blocks : List (List Byte)) (u : Nat) : CollUnit :=
  let parts := blocks.map (fun b => (b.drop (u * d.unit)).take d.unit)
  let w := d.f.bits
  if d.th then
    let tiles := parts.filterMap (collTile d)
    match parts.find? (fun p => (collTile d p).isNone) with
    | some p => { bytes := p, bad := true, fixed := (tiles.filter (·.2)).length }
    | none =>
      let els := (List.range d.trows).map (fun i => (List.range d.tcols).map (fun j =>
        reduceEl d (tiles.map (fun t => (t.1.codes.getD i []).getD j 0))))
      let codes := els.map (fun r => r.map (·.1))
      let sums := flash d.tcols (codes.map (decodeRow d.f 0 noScale))
      { bytes := thBuild w d.trows d.tcols { codes := codes, crow := sums.1, ccol := sums.2.1, corner := sums.2.2 },
        fl := els.flatten.foldl (fun f q => f.join q.2) Flags.none, fixed := (tiles.filter (·.2)).length }
  else
    let r := reduceEl d (parts.map ofBytes)
    { bytes := toBytes (w / 8) r.1, fl := r.2 }

/-- A received tile carried through, corrected where it can be (R165, R317). -/
def carryUnit (d : Desc) (b : List Byte) : CollUnit :=
  if d.th ∧ b.length = d.unit then
    match collTile d b with
    | some (im, fixed) => { bytes := thBuild d.f.bits d.trows d.tcols im, fixed := fixed.toNat }
    | none => { bytes := b, bad := true }
  else { bytes := b }

/-- Units in order up to the first that could not be corrected. -/
def upToBad : List CollUnit → List CollUnit
  | [] => []
  | u :: us => if u.bad then [u] else u :: upToBad us

/-- What a collective writes: offsets and units (R315 to R317). -/
def collOut (s : State) (c : Cmd) (d : Desc) (blocks : List (List Byte)) : Chk (List (Nat × CollUnit)) :=
  let unitsOf (b : List Byte) : List CollUnit := (chunks d.unit b.length b).map (carryUnit d)
  let place (o : Nat) (us : List CollUnit) : List (Nat × CollUnit) := us.zipIdx.map (fun u => (o + u.2 * d.unit, u.1))
  match c.variant with
  | 1 => .ok (blocks.zipIdx.flatMap (fun b => place (b.2 * d.block) (unitsOf b.1)))
  | 3 => (blocks.zipIdx.mapM (fun b => (descWord s c (d.arrays.getD 3 0) b.2).map (fun o => place o (unitsOf b.1)))).map
      List.flatten
  | _ => .ok (place 0 ((List.range d.count).map (reduceUnit d blocks)))

/-- The first rank whose block has not the agreed length, and the blocks that may be written (R315). -/
def lengthsBad (s : State) (c : Cmd) (d : Desc) (blocks : List (List Byte)) : Chk (List Nat) :=
  if c.variant = 3 then
    (blocks.zipIdx.mapM (fun b => (descWord s c (d.arrays.getD 2 0) b.2).map (fun n => (b.2, decide (n ≠ b.1.length))))).map
      (fun l => (l.filter (·.2)).map (·.1))
  else .ok ((blocks.zipIdx.filter (fun b => decide (b.1.length ≠ d.block))).map (·.2))

/-- Sectors of the receive buffer written in turn: the bytes written, and the fault at which it stopped (R222). -/
def State.putUnits (s : State) (c : Cmd) (sp : Bool) (n : Nat) : List (Word × List Byte) → State × Nat × Option TrapInfo
  | [] => (s, n, none)
  | (a, bs) :: ws =>
    match s.putDst c (some false) sp a bs with
    | .ok s1 => s1.putUnits c sp (n + bs.length) ws
    | .error t => (s, n, some t)

/-- The unit of a receive buffer in the scratchpad that leaves the kernel's banks (R206, R222). -/
def unitOut (c : Cmd) (d : Desc) (put : List (Nat × CollUnit)) : Option Word :=
  if d.dsp then (put.map (fun q => (c.da + BitVec.ofNat 64 q.1, q.2.bytes.length))).find?
      (fun q => !spmIn c.bank0 c.banks q.1.toNat q.2) |>.map (·.1)
  else none

/-- A fabric command that ends early: a collective reports at once, another once its transactions are acknowledged. -/
def State.endEarly (s : State) (c : Cmd) : State :=
  if c.isColl then s.endColl c 0 noRank else s.settleFabric { c with ended := true }

/-- A fault of a fabric command: a range outside the banks ends it with status 7. -/
def State.fabricFault (s : State) (c : Cmd) (t : TrapInfo) : State :=
  if t.cause = Cause.spmrng then s.endEarly { c with status := 7, faddr := t.addr }
  else
    let (s1, c1) := s.cmdFault c t
    if c1.ended then s1.endEarly c1 else s1.setFabric c1

/-- The course of a collective that every member has joined (R315 to R318). -/
def State.runColl (s : State) (c : Cmd) (d : Desc) (own : List Byte) (got : CollInput) : Chk State := do
  let blocks := got.blocks.set d.rank own
  match got.bad with
  | some r => .ok (s.endColl { c with status := 11 } 0 r)
  | none =>
    if blocks.length ≠ d.n then .ok (s.endColl { c with status := 11 } 0 noRank)
    else do
      let wrong ← lengthsBad s c d blocks
      if c.variant ≠ 3 ∧ wrong ≠ [] then .ok (s.endColl { c with status := 11 } 0 (wrong.headD noRank))
      else do
        let kept := blocks.zipIdx.map (fun b => if b.2 ∈ wrong then [] else b.1)
        let all ← collOut s c d kept
        let us := upToBad (all.map (·.2))
        let put := all.take us.length
        let fl := us.foldl (fun f u => f.join u.fl) Flags.none
        let fixed := us.foldl (fun n u => n + u.fixed) 0
        match unitOut c d put with
        | some a => failAt Cause.spmrng a
        | none =>
          match s.putUnits c d.dsp 0 (put.flatMap (fun q =>
              cutSectors (q.2.bytes.length + 1) (c.da + BitVec.ofNat 64 q.1).toNat q.2.bytes)) with
          | (s1, n, some t) => .ok (s1.fabricFault { c with wrote := n } t)
          | (s1, n, none) =>
            let status := if wrong ≠ [] then 11 else if us.any (·.bad) then 1 else 0
            .ok (((s1.countFixed fixed).engineRaise c fl).endColl { c with status := status, sats := fl.sats, wrote := n }
              fixed (wrong.headD noRank))

/-- The oldest started collective of the core, with its descriptor and own block. -/
def State.openColl (s : State) : Option (Cmd × Desc × List Byte) :=
  (s.core.fabric.find? (fun c => c.isColl && c.started && c.stopped.isNone && !c.ended)).bind (fun c =>
    c.tsr.map (fun b => (c, descOf b, (c.out.head?.map (·.2)).getD [])))

/-- The parts of the receive buffer: offsets and lengths (R315). -/
def recvRanges (s : State) (c : Cmd) (d : Desc) : Chk (List (Nat × Nat)) :=
  match c.variant with
  | 1 => .ok [(0, d.n * d.block)]
  | 3 => (List.range d.n).mapM (fun r => do
    let n ← descWord s c (d.arrays.getD 2 0) r
    let o ← descWord s c (d.arrays.getD 3 0) r
    .ok (o, n))
  | _ => .ok [(0, d.block)]

/-- Have the stores before a collective to the spaces of its receive buffer been performed (R241, R317). -/
def State.collClear (s : State) (c : Cmd) (d : Desc) : Bool :=
  match recvRanges s c d with
  | .ok rs => rs.all (fun q => s.storesClear c (s.dstHomes c (some false) d.dsp (c.da + BitVec.ofNat 64 q.1) q.2))
  | .error t => !t.isHold

/-- COLL_COMPLETE (R315 to R318). -/
def State.collComplete (s : State) (got : CollInput) : Option State :=
  s.openColl.bind (fun q =>
    if !s.collClear q.1 q.2.1 || !engineFree s then none
    else match s.runColl q.1 q.2.1 q.2.2 got with
      | .ok s' => some s'
      | .error t => t.unlessHold (s.fabricFault q.1 t))

/-- COLL_PEER_TIMEOUT: a member fails to join within 1 s (R314, R317). The receive buffer keeps its old bytes. -/
def State.collPeerTimeout (s : State) (rank : Nat) : Option State :=
  s.openColl.map (fun q => s.endColl { q.1 with status := 13 } 0 rank)

/-! ### The fabric queue -/

/-- The fabric command to serve: one that is over, where those before it have reported; else an RFAA whose result may be
written; else the first that has not started (R241, R309, R311, R349). -/
def State.nextFabric (s : State) : Option Cmd :=
  (s.core.fabric.find? (fun c => c.over && (c.isColl || !s.reportsAfter c))) <|>
    (s.core.fabric.find? (fun c => c.hasOld && s.oldClear c)) <|>
    (s.core.fabric.find? (fun c => !c.started && !c.ended))

/-- Is an earlier fabric command of the spar still to start on another core, where the spar committed it (R309, R312). -/
def State.startsAfter (s : State) (c : Cmd) : Bool :=
  s.others.any (fun k => k.fabric.any (fun q => decide (q.id = c.id ∧ q.seq < c.seq) && !q.started && !q.ended))

/-- The work on a fabric command that may go on: it starts, an RSTO sends its next sector, or an RFAA's result is written. -/
def State.workFabric (s : State) (c : Cmd) : Chk (Option State) :=
  if c.hasOld then (s.putOld c).map some
  else if s.startsAfter c then .ok none
  else match c.op with
    | .rsto _ => s.rstoStep c
    | .rfaa a => s.startRfaa c (decide (a.f 0 1 = 1))
    | .rfen _ => s.startRfen c
    | _ => if engineFree s then (s.startColl c).map some else .ok none

/-- The fabric queue serves its next command, in commit order (R309), or ends one that is over (R222). -/
def State.startFabric (s : State) : Option State :=
  match s.nextFabric with
  | none => none
  | some c =>
    if c.stopped.isSome then none
    else if c.over then some (s.endEarly c)
    else
      match s.workFabric c with
      | .ok o => o
      | .error t => t.unlessHold (s.fabricFault c t)

/-- ROUTE_SEND: the fabric queue serves its next command where it can, else a payload is forwarded or an acknowledgement leaves,
else the n-th outstanding transaction leaves on its route, none older of its pair waiting to leave (R306, R307, R309). -/
def State.routeSend (s : State) (n : Nat) : Option State :=
  match s.startFabric with
  | some s' => some s'
  | none => match s.forward <|> s.sendAck with
    | some s' => some s'
    | none => match s.fabric.out[n]? with
      | some o => if o.sent || (s.fabric.out.take n).any (fun q => decide (q.dst = o.dst) && !q.sent) then none else s.transmit n o
      | none => none

end Sys2Proof.Machine
end

