-- ==== Sys2Proof/Machine/LoadStore.lean ====
section
/-! DEFINITION. The load and store slots: scalars, atomics, tiles, gathered rows and the stash store (R210 to R216, R246,
R249). -/

namespace Sys2Proof

/-- MODE bits of a load- or store-slot form (R210). -/
def LArgs.md (a : LArgs) (lo w : Nat) : Nat := a.mode.toNat / 2 ^ lo % 2 ^ w

/-- SP: the access is to the scratchpad (R210). -/
def LArgs.sp (a : LArgs) : Bool := decide (a.md 0 1 = 1)

/-- STR: the access is strong (R210). -/
def LArgs.strong (a : LArgs) : Bool := decide (a.md 4 1 = 1)

/-- SCOPE: the agent scope of a strong access (R210). -/
def LArgs.scope (a : LArgs) : Nat := a.md 1 3

namespace Machine

/-- The effective address of a form, aligned to `n` bytes (R100, R211). -/
def Env.eaAligned (e : Env) (a : LArgs) (n : Nat) : Chk Word := do
  let ea ← e.c.ea a.ar
  if ea.toNat % n ≠ 0 then failAt Cause.malign ea else .ok ea

/-- The bundle waits until its accesses find as many request entries as they need: `n` for this slot, besides those that
the load slot of its bundle takes (R242). -/
def Env.withRequests (e : Env) (sp : Bool) (n : Nat) (k : SlotOut) : SlotOut :=
  if sp || requestsFree e.s (n + e.ldNeed) then k else .wait

/-- A load waits until the earlier stores of its core to its bytes are performed: it reads them at their home, as every agent
does (R238, R240). -/
def Env.afterOwn (e : Env) (ts : List (Target × Nat)) (k : SlotOut) : SlotOut :=
  if e.s.queueMeets (fun _ => true) ts then .wait else k

/-- Sectors of an access. -/
def sectorsOf (ea : Word) (n : Nat) : Nat := if n = 0 then 0 else (ea.toNat + n - 1) / 128 - ea.toNat / 128 + 1

/-- The update of the address register, and what reading does to the L2 and its read copies (R102, R238, R255). -/
def State.afterLoad (s : State) (a : LArgs) (va : Word) (ts : List (Target × Nat)) : State :=
  (s.readDone a.ch.toNat va ts).onCtx (fun c => c.stepA a.ar)

/-- An acquiring load collects its line's signature and arms the spar's monitor on its sector (R246, R249, R283). -/
def State.acquire (s : State) (ts : List (Target × Nat)) : State :=
  let s1 := s.onCtx (fun c => { c with kept := { c.kept with
    asig := (placesOf ts).foldl (fun g p => g ||| s.mem.collect p.1) c.kept.asig } })
  match placesOf ts with
  | (p, _) :: _ => { s1 with sched := { s1.sched with monitors := armMonitor s1.sched.monitors s.runOf.id p } }
  | [] => s1

/-- LD (R212, R246, R283). -/
def slotLd (a : LArgs) (e : Env) : SlotOut :=
  .bind (do let ea ← e.eaAligned a 8; let ts ← access e.s a.sp .read ea 8; .ok (ea, ts)) fun q =>
  e.afterOwn q.2 <| e.withRequests a.sp 1 <|
  let v := BitVec.ofNat 64 (ofBytes (e.s.loadPieces q.2))
  .ok (fun s =>
    let s1 := (s.onCtx (fun c => c.wx a.dat.xreg v)).afterLoad a q.1 q.2
    if a.strong then s1.acquire q.2 else s1)

/-- ST (R212, R246). -/
def slotSt (a : LArgs) (e : Env) : SlotOut :=
  .bind (do let ea ← e.eaAligned a 8; let ts ← access e.s a.sp .write ea 8; .ok (ea, ts)) fun q =>
  e.withRequests a.sp 1 <|
  .ok (fun s =>
    (s.queueStore e.s.core.pc [⟨q.1, q.2, toBytes 8 (e.c.rx a.dat.xreg).toNat⟩] a.strong a.sp a.scope a.ch.toNat).onCtx (fun c => c.stepA a.ar))

/-- May an atomic act now: no store of the core waits in its space, nor, for a strong one of a scope, in an implied space
(R239, R246). -/
def atomicReady (s : State) (sp : Space) (strong : Bool) (scope : Nat) : Bool :=
  !queuedIn s (fun q => decide (q = sp) || (strong && decide (q ∈ releaseSpaces scope)))

/-- What a strong atomic does to signatures: it collects, then releases RSIG with its mark (R246, R249). -/
def State.strongAtomic (s : State) (p : Place) : State :=
  let k := s.core.ctx.kept
  { s with mem := s.mem.release p k.rsig k.rsigNew }.onCtx (fun c =>
    { c with kept := { k with asig := k.asig ||| s.mem.collect p, rsig := 0, rsigNew := false } })

/-- An atomic: old and the register give the new value (R212). -/
def atomic (a : LArgs) (e : Env) (f : Word → Word → Word) : SlotOut :=
  .bind (do let ea ← e.eaAligned a 8; let ts ← access e.s a.sp .write ea 8; .ok (ea, ts)) fun q =>
  match placesOf q.2 with
  | [(p, _)] =>
    if p.space = .host ∨ p.space = .peer then .fault Cause.ascope 0 q.1
    else if hwBad e.s.mem p 8 then .fault Cause.hwerr 0 q.1
    else if !atomicReady e.s p.space a.strong a.scope || !(a.sp || requestsFree e.s (1 + e.ldNeed)) then .wait
    else
      let old := BitVec.ofNat 64 (ofBytes (e.s.mem.viewN p 8))
      let new := f old (e.c.rx a.dat.xreg)
      .ok (fun s =>
        let s0 := if a.strong then s.releaseLeft a.scope s.core.cmdSeq else s
        let s1 := ((s0.readDone a.ch.toNat q.1 q.2).performCh (decide (a.ch = 1)) p (toBytes 8 new.toNat)).onCtx (fun c =>
          ({ c with kept := { c.kept with wsig := if a.sp then c.kept.wsig else c.kept.wsig ||| sigRange q.1 8 } }.wx
            a.dat.xreg old).stepA a.ar)
        if a.strong then s1.strongAtomic p else s1)
  | _ => .fault Cause.ascope 0 q.1

/-- AADD (R212). -/
def slotAadd (a : LArgs) (e : Env) : SlotOut :=
  atomic a e (fun old x => old + x)

/-- ACAS: with old = Xn, memory takes Xn+1 (R212). -/
def slotAcas (a : LArgs) (e : Env) : SlotOut :=
  atomic a e (fun old x => if old = x then e.c.rx (a.dat.xreg + 1) else old)

/-- AXCH (R212). -/
def slotAxch (a : LArgs) (e : Env) : SlotOut :=
  atomic a e (fun _ x => x)

/-- AMAX (R212). -/
def slotAmax (a : LArgs) (e : Env) : SlotOut :=
  atomic a e (fun old x => if old.slt x then x else old)

/-- AMIN (R212). -/
def slotAmin (a : LArgs) (e : Env) : SlotOut :=
  atomic a e (fun old x => if x.slt old then x else old)

/-! ### Tiles (R213) -/

/-- FMT of TLD and TST (R210). -/
def tileFmt (a : LArgs) : Fmt :=
  match a.md 2 3 with
  | 0 => .fp32
  | 1 => .bf16
  | 2 => .fp16
  | 3 => .int8
  | _ => .int32

/-- The bytes of a tile's view, row by row. -/
def Ctx.viewBytes (c : Ctx) (t : Tile) : List Byte :=
  (List.range c.nr).flatMap (fun i => toBytes c.nb (tileField t (512 * i) (8 * c.nb)))

/-- The writes of view bytes on a tile. -/
def Ctx.viewWrites (c : Ctx) (bs : List Byte) : List FieldWr :=
  (List.range c.nr).map (fun i => ⟨512 * i, 8 * c.nb, ofBytes ((bs.drop (i * c.nb)).take c.nb)⟩)

/-- Tile writes of a load, unless NEG suppresses the write-back (R33, R210). -/
def Ctx.loadTile (c : Ctx) (a : LArgs) (ws : List FieldWr) : Ctx := if a.dat.neg then c else c.wt a.dat.tile ws

/-- The bytes of a tile access: the view, or the thatched image (R213). -/
def Env.tileBytes (e : Env) (a : LArgs) : Nat :=
  let w := (tileFmt a).bits
  if a.md 1 1 = 1 then (thLayout w e.c.nr (e.c.nc w)).size else e.c.nr * e.c.nb

/-- The address of a tile access, checked (R213). -/
def Env.tileEa (e : Env) (a : LArgs) : Chk Word := do
  let ea ← e.eaAligned a (if a.md 1 1 = 1 then 128 else 64)
  if a.md 1 1 = 1 ∧ e.c.nb % ((tileFmt a).bits / 8) ≠ 0 then failAt Cause.malign ea else .ok ea

/-- TLD (R213). -/
def slotTld (a : LArgs) (e : Env) : SlotOut :=
  let n := e.tileBytes a
  .bind (do let ea ← e.tileEa a; let ts ← access e.s a.sp .read ea n; .ok (ea, ts)) fun q =>
  e.afterOwn q.2 <| e.withRequests a.sp (sectorsOf q.1 n) <|
  let bs := e.s.loadPieces q.2
  if a.md 1 1 = 0 then
    .ok (fun s => (s.onCtx (fun c => c.loadTile a (e.c.viewWrites bs))).afterLoad a q.1 q.2)
  else
    let f := tileFmt a
    let w := f.bits
    match (thParse w e.c.nr (e.c.nc w) bs).verified f 0 (fun _ => noScale) (e.c.nc w) with
    | none => .fault Cause.thmis 5 q.1
    | some (im, fixed) =>
      let data := im.codes.flatMap (fun row => toBytes e.c.nb (packCodes w row))
      .ok (fun s =>
        let s1 := (s.onCtx (fun c => c.loadTile a (e.c.viewWrites data))).afterLoad a q.1 q.2
        if fixed then s1.onCore (fun k => { k with thcnt := bumpField k.thcnt 0 1 }) else s1)

/-- The codes of a tile's view at an element width. -/
def Ctx.viewCodes (c : Ctx) (t : Tile) (w : Nat) : List (List Nat) :=
  (List.range c.nr).map (fun i => (List.range (c.nc w)).map (fun j => tileField t (512 * i + w * j) w))

/-- A thatched image of codes with new checksums (R163). -/
def flashed (w r c : Nat) (codes : List (List Nat)) (vals : List (List Val)) : List Byte :=
  let s := flash c vals
  thBuild w r c { codes := codes, crow := s.1, ccol := s.2.1, corner := s.2.2 }

/-- TST (R213). -/
def slotTst (a : LArgs) (e : Env) : SlotOut :=
  let n := e.tileBytes a
  .bind (do let ea ← e.tileEa a; let ts ← access e.s a.sp .write ea n; .ok (ea, ts)) fun q =>
  e.withRequests a.sp (sectorsOf q.1 n) <|
  let t := e.c.rt a.dat.tile
  let f := tileFmt a
  let codes := e.c.viewCodes t f.bits
  let bs := if a.md 1 1 = 0 then e.c.viewBytes t
    else flashed f.bits e.c.nr (e.c.nc f.bits) codes (codes.map (decodeRow f 0 noScale))
  .ok (fun s => (s.queueStore e.s.core.pc [⟨q.1, q.2, bs⟩] false a.sp 0 a.ch.toNat).onCtx (fun c => c.stepA a.ar))

/-! ### Gathered rows (R214) -/

/-- The address and the pieces of row `i` of a GLD; none for a row of zeros (R214). -/
def gldRow (e : Env) (a : LArgs) (i : Nat) : Chk (Word × List (Target × Nat)) :=
  let o := BitVec.ofNat 32 (tileField (e.c.rt a.dat.tile) (512 * i) 32)
  let nb := e.c.nb
  if o = 0x80000000 then .ok (0, [])
  else do
    let base ← if a.sp then e.c.ea a.ar else .ok (e.c.ra a.ar).sum
    let sum := base + o.signExtend 64
    if a.sp then
      let off := (base.toNat : Int) + o.toInt
      let r := e.s.runOf
      if !spmIn r.bank0 r.banks off nb then failAt Cause.spmrng sum
      else if 512 < off.toNat % 512 + nb then failAt Cause.malign sum
      else .ok (sum, [(.place { space := .spm, owner := r.lcore, addr := off.toNat } false, nb)])
    else if !canonical sum then failAt Cause.ncanon sum
    else
      let va := (sum.extractLsb' 0 57).setWidth 64
      if 512 < va.toNat % 512 + nb then failAt Cause.malign va else (access e.s false .read va nb).map (fun ts => (va, ts))

/-- Does a row's fault come before another's: lane F before lane P (R42), then the lower address, taken with its sign in the
scratchpad (R214, R352). -/
def faultBefore (sp : Bool) (t b : TrapInfo) : Bool :=
  if onLaneP t.cause = onLaneP b.cause then (if sp then t.addr.slt b.addr else decide (t.addr < b.addr))
  else !onLaneP t.cause

/-- The fault that a GLD takes among those of its rows (R42, R214). -/
def lowestFault {α : Type} (sp : Bool) (rs : List (Chk α)) : Option TrapInfo :=
  rs.foldl (fun best r => match r with
    | .ok _ => best
    | .error t => match best with
      | some b => if faultBefore sp t b then some t else some b
      | none => some t) none

/-- GLD (R214). -/
def slotGld (a : LArgs) (e : Env) : SlotOut :=
  let rows := (List.range e.c.nr).map (gldRow e a)
  match lowestFault a.sp rows with
  | some t => .trap t
  | none =>
    let ts := rows.map (fun r => match r with
      | .ok q => q
      | .error _ => (0, []))
    e.afterOwn (ts.flatMap (·.2)) <| e.withRequests a.sp e.c.nr <|
    let bs := ts.flatMap (fun t => if t.2.isEmpty then List.replicate e.c.nb 0 else e.s.loadPieces t.2)
    .ok (fun s => ts.foldl (fun s t => s.readDone a.ch.toNat t.1 t.2)
      ((s.onCtx (fun c => (c.loadTile a (e.c.viewWrites bs)).stepA a.ar))))

/-! ### The stash store (R215, R216) -/

/-- SFMT (R210). -/
def stashFmt (a : LArgs) : Fmt :=
  match a.md 1 2 with
  | 0 => .fp32
  | 1 => .bf16
  | _ => .fp16

/-- The E4M3 image of rows of 32 wide values, its 16 or 32 scales in one sector, and its flags (R215). -/
def stashBlocks (rows : List (List Val)) : List Byte × Flags :=
  let bs := rows.map (fun r => quantBlock .e4m3 .rne (r.map (fun v => (v, 0))))
  let codes := bs.map (fun b => b.els.map (·.1))
  let vals := bs.map (fun b => decodeRow .e4m3 0 (fun _ => e8m0 b.scale) (b.els.map (·.1)))
  let fl := bs.foldl (fun f b => b.els.foldl (fun f e => f.join e.2) (f.join b.flags)) Flags.none
  let scales := bs.map (fun b => BitVec.ofNat 8 b.scale)
  (flashed 8 rows.length 32 codes vals ++ scales ++ List.replicate (128 - scales.length) 0, fl)

/-- The wide rows of a BF16 tile of 16 rows by 64 bytes. -/
def wideRows (t : Tile) : List (List Val) :=
  (List.range 16).map (fun i => (List.range 32).map (fun j => Fmt.bf16.value 0 (tileField t (512 * i + 16 * j) 16)))

/-- The images of a TSTS, at `ea` and at `ea` + 2,048, with flags (R215). -/
def stashImages (c : Ctx) (a : LArgs) : List (Nat × List Byte) × Flags :=
  let t := c.rt a.dat.tile
  if a.md 3 1 = 0 then
    let f := stashFmt a
    let codes := c.viewCodes t f.bits
    let vals := codes.map (decodeRow f 0 noScale)
    let nc := c.nc f.bits
    ([(0, flashed f.bits c.nr nc codes vals),
      (2048, flashed f.bits nc c.nr (transposeRows 0 nc codes) (transposeRows (.zero false) nc vals))], .none)
  else
    let rows := wideRows t
    let p := stashBlocks rows
    if a.md 4 1 = 0 then ([(0, p.1)], p.2)
    else
      let held := wideRows (c.half.getD 0)
      let q := stashBlocks (List.zipWith (· ++ ·) (transposeRows (.zero false) 32 held) (transposeRows (.zero false) 32 rows))
      ([(0, p.1), (2048, q.1)], p.2.join q.2)

/-- Does the stage refuse the operation (R216). -/
def stashBad (c : Ctx) (a : LArgs) : Bool :=
  decide (a.md 3 1 = 1) &&
    (decide (c.nr ≠ 16 ∨ c.nb ≠ 64) || decide (stashFmt a ≠ .bf16) ||
      (if a.md 4 1 = 1 then c.half.isNone else c.half.isSome))

/-- TSTS (R215); a view narrower than one element has nothing to write (R107). -/
def slotTsts (a : LArgs) (e : Env) : SlotOut :=
  .bind (e.eaAligned a 2048) fun ea =>
  if stashBad e.c a then .fault Cause.stash 0 ea
  else
    let im := stashImages e.c a
    if a.md 3 1 = 0 ∧ e.c.nc (stashFmt a).bits = 0 then .ctx (fun c => c.stepA a.ar)
    else
    .bind (im.1.mapM (fun r => do
      let va := ea + BitVec.ofNat 64 r.1
      let ts ← access e.s a.sp .write va r.2.length
      .ok (⟨va, ts, r.2⟩ : Range))) fun rs =>
    e.withRequests a.sp ((rs.map (fun r => sectorsOf r.va r.bs.length)).foldl (· + ·) 0) <|
    .ok (fun s => (((s.queueStore e.s.core.pc rs false a.sp 0 a.ch.toNat).onCtx (fun c =>
      { (c.stepA a.ar) with half := if a.md 3 1 = 0 then c.half else if a.md 4 1 = 1 then none
                                    else some (e.c.rt a.dat.tile) })).raise im.2))

/-! ### Request entries of a bundle (R242) -/

/-- Request entries that a load-slot operation takes (R242). -/
def Env.loadNeed (e : Env) : Instr → Nat
  | .ld a | .aadd a | .acas a | .axch a | .amax a | .amin a => if a.sp then 0 else 1
  | .tld a => if a.sp then 0 else
      match e.c.ea a.ar with
      | .ok ea => sectorsOf ea (e.tileBytes a)
      | .error _ => 0
  | .gld a => if a.sp then 0 else e.c.nr
  | _ => 0

end Machine

end Sys2Proof
end

