-- ==== Sys2Proof/Machine/Illegal.lean ====
section
/-! DEFINITION. What makes a bundle ill-formed (R22 to R40), slot by slot: each condition with its reason code. -/

namespace Sys2Proof

open Machine

/-- The operation of a slot. -/
def SlotDec.op? : SlotDec → Option Instr
  | .op i => some i
  | _ => none

/-- A condition with its reason of R40. -/
abbrev Cond := Bool × Nat

/-- Bits set outside a mask. -/
def exceeds {n : Nat} (v : BitVec n) (m : Nat) : Bool := decide (v &&& ~~~(BitVec.ofNat n m) ≠ 0)

/-- Fields of an SR slot set where the operation has none (R26, R86). -/
def SR.only (a : SR) (rd ra rb fn : Nat) : Cond :=
  (decide (a.z ≠ 0) || exceeds a.rd rd || exceeds a.ra ra || exceeds a.rb rb || exceeds a.fn fn, 2)

/-- Fields of an SI slot set where the operation has none (R86). -/
def SI.only (a : SI) (rd ra imm : Nat) : Cond := (exceeds a.rd rd || exceeds a.ra ra || exceeds a.imm imm, 2)

namespace Machine

/-- Every control register's index (R97). -/
def ctlIndices : List Nat :=
  [0x000, 0x001, 0x002, 0x010, 0x011, 0x012, 0x013, 0x014, 0x020, 0x021, 0x030, 0x031, 0x032, 0x040, 0x041, 0x050, 0x051,
   0x060, 0x061]

/-- The control registers that CRW may not name (R97). -/
def ctlReadOnly : List Nat := [0x000, 0x001, 0x002, 0x021, 0x030, 0x040, 0x041, 0x051, 0x060]

/-- The selectors of WIDR (R281). -/
def widrSelectors : List Nat := [1, 2, 3, 4, 5, 6, 8, 9, 16, 17, 18, 19, 24, 25, 26, 27]

/-- The conditions of the scalar slot (R86 to R97, R277). -/
def scalarConds : Instr → List Cond
  | .add a | .sub a | .mul a | .and a | .or a | .xor a | .shl a | .shr a | .sra a => [a.only 63 63 63 0]
  | .mulh a | .div a | .rem a | .min a | .max a => [a.only 63 63 63 1]
  | .clz a | .popc a => [a.only 63 63 0 0]
  | .shli a | .shri a | .srai a => [a.only 63 63 63]
  | .sel a => [a.only 63 63 63 15]
  | .cmp a => [a.only 15 63 63 15, (decide (10 < bits a.fn.toNat 0 4), 2)]
  | .cmpi a => [a.only 15 63 0xFFFFFF, (decide (10 < bits a.imm.toNat 20 4), 2)]
  | .pand a | .por a | .pxor a => [a.only 15 15 15 3]
  | .pnot a => [a.only 15 15 0 0]
  | .movpToX a => [a.only 63 0 0 0]
  | .movpToP a => [a.only 0 63 0 1]
  | .br a => [(decide (a.rd ≠ 0), 2)]
  | .brc a => [a.only 31 0 0xFFFFFF]
  | .ret a => [a.only 0 63 0 0]
  | .loop a => [a.only 63 0 0xFFFFFF]
  | .crr a => [a.only 63 0 0xFFF, (decide (bits a.imm.toNat 0 12 ∉ ctlIndices), 2)]
  | .crw a =>
    [a.only 0 63 0xFFF, (decide (bits a.imm.toNat 0 12 ∉ ctlIndices), 2), (decide (bits a.imm.toNat 0 12 ∈ ctlReadOnly), 7)]
  | .trap a => [a.only 0 63 0xFFFF]
  | .eret a => [a.only 0 0 0 0]
  | .spawn a => [a.only 63 63 63 7, (decide (bits a.fn.toNat 0 3 = 0 ∨ bits a.fn.toNat 0 3 = 7), 2)]
  | .susp a => [a.only 0 63 0 0]
  | .exit a => [a.only 0 0 0 0]
  | .sdrd a => [a.only 63 63 0 0]
  | .sdfk a => [a.only 0 63 0 0]
  | .widr a => [a.only 63 0 0xFFFFFF, (decide (a.imm.toNat ∉ widrSelectors), 2)]
  | _ => []

end Machine

/-! ### Vector operands -/

/-- An index outside its level (R34). -/
def Opnd.outOfRange (o : Opnd) : Bool := decide (o.lvl = 1 ∧ 15 < o.idx.toNat) || decide (o.lvl = 2 ∧ 3 < o.idx.toNat)

/-- A special operand that R34 or R35 does not allow. -/
def Opnd.badSpecial (o : Opnd) : Bool :=
  !o.isTile && (decide (o.dir ≠ 0) ||
    (match o.special with
     | 0 => decide (o.ctl ≠ 0)
     | 1 => false
     | 2 => decide (4 < bits o.idx.toNat 0 3) || o.idx.getLsbD 8 || (!o.idx.getLsbD 3 && decide (bits o.idx.toNat 4 4 ≠ 0))
     | _ => true))

/-- A control operand in its form (R110). -/
def Opnd.isCtl (o : Opnd) : Bool := !o.isTile && decide (o.special = 1) && decide (o.dir = 0) && !o.neg && !o.zer

/-- The predicate that a not-ready-flag pop writes (R35). -/
def Opnd.flagPred (o : Opnd) : Option Nat := if o.isPop && o.idx.getLsbD 3 then some (bits o.idx.toNat 4 4) else none

namespace Machine

/-- What an operand field is to its operation: unused, a destination, a source, a tile of a reversible form, the pop of
POP, or a control operand. `lines`: a direction is allowed; `zer`, `neg`: those bits are. -/
inductive Role where
  | unused
  | dst (lines zer : Bool)
  | src (lines neg : Bool)
  | tile (dst : Bool)
  | pop
  | ctl
  deriving DecidableEq, Repr

/-- The conditions of an operand field in a role (R27, R33 to R35, R110, R199). -/
def Role.cond (r : Role) (mask : Bool) (o : Opnd) : Cond :=
  match r with
  | .unused => (decide (o.toBits ≠ 0), 2)
  | .dst lines zer => (!o.isTile || o.outOfRange || (o.zer && !(mask && zer)) || (!lines && decide (o.dir ≠ 0)), 3)
  | .src lines neg =>
    (o.outOfRange || o.badSpecial || o.zer || (!lines && decide (o.dir ≠ 0)) || (!neg && o.neg), 3)
  | .tile _ => (!o.isTile || o.outOfRange || decide (o.dir ≠ 0) || o.neg || o.zer, 3)
  | .pop => (!o.isPop || o.badSpecial || o.neg || o.zer, 3)
  | .ctl => (!o.isCtl, 3)

/-- Is an operand one that an operation reads as data. -/
def Role.isSrc : Role → Bool
  | .src _ _ => true
  | .pop => true
  | .tile d => !d
  | _ => false

/-- Is an operand a tile that an operation writes. -/
def Role.isDst : Role → Bool
  | .dst _ _ => true
  | .tile d => d
  | _ => false

/-- The shape of a vector operation: types accepted, the roles of OPD0 to OPD4, and what else makes it ill-formed. -/
structure VForm where
  ets : List Nat
  r0 : Role := .unused
  r1 : Role := .unused
  r2 : Role := .unused
  r3 : Role := .unused
  r4 : Role := .unused
  extra : List Cond := []
  deriving DecidableEq, Repr

/-- Types of the arithmetic forms (R114). -/
def etArith : List Nat := [0, 1, 2, 8, 9]

/-- Types of VTRN and VPERM (R120). -/
def etMove : List Nat := [0, 1, 2, 3, 4, 5, 6, 8, 9, 10]

/-- An element-wise destination. -/
def dstAny : Role := .dst true true

/-- A whole destination. -/
def dstWhole : Role := .dst false true

/-- A statistic's destination (R136). -/
def dstStat : Role := .dst false false

/-- An element-wise source. -/
def srcAny : Role := .src true true

/-- A whole source, NEG allowed. -/
def srcNeg : Role := .src false true

/-- A whole source without NEG. -/
def srcWhole : Role := .src false false

/-- Bits of a control operand that are marked zero, or a value of it that is reserved. -/
def ctlCond (o : Opnd) (f : Nat → Bool) (reason : Nat) : Cond := (o.isCtl && f o.ctl, reason)

/-- A signed immediate outside a range (R123, R126). -/
def immOut (o : Opnd) (lo hi : Int) : Cond := (o.isCtl && !decide (lo ≤ o.imm ∧ o.imm ≤ hi), 3)

/-- The fields that no reversible form uses (R199). -/
def rskExtra (a : VArgs) : Cond :=
  (decide (a.g2 ≠ 0) || a.wbs || a.lat || decide (a.ch ≠ 0) || decide (a.line ≠ 0), 2)

/-- A form of VMSK: control sub-fields unused by its mode (R118). -/
def vmskForm (a : VArgs) (ets : List Nat) (r0 r1 : Role) (k j : Bool) : VForm :=
  { ets := ets, r0 := r0, r1 := r1, r3 := .ctl,
    extra := [(a.g2.getLsbD 3, 2),
      ctlCond a.o3 (fun v => (!k && decide (bits v 3 3 ≠ 0)) || (!j && decide (bits v 6 3 ≠ 0))) 2] }

/-- A reversible form with two tiles and a third operand. -/
def rskForm (a : VArgs) (ets : List Nat) (r2 r3 : Role) (extra : List Cond) : VForm :=
  { ets := ets, r0 := .tile true, r1 := .tile false, r2 := r2, r3 := r3, extra := rskExtra a :: extra }

/-- A form of the remainder stack with a control operand alone. -/
def rskCtl (a : VArgs) (extra : List Cond) : VForm := { ets := [0], r1 := .ctl, extra := rskExtra a :: extra }

/-- SET of a control operand in QNT's layout. -/
def ctlSet (o : Opnd) : Nat := bits o.ctl 2 4

/-- The element formats of QNT and DQNT (R124). -/
def etBlock : List Nat := [3, 4, 5, 6, 7, 8, 11]

/-- Has VCVT a Q16 side (R123). -/
def hasQ16 (a : VArgs) : Bool := decide (a.et = 10) || (a.o2.isCtl && decide (ctlSet a.o2 = 10))

/-- The shape of a vector operation (R114 to R141, R199 to R205). -/
def vectorForm : Instr → Option (VArgs × VForm)
  | .vadd a | .vsub a | .vmul a | .vmin a | .vmax a =>
    some (a, { ets := etArith, r0 := dstAny, r1 := srcAny, r2 := srcAny })
  | .vfma a | .vfms a => some (a, { ets := etArith, r0 := dstAny, r1 := srcAny, r2 := srcAny, r3 := srcAny })
  | .vabs a => some (a, { ets := etArith, r0 := dstAny, r1 := srcAny })
  | .vand a | .vor a | .vxor a => some (a, { ets := List.range 12, r0 := dstAny, r1 := srcAny, r2 := srcAny })
  | .vshl a | .vshr a => some (a, { ets := [8, 9, 10], r0 := dstAny, r1 := srcAny, r2 := .src true false })
  | .vcmp a => some (a,
    { ets := List.range 11, r1 := srcAny, r2 := srcAny, r3 := .ctl, r4 := .ctl,
      extra := [ctlCond a.o3 (fun v => decide (bits v 8 1 ≠ 0)) 2, ctlCond a.o4 (fun v => decide (bits v 6 3 ≠ 0)) 2,
                ctlCond a.o3 (fun v => decide (7 < bits v 0 4)) 3] })
  | .vsel a =>
    let s : Role := .src true (decide (a.et ≠ 7 ∧ a.et ≠ 11))
    some (a, { ets := List.range 12, r0 := dstAny, r1 := s, r2 := s, r3 := .ctl,
               extra := [ctlCond a.o3 (fun v => decide (bits v 3 6 ≠ 0)) 2] })
  | .vmskNz a => some (a, vmskForm a (List.range 12) .unused srcAny true false)
  | .vmskLd a => some (a, vmskForm a [0] .unused srcAny true false)
  | .vmskSt a => some (a, vmskForm a [0] dstAny .unused false true)
  | .vmskNot a | .vmskAnd a | .vmskOr a | .vmskAndn a => some (a, vmskForm a [0] .unused .unused true true)
  | .vmskAll a => some (a, vmskForm a [0] .unused .unused true false)
  | .vmov a => some (a, { ets := [0], r0 := dstAny, r1 := .src true false })
  | .vbcast a => some (a, { ets := List.range 12, r0 := dstWhole, r1 := .src true false })
  | .vtrn a => some (a, { ets := etMove, r0 := dstWhole, r1 := srcWhole })
  | .vpermRow a | .vpermCol a => some (a,
    { ets := etMove, r0 := dstWhole, r1 := srcWhole, r2 := srcWhole, r3 := .ctl,
      extra := [ctlCond a.o3 (fun v => decide (bits v 1 8 ≠ 0)) 2] })
  | .pop a => some (a,
    { ets := [0], r0 := dstAny, r1 := .pop,
      extra := [(decide (a.o0.dir = 2 ∨ a.o0.dir = 3) || decide (a.o0.dir = 1 ∧ 15 < a.line.toNat), 3)] })
  | .vcvt a => some (a,
    { ets := List.range 11, r0 := dstAny, r1 := srcAny, r2 := .ctl, r3 := if hasQ16 a then .ctl else .unused,
      extra := [ctlCond a.o2 (fun v => decide (bits v 6 3 ≠ 0)) 2, ctlCond a.o2 (fun v => decide (10 < bits v 2 4)) 3,
                if hasQ16 a then immOut a.o3 (-64) 63 else (false, 3)] })
  | .qnt a => some (a,
    { ets := etBlock, r0 := dstWhole, r1 := srcNeg, r2 := if ctlSet a.o4 = 0 then srcNeg else .unused, r3 := dstWhole,
      r4 := .ctl,
      extra := [ctlCond a.o4 (fun v => decide (bits v 6 3 ≠ 0)) 2, ctlCond a.o4 (fun v => decide (2 < bits v 2 4)) 3] })
  | .dqnt a => some (a,
    { ets := [0, 1, 2], r0 := dstWhole, r1 := srcNeg, r2 := srcNeg, r3 := .ctl,
      r4 := if a.et = 0 then dstWhole else .unused,
      extra := [ctlCond a.o3 (fun v => decide (bits v 6 3 ≠ 0)) 2,
                ctlCond a.o3 (fun v => decide (bits v 2 4 ∉ etBlock)) 3] })
  | .vshp a => some (a,
    { ets := [0], r1 := .ctl, r2 := .ctl, extra := [(a.g2.getLsbD 3, 2), immOut a.o1 1 16, immOut a.o2 1 64] })
  | .vrsum a | .vcsum a | .vrmax a | .vcmax a | .vrmin a | .vcmin a =>
    some (a, { ets := etArith, r0 := dstStat, r1 := srcNeg })
  | .vemax a | .vexps a => some (a, { ets := [0, 1, 2], r0 := dstStat, r1 := srcNeg, r2 := srcWhole })
  | .vresc a => some (a, { ets := [0, 1, 2], r0 := dstStat, r1 := srcNeg, r2 := srcWhole, r3 := srcWhole })
  | .vrms a => some (a,
    { ets := [0, 1, 2], r0 := dstStat, r1 := srcNeg, r2 := srcWhole, r3 := .ctl,
      r4 := if a.o3.isCtl && decide (bits a.o3.ctl 6 1 = 1) then dstStat else .unused,
      extra := [ctlCond a.o3 (fun v => decide (bits v 7 2 ≠ 0)) 2] })
  | .sfev a => some (a,
    { ets := [0, 1, 2], r0 := if bits a.o2.ctl 4 1 = 1 then .unused else dstAny, r1 := srcAny, r2 := .ctl,
      extra := [ctlCond a.o2 (fun v => decide (bits v 5 4 ≠ 0)) 2] })
  | .sfld a => some (a,
    { ets := [0], r1 := srcWhole, r2 := srcWhole, r3 := .ctl,
      extra := [(a.g2.getLsbD 3, 2), ctlCond a.o3 (fun v => decide (bits v 2 7 ≠ 0)) 2] })
  | .rnrw a | .unrw a => some (a, rskForm a [1] .unused .unused [])
  | .rmulq a => some (a, rskForm a [10] (.tile false) .ctl [ctlCond a.o3 (fun v => decide (16 < v)) 3])
  | .umulq a => some (a, rskForm a [10] (.tile false) .unused [])
  | .raddc a | .uaddc a => some (a, rskForm a [1, 8, 9, 10] (.tile false) .unused [])
  | .rlrlu a => some (a, rskForm a [10] .ctl .unused [ctlCond a.o2 (fun v => decide (v = 0 ∨ 15 < v)) 3])
  | .ulrlu a | .uscl a => some (a, rskForm a [10] .unused .unused [])
  | .rscl a => some (a, rskForm a [10] .ctl .unused [ctlCond a.o2 (fun v => decide (31 < v ∨ v = 16)) 3])
  | .rskmk a | .rskck a => some (a, rskCtl a [])
  | .rsksp a | .rskfl a => some (a, rskCtl a [ctlCond a.o1 (fun v => decide (14 < v)) 3])
  | _ => none

/-- The operand fields of a vector slot with their numbers and roles. -/
def VForm.fields (f : VForm) (a : VArgs) : List (Nat × Role × Opnd) :=
  [(0, f.r0, a.o0), (1, f.r1, a.o1), (2, f.r2, a.o2), (3, f.r3, a.o3), (4, f.r4, a.o4)]

/-- The conditions of a vector slot (R27, R28, R34, R105). -/
def vectorConds (a : VArgs) (f : VForm) : List Cond :=
  let fs := f.fields a
  let used := fs.filter (fun q => decide (q.2.1 ≠ .unused))
  [(decide (a.et.toNat ∉ f.ets), 6), (!a.lat && decide (a.ch ≠ 0), 2), (a.lat && !f.r0.isDst, 2),
   (decide (a.line ≠ 0) && used.all (fun q => decide (q.2.2.dir = 0)), 3)]
    ++ fs.map (fun q => q.2.1.cond (a.g2.getLsbD 3) q.2.2) ++ f.extra

/-! ### The matrix slot -/

/-- The largest index of a level. -/
def levelMax (lvl : BitVec 2) : Nat := if lvl = 0 then 2047 else 15

/-- An operand of the matrix slot at level 00 or 01, whole, without ZER (R147). -/
def mxBad (neg : Bool) (o : Opnd) : Bool :=
  decide (1 < o.lvl.toNat) || o.outOfRange || decide (o.dir ≠ 0) || o.zer || (!neg && o.neg)

/-- An operand field that a matrix operation leaves zero. -/
def mxZero (o : Opnd) : Bool := decide (o.toBits ≠ 0)

/-- An operand field that names an X register (R30, R150). -/
def notX (o : Opnd) : Bool := exceeds o.toBits 63

/-- The conditions of MMA (R147, R148, R152, R153). -/
def mmaConds (a : MArgs) (f : Fmt) : List Cond :=
  [(decide (a.f 23 5 ≠ 0), 2), (!f.micro && mxZero a.ob, 2), (mxBad true a.oa, 3), (decide (f.kmax < a.koff + a.k), 3),
   (f.micro && (mxBad false a.ob || decide (levelMax a.ob.lvl < a.ob.idx.toNat + ((a.k + 31) / 32 - 1) / 8)), 3)]

/-- The conditions of an MLAT that computes (R184, R185). -/
def mlatConds (a : MArgs) (absorb : Bool) : List Cond :=
  [(decide (a.f 0 2 = 3) || decide (a.f 4 2 = 3) || (absorb && decide (a.f 6 3 ≠ 0)) ||
     (!a.value && decide (a.f 14 8 ≠ 0)) || decide (a.f 22 6 ≠ 0), 2),
   (mxBad true a.oa || mxBad false a.ob, 3)]

/-- The conditions of the matrix slot (R144 to R157, R173, R182 to R185). -/
def matrixConds : Instr → List Cond
  | .mmaBf16 a => mmaConds a .bf16
  | .mmaFp16 a => mmaConds a .fp16
  | .mmaE4m3 a => mmaConds a .e4m3
  | .mmaE5m2 a => mmaConds a .e5m2
  | .mmaE2m3 a => mmaConds a .e2m3
  | .mmaE3m2 a => mmaConds a .e3m2
  | .mmaE2m1 a => mmaConds a .e2m1
  | .mmaQ4x a => mmaConds a .q4x
  | .mmag a =>
    [(decide (a.f 23 2 = 3) || decide (a.f 20 1 = 1) || mxZero a.ob, 2), (mxBad true a.oa, 3),
     (decide ((fmtOf3 (a.f 25 3)).kmax < a.koff + a.k), 3),
     (decide (64 < a.zd.toNat + ((a.k + 31) / 32 + a.groupSteps - 1) / a.groupSteps), 3)]
  | .sacc a =>
    let rs := decide (a.f 7 1 = 1)
    let cs := decide (a.f 8 1 = 1)
    [(decide (a.f 9 19 ≠ 0) || (!rs && mxZero a.oa) || (!cs && mxZero a.ob), 2),
     ((rs && mxBad false a.oa) || (cs && mxBad false a.ob), 3)]
  | .mzero a => [(mxZero a.oa || mxZero a.ob || decide (a.f 6 22 ≠ 0), 2), (decide (64 < a.zd.toNat + a.f 0 6 + 1), 3)]
  | .mwld a =>
    let f := fmtOf3 (a.f 2 3)
    let k := a.f 5 10 + 1
    [(decide (a.zd ≠ 0) || mxZero a.ob || decide (a.f 15 13 ≠ 0), 2), (decide (f.kmax < k), 3),
     (if a.f 1 1 = 1 then
        mxBad false a.oa || decide (a.oa.lvl ≠ 0) || decide (2047 < a.oa.idx.toNat + (panelSectors f k true + 7) / 8 - 1)
      else notX a.oa, 3)]
  | .mcfg a =>
    [(decide (a.zd ≠ 0) || mxZero a.oa || mxZero a.ob || decide (a.f 21 7 ≠ 0), 2), (decide (95 < a.f 7 7), 3)]
  | .mdrn a =>
    let ck := decide (a.f 4 1 = 1)
    [(decide (a.f 0 2 = 3) || decide (a.f 5 23 ≠ 0) || (!ck && mxZero a.ob), 2),
     (mxBad false a.oa || (ck && mxBad false a.ob), 3)]
  | .mchk a => [(mxZero a.oa || mxZero a.ob || decide (a.f 1 27 ≠ 0), 2)]
  | .mrecomp a => [(mxZero a.oa || mxZero a.ob || decide (a.mctl ≠ 0), 2)]
  | .mlatLoad a =>
    [(decide (a.zd ≠ 0) || mxZero a.ob || decide (a.f 2 4 ≠ 0) || decide (a.f 18 10 ≠ 0), 2), (notX a.oa, 3),
     (decide (8 < a.f 6 3 + projSegs a.dc (loadDh a)), 3)]
  | .mlatExpand a => mlatConds a false
  | .mlatAbsorb a => mlatConds a true
  | _ => []

/-- Does the static A operand run past its level (R146, R147). -/
def aTooFar (cfg : Word) (o : Opnd) (ef k : Nat) : Bool :=
  decide (0 < k) && decide (levelMax o.lvl < o.idx.toNat + astrOf cfg * ((k + ef - 1) / ef - 1) + bits cfg.toNat 0 7 / 16)

/-- Reason 3 of the matrix slot as MCFGR at bundle start makes it (R40, R146). -/
def matrixCfgBad (c : Ctx) (i : Instr) : Bool :=
  let cfg := c.mcfgr
  let n := bits cfg.toNat 7 7 + 1
  match i with
  | .mdrn a =>
    let ncb := (n * (if a.f 0 2 = 0 then 4 else 2) + 63) / 64
    decide (levelMax a.oa.lvl < a.oa.idx.toNat + (bits cfg.toNat 0 7 / 16 + 1) * ncb - 1)
  | .mlatExpand a => aTooFar cfg a.oa 32 (mlatK a true (c.dhOf (a.f 6 3)))
  | .mlatAbsorb a => (a.value && decide (a.dc < a.coff + n)) || aTooFar cfg a.oa 32 (mlatK a false 0)
  | .mmag a => decide (a.f 22 1 = 0) && aTooFar cfg a.oa (fmtOf3 (a.f 25 3)).ef a.k
  | i => match mmaFmt i with
    | some (a, f) => decide (a.f 22 1 = 0) && aTooFar cfg a.oa f.ef a.k
    | none => false

/-! ### The load, store, copy and sync slots -/

/-- The conditions of CH (R30, R210). -/
def chCond (a : LArgs) (sp : Bool) : Cond := (decide (a.ch = 3) || (sp && decide (a.ch ≠ 0)), 2)

/-- The conditions of a scalar access (R210). -/
def scalarAccess (a : LArgs) : List Cond :=
  [(decide (4 < a.md 1 3) || (!a.strong && decide (a.md 1 3 ≠ 0)), 2), chCond a a.sp, (notX a.dat, 3)]

/-- The condition of a tile DAT (R210). -/
def tileDat (a : LArgs) (source : Bool) : Cond :=
  (decide (1 < a.dat.lvl.toNat) || a.dat.outOfRange || decide (a.dat.dir ≠ 0) || a.dat.zer || (source && a.dat.neg), 3)

/-- The conditions of TLD and TST (R210). -/
def tileAccess (a : LArgs) (source : Bool) : List Cond :=
  [(decide (4 < a.md 2 3) || (decide (a.md 1 1 = 0) && decide (a.md 2 3 ≠ 0)), 2), chCond a a.sp, tileDat a source]

/-- The conditions of an address-unit operation (R103). -/
def addressUnit (a : LArgs) : List Cond := [(decide (a.ch ≠ 0) || decide (a.mode ≠ 0), 2), (notX a.dat, 3)]

/-- The conditions of the load and store slots (R103, R210). -/
def loadStoreConds : Instr → List Cond
  | .ld a | .st a | .aadd a | .axch a | .amax a | .amin a => scalarAccess a
  | .acas a => scalarAccess a ++ [(decide (a.dat.xreg = 63), 3)]
  | .tld a => tileAccess a false
  | .tst a => tileAccess a true
  | .gld a => [(decide (a.md 1 4 ≠ 0), 2), chCond a a.sp, tileDat a false]
  | .tsts a => [(decide (a.md 1 2 = 3) || (decide (a.md 4 1 = 1) && decide (a.md 3 1 = 0)), 2), chCond a a.sp, tileDat a true]
  | .tagl a => [(decide (a.mode ≠ 0), 2), chCond a false, (notX a.dat, 3)]
  | .tags a => [(decide (a.md 1 4 ≠ 0), 2), chCond a false, (notX a.dat, 3)]
  | .tagi a => [(decide (a.md 1 4 ≠ 0) || decide (a.ar ≠ 0), 2), chCond a false, (notX a.dat, 3)]
  | .tagiA a => [(decide (a.md 1 4 ≠ 0) || decide (a.dat.toBits ≠ 0), 2), chCond a false]
  | .aset a | .ainc a | .amod a | .abrev a | .astp a | .alen a => addressUnit a
  | .aget a => [(decide (a.ch ≠ 0) || decide (5 < a.md 0 3) || decide (a.md 3 2 ≠ 0), 2), (notX a.dat, 3)]
  | .aclr a => [(decide (a.ch ≠ 0) || decide (a.mode ≠ 0), 2), (decide (a.dat.toBits ≠ 0), 3)]
  | _ => []

/-- The conditions of a CPY's transform (R220, R226). -/
def xfmCond (a : CArgs) : Cond := (decide (7 < a.f 0 4) || (decide (6 ≤ a.f 0 4) && decide (a.f 4 1 = 0)), 2)

/-- The conditions of the copy slot (R220, R309). -/
def copyConds : Instr → List Cond
  | .cpy a => [xfmCond a]
  | .cpyf a _ => [xfmCond a]
  | .pfh a => [(decide (a.da ≠ 0) || decide (a.tok ≠ 0) || decide (a.f 0 2 = 3) || decide (a.f 2 3 ≠ 0), 2)]
  | .rcinv a =>
    [(decide (a.sa ≠ 0) || decide (a.da ≠ 0) || decide (a.tok ≠ 0) || decide (a.f 1 4 ≠ 0) ||
      (decide (a.f 0 1 = 1) && decide (a.xl ≠ 0)), 2)]
  | .glog a => [(decide (a.xfm ≠ 0), 2)]
  | .gmrg a => [(decide (a.sa ≠ 0) || decide (a.xl ≠ 0) || decide (a.f 1 4 ≠ 0), 2)]
  | .rsto a => [(decide (a.xfm ≠ 0), 2)]
  | .rfaa a => [(decide (a.f 1 4 ≠ 0), 2)]
  | .rfen a => [(decide (a.sa ≠ 0) || decide (a.xfm ≠ 0), 2)]
  | .collAr a | .collAg a | .collRs a | .collA2a a => [(decide (a.f 2 3 ≠ 0), 2)]
  | _ => []

/-- A scope and spaces named (R243). -/
def scopeBad (a : YArgs) : Bool := decide (4 < a.scope.toNat) || decide (a.smask = 0)

/-- A scope or a space where none is taken (R32). -/
def scopeSet (a : YArgs) : Bool := decide (a.scope ≠ 0) || decide (a.smask ≠ 0)

/-- The conditions of the sync slot (R243, R284, R288). -/
def syncConds : Instr → List Cond
  | .mark a => [(scopeSet a || decide (a.sarg ≠ 0), 2)]
  | .fence a => [(scopeBad a || decide (bits a.sarg.toNat 0 2 = 3), 2)]
  | .acq a => [(scopeBad a || decide (bits a.sarg.toNat 1 2 ≠ 0), 2)]
  | .rel a => [(scopeBad a || decide (bits a.sarg.toNat 1 1 ≠ 0), 2)]
  | .sstep a => [(scopeSet a || decide (a.sarg ≠ 0), 2)]
  | .waita a => [(scopeSet a, 2)]
  | .waitk a => [(scopeSet a || decide (4 < a.sarg.toNat), 2)]
  | _ => []

/-- The conditions of an operation that its slot's bits alone decide (R40). -/
def opConds (i : Instr) : List Cond :=
  scalarConds i ++ (match vectorForm i with | some (a, f) => vectorConds a f | none => []) ++ matrixConds i
    ++ loadStoreConds i ++ copyConds i ++ syncConds i

/-! ### Two writes of one bundle (R40, R84) -/

/-- A destination that an encoding names. -/
inductive Dest where
  | x (r : Nat)
  | p (k : Nat)
  | tile (n : TileName)
  | mask (k : Nat)
  | areg (k : Nat)
  | shape
  | rsk
  deriving DecidableEq, Repr

/-- A predicate as a destination; P0 is none (R84). -/
def destP (k : Nat) : List Dest := if k = 0 then [] else [.p k]

/-- An X register as a destination; X0 is none (R84). -/
def destX (r : BitVec 6) : List Dest := if r = 0 then [] else [.x r.toNat]

/-- Destinations of the scalar slot. -/
def scalarDests : Instr → List Dest
  | .add a | .sub a | .mul a | .mulh a | .div a | .rem a | .and a | .or a | .xor a | .shl a | .shr a | .sra a | .min a
  | .max a | .clz a | .popc a | .sel a | .movpToX a | .spawn a | .sdrd a => destX a.rd
  | .addi a | .andi a | .ori a | .xori a | .shli a | .shri a | .srai a | .loop a | .crr a | .widr a => destX a.rd
  | .ldi a | .ldih a | .call a => destX a.rd
  | .cmp a | .pand a | .por a | .pxor a | .pnot a => destP (bits a.rd.toNat 0 4)
  | .cmpi a => destP (bits a.rd.toNat 0 4)
  | .movpToP _ => (List.range 15).map (fun k => .p (k + 1))
  | .crw a =>
    let idx := bits a.imm.toNat 0 12
    if idx = 0x020 then [.shape] else if idx = 0x031 ∨ idx = 0x032 then [.rsk] else []
  | _ => []

/-- Destinations of a vector slot beside its operand fields. -/
def vectorOther : Instr → List Dest
  | .vcmp a =>
    (if bits a.o3.ctl 7 1 = 1 then [.mask (bits a.o3.ctl 4 3)] else [])
      ++ (if bits a.o4.ctl 5 1 = 1 then destP (bits a.o4.ctl 0 4) else [])
  | .vmskNz a | .vmskLd a | .vmskNot a | .vmskAnd a | .vmskOr a | .vmskAndn a | .vmskAll a => [.mask (bits a.o3.ctl 3 3)]
  | .vshp _ => [.shape]
  | .rnrw _ | .unrw _ | .rmulq _ | .umulq _ | .raddc _ | .uaddc _ | .rlrlu _ | .ulrlu _ | .rscl _ | .uscl _ | .rskmk _
  | .rskck _ => [.rsk]
  | _ => []

/-- Destinations of a vector slot: tiles, the latch of LAT, and the flags of its pops. -/
def vectorDests (a : VArgs) (f : VForm) : List Dest :=
  (f.fields a).flatMap (fun q =>
    (if q.2.1.isDst && q.2.2.isTile then [.tile q.2.2.tile] else [])
      ++ (if q.2.1.isSrc then (match q.2.2.flagPred with | some k => destP k | none => []) else []))
    ++ (if a.lat then [.tile a.latch] else [])

/-- Destinations of the load and store slots (R83, R102, R103, R211). -/
def loadStoreDests : Instr → List Dest
  | .ld a | .aadd a | .acas a | .axch a | .amax a | .amin a | .tagl a => destX a.dat.xreg ++ [.areg a.ar.toNat]
  | .tld a | .gld a => (if a.dat.isTile then [.tile a.dat.tile] else []) ++ [.areg a.ar.toNat]
  | .st a | .tst a | .tsts a | .tags a | .tagiA a | .aset a | .ainc a | .amod a | .abrev a | .astp a | .alen a | .aclr a =>
    [.areg a.ar.toNat]
  | .aget a => destX a.dat.xreg
  | _ => []

/-- Destinations of MDRN that its encoding names: the first tile of its block, and its checksum tile (R40, R173; log 22). -/
def drainDests : Instr → List Dest
  | .mdrn a => (if a.oa.isTile then [.tile a.oa.tile] else []) ++
      (if a.f 4 1 = 1 ∧ a.ob.isTile then [.tile a.ob.tile] else [])
  | _ => []

/-- The destinations that an operation's encoding names, suppressed ones too. -/
def destsOf (i : Instr) : List Dest :=
  scalarDests i ++ (match vectorForm i with | some (a, f) => vectorDests a f | none => []) ++ vectorOther i
    ++ loadStoreDests i ++ drainDests i

/-- Is a destination listed twice. -/
def twice : List Dest → Bool
  | [] => false
  | d :: ds => ds.contains d || twice ds

/-! ### The bundle -/

/-- Is an operation a conditional branch (R25). -/
def isBranchIf : Instr → Bool
  | .brc _ => true
  | .loop _ => true
  | _ => false

/-- May a matrix instruction follow a copy (R231). -/
def mayFollow (i : Instr) : Bool :=
  match i with
  | .mcfg _ => false
  | i => (encodeMatrix i).isSome

/-- Does an operation end its spar's run: SUSP and EXIT (R277). -/
def suspends : Instr → Bool
  | .susp _ => true
  | .exit _ => true
  | _ => false

/-- The conditions that join a slot with others (R231, R277, R288). -/
def jointConds (b : Bundle) (i : Instr) : List Cond :=
  match i with
  | .susp _ => [(!b.hdr.y, 2)]
  | .exit _ => [(!b.hdr.y, 2)]
  | .sstep _ => [(!b.hdr.y || (b.scalar.op?.map suspends).getD false, 2)]
  | .cpyf _ _ => [(!(b.matrix.op?.map mayFollow).getD false, 2)]
  | _ => []

/-- The conditions of the header (R23, R25). -/
def headerConds (b : Bundle) : List Cond :=
  [(decide (b.hdr.rz ≠ 0), 2),
   (decide (b.hdr.sph = 1 ∨ b.hdr.sph = 2) && !(b.scalar.op?.map isBranchIf).getD false, 5)]

/-- The lowest reason that holds. -/
def lowest (cs : List Cond) : Option Nat :=
  cs.foldl (fun m c => if c.1 then (match m with | some r => some (min r c.2) | none => some c.2) else m) none

/-- The conditions of a slot of a bundle, `before` the destinations of the slots before it; `cfg` what MCFGR adds. -/
def slotConds (b : Bundle) (before : List Dest) (cfg : Instr → Bool) : SlotDec → List Cond
  | .unused => []
  | .undefined => [(true, 1)]
  | .dirty => [(true, 2)]
  | .op i =>
    opConds i ++ jointConds b i ++
      [(cfg i, 3), (twice (destsOf i) || (destsOf i).any (fun d => before.contains d), 4)]

/-- The lowest ill-formed slot among those from `ss` on, as ILDET (R40). -/
def lowestSlot (b : Bundle) (cfg : Instr → Bool) : List Dest → List (Nat × SlotDec) → Option Nat
  | _, [] => none
  | before, (n, d) :: ss =>
    match lowest (slotConds b before cfg d) with
    | some r => some (16 * n + r)
    | none => lowestSlot b cfg (before ++ ((d.op?.map destsOf).getD [])) ss

/-- ILDET of an ill-formed bundle under what MCFGR adds; `none` for a well-formed one (R40). -/
def illegalWith (b : Bundle) (cfg : Instr → Bool) : Option Nat :=
  match lowest (headerConds b) with
  | some r => some r
  | none => lowestSlot b cfg [] b.slots

/-- ILDET of a bundle in a context (R40, R146). -/
def illegal (b : Bundle) (c : Ctx) : Option Nat := illegalWith b (matrixCfgBad c)

end Machine

end Sys2Proof
end

