-- ==== Sys2Proof/Machine/Memory.lean ====
section
/-! DEFINITION. Device memory beside the cores: page walks, L2 fills and windows, hints, HBM4 and the maintenance commands
(R232, R254 to R266). -/

namespace Sys2Proof.Machine

/-! ### Translation buffers (R264) -/

/-- Entries of a translation buffer. -/
def tbEntries : Nat := 2048

/-- A translation installed; the entry that leaves a full buffer is not architectural (R264, log 6). -/
def State.installTb (s : State) (ctx : Nat) (x : Xl) : State :=
  let tb := s.core.tb
  let room := if tb.length < tbEntries then tb else tb.eraseIdx (Config.tbVictim s.tick % tbEntries)
  (s.onCore (fun k => { k with tb := room ++ [{ ctx := ctx, base := x.base, size := x.size, pte := x.pte }] })).ticked

/-- PAGE_WALK: a miss walks the tables, whose entries it reads as loads do, and installs the translation, or leaves the fault to
the access (R263, R264). -/
def State.pageWalk (s : State) (ctx : Nat) (va : Word) (acc : Access) : Option State :=
  if (aprOf (s.ctxOf ctx) va).isSome || (tbHit s.core.tb ctx va).isSome then none
  else
    let s1 := (walkReads s.mem (s.ctxOf ctx).troot va).foldl (fun s a => s.noteDev a 8) s
    match walk s.mem (s.ctxOf ctx).troot va with
    | .ok x => if x.allows acc then some (s1.installTb ctx x) else some s1
    | .error _ => some s1

/-- L2_READ_MISS: a DEV read that misses, or that finds the window of its sector open, registers in the window, and its
sector is filled (R255, R256). -/
def State.l2ReadMiss (s : State) (pa ch : Nat) (cmp : Bool) : Option State :=
  if s.mem.present (devPlace pa) && (s.mem.windows.get? (pa / 128)).isNone then none
  else some (s.readDone ch 0 [(.place (devPlace pa) cmp, 1)])

/-- MC_WINDOW_EXPIRE (R256). -/
def State.windowExpire (s : State) (sector : Nat) : Option State :=
  if (s.mem.windows.get? sector).isNone then none
  else some { s with mem := { s.mem with windows := s.mem.windows.del sector } }

/-- An eviction schedule table read and checked; `none` where it is refused (R257). -/
def evictTable (m : Mem) (pa n : Nat) : Option (List EvictEnt) :=
  (List.range n).mapM (fun i =>
    let b := m.dev.readN (pa + 16 * i) 16
    let base := tsrN b 0 8
    let nline := tsrN b 8 4
    let rank := tsrN b 12 1
    if base % 512 ≠ 0 ∨ nline = 0 ∨ 7 < rank ∨ tsrN b 13 3 ≠ 0 then none
    else some { base := base, nline := nline, rank := rank })

/-! ### Hints (R232) -/

/-- A hint for a part of an aperture's view: the lines of its buffer that the view's bytes come from; an aperture that breaks
a limit drops it (R271). -/
def State.hintView (s : State) (code : Nat) (a : Aperture) (o n : Nat) : State :=
  if !aprOk a || decide (code = 2) then s
  else
    let rs := if aprField a 24 1 = 0 then [(aprField a 16 8 + o, n)] else viewSources a o n
    { s with mem := rs.foldl (fun m q => m.onLines (devPlace q.1) q.2 false (fun secs l => l.hinted secs (decide (code = 1)))) s.mem }

/-- A hint for one piece of a page: a fault or a compressed page drops it; HOST and PEER lines come in as read copies. -/
def State.hintPiece (s : State) (ctx code : Nat) (va : Word) (n : Nat) : State :=
  match aprOf (s.ctxOf ctx) va with
  | some a => s.hintView code a (va.toNat % 2 ^ 57 - aprField a 0 8) n
  | none =>
    let hit := tbHit s.core.tb ctx va
    match (match hit with
      | some x => Except.ok x
      | none => walk s.mem (s.ctxOf ctx).troot va : Chk Xl) with
    | .error _ => s
    | .ok x =>
      match x.target va with
      | .place p false =>
        let s1 := if hit.isSome then s else s.installTb ctx x
        if code = 2 then s1
        else
          let m := s1.mem.onLines p n false (fun secs l => l.hinted secs (decide (code = 1)))
          { s1 with mem := if p.space = .dev then m else m.fillCopies va p n }
      | _ => s

/-- A hint of `n` bytes. -/
def State.hint (s : State) (ctx code : Nat) (va : Word) (n : Nat) : State :=
  (pieces va n (n / 65536 + 2)).foldl (fun s q => s.hintPiece ctx code q.1 q.2) s

/-- PFH never faults; a full engine drops it (R232). Which engine serves a hint is not architectural: it is dropped where
every engine's queue is full. -/
def slotPfh (a : CArgs) (e : Env) : SlotOut :=
  match e.c.ea a.sa with
  | .ok va => .ok (fun s =>
      if s.core.engines.toList.all (fun q => decide (16 ≤ q.length)) then s
      else s.hint s.runOf.ctx (a.f 0 2) va (bits (e.c.rx a.xl).toNat 0 32))
  | .error _ => .ok id

/-! ### HBM4 (R259, R260) -/

/-- HBM_HALF_WIDTH. -/
def State.halfWidth (s : State) (chan : Nat) : State :=
  if chan ∈ s.plat.halfChans ∨ s.ownsChan chan = false then s else { s with plat := { s.plat with halfChans := s.plat.halfChans ++ [chan] } }

/-- HBM_REFRESH_SCRUB: the channel's error count and worst row, and the atoms that no correction serves. -/
def State.refreshScrub (s : State) (chan errs row : Nat) (bad : List Nat) : State :=
  let old := s.plat.scrubs.getD chan (0, 0)
  if s.ownsChan chan = false then s
  else { s with plat := { s.plat with scrubs := s.plat.scrubs.put chan (old.1 + errs, row) },
                mem := { s.mem with badAtoms := bad } }

/-! ### Maintenance (R265, R266) -/

/-- Does a maintenance range meet `[a, a + n)`; a length of zero means every address. -/
def inMaint (m : Maint) (a n : Nat) : Bool :=
  decide (m.len = 0) || decide (m.addr.toNat < a + n ∧ a < m.addr.toNat + m.len.toNat)

/-- FLUSH: the DEV lines and the HOST read copies of the range are dropped; the home bytes are those that the device sees,
so that dirty sectors are written back already. -/
def State.flush (s : State) : State :=
  let m := s.mem.dropCopies (fun k => decide (k < 2 ^ 80) && inMaint s.maint (128 * (k % 2 ^ 57)) 128)
  { s with mem := { m with l2 := m.l2.filter (fun l => decide (copyLines ≤ l.line) || !inMaint s.maint (512 * l.line) 512) } }

/-- SHOOT: the translations of the range in the context go from every buffer, and every record cache is cleared. -/
def State.shoot (s : State) : State :=
  let ctx := bits s.maint.ctx.toNat 0 16
  let keep (e : TbEnt) : Bool := !(decide (e.ctx = ctx) && inMaint s.maint e.base e.size)
  s.allCores (fun k => { k with records := [], tb := k.tb.filter keep })

/-- A write of MNTCMD: discarded while BUSY; ERR for a misaligned range; else the command runs (R265). -/
def State.writeMnt (s : State) (v : Word) : State :=
  let op := v &&& 3
  if s.maint.stat.getLsbD 0 || !s.serves then s
  else
    let s1 := { s with maint := { s.maint with cmd := op } }
    if op = 1 ∨ op = 2 then
      if s.maint.addr.toNat % 512 ≠ 0 ∨ s.maint.len.toNat % 512 ≠ 0 then
        { s1 with maint := { s1.maint with stat := s1.maint.stat ||| 4 } }
      else
        let s2 := { s1 with maint := { s1.maint with stat := s1.maint.stat ||| 1 } }
        if op = 1 then s2.flush else s2.shoot
    else s1

/-- MNT_DONE: a SHOOT waits for the accesses that used a removed translation: queued stores and fabric transactions, whose
addresses were translated before (R265). -/
def State.mntDone (s : State) : Option State :=
  if !s.maint.stat.getLsbD 0 then none
  else if s.maint.cmd = 2 ∧ ((s.core :: s.others).any (fun k => !k.storeQ.isEmpty) ∨ s.fabric.out ≠ []) then none
  else some { s with maint := { s.maint with stat := (s.maint.stat &&& ~~~(1 : Word)) ||| 2 } }

end Sys2Proof.Machine
end

