-- ==== Sys2Proof/Machine/Real.lean ====
section
/-! DEFINITION. Correctly rounded results of real functions: quotients, the inverse square root, the exponential and
the base-two logarithm of e (R130, R138, R139, R141). -/

namespace Sys2Proof.Machine

/-- A non-negative rational `m * 2 ^ e / d` as a value that rounds alike: exact, or with a sticky bit far below. -/
def ratPos (m : Nat) (e : Int) (d : Nat) : Val :=
  if m = 0 ∨ d = 0 then .zero false
  else
    let k := 80 + Nat.log2 d
    let q := m * 2 ^ k / d
    let r := m * 2 ^ k % d
    .ofDy (2 * q + (if r = 0 then 0 else 1)) (e - k - 1)

/-- The quotient of a finite value by a positive finite value, as a value that rounds alike. -/
def ratVal (num den : Val) : Val :=
  match num, den with
  | .fin s m e, .fin _ d f =>
    if m = 0 then .zero s
    else
      let q := ratPos m.natAbs (e - f) d.natAbs
      if m < 0 then q.neg else q
  | _, _ => .nan

/-- The floor of the quotient of a finite value by a positive finite value. -/
def ratFloor (num den : Val) : Int :=
  match num, den with
  | .fin _ m e, .fin _ d f =>
    let k := min e f
    (m * 2 ^ (e - k).toNat) / (d * 2 ^ (f - k).toNat)
  | _, _ => 0

/-- Bits of the integer square root, from `2 ^ n` down. -/
def isqrtFrom (v : Nat) : Nat → Nat → Nat
  | 0, acc => if (acc + 1) * (acc + 1) ≤ v then acc + 1 else acc
  | n + 1, acc =>
    let t := acc + 2 ^ (n + 1)
    isqrtFrom v n (if t * t ≤ v then t else acc)

/-- 1 / sqrt(r) of a positive finite value, as a value that rounds alike. -/
def invSqrt (v : Val) : Val :=
  match v with
  | .fin _ m e =>
    -- an even exponent below the value, and 2 ^ 128 over the remaining integer
    let k := (e + 400) % 2
    let n := m.natAbs * 2 ^ k.toNat
    let big := 2 ^ 200
    let s := isqrtFrom (big / n) 101 0
    let exact := s * s * n = big
    .ofDy (2 * s + (if exact then 0 else 1)) (-100 - (e - k) / 2 - 1)
  | _ => .nan

/-- ln 2 in units of `2 ^ -q`, from below by at most `q + 1` units. -/
def ln2Fixed (q : Nat) : Nat := (List.range q).foldl (fun s i => s + 2 ^ q / ((i + 1) * 2 ^ (i + 1))) 0

/-- The sum of `r ^ k / k!` in units of `2 ^ -q`. -/
def expSeries (q : Nat) (r : Int) : Nat → Int → Nat → Int → Int
  | 0, _, _, acc => acc
  | n + 1, term, k, acc =>
    let t := term * r / (2 ^ q * (k + 1 : Int))
    expSeries q r n t (k + 1) (acc + t)

/-- Floor of `g / ln 2` from a bound on ln 2. -/
def divLn2 (q : Nat) (m e : Int) (l : Nat) : Int :=
  if 0 ≤ e then m * 2 ^ (e.toNat + q) / l else m * 2 ^ q / (l * 2 ^ (-e).toNat)

/-- The floor of `g * log2 e` for a finite non-zero `g = m * 2 ^ e` below `2 ^ 40` in magnitude. -/
def floorLog2e (m e : Int) : Int :=
  let q := 400
  divLn2 q m e (ln2Fixed q + 1)

/-- A value above every format's range, and one below every format's smallest, neither representable (R69). -/
def hugeVal : Val := .ofDy (2 ^ 60 + 1) 400

/-- A positive value below half of every format's smallest. -/
def tinyVal : Val := .ofDy 1 (-1000)

/-- `e ^ a * 2 ^ -m` between two bounds at precision `q`, for a finite non-zero `a`. -/
def expBounds (q : Nat) (m e sh : Int) : Val × Val :=
  let l : Int := ln2Fixed q
  let a : Int := if 0 ≤ e then m * 2 ^ (e.toNat + q) else m * 2 ^ q / 2 ^ (-e).toNat
  let n := (a + l / 2) / l
  let r := a - n * l
  let v := 2 ^ q + expSeries q r (q / 2) (2 ^ q) 0 0
  let err : Int := 2 ^ (q / 2)
  (.ofDy (v - err) (n - sh - q), .ofDy (v + err) (n - sh - q))

/-- The rounding of `e ^ a * 2 ^ -m` where both bounds at some precision round alike (R139). -/
def expRound (f : Fmt) (m e sh : Int) : List Nat → Nat × Flags
  | [] => roundF f 0 (expBounds 4000 m e sh).1 .rne 0
  | q :: qs =>
    let b := expBounds q m e sh
    let lo := roundF f 0 b.1 .rne 0
    if lo = roundF f 0 b.2 .rne 0 then lo else expRound f m e sh qs

/-- `round(e ^ a * 2 ^ -m, RNE)` (R139). -/
def expScaled (f : Fmt) (a : Val) (sh : Int) : Nat × Flags :=
  match a with
  | .nan => roundF f 0 .nan .rne 0
  | .inf true => roundF f 0 (.zero false) .rne 0
  | .inf false => roundF f 0 (.inf false) .rne 0
  | .fin _ m e =>
    let far (d : Int) : Option Val := if 300 < d then some hugeVal else if d < -500 then some tinyVal else none
    if m = 0 then roundF f 0 (.ofDy 1 (max (-1000) (min 1000 (-sh)))) .rne 0
    else
      let big := dyLog2 m e > 40
      let d : Int := if big then (if m < 0 then -(2 ^ 40) else 2 ^ 40) else floorLog2e m e - sh
      match far d with
      | some v => roundF f 0 v .rne 0
      | none => expRound f m e sh [300, 700, 2000]

/-- `ceil(g * log2 e)` for a finite value; far values are clamped at `2 ^ 41` (R138). -/
def ceilLog2e (m e : Int) : Int :=
  if m = 0 then 0
  else if dyLog2 m e > 40 then (if m < 0 then -(2 ^ 41) else 2 ^ 41)
  else floorLog2e m e + 1

end Sys2Proof.Machine
end

