-- ==== Sys2Proof/Machine/Stats.lean ====
section
/-! DEFINITION. Row and column statistics, the scaled exponential and RMS normalisation (R136 to R141). -/

namespace Sys2Proof.Machine

/-- Element (i, j) of a whole source of a statistic, NEG applied (R136). -/
def Env.whole (e : Env) (f : Fmt) (k : Nat) (o : Opnd) (i j : Nat) : Val :=
  let code := (e.src f k o).at 0 0 f.bits 64 ⟨i, j, j⟩
  f.value 0 (if o.neg then negCode f code else code)

/-- The contributors of a row or of a column: the unmasked positions (R137). -/
def contributors (e : Env) (a : VArgs) (col : Bool) (n : Nat) : List Val :=
  let t := a.fmt
  let len := if col then e.c.nr else e.c.nc t.bits
  (List.range len).filterMap (fun q =>
    let i := if col then q else n
    let j := if col then n else q
    if maskOn (a.mask e.c) i j then some (e.whole t 1 a.o1 i j) else none)

/-- The format of a reduction's result. -/
def statFmt (a : VArgs) : Fmt := if (a.fmt).float?.isSome then .fp32 else .int32

/-- A reduction: the result of each row or column at its place (R136, R137); nothing where the view has no element
(R107). -/
def reduce (a : VArgs) (e : Env) (col : Bool) (f : List Val → Val) : SlotOut :=
  let n := if col then e.c.nc a.fmt.bits else e.c.nr
  let res := (List.range n).map (fun q => (q, roundF (statFmt a) 0 (f (contributors e a col q)) .rne 0))
  let ws : List FieldWr := res.map (fun r => ⟨(if col then 32 else 512) * r.1, 32, r.2.1⟩)
  let fl := res.foldl (fun f r => f.join r.2.2) Flags.none
  if e.c.nc a.fmt.bits = 0 then .ok id else .ok (fun s => (s.onCtx (fun c => c.wts a.dests ws)).raise fl)

/-- The extreme of contributors under an order, from its identity (R137). -/
def extremeOf (a : VArgs) (f : Val → Val → Val) (largest : Bool) (vs : List Val) : Val :=
  match vs with
  | [] =>
    if (a.fmt).float?.isSome then .inf largest
    else .ofInt (if largest then -2147483648 else 2147483647)
  | v :: vs => vs.foldl f v

/-- Row sums (R137). -/
def slotVrsum (a : VArgs) (e : Env) : SlotOut :=
  reduce a e false Val.sum

/-- Column sums (R137). -/
def slotVcsum (a : VArgs) (e : Env) : SlotOut :=
  reduce a e true Val.sum

/-- Row maxima (R137). -/
def slotVrmax (a : VArgs) (e : Env) : SlotOut :=
  reduce a e false (extremeOf a valMax true)

/-- Column maxima (R137). -/
def slotVcmax (a : VArgs) (e : Env) : SlotOut :=
  reduce a e true (extremeOf a valMax true)

/-- Row minima (R137). -/
def slotVrmin (a : VArgs) (e : Env) : SlotOut :=
  reduce a e false (extremeOf a valMin false)

/-- Column minima (R137). -/
def slotVcmin (a : VArgs) (e : Env) : SlotOut :=
  reduce a e true (extremeOf a valMin false)

/-- An INT32 row statistic (R136). An immediate converts as INT32, and an image gives its first word to every row (the
model's choice, log 23). -/
def Env.rowInt (e : Env) (k : Nat) (o : Opnd) (i : Nat) : Int :=
  (BitVec.ofNat 32 ((e.src .int32 k o).at 0 0 32 64 ⟨i, 0, 0⟩)).toInt

/-- The new exponent of one row (R138). -/
def emaxRow (vs : List Val) (mo : Int) : Nat × Flags :=
  if vs.any (·.isNan) then (((BitVec.ofInt 32 mo).toNat), .invalid)
  else
    match vs with
    | [] => ((BitVec.ofInt 32 mo).toNat, .none)
    | v :: vs =>
      match vs.foldl valMax v with
      | .inf true => ((BitVec.ofInt 32 mo).toNat, .none)
      | .fin _ m e =>
        let x := max mo (ceilLog2e m e)
        if 2147483647 < x then (2147483647, { sats := 1 }) else ((BitVec.ofInt 32 x).toNat, .none)
      | _ => (2147483647, { sats := 1 })

/-- VEMAX (R138); nothing where the view has no element (R107). -/
def slotVemax (a : VArgs) (e : Env) : SlotOut :=
  let res := (List.range e.c.nr).map (fun i => (i, emaxRow (contributors e a false i) (e.rowInt 2 a.o2 i)))
  let ws : List FieldWr := res.map (fun r => ⟨512 * r.1, 32, r.2.1⟩)
  let fl := res.foldl (fun f r => f.join r.2.2) Flags.none
  if e.c.nc a.fmt.bits = 0 then .ok id else .ok (fun s => (s.onCtx (fun c => c.wts a.dests ws)).raise fl)

/-- An element-wise operation on whole operands. -/
def wholeMap (e : Env) (a : VArgs) (f : Nat → Nat → Nat × Flags) : SlotOut :=
  elementwise e a a.fmt.bits [] (fun _ q => f q.i q.j)

/-- VEXPS (R139). -/
def slotVexps (a : VArgs) (e : Env) : SlotOut :=
  wholeMap e a (fun i j => expScaled a.fmt (e.whole a.fmt 1 a.o1 i j) (e.rowInt 2 a.o2 i))

/-- VRESC (R140); a difference beyond every format's range acts as the end of the range. -/
def slotVresc (a : VArgs) (e : Env) : SlotOut :=
  wholeMap e a (fun i j =>
    let d := e.rowInt 2 a.o2 i - e.rowInt 3 a.o3 i
    roundF a.fmt 0 ((e.whole a.fmt 1 a.o1 i j).scale (max (-1000) (min 1000 d))) .rne 0)

/-- `eps` of R141. -/
def epsOf (n : Nat) : Val := if n = 0 then .zero false else .ofDy 1 (-(n : Int))

/-- The mean square plus eps, rounded: `r` of R141. -/
def rmsR (vs : List Val) (eps : Val) : Nat × Flags :=
  let n := Val.ofInt vs.length
  let num := (Val.sum (vs.map (fun v => v.mul v))).add (eps.mul n)
  let q := if num.isFin then ratVal num n else num
  roundF .fp32 0 q .rne 0

/-- `s` of R141 from the code of `r`. -/
def rmsS (r : Nat) : Nat × Flags :=
  match fp32Val r with
  | .nan => roundF .fp32 0 .nan .rne 0
  | .inf _ => roundF .fp32 0 (.zero false) .rne 0
  | .fin s m x =>
    if m = 0 then (Fmt.fp32.infCode false, { dz := true }) else roundF .fp32 0 (invSqrt (.fin s m x)) .rne 0
where
  /-- The value of an FP32 code. -/
  fp32Val (c : Nat) : Val := Fmt.fp32.value 0 c

/-- VRMS (R141). -/
def slotVrms (a : VArgs) (e : Env) : SlotOut :=
  let t := a.fmt
  let nc := e.c.nc t.bits
  let ctl := a.o3.ctl
  let rows := (List.range e.c.nr).map (fun i =>
    let r := rmsR ((List.range nc).map (e.whole t 1 a.o1 i)) (epsOf (bits ctl 0 6))
    let s := rmsS r.1
    (s.1, r.2.join s.2))
  let els := (extent 0 0 e.c.nr nc).map (fun q =>
    let s := Fmt.fp32.value 0 ((rows.map (·.1)).getD q.i 0)
    let g := e.whole t 2 a.o2 0 q.j
    (q, roundF t 0 (((e.whole t 1 a.o1 q.i q.j).mul s).mul g) .rne 0))
  let (ws, fl) := maskedWrites (a.mask e.c) a.o0.zer t.bits els
  let rf := if nc = 0 then Flags.none else rows.foldl (fun f r => f.join r.2) Flags.none
  let stat : List FieldWr := rows.zipIdx.map (fun r => ⟨512 * r.2, 32, r.1.1⟩)
  .ok (fun s =>
    (s.onCtx (fun c =>
      let c1 := c.wts a.dests ws
      if bits ctl 6 1 = 1 ∧ nc ≠ 0 then c1.wts (a.dest a.o4) stat else c1)).raise (fl.join rf))

end Sys2Proof.Machine
end

