-- ==== Sys2Proof/Machine/Sfu.lean ====
section
/-! DEFINITION. The special-function unit: table slots, SFEV and its shadow (R127 to R135). -/

namespace Sys2Proof.Machine

/-- A table: header in the low 32 bytes, segments above (R127, R128). -/
abbrev SfuTable := BitVec 8448

/-- `n` bytes at a byte offset of a table. -/
def sfuField (t : SfuTable) (off n : Nat) : Nat := bits t.toNat (8 * off) (8 * n)

/-- Is a header valid (R128). -/
def sfuHeaderOk (t : SfuTable) : Bool :=
  let lo := fp32v (sfuField t 0 4)
  let hi := fp32v (sfuField t 4 4)
  let n := sfuField t 8 1
  let mode := sfuField t 9 1
  let e0 := sfuField t 10 1
  let pol := sfuField t 11 1
  decide (1 ≤ n ∧ n ≤ 64) && decide (mode ≤ 1) && decide (bits pol 2 2 ≠ 3) && decide (bits pol 6 2 = 0)
    && decide (sfuField t 20 12 = 0)
    && (if mode = 0 then lo.isFin && hi.isFin && lo.lt hi && decide (e0 = 0)
        else decide (sfuField t 0 4 = 0 ∧ sfuField t 4 4 = 0 ∧ e0 ≤ 254))

/-- Where an argument falls: below or above the domain, or in a segment at `t`. -/
inductive Region where
  | below
  | above
  | inside (seg : Nat) (t : Nat) (fl : Flags)
  deriving DecidableEq, Repr

/-- The biased FP32 exponent of a value (R130). -/
def biasedExp (v : Val) : Nat :=
  match v with
  | .fin _ m e => if m = 0 then 0 else (max 0 (dyLog2 m e + 127)).toNat
  | _ => 255

/-- The region of a value in uniform mode (R130). -/
def uniformRegion (t : SfuTable) (x : Val) : Region :=
  let lo := fp32v (sfuField t 0 4)
  let hi := fp32v (sfuField t 4 4)
  let n := sfuField t 8 1
  match x with
  | .inf true => .below
  | .inf false => .above
  | x =>
    let num := (x.sub lo).mul (.ofInt n)
    let den := hi.sub lo
    if num.lt (.zero false) then .below
    else if (den.mul (.ofInt n)).lt num then .above
    else
      let s := min (ratFloor num den).toNat (n - 1)
      let r := roundF .fp32 0 (ratVal (num.sub (den.mul (.ofInt s))) den) .rne 0
      .inside s r.1 r.2

/-- The region of a value in exponent mode (R130). -/
def exponentRegion (t : SfuTable) (x : Val) : Region :=
  let n := sfuField t 8 1
  let e0 := sfuField t 10 1
  let be := biasedExp x
  if x = .inf false ∨ e0 + n ≤ be then .above
  else if be < e0 ∨ x.lt (.zero false) then .below
  else
    let tv := if be = 0 then x.scale 126 else (x.scale (127 - (be : Int))).sub (.ofInt 1)
    let r := roundF .fp32 0 tv .rne 0
    .inside (be - e0) r.1 r.2

/-- One fused multiply-add of the Horner evaluation. -/
def hornerStep (p t : Nat × Flags) (c : Nat) : Nat × Flags :=
  let r := roundF .fp32 0 (((fp32v p.1).mul (fp32v t.1)).add (fp32v c)) .rne 0
  (r.1, p.2.join r.2)

/-- The cubic of a segment at `t` (R130). -/
def sfuCubic (tb : SfuTable) (seg : Nat) (t : Nat) (fl : Flags) : Nat × Flags :=
  let c (k : Nat) := sfuField tb (32 + 16 * seg + 4 * k) 4
  hornerStep (hornerStep (hornerStep (c 3, fl) (t, .none) (c 2)) (t, .none) (c 1)) (t, .none) (c 0)

/-- One element of SFEV before its final rounding: the value and the flags so far (R130). -/
def sfuEval (tb : SfuTable) (x0 : Val) : Val × Flags :=
  let pol := sfuField tb 11 1
  let n := sfuField tb 8 1
  if n = 0 ∨ x0.isNan then (.nan, .invalid)
  else if bits pol 5 1 = 1 ∧ x0.lt (.zero false) then (.nan, .invalid)
  else
    let sym := bits pol 2 2
    let x := if sym ≠ 0 then x0.abs else x0
    let y : Val × Flags :=
      if bits pol 4 1 = 1 ∧ x.isZero then (.inf x.sign, { dz := true })
      else
        match (if sfuField tb 9 1 = 0 then uniformRegion tb x else exponentRegion tb x) with
        | .below =>
          if bits pol 0 1 = 1 then (fp32v (sfuField tb 12 4), .none)
          else let r := sfuCubic tb 0 0 .none; (fp32v r.1, r.2)
        | .above =>
          if bits pol 1 1 = 1 then (fp32v (sfuField tb 16 4), .none)
          else let r := sfuCubic tb (n - 1) 0x3F800000 .none; (fp32v r.1, r.2)
        | .inside s t fl => let r := sfuCubic tb s t fl; (fp32v r.1, r.2)
    if sym = 1 ∧ x0.sign then (y.1.neg, y.2) else y

/-- SFLD (R129). An immediate fills every word as FP32, and an image stands as row 0 over zeros (the model's choice, log
23). -/
def slotSfld (a : VArgs) (e : Env) : SlotOut :=
  let tileOf (k : Nat) (o : Opnd) : Tile := match e.src .fp32 k o with
    | .tile t _ => t
    | .const v => (List.range 256).foldl (fun m i => setField m (32 * i) 32 v) 0
    | .image i => i.setWidth 8192
  let h := (tileOf 2 a.o2).extractLsb' 0 256
  let t : SfuTable := tileOf 1 a.o1 ++ h
  if sfuHeaderOk t then .ctx (fun c => { c with sfu := c.sfu.set (a.o3.ctl % 4) t (Nat.mod_lt _ (by decide)) })
  else .fault Cause.sftbl

/-- Entries that unlanded SFEVs will push (R134). -/
def Ctx.qsPending (c : Ctx) : Nat := c.shadow.foldl (fun n l => n + l.qs.length) 0

/-- SFEV (R131): the results wait in the shadow until their landing point (R133); nothing where the view has no element
(R107). -/
def slotSfev (a : VArgs) (e : Env) : SlotOut :=
  let c := e.c
  let t := a.fmt
  let ctl := a.o2.ctl
  let tb := c.sfu[ctl % 4]
  let mode := Rm.ofCode c.arith (bits ctl 2 2)
  let nr := c.nr
  let nc := c.nc t.bits
  let dq := bits ctl 4 1 = 1
  let k := a.line.toNat
  let dd := if dq then 0 else a.o0.dir.toNat
  let src := e.src t 1 a.o1
  if !lineValid dd k nr nc || !src.fits dd k nr nc then .fault Cause.vline
  else if nc = 0 then .ok id
  else
    let els := (extent dd k nr nc).map (fun q =>
      let code := src.atPos dd k t.bits nc q
      let y := sfuEval tb (t.value 0 (if a.o1.neg then negCode t code else code))
      let r := roundF t 0 y.1 mode (e.sr (q.i * nc + q.j))
      (q, r.1, y.2.join r.2))
    let (ws, fl) := maskedWrites (a.mask c) (if dq then false else a.o0.zer) t.bits els
    let lands (l : Landing) : SlotOut := .ctx (fun c => { c with shadow := c.shadow ++ [l] })
    if dq then
      let pops := (e.named.filter (· = 2)).length
      if 16 + pops < c.qs.length + c.qsPending + nr then .fault Cause.qsovf
      else
        let full := applyWrites 0 ws
        let rows := (List.range nr).map (fun i => full.extractLsb' (512 * i) 512)
        lands { at_ := c.tau + 12, dests := [], writes := [], qs := rows, flags := fl }
    else lands { at_ := c.tau + 12, dests := a.dests, writes := ws, qs := [], flags := fl }

/-- A landing takes effect (R133). -/
def State.land (s : State) (l : Landing) : State :=
  (s.onCtx (fun c => { (c.wts l.dests l.writes) with qs := c.qs ++ l.qs })).raise l.flags

/-- Landings that are due at the present tau, in the order of their landing points (R133). -/
def Ctx.due (c : Ctx) : List Landing := c.shadow.filter (fun l => decide (l.at_ ≤ c.tau))

/-- Every landing that is due takes effect (R133). -/
def State.landDue (s : State) : State :=
  let ls := s.core.ctx.due
  ls.foldl (fun s l => s.land l) (s.onCtx (fun c => { c with shadow := c.shadow.filter (fun l => decide (c.tau < l.at_)) }))

/-- Every landing takes effect (R45, R135). -/
def State.landAll (s : State) : State :=
  s.core.ctx.shadow.foldl (fun s l => s.land l) (s.onCtx (fun c => { c with shadow := [] }))

end Sys2Proof.Machine
end

