-- ==== Sys2Proof/Machine/Rsk.lean ====
section
/-! DEFINITION. The remainder stack and the reversible forms (R189 to R205). -/

namespace Sys2Proof.Machine

/-! ### The on-core part (R195 to R197) -/

/-- Bytes of a chunk. -/
def chunkSize : Nat := 65536

/-- A fault of a spill or fill names the chunk (R196). -/
def rskFail {α : Type} (chunk : Word) (x : Chk α) : Chk α :=
  match x with
  | .ok a => .ok a
  | .error t => if t.isHold then .error t else failAt Cause.rskspl chunk

/-- Entry bytes from an address up to a limit as the on-core part holds them. -/
def Ctx.rskBytes (c : Ctx) (from_ n : Nat) : List Byte := c.rskCore.readN from_ n

/-- The bytes `[from, to)` of the on-core part written to the segment; the descriptor is no part of them. -/
def State.spillRange (s : State) (from_ last : Word) : Chk State :=
  let c := s.core.ctx
  let lo := max from_.toNat (c.rskb.toNat + 64)
  if last.toNat ≤ lo then .ok s
  else rskFail from_ (ioWrite s s.runOf.ctx none (BitVec.ofNat 64 lo) (c.rskBytes lo (last.toNat - lo)))

/-- One chunk spilled: RSKS moves up (R195). -/
def State.spillChunk (s : State) : Chk State := do
  let c := s.core.ctx
  let next := c.rsks + 65536
  let s1 ← s.spillRange c.rsks next
  .ok (s1.onCtx (fun c => { c with rsks := next, rskCore := Tbl.drop c.rskCore (fun a => decide (a < next.toNat)) }))

/-- The bytes of the chunk at `base` below a limit read into the on-core part. -/
def State.fillBelow (s : State) (base limit : Word) : Chk State :=
  let c := s.core.ctx
  let lo := max base.toNat (c.rskb.toNat + 64)
  let hi := min (base.toNat + chunkSize) limit.toNat
  if hi ≤ lo then .ok s
  else do
    let bs ← rskFail base (ioRead s s.runOf.ctx none (BitVec.ofNat 64 lo) (hi - lo))
    .ok ((s.noteIo s.runOf.ctx none (BitVec.ofNat 64 lo) (hi - lo)).onCtx (fun c =>
      { c with rskCore := c.rskCore.writeN lo bs }))

/-- One chunk filled: RSKS moves down (R195). -/
def State.fillChunk (s : State) : Chk State := do
  let base := s.core.ctx.rsks - 65536
  let s1 ← s.fillBelow base s.core.ctx.rsks
  .ok (s1.onCtx (fun c => { c with rsks := base, rskFill := false }))

/-- The on-core bytes from a chunk on written chunk by chunk; the chunk that faults is named, those before it stay done
(R196). -/
def spillFrom : Nat → Word → State → State × Option Word
  | 0, _, s => (s, none)
  | fuel + 1, chunk, s =>
    if s.core.ctx.rskp.toNat ≤ chunk.toNat then (s, none)
    else
      match s.spillRange chunk (BitVec.ofNat 64 (min (chunk.toNat + chunkSize) s.core.ctx.rskp.toNat)) with
      | .ok s1 => spillFrom fuel (chunk + 65536) s1
      | .error t => (s, some t.addr)

/-- Every on-core entry byte written to the segment (R197). -/
def State.spillAll (s : State) : State × Option Word := spillFrom 17 s.core.ctx.rsks s

/-- What a spill or fill did, with the engine's trap where a chunk faulted (R196). -/
def rskDone : State × Option Word → State
  | (s, none) => s
  | (s, some chunk) => s.rskTrap chunk

/-- One spill or fill: its effect, or its trap (R196); none while no request entry is free (R242). -/
def State.orRskTrap (s : State) (x : Chk State) : Option State :=
  if !engineFree s then none
  else match x with
    | .ok s' => some s'
    | .error t => t.unlessHold (s.rskTrap t.addr)

/-- May RSKSP and RSKFL move chunks: a request entry is free, and no store that has left the queue is to write what a fill
would read (R237, R242). -/
def State.stackFree (s : State) : Bool := engineFree s && !s.core.storeQ.any (·.left)

/-- Bytes on core (R195). -/
def Ctx.rskOcc (c : Ctx) : Nat := (c.rskp - c.rsks).toNat

/-- May a chunk be spilled: occupancy above 7/8, no trap of the engine pending (R195). -/
def State.spillDue (s : State) : Bool :=
  decide (917504 < s.core.ctx.rskOcc) && s.core.ctx.engTraps.isEmpty

/-- Is occupancy below 1/8, with something below RSKS (R195). -/
def Ctx.rskLow (c : Ctx) : Bool := decide (c.rskOcc < 131072 ∧ c.rskb.toNat < c.rsks.toNat)

/-- May a chunk be filled: once for a pop that has committed, or for one that waits (R195). -/
def State.fillDue (s : State) : Bool := s.core.ctx.rskFill && s.core.ctx.rskLow && s.core.ctx.engTraps.isEmpty

/-- Chunks spilled while occupancy exceeds `n` chunks and another chunk than RSKP's is on core (R205). -/
def spillDown (n : Nat) : Nat → State → State × Option Word
  | 0, s => (s, none)
  | fuel + 1, s =>
    let c := s.core.ctx
    if n * chunkSize < c.rskOcc ∧ c.rsks ≠ chunkOf c.rskp then
      match s.spillChunk with
      | .ok s1 => spillDown n fuel s1
      | .error t => (s, some t.addr)
    else (s, none)

/-- Chunks filled up to `n` chunks, never beyond 7/8 (R205). -/
def fillUp (n : Nat) : Nat → State → State × Option Word
  | 0, s => (s, none)
  | fuel + 1, s =>
    let c := s.core.ctx
    if c.rskOcc < n * chunkSize ∧ c.rskb.toNat < c.rsks.toNat ∧ c.rskOcc + chunkSize ≤ 917504 then
      match s.fillChunk with
      | .ok s1 => fillUp n fuel s1
      | .error t => (s, some t.addr)
    else (s, none)

/-! ### Push and pop (R191 to R194) -/

/-- The tile identifier of an operand (R191). -/
def tidOf (o : Opnd) : Nat := o.lvl.toNat * 2 ^ 11 + o.idx.toNat

/-- The tag of an entry (R191). -/
def rskTag (cls tid w sz nrm1 nbm1 param seq : Nat) : Nat :=
  cls + tid * 2 ^ 4 + w * 2 ^ 17 + sz * 2 ^ 22 + nrm1 * 2 ^ 32 + nbm1 * 2 ^ 36 + param % 64 * 2 ^ 42
    + seq % 65536 * 2 ^ 48

/-- A push of an entry, with what else the form does at commit (R192, R193, R195). -/
def rskPush (e : Env) (cls tid w param : Nat) (shaped : Bool) (payload : List Nat) (k : State → State) : SlotOut :=
  let c := e.c
  let sz := 1 + (payload.length * w + 63) / 64
  let next := c.rskp + BitVec.ofNat 64 (8 * sz)
  if c.rskl.toNat < c.rskp.toNat + 8 * sz then .fault Cause.rskovf 0 c.rskp
  else if 1048576 < (next - c.rsks).toNat then .wait
  else
    let nrm1 := if shaped then c.nr - 1 else 0
    let nbm1 := if shaped then c.nb - 1 else 0
    let bs := toBytes (8 * (sz - 1)) (packCodes w payload) ++ toBytes 8 (rskTag cls tid w sz nrm1 nbm1 param c.nseq)
    .ok (fun s => (k s).onCtx (fun d =>
      { d with rskp := next, nseq := c.nseq + 1, rskCore := d.rskCore.writeN c.rskp.toNat bs }))

/-- The top entry's tag. -/
def Ctx.topTag (c : Ctx) : Nat := ofBytes (c.rskBytes (c.rskp.toNat - 8) 8)

/-- Does the top entry of a segment that is not empty begin below RSKS (R195). -/
def Ctx.topBelow (c : Ctx) : Bool :=
  decide (c.rskp ≠ c.rskb + 64) &&
    (decide (c.rskp.toNat < c.rsks.toNat + 8) || decide (c.rskp.toNat - 8 * bits c.topTag 22 10 < c.rsks.toNat))

/-- An undo: the checks of R194 in order, then `k` on PARAM and the payload's elements, which answers `none` for
VALUE or what the form does at commit beside the pop. -/
def rskPop (e : Env) (cls tid n : Nat) (param : Option Nat) (shaped : Bool)
    (k : Nat → List Nat → Option (State → State)) : SlotOut :=
  let c := e.c
  if c.rskp = c.rskb + 64 then .fault Cause.rskord 0
  else if c.rskp.toNat < c.rsks.toNat + 8 then .wait
  else
    let tag := c.topTag
    let w := bits tag 17 5
    let sz := bits tag 22 10
    let pm := bits tag 42 6
    let start := c.rskp.toNat - 8 * sz
    if bits tag 0 4 ≠ cls ∨ (param.getD pm) ≠ pm then .fault Cause.rskord 1
    else if bits tag 4 13 ≠ tid then .fault Cause.rskord 2
    else if shaped ∧ (bits tag 32 4 ≠ c.nr - 1 ∨ bits tag 36 6 ≠ c.nb - 1) then .fault Cause.rskord 3
    else if bits tag 48 16 ≠ (c.nseq + 65535) % 65536 ∨ sz ≠ 1 + (n * w + 63) / 64 ∨
        c.rskp.toNat < c.rskb.toNat + 64 + 8 * sz then .fault Cause.rskord 4
    else if start < c.rsks.toNat then .wait
    else
      match k pm (unpackCodes w n (ofBytes (c.rskBytes start (8 * (sz - 1))))) with
      | none => .fault Cause.rskord 5
      | some f =>
        .ok (fun s => (f s).onCtx (fun d =>
          let d1 := { d with rskp := c.rskp - BitVec.ofNat 64 (8 * sz), nseq := c.nseq - 1,
                             rskCore := Tbl.drop d.rskCore (fun a => decide (start ≤ a)) }
          { d1 with rskFill := d1.rskLow }))

/-! ### The pairs (R199 to R203) -/

/-- Positions of a whole extent at an element width. -/
def Env.grid (e : Env) (w : Nat) : List Pos := extent 0 0 e.c.nr (e.c.nc w)

/-- A tile operand's element of a width, from the snapshot (R199). -/
def Env.tileEl (e : Env) (o : Opnd) (w : Nat) (q : Pos) : Nat := tileField (e.c.rt o.tile) (512 * q.i + w * q.j) w

/-- Elements of a width written to a tile. -/
def putEls (o : Opnd) (w : Nat) (els : List (Pos × Nat)) (s : State) : State :=
  s.onCtx (fun c => c.wt o.tile (els.map (fun q => ⟨512 * q.1.i + w * q.1.j, w, q.2⟩)))

/-- What a forward form does to one element: result, payload, flags. -/
structure Fwd where
  y : Nat
  bits : Nat
  fl : Flags := .none
  deriving DecidableEq, Repr

/-- A forward form: `sw` governs the extent, `dw` the destination (R192, R193). -/
def rskForward (a : VArgs) (e : Env) (cls w param sw dw : Nat) (f : Pos → Fwd) : SlotOut :=
  let els := (e.grid sw).map (fun q => (q, f q))
  let fl := els.foldl (fun g q => g.join q.2.fl) Flags.none
  rskPush e cls (tidOf a.o0) w param true (els.map (fun q => q.2.bits))
    (fun s => (putEls a.o0 dw (els.map (fun q => (q.1, q.2.y))) s).raise fl)

/-- An undo form: `f` gives an element from PARAM, its payload and its position, or VALUE (R194). -/
def rskUndo (a : VArgs) (e : Env) (cls : Nat) (param : Option Nat) (sw dw : Nat)
    (f : Nat → Nat → Pos → Option Nat) : SlotOut :=
  let grid := e.grid sw
  rskPop e cls (tidOf a.o1) grid.length param true (fun pm payload =>
    ((grid.zip payload).mapM (fun q => (f pm q.2 q.1).map (fun x => (q.1, x)))).map (fun els => putEls a.o0 dw els))

/-- RNRW of one element (R200). -/
def rnrwEl (x : Nat) : Fwd :=
  let v := Fmt.fp32.value 0 x
  let r := roundF .bf16 0 v .rne 0
  let up := if v.isFin then (if r.1 ≠ x / 65536 then 1 else 0)
    else if v.isNan ∧ bits x 16 7 = 0 then 1 else 0
  { y := (x / 65536 + up) % 65536, bits := up * 65536 + x % 65536,
    fl := if v.isNan then .invalid else { r.2 with sats := 0 } }

/-- RNRW (R200). -/
def slotRnrw (a : VArgs) (e : Env) : SlotOut :=
  rskForward a e 1 17 0 32 16 (fun q => rnrwEl (e.tileEl a.o1 32 q))

/-- UNRW (R200). -/
def slotUnrw (a : VArgs) (e : Env) : SlotOut :=
  rskUndo a e 1 (some 0) 32 32 (fun _ b q =>
    let y := e.tileEl a.o1 16 q
    let up := b / 65536 % 2
    if up = 1 ∧ (y = 0 ∨ y = 0x8000) then none
    else some ((y + 65536 - up) % 65536 * 65536 + b % 65536))

/-- A Q16 code's value. -/
def q16 (c : Nat) : Int := (BitVec.ofNat 16 c).toInt

/-- A value's Q16 code, wrapped. -/
def q16c (v : Int) : Nat := (BitVec.ofInt 16 v).toNat

/-- An element that wrapped or left int16: OF and one saturation event. -/
def wrapped (b : Bool) : Flags := if b then { of := true, sats := 1 } else .none

/-- RMULQ of one element (R201). -/
def rmulqEl (sh x m : Nat) : Fwd :=
  if q16 m = 0 then { y := 0, bits := x }
  else
    let p := (BitVec.ofInt 32 (q16 x * q16 m)).toNat
    let top := p / 2 ^ (sh + 15)
    { y := p / 2 ^ sh % 65536, bits := p % 2 ^ sh + p / 2 ^ (sh + 16) * 2 ^ sh,
      fl := wrapped (decide (top ≠ 0 ∧ top ≠ 2 ^ (17 - sh) - 1)) }

/-- UMULQ of one element (R201). -/
def umulqEl (sh b y m : Nat) : Option Nat :=
  if q16 m = 0 then some b
  else
    let p := (BitVec.ofNat 32 (b / 2 ^ sh * 2 ^ (sh + 16) + y * 2 ^ sh + b % 2 ^ sh)).toInt
    let x := p / q16 m
    if p % q16 m ≠ 0 ∨ x < -32768 ∨ 32767 < x then none else some (q16c x)

/-- RMULQ (R201). -/
def slotRmulq (a : VArgs) (e : Env) : SlotOut :=
  let sh := a.o3.ctl
  rskForward a e 2 16 sh 16 16 (fun q => rmulqEl sh (e.tileEl a.o1 16 q) (e.tileEl a.o2 16 q))

/-- UMULQ (R201). -/
def slotUmulq (a : VArgs) (e : Env) : SlotOut :=
  rskUndo a e 2 none 16 16 (fun sh b q => umulqEl sh b (e.tileEl a.o1 16 q) (e.tileEl a.o2 16 q))

/-- A BF16 difference rounded (R202). -/
def bf16Sub (y f : Nat) : Nat := (roundF .bf16 0 ((Fmt.bf16.value 0 y).sub (Fmt.bf16.value 0 f)) .rne 0).1

/-- RADDC (R202). -/
def slotRaddc (a : VArgs) (e : Env) : SlotOut :=
  let t := a.fmt
  let w := t.bits
  rskForward a e 3 (if t = .bf16 then 16 else 0) a.et.toNat w w (fun q =>
    let x := e.tileEl a.o1 w q
    let f := e.tileEl a.o2 w q
    if t = .bf16 then
      let r := roundF .bf16 0 ((Fmt.bf16.value 0 x).add (Fmt.bf16.value 0 f)) .rne 0
      { y := r.1, bits := (x + 65536 - bf16Sub r.1 f) % 65536, fl := r.2 }
    else { y := (x + f) % 2 ^ w, bits := 0 })

/-- UADDC (R202). -/
def slotUaddc (a : VArgs) (e : Env) : SlotOut :=
  let t := a.fmt
  let w := t.bits
  rskUndo a e 3 (some a.et.toNat) w w (fun _ b q =>
    let y := e.tileEl a.o1 w q
    let f := e.tileEl a.o2 w q
    some (if t = .bf16 then (bf16Sub y f + b) % 65536 else (y + 2 ^ w - f) % 2 ^ w))

/-- RLRLU (R203). -/
def slotRlrlu (a : VArgs) (e : Env) : SlotOut :=
  let s := a.o2.ctl
  rskForward a e 4 s s 16 16 (fun q =>
    let v := q16 (e.tileEl a.o1 16 q)
    if 0 ≤ v then { y := q16c v, bits := 0 } else { y := q16c (v / 2 ^ s), bits := (v % 2 ^ s).toNat })

/-- ULRLU (R203). -/
def slotUlrlu (a : VArgs) (e : Env) : SlotOut :=
  rskUndo a e 4 none 16 16 (fun s b q =>
    let y := e.tileEl a.o1 16 q
    if 0 ≤ q16 y then (if b ≠ 0 then none else some y) else some (q16c (q16 y * 2 ^ s + b)))

/-- RSCL of one element (R203). -/
def rsclEl (k : Int) (x : Nat) : Fwd :=
  let v := q16 x
  if 0 < k then
    let n := k.toNat
    let p := v * 2 ^ n
    { y := q16c p, bits := x / 2 ^ (16 - n), fl := wrapped (decide (p < -32768 ∨ 32767 < p)) }
  else
    let n := (-k).toNat
    { y := q16c (v / 2 ^ n), bits := x % 2 ^ n }

/-- USCL of one element (R203). -/
def usclEl (k : Int) (b y : Nat) : Option Nat :=
  if 0 < k then
    let n := k.toNat
    if y % 2 ^ n ≠ 0 then none else some ((b * 2 ^ (16 - n) + y / 2 ^ n) % 65536)
  else some (q16c (q16 y * 2 ^ (-k).toNat + b))

/-- RSCL (R203). -/
def slotRscl (a : VArgs) (e : Env) : SlotOut :=
  let k := (BitVec.ofNat 5 a.o2.ctl).toInt
  rskForward a e 5 k.natAbs (BitVec.ofInt 6 k).toNat 16 16 (fun q => rsclEl k (e.tileEl a.o1 16 q))

/-- USCL (R203). -/
def slotUscl (a : VArgs) (e : Env) : SlotOut :=
  rskUndo a e 5 none 16 16 (fun pm b q => usclEl (BitVec.ofNat 6 pm).toInt b (e.tileEl a.o1 16 q))

/-- RSKMK (R204). -/
def slotRskmk (a : VArgs) (e : Env) : SlotOut :=
  rskPush e 6 a.o1.ctl 0 0 false [] id

/-- RSKCK (R204). -/
def slotRskck (a : VArgs) (e : Env) : SlotOut :=
  rskPop e 6 a.o1.ctl 0 (some 0) false (fun _ _ => some id)

/-- RSKSP (R205). -/
def slotRsksp (a : VArgs) (e : Env) : SlotOut :=
  let n := a.o1.ctl
  if !e.s.stackFree then .wait
  else .ok (fun s => rskDone (match spillDown n 16 s with
    | (s1, none) => if n = 0 then s1.spillAll else (s1, none)
    | r => r))

/-- RSKFL (R205). -/
def slotRskfl (a : VArgs) (e : Env) : SlotOut :=
  if !e.s.stackFree then .wait
  else .ok (fun s => rskDone (fillUp a.o1.ctl 16 s))

end Sys2Proof.Machine
end

