-- ==== Sys2Proof/Machine/Tags.lean ====
section
/-! DEFINITION. The tag table (R206, R209, R217, R250). -/

namespace Sys2Proof.Machine

/-- The key of tag entry `slot` of a logical core. -/
def tagKey (lcore slot : Nat) : Nat := lcore * 8192 + slot

/-- A tag entry; invalid where none is listed (R207, R209). -/
def Mem.tag (m : Mem) (lcore slot : Nat) : BitVec 64 := m.tags.getD (tagKey lcore slot) 0

/-- A tag entry written. -/
def Mem.setTag (m : Mem) (lcore slot : Nat) (v : BitVec 64) : Mem :=
  { m with tags := m.tags.putD (tagKey lcore slot) 0 v }

/-- The slots of the running kernel's banks (R206). -/
def State.slots (s : State) : List Nat := (List.range (512 * s.runOf.banks)).map (fun i => 512 * s.runOf.bank0 + i)

/-- Is a slot among the kernel's banks (R206). -/
def State.slotIn (s : State) (slot : Nat) : Bool :=
  decide (512 * s.runOf.bank0 ≤ slot ∧ slot < 512 * (s.runOf.bank0 + s.runOf.banks))

/-- Does a tag entry hold the block of an address (R209). -/
def tagHolds (t : BitVec 64) (ea : Word) : Bool := t.getLsbD 0 && decide (t.extractLsb' 9 48 = ea.extractLsb' 9 48)

/-- The slot that holds the block of an address (R217). -/
def State.tagFind (s : State) (ea : Word) : Option Nat :=
  s.slots.find? (fun q => tagHolds (s.mem.tag s.runOf.lcore q) ea)

/-- V of an entry cleared. -/
def Mem.untag (m : Mem) (lcore slot : Nat) : Mem := m.setTag lcore slot (setField (m.tag lcore slot) 0 1 0)

/-- TAGL (R217). -/
def slotTagl (a : LArgs) (e : Env) : SlotOut :=
  .bind (e.c.ea a.ar) fun ea =>
  let v : Word := match e.s.tagFind ea with
    | some q => BitVec.ofNat 64 q
    | none => BitVec.allOnes 64
  .ctx (fun c => (c.wx a.dat.xreg v).stepA a.ar)

/-- TAGS (R217). -/
def slotTags (a : LArgs) (e : Env) : SlotOut :=
  .bind (e.eaAligned a 512) fun ea =>
  let x := (e.c.rx a.dat.xreg).toNat
  let lc := e.s.runOf.lcore
  if !e.s.slotIn x then .fault Cause.spmrng 0 ea
  else if e.s.slots.any (fun q => decide (q ≠ x) && tagHolds (e.s.mem.tag lc q) ea) then .fault Cause.tagdup 0 ea
  else
    let v : BitVec 64 := BitVec.ofNat 64 (1 + 2 * a.md 0 1 + 512 * (ea.extractLsb' 9 48).toNat)
    .ok (fun s => { s with mem := s.mem.setTag lc x v }.onCtx (fun c => c.stepA a.ar))

/-- TAGI by slot (R217). -/
def slotTagi (a : LArgs) (e : Env) : SlotOut :=
  let x := (e.c.rx a.dat.xreg).toNat
  if e.s.slotIn x then .ok (fun s => { s with mem := s.mem.untag e.s.runOf.lcore x })
  else .fault Cause.spmrng 0 (e.c.rx a.dat.xreg)

/-- TAGI by address (R217). -/
def slotTagiA (a : LArgs) (e : Env) : SlotOut :=
  .bind (e.c.ea a.ar) fun ea =>
  .ok (fun s =>
    let s1 := match e.s.tagFind ea with
      | some q => { s with mem := s.mem.untag e.s.runOf.lcore q }
      | none => s
    s1.onCtx (fun c => c.stepA a.ar))

/-- Does a 512-byte block match a signature (R247). -/
def blockMatches (sig : BitVec 256) (tag : BitVec 64) : Bool :=
  (List.range 4).any (fun i => sigMatches sig ((tag &&& ~~~(511 : BitVec 64)) + BitVec.ofNat 64 (128 * i)))

/-- ACQ on the tag table: V of every clean entry whose block matches, or of every clean entry (R250). -/
def State.acqTags (s : State) (sig : BitVec 256) (all : Bool) : State :=
  let lc := s.runOf.lcore
  { s with mem := s.slots.foldl (fun m q =>
      let t := m.tag lc q
      if t.getLsbD 0 && !t.getLsbD 1 && (all || blockMatches sig t) then m.untag lc q else m) s.mem }

end Sys2Proof.Machine
end

