-- ==== Sys2Proof/Machine/Sync.lean ====
section
/-! DEFINITION. The sync slot: MARK, FENCE, ACQ, REL, SSTEP, WAITA and WAITK (R243 to R250, R284, R288), and the events
of waiting (R282 to R284). -/

namespace Sys2Proof.Machine

/-- Commands of the running spar. -/
def State.ownCmds (s : State) : List Cmd := s.cmdsOf s.runOf.id

/-- Every engine command that the spar committed has completed (R245): copies, follow-ons, GLOG, MWLD, `mlat.load`. -/
def State.enginesDone (s : State) : Bool :=
  s.ownCmds.isEmpty && s.core.ctx.follow.isEmpty && !s.core.ctx.loading && !s.core.ctx.jobs.any (fun j => isLatLoad j || j.follow)

/-- Has every engine command of the spar read its source, the spills and fills that its stack calls for among them (R244). -/
def State.sourcesRead (s : State) : Bool :=
  s.ownCmds.all (·.sourceRead) && !s.core.ctx.loading && !s.spillDue && !s.fillDue

/-- MARK (R244): earlier engine reads are done, own stores are in the scratchpad or have left toward their home. -/
def slotMark (_ : YArgs) (e : Env) : SlotOut :=
  if e.s.sourcesRead && !queuedIn e.s (fun q => decide (q = .spm)) then
    .ok (fun s => s.leaveQueue (fun q => decide (q.seq < e.s.core.cmdSeq)))
  else .wait

/-- Does a store that is to leave the queue still wait to: a releasing one of CORE scope behind a store to the scratchpad
(R246). -/
def leaveHeld (q : List StoreEnt) (p : StoreEnt → Bool) : Bool :=
  q.any (fun e => p e && e.rel.isSome && decide (e.scope = 0) &&
    q.any (fun b => decide (b.seq < e.seq) && b.homes.any (fun h => decide (h.1 = .spm))))

/-- Are the earlier stores to the spaces of SMASK performed at a scope: at CORE scope a store to memory needs only to leave
the queue, which it does at the commit (R237, R245). -/
def fenceMet (s : State) (mask : BitVec 4) (scope : Nat) : Bool :=
  !queuedIn s (fun sp => inMask mask sp && (decide (sp = .spm) || decide (scope ≠ 0))) &&
    !(decide (scope = 0) && leaveHeld s.core.storeQ (fun e => e.homes.any (fun h => inMask mask h.1)))

/-- What a fence of CORE scope does at its commit: the stores that it orders leave the queue. -/
def State.fenced (s : State) (mask : BitVec 4) (scope seq : Nat) : State :=
  if scope = 0 then s.leaveQueue (fun q => decide (q.seq < seq) && q.homes.any (fun h => inMask mask h.1)) else s

/-- FENCE (R245): loads have their values at issue, so only stores and engines are waited for. -/
def slotFence (a : YArgs) (e : Env) : SlotOut :=
  let kind := bits a.sarg.toNat 0 2
  let stores := decide (kind = 2) || fenceMet e.s a.smask a.scope.toNat
  let engines := decide (bits a.sarg.toNat 2 1 = 0) || e.s.enginesDone
  if stores && engines then
    .ok (fun s => if kind = 2 then s else s.fenced a.smask a.scope.toNat e.s.core.cmdSeq)
  else .wait

/-- REL (R248): RSIG takes WSIG, and with NEW the replacing mark. -/
def slotRel (a : YArgs) (e : Env) : SlotOut :=
  let engines := decide (bits a.sarg.toNat 2 1 = 0) || e.s.enginesDone
  if fenceMet e.s a.smask a.scope.toNat && engines then
    .ok (fun s => (s.fenced a.smask a.scope.toNat e.s.core.cmdSeq).onCtx (fun c => { c with kept := { c.kept with
      rsig := c.kept.rsig ||| c.kept.wsig, wsig := 0, rsigNew := c.kept.rsigNew || decide (bits a.sarg.toNat 0 1 = 1) } }))
  else .wait

/-- Does a read copy match a signature by a virtual sector that it was read through (R247, R250; log 18). -/
def Mem.copyMatches (m : Mem) (sig : BitVec 256) (k : Nat) : Bool :=
  (m.copyVas.getD k []).any (fun v => sigMatches sig (BitVec.ofNat 64 (128 * v)))

/-- ACQ (R250): clean tag entries and read copies that match ASIG go, or with ALL every one. -/
def slotAcq (a : YArgs) (_ : Env) : SlotOut :=
  let all := decide (bits a.sarg.toNat 0 1 = 1)
  .ok (fun s =>
    let sig := s.core.ctx.kept.asig
    let s1 := if inMask a.smask .spm then s.acqTags sig all else s
    let named (k : Nat) : Bool := if k < 2 ^ 80 then inMask a.smask .host else inMask a.smask .peer
    let s2 := { s1 with mem := s1.mem.dropCopies (fun k => named k && (all || s1.mem.copyMatches sig k)) }
    s2.onCtx (fun c => { c with kept := { c.kept with asig := 0 } }))

/-- SSTEP (R288): WAIT KIND 4 at the write-back. -/
def slotSstep (_ : YArgs) (e : Env) : SlotOut :=
  match e.s.launchOf e.s.runOf.id.launch with
  | some l => if l.ss then .ok (fun s => s.setWait 4) else .fault Cause.sparg
  | none => .fault Cause.sparg

/-- Is the running spar's monitor fired (R283). -/
def State.monitorFired (s : State) : Bool := s.sched.monitors.any (fun m => decide (m.id = s.runOf.id) && m.fired)

/-- A firing consumed: the monitor stays armed (R283). -/
def consumeFiring (ms : List Monitor) (id : SparId) : List Monitor :=
  ms.map (fun m => if m.id = id then { m with fired := false } else m)

/-- Cycles of a WAITA's timeout (R284). -/
def waitaCycles (a : YArgs) : Nat := 2 ^ (8 + 2 * a.sarg.toNat)

/-- WAITA (R284): `waita` of the core holds the cycle at which the wait runs out. -/
def slotWaita (_ : YArgs) (e : Env) : SlotOut :=
  if e.s.monitorFired then
    .ok (fun s => { s with sched := { s.sched with monitors := consumeFiring s.sched.monitors e.s.runOf.id } })
  else match e.s.core.waita with
    | some t => if t ≤ e.s.cycle then .ok id else .wait
    | none => .wait

/-- Entries of a result queue: present, and reserved or pending (R159, R223, R134, R318, R236). -/
def Ctx.queue (c : Ctx) (q : Nat) : List (BitVec 512) × Nat :=
  match q with
  | 0 => (c.qm, c.qmRes)
  | 1 => (c.qc, c.qcRes)
  | 2 => (c.qs, c.qsPending)
  | 3 => (c.qx, c.qxRes)
  | _ => (c.qg, c.qgRes)

/-- WAITK (R284). -/
def slotWaitk (a : YArgs) (e : Env) : SlotOut :=
  let q := e.c.queue a.sarg.toNat
  if !q.1.isEmpty then .ok id
  else if q.2 = 0 then .fault Cause.qwait
  else .wait

/-! ### Events of waiting -/

/-- WAITA_TIMEOUT: the cycle of a held WAITA's timeout comes (R284). -/
def State.waitaTimeout (s : State) : Option State :=
  match s.core.waita with
  | some t => some { s with cycle := max s.cycle t }
  | none => none

/-- KIND of a wait word (R282). -/
def waitKind (w : Word) : Nat := bits w.toNat 0 4

/-- MONITOR_FIRE: a fired monitor readies the spar that waits on it, which consumes the firing; one that releases a WAITA
is left for it (R283, R284). -/
def State.monitorFire (s : State) (n : Nat) : Option State :=
  match s.sched.monitors[n]? with
  | none => none
  | some m =>
    if !m.fired then none
    else
      match s.sched.waiting.find? (fun w => decide (w.id = m.id ∧ waitKind w.wait = 1)) with
      | some w =>
        let s1 := s.rejoin w
        some { s1 with sched := { s1.sched with monitors := consumeFiring s1.sched.monitors m.id } }
      | none => if s.core.waita.isSome ∧ s.runOf.id = m.id then some s else none

/-- WAIT_TIME_DUE: a KIND 5 wait comes due (R282). -/
def State.waitTimeDue (s : State) (n : Nat) : Option State :=
  match s.sched.waiting[n]? with
  | some w => if waitKind w.wait = 5 ∧ 16 * bits w.wait.toNat 4 60 ≤ s.cycle then some (s.rejoin w) else none
  | none => none

end Sys2Proof.Machine
end

