-- ==== Sys2Proof/Machine/Save.lean ====
section
/-! DEFINITION. The save area: its bytes, the save of a stop or a checkpoint with its emergency and held forms, and the
restore (R297, R298, R300, R301). -/

namespace Sys2Proof.Machine

/-! ### The bytes (R297) -/

/-- Architecture revision of this device (R19). -/
def arev : Nat := 1

/-- Bits as bytes, bit `8 i + b` being `on (8 i + b)`. -/
def bitBytes (n : Nat) (on : Nat → Bool) : List Byte :=
  (List.range n).map (fun i => BitVec.ofNat 8 ((List.range 8).foldl (fun v b => v + (on (8 * i + b)).toNat * 2 ^ b) 0))

/-- The 192-bit image of an address register (R99). -/
def AReg.image (a : AReg) : List Byte :=
  bvBytes 8 a.base ++ bvBytes 4 a.idx ++ bvBytes 4 a.step ++ bvBytes 4 a.len ++ bvBytes 4 a.mode

/-- The context header (R297). -/
def ctxHeader (c : Ctx) (pc ipc : Word) (cause state : Nat) : List Byte :=
  bvBytes 8 pc ++ bvBytes 8 ipc ++ toBytes 8 c.tau ++ toBytes 1 arev ++ toBytes 1 state ++ toBytes 2 cause
    ++ toBytes 2 ((c.kept.swpend.map (·.1.toNat)).getD 0) ++ toBytes 1 c.kept.swpend.isSome.toNat ++ toBytes 1 0
    ++ toBytes 8 ((c.kept.swpend.map (·.2.toNat)).getD 0) ++ toBytes 24 0

/-- Entry slots of the queues in the save area: QM, QS, QC, QX, QG. -/
def queueImage (c : Ctx) : List Byte :=
  let part (q : List (BitVec 512)) (n : Nat) : List Byte :=
    (q.take n).flatMap (bvBytes 64) ++ List.replicate (64 * (n - q.length)) 0
  part c.qm 16 ++ part c.qs 16 ++ part c.qc 64 ++ part c.qx 32 ++ part c.qg 16

/-- Bytes whose encoding is not architectural (R297; log 9). -/
def opaqueBytes (tick off n : Nat) : List Byte := (List.range n).map (fun i => Config.savedByte tick (off + i))

/-- Bytes of a part of the tile file at its places, where written. -/
def tileParts (t : Tbl TileReg) (base : Nat) : List (Nat × List Byte) :=
  t.map (fun e => (base + 1024 * e.1, bvBytes 1024 e.2.val))

/-- The offsets and lengths that the layout gives to nothing, which hold zero (R297, R352). Those above the last part of a
live state, 0x55_6000 to 0x5F_EFFF, are never written (log 9). -/
def savedGaps : List (Nat × Nat) :=
  [(0x290, 0x70), (0x710, 0xF0), (0x2500, 0x100), (0x2900, 0x700), (0x5400, 0xC00), (0x7000, 0x1000), (0x20D200, 0xE00)]

/-- The live parts of a save area below its header, with their offsets, and the zeros between them (R297, R352). -/
def savedParts (c : Ctx) (tick : Nat) : List (Nat × List Byte) :=
  [(0x40, (List.range 64).flatMap (fun i => bvBytes 8 (c.rx (BitVec.ofNat 6 i)))),
   (0x240, bvBytes 8 c.p),
   (0x248, [c.arith, c.astat, c.srctr, c.shape, c.mprog, c.rskp, c.rskb, c.rskl, c.mcfgr].flatMap (bvBytes 8)),
   (0x300, c.a.toList.flatMap AReg.image),
   (0x600, bitBytes 256 (fun i => (c.t.get? i).isSome)),
   (0x700, bitBytes 2 (fun i => (c.w.get? i).isSome)),
   (0x702, bitBytes 6 (fun i => (c.l.get? i).isSome)),
   (0x708, bitBytes 8 (fun i => (c.z.get? i).isSome)),
   (0x800, opaqueBytes tick 0x800 2048),
   (0x1000, (c.half.map (bvBytes 1024)).getD (toBytes 1024 0)),
   (0x1400, c.sfu.toList.flatMap (fun t => bvBytes 1088 t)),
   (0x2600, opaqueBytes tick 0x2600 768),
   (0x3000, queueImage c),
   (0x6000, opaqueBytes tick 0x6000 4096), (0x5FF000, opaqueBytes tick 0x5FF000 4096)]
  ++ savedGaps.map (fun g => (g.1, List.replicate g.2 (0 : Byte)))
  ++ tileParts c.t 0x8000 ++ tileParts c.w 0x208000 ++ tileParts c.l 0x20C000
  ++ [(0x20D000, c.m.toList.flatMap (bvBytes 64))]
  ++ (if c.wb0.tag.isSome then [(0x20E000, bvBytes 65536 c.wb0.data)] else [])
  ++ (if c.wb1.tag.isSome then [(0x21E000, bvBytes 65536 c.wb1.data)] else [])
  ++ c.z.map (fun e => (0x22E000 + 0xC000 * e.1, bvBytes 49152 e.2.val))
  ++ c.zt.map (fun e => (0x52E000 + 1024 * e.1, opaqueBytes tick (0x52E000 + 1024 * e.1) 1024))
  ++ (if c.part.isEmpty then [] else [(0x53E000, opaqueBytes tick 0x53E000 98304)])

/-- Bytes written at their offsets in a context, up to the first fault. -/
def putParts (ctx : Nat) (base : Word) : List (Nat × List Byte) → State → State × Option Word
  | [], s => (s, none)
  | (o, bs) :: ps, s =>
    match deviceWrite s ctx (base + BitVec.ofNat 64 o) bs with
    | .ok s' => putParts ctx base ps s'
    | .error t => (s, some t.addr)

/-- Bytes of one save area. -/
def areaSize : Nat := 0x600000

/-- The base of a core's emergency area (R293). -/
def State.emBase (s : State) : Nat := s.lanes.embase.toNat + areaSize * s.coreNum

/-- Bytes written at their offsets in the emergency area, which is physical (R298). -/
def State.putEmergency (s : State) (ps : List (Nat × List Byte)) : State :=
  ps.foldl (fun s p => s.performSeg { space := .dev, owner := 0, addr := s.emBase + p.1 } p.2) s

/-- The cause reported: lane F before lane P; in a lane the issuing bundle's first, then an engine's. -/
def chooseCause (bundle engine : List TrapInfo) : Option TrapInfo :=
  let pick (p : Bool) : Option TrapInfo :=
    match bundle.find? (fun t => onLaneP t.cause == p) with
    | some t => some t
    | none => engine.find? (fun t => onLaneP t.cause == p)
  match pick false with
  | some t => some t
  | none => pick true

/-! ### The save (R297, R298) -/

/-- MPROG as a save computes it (R160). -/
def Ctx.progress (c : Ctx) : Word :=
  let act := (c.running.map (fun j => j.kstep % 256 + 65536)).getD 0
  let ws (w : WStream) (bit at_ : Nat) : Nat :=
    match w.active with
    | some l => 2 ^ bit + l.landed % 1024 * 2 ^ at_
    | none => 0
  BitVec.ofNat 64 (act + c.waiting.isSome.toNat * 2 ^ 17 + ws c.ws0 18 20 + ws c.ws1 19 30)

/-- Is a job one that runs to its end before a save (R156, R173). -/
def MJob.single (j : MJob) : Bool := j.prod.isNone && !isLatLoad j && !isPanelLoad j

/-- Is a k-step of a stopping spar still to be performed: its rows landed before its weight stream stopped (R161, R272). -/
def State.stepLeft (s : State) (j : MJob) : Bool :=
  match s.core.phase, j.prod with
  | .stopping _, some p => s.core.ctx.starved j && s.core.ctx.panelReady j p j.kstep
  | _, _ => false

/-- May a save begin: every committed access is performed, those of the spar's stopped commands among them, every engine
command has completed or stopped, and no single-step instruction, nor one whose k-steps are all done or whose next k-step's
rows have landed, runs (R161, R252, R297). -/
def State.saveReady (s : State) : Bool :=
  s.core.storeQ.isEmpty && s.ownCmds.all (·.stopped.isSome) &&
    !s.fabric.out.any (fun t => decide (t.id = s.runOf.id) && t.cmd.isSome) &&
    (match s.core.ctx.running with
     | some j => j.stopped || (!j.single && (isPanelLoad j || (decide (j.kstep < j.ksteps) && !s.stepLeft j)))
     | none => true)

/-- The segment's on-core part and descriptor written; the chunk that faulted, where one did (R196, R197). -/
def State.writeSegment (s : State) : State × Option Word :=
  match s.spillAll with
  | (s1, some chunk) => (s1, some chunk)
  | (s1, none) =>
    match ioWrite s1 s1.runOf.ctx none s1.core.ctx.rskb s1.core.ctx.descriptor with
    | .ok s2 => (s2, none)
    | .error _ => (s1, some s1.core.ctx.rskb)

/-- The segment written before a save; one whose descriptor the spar has not read or written holds nothing of it (R196,
R197). -/
def State.spillForSave (s : State) : State × Option Word :=
  if s.core.ctx.kept.rskDue = 2 ∨ s.core.ctx.kept.rskDue = 4 then s.writeSegment else (s, none)

/-- PCB with CKPT, and WAIT, of the record of a saved spar (R273, R297). -/
def recordMark (r : Run) (pc wait : Word) : List Byte :=
  toBytes 8 (bits pc.toNat 6 51 * 64 + 1 + 2 * r.sys.toNat + 4 * r.rst.toNat) ++ bvBytes 8 wait

/-- The record of a spar whose context went to the emergency area marked, where it can be written (R297, R298; log 33). -/
def State.putMark (s : State) (r : Run) (pc wait : Word) : State :=
  match deviceWrite s r.ctx (r.recVa + 8) (recordMark r pc wait) with
  | .ok s1 => s1
  | .error _ => s

/-- How a save ended: in the save area, in the emergency area with the address that faulted, or held in the core. -/
inductive Saved where
  | area
  | emergency (addr : Word)
  | held (addr : Word)
  deriving DecidableEq, Repr

/-- The running spar's context is saved (R297, R298): spill, header, live parts, record. `em` says that a fault may turn to
the emergency area. -/
def State.saveCtx (s0 : State) (em : Bool) (r : Run) (pc ipc wait : Word) (cause : Nat) : State × Saved :=
  let s := s0.onCtx (fun c => { c with mprog := c.progress })
  let (s1, spilled) := s.spillForSave
  let c := s1.core.ctx
  let base := s1.saveArea r.id
  let all (state : Nat) := (0, ctxHeader c pc ipc cause state) :: savedParts c s1.tick
  let (s2, bad) := match spilled with
    | some a => (s1, some a)
    | none =>
      match putParts r.ctx base (all 1) s1 with
      | (s2, some a) => (s2, some a)
      | (s2, none) => putParts r.ctx r.recVa [(8, recordMark r pc wait)] s2
  match bad with
  | none => (s2.ticked, .area)
  | some a =>
    if !em || s2.core.emergency.isSome then (s2, .held a)
    else
      let s3 := (s2.putEmergency (all 2)).onCore (fun k =>
        { k with emergency := some r.id, rskHeld := if spilled.isSome then some r.id else k.rskHeld })
      ((s3.putMark r pc 6).ticked, .emergency a)

/-- Commands of spars that satisfy `mine` leave a core. -/
def Core.dropCmds (k : Core) (mine : SparId → Bool) : Core :=
  let keep (q : List Cmd) : List Cmd := q.filter (fun c => !mine c.id)
  { k with engines := k.engines.map keep, fabric := keep k.fabric, gmrg := keep k.gmrg }

/-- A saved context leaves the core: the spar's stopped commands go with it from whatever core holds them (R224, R297). -/
def State.leaveSaved (s : State) (r : Run) : State :=
  let cmds := s.cmdsOf r.id
  let c := s.core.ctx
  let kept := { c.kept with rskb := c.rskb, rskp := c.rskp }
  let s1 := ((s.allCores (fun k => k.dropCmds (fun i => decide (i = r.id)))).onCore (fun k =>
    { k with ctx := {}, run := none, phase := .idle, preempt := none, waita := none })).forecastAt s.core.num
  { s1 with sched := { s1.sched with saved := s1.sched.saved.put r.id.key c, kept := s1.sched.kept.put r.id.key kept,
                                     stopped := s1.sched.stopped ++ cmds } }

/-- The physical core on which a spar joins its queue: that of its home core, else this one (R276, R291). -/
def State.homeOf (s : State) (bound : Option Nat) : Nat :=
  match bound with
  | some lc => lc % s.pcores
  | none => s.core.num

/-- The kernel of the running spar where a live range of its plan satisfies `p` with the bundle index of an address. -/
def State.liveWhere (s : State) (r : Run) (pc : Word) (p : Nat × Nat → Nat → Bool) : Option Nat :=
  match r.kernel.bind (fun k => (s.kernels.get? k).map (fun q => (k, q))) with
  | some (k, q) =>
    let y := (pc.toNat % 2 ^ 57 - q.entry) / 64
    if q.entry ≤ pc.toNat % 2 ^ 57 ∧ q.plan.any (fun l => p l y) then some k else none
  | none => none

/-- The running spar as a checkpoint or a stop at `pc` leaves it: inside a live range of its plan no other core takes it and
no other spar of its kernel runs there, so that it resumes on the scratchpad it left. R208 binds at write-backs only; R343
forbids the bytes that another scratchpad would give (log 33). -/
def State.pinned (s : State) (r : Run) (pc : Word) : Run :=
  { r with live := (s.liveWhere r pc (fun l y => decide (l.1 ≤ y ∧ y ≤ l.2))).orElse (fun _ => r.live) }

/-- The running spar as it waits (R282). -/
def State.asWaiting (s : State) (r : Run) (wait : Word) : Waiting :=
  { id := r.id, cls := r.prio, core := s.homeOf r.bound, lc := r.lcore, srun := r.srun, bound := r.bound, live := r.live,
    kern := r.kernel, wait := wait }

/-- A spar waits. -/
def State.addWaiting (s : State) (w : Waiting) : State :=
  { s with sched := { s.sched with waiting := s.sched.waiting ++ [w] } }

/-! ### The restore (R300, R301) -/

/-- A saved byte string that no run could produce (R301). -/
def ctxBad {α : Type} : Chk α := .error { cause := Cause.ctxbad }

/-- A check of saved bytes. -/
def need (ok : Bool) : Chk Unit := if ok then .ok () else ctxBad

/-- A field of saved bytes. -/
def savedN (bs : List Byte) (off n : Nat) : Nat := ofBytes ((bs.drop off).take n)

/-- An address register from its image (R99). -/
def aregOf (v : Nat) : Chk AReg := do
  need (decide (bits v 159 1 = 0 ∧ bits v 162 30 = 0 ∧ bits v 160 2 ≠ 3))
  .ok { base := BitVec.ofNat 64 v, idx := BitVec.ofNat 32 (bits v 64 32), step := BitVec.ofNat 32 (bits v 96 32),
        len := BitVec.ofNat 31 (bits v 128 31), mode := BitVec.ofNat 2 (bits v 160 2) }

/-- The written tiles of a level: those whose written bit is set, with their bytes. -/
def tilesOf (s : State) (ctx : Nat) (base : Word) (old : Tbl TileReg) (ver : Nat) : List Nat → Chk (Tbl TileReg)
  | [] => .ok []
  | i :: is => do
    let bs ← deviceRead s ctx (base + BitVec.ofNat 64 (1024 * i)) 1024
    let rest ← tilesOf s ctx base old ver is
    .ok ((i, { val := BitVec.ofNat 8192 (ofBytes bs), ver := ((old.get? i).map (·.ver)).getD ver }) :: rest)

/-- The set bits of bytes. -/
def setBits (bs : List Byte) : List Nat := (List.range (8 * bs.length)).filter (fun i => (bs.getD (i / 8) 0).getLsbD (i % 8))

/-- The accumulators whose written bit is set. -/
def zsOf (s : State) (ctx : Nat) (base : Word) (old : Tbl ZReg) (ver : Nat) : List Nat → Chk (Tbl ZReg)
  | [] => .ok []
  | i :: is => do
    let bs ← deviceRead s ctx (base + BitVec.ofNat 64 (0xC000 * i)) 0xC000
    let rest ← zsOf s ctx base old ver is
    .ok ((i, { val := BitVec.ofNat 393216 (ofBytes bs), ver := ((old.get? i).map (·.ver)).getD ver }) :: rest)

/-- A weight buffer's contents where its tag is set. -/
def wbOf (s : State) (ctx : Nat) (base : Word) (old : WBuf) : Chk WBuf :=
  if old.tag.isNone then .ok old
  else do
    let bs ← deviceRead s ctx base 65536
    .ok { old with data := BitVec.ofNat 524288 (ofBytes bs) }

/-- Entries of a queue, from the slots of the save area. -/
def queueOf (img : List Byte) (first n : Nat) : List (BitVec 512) :=
  (List.range n).map (fun i => BitVec.ofNat 512 (savedN img (64 * (first + i)) 64))

/-- A restored header: PC, tau, pending trap. -/
structure Head where
  pc : Word
  tau : Nat
  swpend : Option (BitVec 16 × Word)
  deriving DecidableEq, Repr

/-- The header of a save area, checked (R301). -/
def headOf (h : List Byte) : Chk Head := do
  let pc := BitVec.ofNat 64 (savedN h 0 8)
  need (decide (savedN h 24 1 = arev ∧ savedN h 25 1 = 1 ∧ savedN h 30 1 ≤ 1 ∧ savedN h 31 1 = 0 ∧ savedN h 40 24 = 0))
  need (canonical pc && decide (pc.toNat % 64 = 0))
  .ok { pc := pc, tau := savedN h 16 8,
        swpend := if savedN h 30 1 = 1 then some (BitVec.ofNat 16 (savedN h 28 2), BitVec.ofNat 64 (savedN h 32 8)) else none }

/-- The scalar part of a context, checked (R301). -/
def scalarsOf (c : Ctx) (x p ctl a : List Byte) : Chk Ctx := do
  let w (i : Nat) : Word := BitVec.ofNat 64 (savedN ctl (8 * i) 8)
  need (decide (savedN x 0 8 = 0 ∧ savedN p 0 8 < 65536 ∧ savedN p 0 8 % 2 = 1))
  need (decide ((w 0).toNat < 3 ∧ (w 1).toNat < 256 ∧ w 3 &&& 0x3F0F = w 3 ∧ bits (w 4).toNat 8 8 = 0
    ∧ bits (w 4).toNat 40 24 = 0 ∧ (w 6).toNat % 65536 = 0 ∧ (w 7).toNat % 65536 = 0 ∧ (w 8).toNat < 2 ^ 21))
  let as ← (List.range 32).mapM (fun i => aregOf (savedN a (24 * i) 24))
  .ok { c with x := Vector.ofFn (fun i : Fin 64 => BitVec.ofNat 64 (savedN x (8 * i.val) 8)),
               p := BitVec.ofNat 16 (savedN p 0 2), arith := w 0, astat := w 1, srctr := w 2, shape := w 3, mprog := w 4,
               rskp := w 5, rskb := w 6, rskl := w 7, mcfgr := w 8,
               a := Vector.ofFn (fun i : Fin 32 => as.getD i.val {}) }

/-- K-steps of the running instruction, and where it resumes; an MLAT gathers its rows again (R160, R188, R301). -/
def Ctx.resumeJob (c : Ctx) : Chk Ctx :=
  match c.running with
  | none => .ok c
  | some j =>
    let k := bits c.mprog.toNat 0 8
    if j.ksteps < k then ctxBad
    else
      let reload := isLatLoad j && decide (0 < k)
      .ok { c with running := some { j with kstep := k, stopped := false, reload := reload, rows := none } }

/-- A weight stream set going again (R161). -/
def WStream.restart (w : WStream) : WStream := { w with active := w.active.map (fun l => { l with stopped := false }) }

/-- Do the gaps of a save area hold zero (R301, R352). -/
def gapsZero (s : State) (ctx : Nat) (base : Word) : List (Nat × Nat) → Chk Unit
  | [] => .ok ()
  | g :: gs => do
    let bs ← deviceRead s ctx (base + BitVec.ofNat 64 g.1) g.2
    need (bs.all (fun b => b == 0))
    gapsZero s ctx base gs

/-- The context of a save area with its resume PC (R300, R301); `old` supplies what has no architectural encoding. -/
def restoreCtx (s : State) (ctx : Nat) (base : Word) (old : Ctx) : Chk (Head × Ctx) := do
  let rd (o n : Nat) : Chk (List Byte) := deviceRead s ctx (base + BitVec.ofNat 64 o) n
  let h ← headOf (← rd 0 64)
  gapsZero s ctx base savedGaps
  let c1 ← scalarsOf old (← rd 0x40 512) (← rd 0x240 8) (← rd 0x248 72) (← rd 0x300 768)
  let ver := old.writes + 1
  let t ← tilesOf s ctx (base + 0x8000) old.t ver (setBits (← rd 0x600 256))
  let w ← tilesOf s ctx (base + 0x208000) old.w ver (setBits (← rd 0x700 2))
  let lBits ← rd 0x702 6
  need (decide (ofBytes lBits < 16))
  let l ← tilesOf s ctx (base + 0x20C000) old.l ver (setBits lBits)
  let z ← zsOf s ctx (base + 0x22E000) old.z ver (setBits (← rd 0x708 8))
  let b0 ← wbOf s ctx (base + 0x20E000) old.wb0
  let b1 ← wbOf s ctx (base + 0x21E000) old.wb1
  let m ← rd 0x20D000 512
  let sf ← rd 0x1400 4352
  need ((List.range 4).all (fun i => decide (savedN sf (1088 * i + 1056) 32 = 0)))
  let half ← rd 0x1000 1024
  let q ← rd 0x3000 9216
  let c2 : Ctx := { c1 with t := t, w := w, l := l, z := z, wb0 := b0, wb1 := b1, tau := h.tau,
                            m := Vector.ofFn (fun i : Fin 8 => BitVec.ofNat 512 (savedN m (64 * i.val) 64)),
                            sfu := Vector.ofFn (fun i : Fin 4 => BitVec.ofNat 8448 (savedN sf (1088 * i.val) 1056)),
                            half := old.half.map (fun _ => BitVec.ofNat 8192 (ofBytes half)) }
  let c3 : Ctx := { c2 with qm := queueOf q 0 old.qm.length, qs := queueOf q 16 old.qs.length,
                            qc := queueOf q 32 old.qc.length, qx := queueOf q 96 old.qx.length,
                            qg := queueOf q 128 old.qg.length, writes := ver, engTraps := [], mBound := old.seq,
                            ws0 := old.ws0.restart, ws1 := old.ws1.restart,
                            waiting := old.waiting.map (fun j => { j with stopped := false }) }
  .ok (h, ← c3.resumeJob)

/-- A segment's tag set to none (R180). -/
def Ctx.untagSeg (c : Ctx) (seg : Nat) : Ctx :=
  { c with segs := c.segs.mapFinIdx (fun i g _ => if i = seg then { g with tag := .none } else g) }

/-- The matrix engine kept from restarting: its instructions and streams stand stopped (R180, R300). -/
def Ctx.holdEngine (c : Ctx) : Ctx :=
  let stop (w : WStream) : WStream := { w with active := w.active.map (fun l => { l with stopped := true }) }
  { c with running := c.running.map (fun j => { j with stopped := true }),
           waiting := c.waiting.map (fun j => { j with stopped := true }), ws0 := stop c.ws0, ws1 := stop c.ws1 }

/-- One projection whose load had completed, reloaded at its segment: its rows verified, its device corner compared, a
difference leaving the segment untagged (R180). -/
def State.reloadAt (s : State) (seg dc dh : Nat) (addr : Word) (corner : BitVec 32) : State × Option TrapInfo :=
  match s.loadBlocks addr dc dh seg (List.range (dc / 32)) with
  | .error t => (s, some t)
  | .ok s1 =>
    if BitVec.ofNat 32 (s1.core.ctx.deviceCorner seg dc dh) = corner then (s1, none)
    else (s1.onCtx (fun c => c.untagSeg seg), some { cause := Cause.thmis, det := 3, addr := addr, aux := seg })

/-- The projections whose load had completed, reloaded in order before any matrix instruction restarts; the first that
fails holds the engine, with its trap (R180). -/
def State.reloadSegs (s : State) : List Nat → State
  | [] => s
  | i :: is =>
    match (s.core.ctx.segs.toList.getD i {}).tag with
    | .base dc dh addr (some corner) =>
      match s.reloadAt i dc dh addr corner with
      | (s1, none) => s1.reloadSegs is
      | (s1, some t) => (s1.onCtx Ctx.holdEngine).engineTrap t
    | _ => s.reloadSegs is

/-- What a restore does with a moved segment: where it holds an entry, RSKORD SEGBUSY at the first resumed bundle, the
bounds staying as they were saved; else the effect of a CRW (R190, R301; log 33). The state, and the trap where there is
one. -/
def State.settleSegment (s : State) (old : Ctx) (k : Kept) : State × Option TrapInfo :=
  let c := s.core.ctx
  if c.rskb = k.rskb ∧ c.rskl = old.rskl then (s, none)
  else if k.rskp ≠ k.rskb + 64 then
    (s.onCtx (fun c => { c with rskb := k.rskb, rskl := old.rskl }), some { cause := Cause.rskord, det := 6, pc := s.core.pc })
  else (s.moveSegment c.rskb c.rskl, none)

end Sys2Proof.Machine
end

