-- ==== Sys2Proof/Machine/Sched.lean ====
section
/-! DEFINITION. The arbiter and the boundaries of a spar's run: choice, entry, resume, write-back, checkpoint, kill,
pre-emption and supersteps (R85, R274 to R276, R280, R285 to R291). -/

namespace Sys2Proof.Machine

/-! ### Launches -/

/-- The work identifier of spar `n`: its mixed-radix digits, the deepest level least significant (R276). -/
def Launch.widOf (l : Launch) (n : Nat) : Word :=
  let r := (l.lw.zip l.ext).foldr (fun (q : Nat × Nat) (acc : Nat × Nat × Nat) =>
    (acc.1 / q.2, acc.2.1 + acc.1 % q.2 * 2 ^ acc.2.2, acc.2.2 + q.1)) (n, 0, 0)
  BitVec.ofNat 64 r.2.1

/-- The energy that a launch may still use (R289). -/
def Launch.left (l : Launch) : Nat := l.budget - l.used

/-- Seed-stack depth of a context. -/
def State.seedDepth (s : State) (ctx : Nat) : Nat := (s.ctxOf ctx).seeds.length

/-- An entry of the completion log written, performed, and CPLHEAD advanced; `depth` is the seed stack's after the packet that
it answers (R324). -/
def State.postCompletion (s : State) (cseq : Word) (kind type status depth ctx : Nat) (hdr : Word) (mj : Nat) : State :=
  let h := s.host
  let bs := bvBytes 8 h.head ++ bvBytes 8 cseq ++ toBytes 1 kind ++ toBytes 1 type ++ toBytes 1 status
    ++ toBytes 1 depth ++ toBytes 2 ctx ++ toBytes 2 0 ++ bvBytes 8 hdr ++ toBytes 4 mj ++ toBytes 28 0
  let at_ := h.cplb.toNat + 64 * (h.head.toNat % h.cpln.toNat)
  let s1 := s.performSeg { space := .host, owner := 0, addr := at_ } bs
  { s1 with host := { s1.host with head := h.head + 1 } }

/-- A launch finishes: its FINISH entry is posted (R280, R324). -/
def State.finishLaunch (s : State) (n status : Nat) : State :=
  match s.launchOf n with
  | none => s
  | some l =>
    let s1 := s.onLaunch n (fun l => { l with finished := true })
    let s2 := { s1 with host := { s1.host with fences := s1.host.fences.map (fun f =>
      { f with launches := f.launches.filter (· ≠ n) }) } }
    if l.packet then s2.postCompletion l.cseq 1 1 status l.depth l.ctx l.hdr (min l.used count32) else s2

/-- Has every spar of a launch exited (R280). -/
def Launch.allExited (l : Launch) : Bool := decide (l.exited.length = l.total + l.children.length)

/-! ### The queues (R276, R285, R286) -/

/-- The head of a launch's virtual tail on a core: its first spar there that may run (R276, R285). -/
def State.tailHead (s : State) (k : Core) (ln : Nat) (l : Launch) : Option Ready :=
  let at_ (n : Nat) : Ready := s.virtualReady ln l n (l.coreOf n) k.num
  (l.nextFor (fun n => decide (l.coreOf n % s.pcores = k.num) && s.runnable k (at_ n))).map at_

/-- The head of a class queue of a core: its first spar that may run, generated ones before virtual tails (R276, R285). -/
def State.headOf (s : State) (k : Core) (c : Nat) : Option Ready :=
  match s.sched.ready.find? (fun r => decide (r.core = k.num ∧ r.cls = c) && s.runnable k r) with
  | some r => some r
  | none => s.sched.launches.findSome? (fun e => if e.2.cls = c ∧ !e.2.finished then s.tailHead k e.1 e.2 else none)

/-- What a steal takes from a class of another core (R285). The spar comes to stand on the thief's logical core in the row
of its own: where a physical core carries several, the spec does not say which (log 32). -/
def State.stealFrom (s : State) (thief victim : Core) (c : Nat) : Option Ready :=
  let here (lc : Nat) : Nat := lc / s.pcores * s.pcores + thief.num
  let free (r : Ready) : Bool :=
    decide (r.core = victim.num ∧ r.cls = c ∧ r.bound = none ∧ r.live = none) && s.pickable r.id.launch
      && !s.excluded (some r.id) (s.kernFor r (here r.lc)) (here r.lc) && decide (victim.rskHeld ≠ some r.id ∧ victim.rskOwner ≠ some r.id)
      && decide (thief.rskHeld = none)
  match s.sched.ready.find? free with
  | some r => some { r with lc := here r.lc, core := thief.num }
  | none => s.sched.launches.findSome? (fun e =>
    if e.2.cls = c ∧ e.2.group.isNone ∧ !e.2.finished then
      let at_ (n : Nat) : Ready := s.virtualReady e.1 e.2 n (here (e.2.coreOf n)) thief.num
      (e.2.nextFor (fun n => decide (e.2.coreOf n % s.pcores = victim.num) && s.runnable thief (at_ n))).map at_
    else none)

/-- The other cores in the order of a steal: its own die's first, then the other dies', each ascending (R285). -/
def State.stealOrder (s : State) : List Core :=
  let others := (List.range s.pcores).filterMap (fun i => s.others.find? (fun k => decide (k.num = i)))
  let own (k : Core) : Bool := decide (k.num / 24 = s.core.num / 24)
  others.filter own ++ others.filter (fun k => !own k)

/-- The spar that an idle core steals. -/
def State.steal (s : State) : Option Ready :=
  s.stealOrder.findSome? (fun v => [7, 6, 5, 4, 3, 2, 1, 0].findSome? (fun c => s.stealFrom s.core v c))

/-- A choice: the spar, the remaining slice and the ages after it. -/
structure Choice where
  r : Ready
  slice : Int
  ages : Vector Nat 8
  deriving DecidableEq, Repr

/-- The rank of a candidate class (R285). -/
def rankOf (age c : Nat) : Nat := (if age = 15 then 2 ^ 16 else 0) + (c + age) * 2 ^ 8 + age * 2 ^ 3 + c

/-- `choose` of R285. -/
def State.choose (s : State) : Option Choice :=
  let k := s.core
  let r0 := if k.slice ≤ 0 then 65536 else k.slice
  let heads := (List.range 8).filterMap (fun c => (s.headOf k c).map (fun h => (c, h)))
  let fits := heads.filter (fun q => decide ((q.2.srun : Int) ≤ r0))
  let r := if fits.isEmpty ∧ !heads.isEmpty then 65536 else r0
  let cand := if fits.isEmpty then heads else fits
  let age (c : Nat) : Nat := k.ages.toList.getD c 0
  let best := cand.foldl (fun (b : Option (Nat × Ready)) q => match b with
    | some p => if rankOf (age p.1) p.1 < rankOf (age q.1) q.1 then some q else b
    | none => some q) none
  match best with
  | some (c, h) =>
    let others := heads.map (·.1)
    let ages := k.ages.mapFinIdx (fun i a _ => if i = c then 0 else if others.contains i then min 15 (a + 1) else a)
    some { r := h, slice := r, ages := ages }
  | none => s.steal.map (fun h => { r := h, slice := r, ages := k.ages })

/-- The head of a newcomer launch on this core: a generated spar or its virtual tail (R291). -/
def State.newcomerHead (s : State) (n : Nat) : Option Ready :=
  match s.sched.ready.find? (fun r => decide (r.core = s.core.num ∧ r.id.launch = n) && s.runnable s.core r) with
  | some r => some r
  | none => (s.launchOf n).bind (fun l => s.tailHead s.core n l)

/-- The choice that a core makes: a drain takes the newcomer's head and a new slice (R285, R291). -/
def State.choice (s : State) : Option Choice :=
  match s.core.preempt with
  | some (.drain n) =>
    match s.newcomerHead n with
    | some h => some { r := h, slice := 65536, ages := s.core.ages }
    | none => s.choose
  | _ => s.choose

/-- The record and the kept state of a spar at its first start (R273, R276, R279). -/
def Launch.firstRecord (l : Launch) (r : Ready) : List Byte :=
  recordBytes (l.widOf r.id.idx) l.entry (2 * l.sys.toNat + 4 * l.rst.toNat) 0
    (recordWord3 l.cls r.srun (if r.bound.isSome then 1 else 0) (r.bound.getD 0) l.rem0) l.args

/-- A spar of a virtual tail is created: its record is written (R276). -/
def State.generate (s : State) (r : Ready) : Chk State :=
  match s.launchOf r.id.launch with
  | none => .ok s
  | some l =>
    if l.total ≤ r.id.idx ∨ l.generated.contains r.id.idx then .ok s
    else do
      let rec_ := l.firstRecord r
      let s1 ← deviceWrite s l.ctx (l.recVa r.id.idx) rec_
      let seed := childSeed l.seed (l.widOf r.id.idx)
      let kept : Kept := { seedtop := seed, seed0 := seed, first := rec_ }
      let s2 := s1.onLaunch r.id.launch (fun l => { l with generated := l.generated ++ [r.id.idx] })
      .ok { s2 with sched := { s2.sched with kept := s2.sched.kept.put r.id.key kept } }

/-- A chosen spar leaves its queue (R286). -/
def State.take (s : State) (ch : Choice) : Chk State := do
  let s1 ← s.generate ch.r
  let ready := s1.sched.ready.filter (fun q => decide (q.id ≠ ch.r.id))
  .ok (({ s1 with sched := { s1.sched with ready := ready } }.onCore (fun k =>
    { k with phase := .picked ch.r, slice := ch.slice, ages := ch.ages, preempt := none, pickedAt := s1.cycle })).forecastAt
      s1.core.num)

/-- ARBITER_CHOOSE: an idle core of the partition picks a spar or steals one, but for P2 (R18, R285, R333). A record that
cannot be written holds the choice. -/
def State.arbiterChoose (s : State) : Option State :=
  if s.pcores ≤ s.core.num ∨ s.plat.pst = 2 then none
  else match s.core.phase, s.choice with
  | .idle, some ch =>
    match s.take ch with
    | .ok s1 => some s1
    | .error _ => none
  | _, _ => none

/-! ### Entry and resume (R85, R189, R196, R197, R300) -/

/-- Fields of a record (R273). -/
structure Record where
  wid : Word
  pc : Word
  ckpt : Bool
  sys : Bool
  rst : Bool
  wait : Word
  prio : Nat
  rem : Nat
  xs : List Word
  deriving DecidableEq, Repr

/-- The record in its 64 bytes. -/
def recordOf (bs : List Byte) : Record :=
  let w (i : Nat) : Nat := savedN bs (8 * i) 8
  { wid := BitVec.ofNat 64 (w 0), pc := sext57 (BitVec.ofNat 64 (bits (w 1) 6 51 * 64)), ckpt := (w 1).testBit 0,
    sys := (w 1).testBit 1, rst := (w 1).testBit 2, wait := BitVec.ofNat 64 (w 2), prio := bits (w 3) 0 3,
    rem := bits (w 3) 32 32, xs := [4, 5, 6, 7].map (fun i => BitVec.ofNat 64 (w i)) }

/-- The launch's segment of a spar (R189, R273). -/
def Launch.segment (l : Launch) (i : Nat) : Word × Word :=
  let sz := l.rsksz * 65536
  (l.rskpb + BitVec.ofNat 64 (i * sz), l.rskpb + BitVec.ofNat 64 ((i + 1) * sz))

/-- The identity of a spar as it runs on this core: it is a spar of the kernel that holds its entry there, it
is bound by affinity where its launch generated it so, and its run counts from its pick (R208, R274, R276, R278). -/
def State.runFor (s : State) (l : Launch) (r : Ready) (rc : Record) (kept : Kept) : Run :=
  let kern := s.kernFor r r.lc
  let kn := kern.bind (fun k => s.kernels.get? k)
  let here := match kn with
    | some q => decide (r.lc ∈ q.lcores)
    | none => false
  { id := r.id, recVa := l.recVa r.id.idx, ctx := l.ctx, sys := rc.sys, rst := rc.rst, ss := l.ss, lcore := r.lc,
    wid := rc.wid, prio := rc.prio, kernel := kern, bank0 := if here then (kn.map (·.bank0)).getD 0 else 0,
    banks := if here then (kn.map (·.banks)).getD 0 else 0, home := r.bound.isSome && l.group.isSome && decide (r.id.idx < l.total),
    started := s.core.pickedAt,
    bound := r.bound, live := r.live, srun := r.srun,
    ebud := BitVec.ofNat 64 (l.left % 2 ^ 32 + min kept.energy count32 * 2 ^ 32) }

/-- The queue reservations of a spar's commands on a core (R223, R224, R236, R312). -/
def Core.reserve (k : Core) (id : SparId) : Core :=
  let n (q : List Cmd) (p : Cmd → Bool) : Nat := (q.filter (fun c => decide (c.id = id) && c.push && p c)).length
  let coll (c : Cmd) : Bool := decide (copyOpc c.op = 0x13)
  { k with ctx := { k.ctx with qcRes := n k.engines.toList.flatten (fun _ => true) + n k.fabric (fun c => !coll c),
                               qxRes := n k.fabric coll, qgRes := n k.gmrg (fun _ => true) } }

/-- The segment descriptor initialised (1), or read (R189); a fault names the chunk at RSKB and leaves it due (R196). -/
def State.openSegment (s : State) (due : Nat) (base : Word) : State :=
  let ctx := s.runOf.ctx
  let x : Chk State :=
    if due = 1 then
      (ioWrite s ctx none base emptyDescriptor).map (fun s1 => s1.onCtx (fun c => { c with rskp := base + 64, nseq := 0 }))
    else
      (ioRead s ctx none base 16).map (fun bs => (s.noteIo ctx none base 16).onCtx (fun c =>
        { c with rskp := base + BitVec.ofNat 64 (savedN bs 0 8), nseq := savedN bs 8 8 }))
  match x with
  | .error _ => (s.onCtx (fun c => { c with kept := { c.kept with rskDue := if due = 1 then 1 else 3 } })).rskTrap base
  | .ok s1 => s1.onCtx (fun c => { c with kept := { c.kept with rskDue := 2 } })

/-- The part of the segment on core at an entry: RSKS is RSKP rounded down, and that chunk is filled; where it cannot be,
nothing is on core (R196, R197). -/
def State.openChunk (s : State) : State :=
  let s1 := s.onCtx (fun c => { c with rsks := chunkOf c.rskp, rskCore := [] })
  match s1.fillBelow s1.core.ctx.rsks s1.core.ctx.rskp with
  | .ok s2 => s2
  | .error t => (s1.onCtx (fun c => { c with rsks := c.rskp })).rskTrap t.addr

/-- The segment opened at an entry or resume: its descriptor where that is due, then its chunk. -/
def State.openStack (s : State) (due : Nat) (base : Word) (chunk : Bool) : State :=
  let s1 := if due = 2 then s else s.openSegment due base
  if chunk && s1.core.ctx.engTraps.isEmpty then s1.openChunk else s1

/-- A fault that the device met at a spar's entry or resume is taken before its first bundle issues, lane F before lane P
(R180, R196, R352). -/
def State.settleEntry (s : State) : State :=
  match chooseCause [] s.core.ctx.engTraps with
  | none => s
  | some t => s.takeTrap { t with pc := s.core.pc }

/-- The context at a spar's entry (R85, R106, R128, R189). -/
def State.entryCtx (s : State) (l : Launch) (r : Ready) (rc : Record) (run : Run) (kept : Kept) : Ctx :=
  let kn := run.kernel.bind (fun k => s.kernels.get? k)
  let seg := l.segment r.id.idx
  let cset := if waitKind rc.wait = 2 then kept.cset &&& ~~~(BitVec.ofNat 256 (2 ^ bits rc.wait.toNat 4 8)) else kept.cset
  let x := Vector.ofFn (fun i : Fin 64 => if 1 ≤ i.val ∧ i.val ≤ 4 then rc.xs.getD (i.val - 1) 0 else (0 : Word))
  let sfu := Vector.ofFn (fun i : Fin 4 => ((kn.map (fun q => q.sfu.getD i.val 0)).getD 0))
  { x := x, sfu := sfu, shape := (kn.map (·.shape)).getD 0x3F0F &&& 0x3F0F, rskb := seg.1, rskl := seg.2, rskp := seg.1 + 64,
    kept := { kept with cset := cset } }

/-- A number above those of the commands of a spar, on whatever core they are, so that its bundles follow them (R309, R349). -/
def State.afterCmds (s : State) (id : SparId) : Nat := ((s.cmdsOf id).map (·.seq)).foldl max s.core.cmdSeq + 1

/-- The on-core part that stayed across a yield. Where the descriptor could not be read, RSKP and NSEQ stay too, so that the
stop's save spills the part, and the descriptor is read at the resume (R196, R197). -/
def Ctx.keepPart (c old : Ctx) : Ctx :=
  let c1 := { c with rsks := old.rsks, rskCore := old.rskCore }
  if c.kept.rskDue = 2 then c1 else { c1 with rskp := old.rskp, nseq := old.nseq, kept := { c.kept with rskDue := 4 } }

/-- SPAR_ENTRY: a picked spar enters with the spar-entry state; its commands on this core keep their reservations (R85, R197,
R223, R273). It waits while the core's store queue holds stores of spars before it. -/
def State.sparEntry (s : State) : Option State :=
  match s.core.phase with
  | .picked r =>
    match s.launchOf r.id.launch with
    | none => none
    | some l =>
      match deviceRead s l.ctx (l.recVa r.id.idx) 64 with
      | .error _ => none
      | .ok bs =>
        let rc := recordOf bs
        if rc.ckpt || !s.core.storeQ.isEmpty then none
        else
          let kept := s.sched.kept.getD r.id.key {}
          let run := s.runFor l r rc kept
          let old := s.core.ctx
          let stays := decide (s.core.rskOwner = some r.id)
          let s1 := (s.noteDevice l.ctx (l.recVa r.id.idx) 64).onCore (fun k => Core.reserve { k with
            phase := .running, run := some run, pc := rc.pc, ctx := s.entryCtx l r rc run kept, rskOwner := none,
            image := some r.lc, cmdSeq := s.afterCmds r.id } r.id)
          let s2 := s1.openStack (if kept.rskDue = 1 then 1 else 3) (l.segment r.id.idx).1 (!stays)
          some (if stays then s2.onCtx (fun c => c.keepPart old) else s2).settleEntry
  | _ => none

/-- The saved commands of a spar return to this core (R224). -/
def Core.takeCmds (k : Core) (cs : List Cmd) : Core :=
  cs.foldl (fun (k : Core) c =>
    match copyOpc c.op with
    | 0x21 => { k with gmrg := k.gmrg ++ [c] }
    | 0x10 | 0x11 | 0x12 | 0x13 => { k with fabric := k.fabric ++ [c] }
    | _ => if h : c.engine < 4 then { k with engines := k.engines.set c.engine (k.engines[c.engine] ++ [c]) } else k) k

/-- A stop at a resumption: the spar stays stopped, its saved context as it is (R301). -/
def State.stopAtResume (s : State) (l : Launch) (r : Ready) (run : Run) (pc : Word) (t : TrapInfo) : State :=
  let info := { t with pc := pc }
  let lane := onLaneP t.cause
  let rec_ : LaneRec := { laneP := lane, bytes := laneBytes lane info s.coreNum r.lc 1 l.hdr run.recVa,
                          id := some r.id, open_ := true, cmd := none }
  let s1 := match deviceWrite s l.ctx (run.recVa + 16) (toBytes 8 6) with
    | .ok s1 => s1
    | .error _ => s
  let w : Waiting := { id := r.id, cls := r.cls, core := r.core, lc := r.lc, srun := r.srun, bound := r.bound,
                       live := r.live, kern := r.kern, wait := 6 }
  ((s1.addWaiting w).onCore (fun k => { k with phase := .idle, run := none, ctx := {} })).post rec_

/-- CKPT cleared in the record of a resumed spar (R300). -/
def State.clearCkpt (s : State) (ctx : Nat) (recVa : Word) (rc : Record) : State :=
  match deviceWrite s ctx (recVa + 8) (toBytes 1 (2 * rc.sys.toNat + 4 * rc.rst.toNat + 64 * bits rc.pc.toNat 6 2)) with
  | .ok s1 => s1
  | .error _ => s

/-- What follows a restore, in its order: the segment, the projections, then a cause that falls due before any bundle
issues, a software trap that the header held pending last; one that is not taken stays pending (R180, R196, R300, R352). -/
def State.afterRestore (s : State) (swpend : Option (BitVec 16 × Word)) : State :=
  let s1 := s.openStack s.core.ctx.kept.rskDue s.core.ctx.rskb true
  let s2 := if s1.core.ctx.engTraps.isEmpty then s1.reloadSegs (List.range 8) else s1.onCtx Ctx.holdEngine
  match s2.core.ctx.engTraps, swpend with
  | [], some q => s2.takeSwTrap q
  | [], none => s2
  | _ :: _, q => (s2.onCtx (fun c => { c with kept := { c.kept with swpend := q } })).settleEntry

/-- What reading the record and the save area of a resumed spar does beside. -/
def State.noteRestore (s : State) (l : Launch) (r : Ready) (old : Ctx) : State :=
  ((0, 64) :: (savedParts old 0).map (fun p => (p.1, p.2.length))).foldl
    (fun s (p : Nat × Nat) => s.noteDevice l.ctx (s.saveArea r.id + BitVec.ofNat 64 p.1) p.2)
    (s.noteDevice l.ctx (l.recVa r.id.idx) 64)

/-- SPAR_RESUME: a checkpointed or stopped spar is restored (R300, R301). -/
def State.sparResume (s : State) : Option State :=
  match s.core.phase with
  | .picked r =>
    match s.launchOf r.id.launch, s.sched.saved.get? r.id.key with
    | some l, some old =>
      match deviceRead s l.ctx (l.recVa r.id.idx) 64 with
      | .error _ => none
      | .ok bs =>
        let rc := recordOf bs
        let kept := s.sched.kept.getD r.id.key {}
        let run := s.runFor l r rc kept
        if !rc.ckpt || !s.core.storeQ.isEmpty then none
        else
          match restoreCtx s l.ctx (s.saveArea r.id) old with
          | .error t => some (s.stopAtResume l r run rc.pc t)
          | .ok (h, c) =>
            let cmds := s.sched.stopped.filter (fun q => decide (q.id = r.id))
            let s1 := (s.noteRestore l r old).onCore (fun k =>
              Core.reserve { k.takeCmds cmds with
                phase := .running, run := some run, pc := h.pc, ctx := { c with kept := { kept with swpend := none } },
                rskOwner := none, image := some r.lc,
                rskHeld := none, cmdSeq := (cmds.map (·.seq)).foldl max (s.afterCmds r.id) + 1 } r.id)
            let s2 : State := { s1 with
              sched := { s1.sched with saved := s1.sched.saved.del r.id.key,
                                       stopped := s1.sched.stopped.filter (fun q => decide (q.id ≠ r.id)) } }
            match (s2.clearCkpt l.ctx run.recVa rc).settleSegment old kept with
            | (s3, some t) => some ((s3.onCtx (fun c => { c.holdEngine with kept := { c.kept with swpend := h.swpend } })).takeTrap t)
            | (s3, none) => some (s3.afterRestore h.swpend)
    | _, _ => none
  | _ => none

/-! ### The end of a run -/

/-- Launch `n` once it has ended and no core runs a spar of it: FINISH with status 8 (R299). -/
def State.settleEnd (s : State) (n : Nat) : State :=
  match s.launchOf n with
  | some l =>
    if l.ended && !l.finished && !s.allCoresList.any (fun k => decide (k.run.map (·.id.launch) = some n)) then s.finishLaunch n 8
    else s
  | none => s

/-- Has the launch of the running spar ended. -/
def State.runEnded (s : State) : Bool := ((s.launchOf s.runOf.id.launch).map (·.ended)).getD false

/-- The COPYST notices of commands of token 0 that end with ABORT (R222). -/
def State.abortNotes (s : State) (cs : List Cmd) : List LaneRec :=
  (cs.filter (fun c => decide (c.tok = 0))).map (fun c =>
    s.cmdRec c { cause := Cause.copyst, det := 2, addr := c.faddr, aux := c.engine } 8 false)

/-- Every core, in turn as the one that moves. -/
def State.onEachCore (s : State) (f : State → State) : State :=
  (s.allCoresList.map (·.num)).foldl (fun s n => s.withCore n f) s

/-- Commands of spars ended with ABORT on every core: they leave it, those of token 0 with a COPYST notice (R222, R224,
R291). -/
def State.abortCmds (s : State) (mine : SparId → Bool) : State :=
  s.onEachCore (fun s =>
    let notes := s.abortNotes (s.core.cmds.filter (fun c => mine c.id))
    s.onCore (fun k => { k.dropCmds mine with lanesUnposted := k.lanesUnposted ++ notes }))

/-- The core is idle, with nothing of the spar that ran; its forecast is taken anew, as a choice that finds nothing leaves it
(R290). -/
def State.clearCore (s : State) : State :=
  (s.onCore (fun k => { k with ctx := {}, run := none, phase := .idle, preempt := none, waita := none })).forecastAt s.core.num

/-- The running spar of an ended launch leaves the core (R299). -/
def State.dropEnded (s : State) : State :=
  let id := s.runOf.id
  ((s.abortCmds (fun i => decide (i = id))).clearCore).settleEnd id.launch

/-- Cycles of a run on the remaining slice (R285). -/
def Core.spend (k : Core) (now : Nat) : Core :=
  { k with slice := k.slice - ((now - ((k.run.map (·.started)).getD now) : Nat) : Int) }

/-- The energy of a run debited: the launch and whether the budget reached zero (R289). -/
def Launch.debit (l : Launch) (mj : Nat) : Launch × Bool :=
  let zero := l.armed && decide (0 < mj ∧ l.left ≤ mj)
  ({ l with used := l.used + mj, cls := if zero then l.cls - 1 else l.cls, armed := l.armed && !zero }, zero)

/-- A run's whole millijoules on the spar and its launch, with the notice (R289; log 5). -/
def State.debitEnergy (s : State) : State :=
  let mj := Config.energyOf s.tick
  let id := s.runOf.id
  let s1 := s.ticked.onCtx (fun c => { c with kept := { c.kept with energy := min count32 (c.kept.energy + mj) } })
  match s1.launchOf id.launch with
  | none => s1
  | some l =>
    let d := l.debit mj
    let s2 := s1.onLaunch id.launch (fun _ => d.1)
    if d.2 then s2.notice { cause := Cause.energy } else s2

/-- The kernel whose live ranges bind the running spar at its yield (R208). -/
def State.liveAt (s : State) (r : Run) : Option Nat := s.liveWhere r r.ypc (fun p y => decide (p.1 ≤ y ∧ y < p.2))

/-- The running spar's binding after its write-back (R208, R276). -/
def State.rebound (s : State) (r : Run) : Run :=
  let live := s.liveAt r
  { r with live := live, bound := if r.home then r.bound else live.map (fun _ => r.lcore) }

/-- The record at a write-back, given the one it replaces; an exit writes no wait word (R274, R280). -/
def State.backRecord (s : State) (r : Run) (cls cycles : Nat) (old : Record) : List Byte :=
  let bind := if r.home then 1 else if r.bound.isSome then 2 else 0
  let flags := 2 * r.sys.toNat + 4 * r.rst.toNat + 8 * r.exits.toNat
  recordBytes r.wid s.core.pc flags (if r.exits then old.wait else r.wait)
    (recordWord3 cls (16 * r.runField) bind (r.bound.getD 0) (old.rem - cycles / 256)) s.core.ctx.preserved

/-- Does a wait's condition hold at the write-back, given what is kept of the spar (R282, R283). -/
def State.waitMet (s : State) (r : Run) : Bool :=
  let cset := (s.sched.kept.getD r.id.key {}).cset
  match waitKind r.wait with
  | 0 => true
  | 1 => match s.sched.monitors.find? (fun m => decide (m.id = r.id)) with
    | some m => m.fired
    | none => true
  | 2 => cset.getLsbD (bits r.wait.toNat 4 8)
  | 3 => decide (cset ≠ 0)
  | 5 => decide (16 * bits r.wait.toNat 4 60 ≤ s.cycle)
  | _ => false

/-- The spar written back waits or joins its queue; a firing that its wait used is consumed (R282, R283). -/
def State.parkSpar (s : State) (r : Run) (cls : Nat) : State :=
  let w := { s.asWaiting { r with prio := cls, srun := 16 * r.runField } r.wait with core := s.homeOf r.bound }
  if s.waitMet r then
    let s1 := if waitKind r.wait = 1 then
      { s with sched := { s.sched with monitors := consumeFiring s.sched.monitors r.id } } else s
    s1.rejoin w
  else s.addWaiting w

/-- The core after a write-back: idle, with the retirements that a yield applies, and its forecast as a choice that finds
nothing leaves it (R179, R290). -/
def State.leaveRun (s : State) : State :=
  (s.onCore (fun k => { k.retire with ctx := {}, run := none, phase := .idle, waita := none })).forecastAt s.core.num

/-- The end of an exited spar (R280). -/
def State.exitSpar (s : State) (r : Run) : State :=
  let s1 := s.onLaunch r.id.launch (fun l => { l with exited := l.exited ++ [r.id.idx] })
  let s2 := { s1 with sched := { s1.sched with kept := s1.sched.kept.del r.id.key,
                                               monitors := s1.sched.monitors.filter (fun m => decide (m.id ≠ r.id)) } }
  match s2.launchOf r.id.launch with
  | some l => if l.allExited then s2.finishLaunch r.id.launch 0 else s2
  | none => s2

/-- The segment at a yield: a moved one returns to the launch's assignment (R190). -/
def State.homeSegment (s : State) (l : Launch) (r : Run) : State :=
  let seg := l.segment r.id.idx
  if s.core.ctx.rskb = seg.1 ∧ s.core.ctx.rskl = seg.2 then s
  else s.onCtx (fun c => { c with rskb := seg.1, rskl := seg.2, rskp := seg.1 + 64, nseq := 0, rsks := seg.1, rskCore := [] })

/-- May the write-back happen: stores performed, no follow-on or matrix instruction of the yield bundle left, and for EXIT
and SSTEP every engine command complete (R231, R252, R280, R288). -/
def State.backReady (s : State) : Bool :=
  s.core.storeQ.isEmpty && s.core.ctx.jobs.all (·.stopped) && s.core.ctx.follow.isEmpty &&
    ((!s.runOf.exits && decide (waitKind s.runOf.wait ≠ 4)) || s.ownCmds.isEmpty)

/-- What the write-back keeps of a spar. -/
def State.keepSpar (s : State) (r : Run) : State :=
  let c := s.core.ctx
  let k : Kept := { c.kept with rskb := c.rskb, rskp := c.rskp, rskDue := 2 }
  { s with sched := { s.sched with kept := s.sched.kept.put r.id.key k } }

/-- The on-core part of another context, with the registers that place it. -/
def Ctx.takePart (c d : Ctx) : Ctx :=
  { c with rsks := d.rsks, rskCore := d.rskCore, rskb := d.rskb, rskp := d.rskp, nseq := d.nseq }

/-- The written-back spar's on-core part stays where the next choice picks it again, and is spilled otherwise (R197). -/
def State.settleStack (before after : State) (r : Run) : Chk State :=
  let c := before.core.ctx
  match after.choice with
  | some ch =>
    if ch.r.id = r.id then
      (after.take ch).map (fun s => s.onCore (fun k =>
        { k with rskOwner := some r.id, ctx := k.ctx.takePart c }))
    else .ok after
  | none => .ok after

/-- YIELD_WRITEBACK (R190, R197, R208, R274, R276, R280, R282, R289). A fault that the yield bundle's own matrix work
met stops the spar at the PCB that would be written (R43, log 28); a record that cannot be written holds the write-back;
a fault of the segment stops the spar at the PCB it is writing (R196). -/
def State.yieldWriteback (s0 : State) : Option State :=
  match s0.core.phase with
  | .yielding =>
    if s0.runEnded then some s0.dropEnded
    else if !s0.backReady then none
    else if !s0.core.ctx.engTraps.isEmpty && !s0.runOf.exits then some s0.settleEntry
    else
      match s0.launchOf s0.runOf.id.launch with
      | none => none
      | some l0 =>
        let s := (s0.homeSegment l0 s0.runOf).debitEnergy
        let l := (s.launchOf s.runOf.id.launch).getD l0
        let r := s.rebound s.runOf
        match (do
          let old ← deviceRead s r.ctx r.recVa 64
          deviceWrite (s.noteDevice r.ctx r.recVa 64) r.ctx r.recVa
            (s.backRecord r l.cls (s.cycle - r.started) (recordOf old)) : Chk State) with
        | .error _ => none
        | .ok s1 =>
          let s2 := s1.onCore (fun k => k.spend s1.cycle)
          if r.exits then some ((s2.leaveRun).exitSpar r)
          else
            match rskFail s2.core.ctx.rskb (ioWrite s2 r.ctx none s2.core.ctx.rskb s2.core.ctx.descriptor) with
            | .error t => some (s2.takeTrap { t with pc := s2.core.pc })
            | .ok s3 =>
              let back (q : State) : State := ((q.keepSpar r).leaveRun).parkSpar r l.cls
              let stay := back s3
              let again := match stay.choice with
                | some ch => decide (ch.r.id = r.id)
                | none => false
              if again then
                match State.settleStack s3 stay r with
                | .ok s4 => some s4
                | .error _ => none
              else
                match s3.spillAll with
                | (s4, none) => some (back s4)
                | (s4, some chunk) => some (s4.takeTrap { cause := Cause.rskspl, pc := s4.core.pc, addr := chunk })
  | _ => none

/-! ### Pre-emption (R291) -/

/-- The context of the running spar is held in the core (R298). -/
def State.holdCore (s : State) (cause : Nat) (pc ipc : Word) : State :=
  s.onCore (fun k => { k with phase := .held cause pc ipc, preempt := none, waita := none })

/-- A SAVEF record, with the saved PC and IPC of its stop (R298, R300). -/
def State.savef (s : State) (r : Run) (pc ipc addr : Word) (aux flags : Nat) (held : Bool) : State :=
  let t : TrapInfo := { cause := Cause.savef, pc := pc, ipc := ipc, addr := addr, aux := aux }
  s.post { laneP := true, bytes := laneBytes true t s.coreNum r.lcore flags (s.hdrOf r.id.launch) r.recVa,
           id := some r.id, open_ := decide (flags ≠ 8), cmd := none, held := held, emerg := decide (flags = 3) }

/-- AUX[31] of a held context (R298). -/
def heldBit : Nat := 0x80000000

/-- CHECKPOINT: the context is saved and the spar joins its queue; a save that faults becomes a stop with SAVEF (R291,
R298). -/
def State.checkpoint (s : State) : Option State :=
  match s.core.phase, s.core.preempt with
  | .running, some .checkpoint =>
    if s.pendingCause || !s.saveReady then none
    else
      let r := s.runOf
      let pc := s.core.pc
      let s0 := s.landDue.onCore (fun k => k.spend s.cycle)
      let ipc := ((s.core.ctx.running.map (·.addr)).getD 0)
      match s0.saveCtx true r pc ipc 0 0 with
      | (s1, .area) => some ((s1.leaveSaved r).rejoin (s1.asWaiting (s.pinned r pc) 0))
      | (s1, .emergency a) =>
        let s2 := (s1.savef r pc ipc a 0 3 false).leaveSaved r
        some (s2.addWaiting (s1.asWaiting (s.pinned r pc) 6))
      | (s1, .held a) => some ((s1.savef r pc ipc a heldBit 1 true).holdCore 0 pc ipc)
  | _, _ => none

/-- KILL: the spar stops once its committed stores are performed (R252), its commands abort, and its record returns to its
first-start values (R291); a spar of an ended launch just leaves (R299). -/
def State.kill (s : State) : Option State :=
  match s.core.phase, s.core.preempt with
  | .running, some .kill =>
    if s.runEnded then some s.dropEnded
    else if s.pendingCause || !s.core.storeQ.isEmpty then none
    else
      let r := s.runOf
      let k0 := s.core.ctx.kept
      match deviceWrite s r.ctx r.recVa k0.first with
      | .error _ => none
      | .ok s1 =>
        let rc := recordOf k0.first
        let bound := if r.home then r.bound else none
        let s2 := ((s1.onCore (fun k => k.spend s.cycle)).abortCmds (fun i => decide (i = r.id))).clearCore
        let kept : Kept := { seedtop := k0.seed0, seed0 := k0.seed0, first := k0.first }
        let s3 := { s2 with sched := { s2.sched with kept := s2.sched.kept.put r.id.key kept,
                                                     monitors := s2.sched.monitors.filter (fun m => decide (m.id ≠ r.id)) } }
        some (s3.joinQueue { id := r.id, cls := rc.prio, core := s3.homeOf bound, lc := r.lcore,
                             srun := bits (savedN k0.first 24 8) 4 16, bound := bound, kern := r.kernel })
  | _, _ => none

/-- A core that a newcomer may pre-empt: class, D, core number, and the action (R291). -/
structure Victim where
  cls : Nat
  d : Nat
  num : Nat
  act : Preempt
  deriving DecidableEq, Repr

/-- The spar on a core, from its pick to its write-back: its context, record and class (R274, R291). One that stops takes no
further action (R297). -/
def State.onTheCore (s : State) (k : Core) : Option (Nat × Word × Nat) :=
  match k.phase, k.run with
  | .picked r, _ => (s.launchOf r.id.launch).map (fun l => (l.ctx, l.recVa r.id.idx, r.cls))
  | .running, some r | .yielding, some r => some (r.ctx, r.recVa, r.prio)
  | _, _ => none

/-- Two requests to one core: a kill stands before a checkpoint and that before a drain, and a later drain replaces an
earlier (R291; log 5). -/
def Preempt.join (old new : Preempt) : Preempt :=
  match old, new with
  | .kill, _ | .checkpoint, .drain _ => old
  | _, _ => new

/-- The action on one core, where there is one (R291, R298). A checkpoint or a kill chosen once the yield bundle has
committed lapses at its write-back, where the spar leaves the core (log 5). -/
def State.victimOf (s : State) (n : Nat) (l : Launch) (k : Core) : Option Victim :=
  match s.onTheCore k with
  | some (ctx, rec_, cls) =>
    if l.cls ≤ cls ∨ l.ptok = 0 then none
    else
      let d := s.currentRun k
      let rc := match deviceRead s ctx rec_ 64 with
        | .ok bs => (((recordOf bs).rem), (recordOf bs).rst)
        | .error _ => (0, false)
      let act : Preempt :=
        if d ≤ 2 ^ (20 - l.ptok) ∨ rc.1 * 256 ≤ d then .drain n
        else if rc.2 ∧ 12 ≤ l.ptok then .kill
        else if k.emergency.isSome then .drain n
        else .checkpoint
      some { cls := cls, d := d, num := k.num, act := act }
  | none => none

/-- The order in which cores are considered: class ascending, D descending, number ascending (R291). -/
def Victim.before (a b : Victim) : Bool :=
  if a.cls ≠ b.cls then decide (a.cls < b.cls)
  else if a.d ≠ b.d then decide (b.d < a.d)
  else decide (a.num < b.num)

/-- A victim in its place. -/
def insertVictim (v : Victim) : List Victim → List Victim
  | [] => [v]
  | w :: ws => if v.before w then v :: w :: ws else w :: insertVictim v ws

/-- The scheduler acts on as many cores as the newcomer has ready spars (R291). -/
def State.preemptFor (s : State) (n : Nat) (l : Launch) : State :=
  let vs := (s.allCoresList.filterMap (s.victimOf n l)).foldl (fun acc v => insertVictim v acc) []
  (vs.take l.total).foldl (fun (s : State) v =>
    let f (k : Core) : Core :=
      if k.num = v.num then { k with preempt := some (match k.preempt with
        | some p => p.join v.act
        | none => v.act) } else k
    { s with core := f s.core, others := s.others.map f }) s

/-! ### Supersteps (R287, R288) -/

/-- Spars of a launch that wait at SSTEP. -/
def State.atBarrier (s : State) (n : Nat) : List Waiting :=
  s.sched.waiting.filter (fun w => decide (w.id.launch = n ∧ waitKind w.wait = 4))

/-- EXCHANGE_BEGIN: every spar that has not exited waits at SSTEP. -/
def State.exchangeBegin (s : State) (n : Nat) : Option State :=
  match s.launchOf n with
  | none => none
  | some l =>
    let waits := (s.atBarrier n).length
    if l.ss && l.exchange.isNone && !l.ended && decide (0 < waits ∧ waits + l.exited.length = l.total + l.children.length) then
      some (s.onLaunch n (fun l => { l with exchange := some s.cycle, exOver := false }))
    else none

/-- SSOVR of a launch's header raised by one (R288). -/
def State.ssovr (s : State) (n : Nat) (l : Launch) : State :=
  let s1 := match (do
    let old ← deviceRead s l.ctx (l.hdr + 116) 4
    deviceWrite (s.noteDevice l.ctx (l.hdr + 116) 4) l.ctx (l.hdr + 116) (toBytes 4 (ofBytes old + 1)) : Chk State) with
    | .ok s1 => s1
    | .error _ => s
  s1.onLaunch n (fun l => { l with exOver := true })

/-- The participating cores of a launch: the logical cores on which it generates spars (R287). -/
def Launch.participants (l : Launch) : List Nat :=
  (List.range 96).filter (fun c => (List.range (min l.total (96 * l.group.getD 1))).any (fun n => decide (l.coreOf n = c)))

/-- One entry of the exchange list performed: `bytes` from a buffer of one logical core into a buffer of every other
participating core (R288). -/
def State.exchangeEntry (s : State) (cores : List Nat) (e : Nat × Nat × Nat × Nat) : State :=
  if !cores.contains e.1 then s
  else
  let bs := s.mem.viewN { space := .spm, owner := e.1, addr := e.2.1 } e.2.2.2
  (cores.filter (· ≠ e.1)).foldl (fun s c => s.performSeg { space := .spm, owner := c, addr := e.2.2.1 } bs) s

/-- The kernel whose exchange list a launch runs: the resident one whose code holds the launch's ENTRY, so that the launches
of one kernel share its list. The model's choice: the spec does not say how the device finds a launch's list (R54, R288; log
25). Cores on which that kernel is not resident have none of its buffers, and take no part in the copies. -/
def State.exchangeKernel (s : State) (l : Launch) : Option Kernel :=
  let at_ := l.entry.toNat % 2 ^ 57
  (s.kernels.find? (fun k => decide (k.2.ctx = l.ctx ∧ k.2.entry ≤ at_ ∧ at_ < k.2.entry + 64 * k.2.bundles))).map (·.2)

/-- EXCHANGE_END: the entries are performed and the spars at the barrier become ready (R288). -/
def State.exchangeEnd (s : State) (n : Nat) : Option State :=
  match s.launchOf n with
  | none => none
  | some l =>
    match l.exchange with
    | none => none
    | some t =>
      let s1 := match s.exchangeKernel l with
        | some k => k.exch.foldl (fun (s : State) e => s.exchangeEntry (l.participants.filter (k.lcores.contains ·)) e) s
        | none => s
      let s2 := if decide (t + l.exbud < s.cycle) && !l.exOver then s1.ssovr n l else s1
      let s3 := s2.onLaunch n (fun l => { l with exchange := none, exOver := false })
      some ((s3.atBarrier n).foldl (fun s w => s.rejoin w) s3)

/-- EXBUD_EXPIRE (R288). -/
def State.exbudExpire (s : State) (n : Nat) : Option State :=
  match s.launchOf n with
  | none => none
  | some l =>
    match l.exchange with
    | some t => if decide (t + l.exbud < s.cycle) && !l.exOver then some (s.ssovr n l) else none
    | none => none

end Sys2Proof.Machine
end

