-- ==== Sys2Proof/Machine/Lanes.lean ====
section
/-! DEFINITION. The lanes, stops and ERET (R292 to R299), performing a store (R211, R237, R246, R323), and the events of
the remainder stack and the SFU shadow (R133, R195). -/

namespace Sys2Proof.Machine

/-! ### Stores, spills and landings -/

/-- A piece of a queued store performed, which then has it no more; the last one closes the store (R237, R240, R246, R249). -/
def State.performUnit (s : State) (e : StoreEnt) (g : Place × List Byte) : State :=
  let s1 := s.performCh (decide (e.ch = 1)) g.1 g.2
  if e.segs.erase g = [] then s1.closeStore e
  else s1.onCore (fun k => { k with storeQ := k.storeQ.map (fun q =>
    if q.seq = e.seq ∧ q.id = e.id then { q with segs := e.segs.erase g } else q) })

/-- The PEER ranges of a queued store sent, after which it waits for its acknowledgements (R211, R307). -/
def State.sendStore (s : State) (e : StoreEnt) : State :=
  let peer := e.segs.filter (fun g => decide (g.1.space = .peer))
  let e1 := { e with left := true, sent := peer.length }
  peer.foldl (fun s g => s.openStore e g)
    (s.onCore (fun k => { k with storeQ := k.storeQ.map (fun q => if q.seq = e.seq ∧ q.id = e.id then e1 else q) }))

/-- STORE_PERFORM: a piece of the `n`-th queued store is performed or sent to its peer, which one of several a free value
says; or the store fails with HWERR (R211, R237, R239, R240). A PEER store fails by the status of its transactions (R307,
R314). -/
def State.storePerform (s : State) (n status : Nat) : Option State :=
  match s.core.storeQ[n]?, s.readyUnits n with
  | some e, u :: us =>
    let g := (u :: us).getD (Config.pick s.tick % (us.length + 1)) u
    let s1 := if e.rel.isSome then s.releaseLeft e.scope e.seq else s
    if status = 0 then some (if g.1.space = .peer then s1.sendStore e else s1.performUnit e g)
    else if status = 4 ∧ e.homes.all (fun h => decide (h.1 ≠ .peer)) then
      some ((s.onCore (fun k => { k with storeQ := k.storeQ.eraseIdx n })).sterr e status 0)
    else none
  | _, _ => none

/-- RSK_SPILL (R195). -/
def State.rskSpill (s : State) : Option State :=
  if s.core.run.isSome && s.spillDue then s.orRskTrap s.spillChunk else none

/-- RSK_FILL (R195). -/
def State.rskFill (s : State) : Option State :=
  if s.core.run.isSome && s.fillDue then s.orRskTrap s.fillChunk else none

/-- SFEV_LAND: the results that are due land (R133). -/
def State.sfevLand (s : State) : Option State := if s.core.ctx.due.isEmpty then none else some s.landDue

/-! ### Posting (R292 to R295) -/

/-- The control block of a lane. -/
def State.laneBase (s : State) (p : Bool) : Nat := (if p then s.lanes.pcb else s.lanes.fcb).toNat

/-- A field of a lane's control block. -/
def State.laneField (s : State) (p : Bool) (off n : Nat) : Nat := ofBytes (s.mem.dev.readN (s.laneBase p + off) n)

/-- The core's next record of a lane: the first, with no lane F record of the same or an earlier event before a lane P
record (R294). -/
def Core.nextRecord (k : Core) (p : Bool) : Option LaneRec :=
  match k.lanesUnposted.find? (fun r => r.laneP == p) with
  | some r =>
    if p && (k.lanesUnposted.takeWhile (fun q => !q.laneP)).length ≠ 0 then none else some r
  | none => none

/-- The first record of a lane removed. -/
def dropRecordOf (p : Bool) : List LaneRec → List LaneRec
  | [] => []
  | r :: rs => if r.laneP = p then rs else r :: dropRecordOf p rs

/-- LANE_POST (R292, R293, R294). -/
def State.lanePost (s : State) (p : Bool) : Option State :=
  match s.core.nextRecord p with
  | none => none
  | some r =>
    let head := s.laneField p 0 8
    let tail := s.laneField p 8 8
    let n := s.laneField p 16 4
    if !s.lanes.ctl.getLsbD 0 || decide (n = 0) || decide (n ≤ (head + 2 ^ 64 - tail) % 2 ^ 64) then none
    else
      let base := s.laneBase p
      let dev (a : Nat) : Place := { space := .dev, owner := 0, addr := a }
      let s1 := (s.noteDev base 24).performSeg (dev (base + 128 + 64 * (head % n))) (toBytes 8 head ++ r.bytes)
      let s2 := s1.performSeg (dev base) (toBytes 8 (head + 1))
      let open_ : List OpenRec := match r.open_, r.id with
        | true, some id => [{ laneP := p, seq := head, id := id, core := s.core.num, cmd := r.cmd, held := r.held,
                              emerg := r.emerg, cause := savedN r.bytes 0 2 }]
        | _, _ => []
      let msix := if s.lanes.ctl.getLsbD 1 ∧ head = tail then s2.lanes.msix ++ [p.toNat] else s2.lanes.msix
      some ({ s2 with lanes := { s2.lanes with open_ := s2.lanes.open_ ++ open_, msix := msix } }.onCore (fun k =>
        { k with lanesUnposted := dropRecordOf p k.lanesUnposted }))

/-- Does a lane's N keep to R292. -/
def State.laneOk (s : State) (p : Bool) : Bool :=
  let n := s.laneField p 16 4
  if p then decide (4096 ≤ n ∧ n ≤ 2 ^ 20 ∧ n = 2 ^ Nat.log2 n) else decide (n = 4096)

/-- LANE_ENABLE: a write of LANECTL (R293). -/
def State.laneEnable (s : State) (v : Word) : State :=
  let irq := v &&& 2
  s.ifServes <|
  let ctl : Word :=
    if v.getLsbD 0 then (if s.laneOk false && s.laneOk true then irq ||| 1 else (irq ||| 4) ||| (s.lanes.ctl &&& 1))
    else irq ||| (s.lanes.ctl &&& 4)
  { s with lanes := { s.lanes with ctl := ctl } }

/-! ### Stops (R297, R298, R352) -/

/-- A stop record of the running spar. -/
def State.stopRecord (s : State) (r : Run) (t : TrapInfo) (emerg : Bool) : State :=
  let p := onLaneP t.cause
  s.post { laneP := p, bytes := laneBytes p t s.coreNum r.lcore (if emerg then 3 else 1) (s.hdrOf r.id.launch) r.recVa,
           id := some r.id, open_ := true, cmd := none, emerg := emerg }

/-- FAULT_STOP: the spar's context is saved and one stop record joins the core's unposted records (R297, R298). -/
def State.faultStop (s : State) : Option State :=
  match s.core.phase with
  | .stopping t0 =>
    if s.runEnded then some s.dropEnded
    else if !s.saveReady then none
    else
      let r := s.runOf
      let running := ((s.core.ctx.running.map (·.addr)).getD 0)
      let t := if t0.ipc = 0 then { t0 with ipc := running } else t0
      let s0 := s.onCore (fun k => k.spend s.cycle)
      match s0.saveCtx true r t.pc t.ipc 6 t.cause with
      | (s1, .area) => some (((s1.stopRecord r t false).leaveSaved r).addWaiting (s1.asWaiting (s.pinned r t.pc) 6))
      | (s1, .emergency a) =>
        some ((((s1.stopRecord r t true).savef r t.pc t.ipc a (t.cause % 65536) 8 false).leaveSaved r).addWaiting
          (s1.asWaiting (s.pinned r t.pc) 6))
      | (s1, .held a) => some ((s1.savef r t.pc t.ipc a (heldBit + t.cause % 65536) 1 true).holdCore t.cause t.pc t.ipc)
  | _ => none

/-! ### Ending a launch (R299) -/

/-- A core's part in the end of a launch. -/
def State.endOnCore (s : State) (n : Nat) : State :=
  let of (i : SparId) : Bool := decide (i.launch = n)
  let s1 := s.onCore (fun k =>
    { k with emergency := k.emergency.filter (fun i => !of i), rskHeld := k.rskHeld.filter (fun i => !of i),
             rskOwner := k.rskOwner.filter (fun i => !of i) })
  match s1.core.phase with
  | .picked r => if of r.id then (s1.abortCmds of).clearCore else s1.abortCmds of
  | ph =>
    if (s1.core.run.map (fun r => of r.id)).getD false then
      match ph with
      | .running => s1.onCore (fun k => { k with preempt := some .kill })
      | .held _ _ _ => (s1.abortCmds of).clearCore
      | _ => s1
    else s1.abortCmds of

/-- A launch ends: no spar of it is queued, picked or generated again, its commands abort, its records close, and FINISH
is posted with status 8 once its running spars have stopped (R299). -/
def State.endLaunch (s : State) (n : Nat) : State :=
  let of (i : SparId) : Bool := decide (i.launch = n)
  let s1 := s.onLaunch n (fun l => { l with ended := true, exchange := none })
  let d := s1.sched
  let notes := s1.abortNotes (d.stopped.filter (fun c => of c.id))
  let s2 := { s1 with
    core := { s1.core with lanesUnposted := s1.core.lanesUnposted ++ notes },
    sched := { d with ready := d.ready.filter (fun r => !of r.id), waiting := d.waiting.filter (fun w => !of w.id),
                      monitors := d.monitors.filter (fun m => !of m.id || s1.allCoresList.any (fun k => k.runs m.id)),
                      saved := Tbl.drop d.saved (fun k => decide (k / 2 ^ 32 = n)),
                      stopped := d.stopped.filter (fun c => !of c.id) },
    lanes := { s1.lanes with open_ := s1.lanes.open_.filter (fun o => !of o.id) } }
  (s2.onEachCore (fun s => s.endOnCore n)).settleEnd n

/-! ### ERET (R299) -/

/-- The open record of a lane and sequence number. -/
def State.openRec (s : State) (p : Bool) (seq : Nat) : Option OpenRec :=
  s.lanes.open_.find? (fun o => o.laneP == p && decide (o.seq = seq))

/-- A record closes. -/
def State.closeRec (s : State) (o : OpenRec) : State :=
  { s with lanes := { s.lanes with open_ := s.lanes.open_.filter (fun q => !(q.laneP == o.laneP && decide (q.seq = o.seq))) } }

/-- The stopped command of a record, wherever it is, changed (R222, R224). -/
def State.onCmd (s : State) (id : SparId) (seq : Nat) (f : Cmd → Cmd) : State :=
  let g (c : Cmd) : Cmd := if c.id = id ∧ c.seq = seq ∧ c.stopped.isSome then f c else c
  let s1 := s.allCores (fun k =>
    { k with engines := k.engines.map (·.map g), fabric := k.fabric.map g, gmrg := k.gmrg.map g })
  { s1 with sched := { s1.sched with stopped := s1.sched.stopped.map g } }

/-- ENGINE = 1: the command resumes at its faulting sector, or ends with ABORT (R222, R299). -/
def State.answerCmd (s : State) (o : OpenRec) (act : Nat) : State :=
  match o.cmd with
  | none => s
  | some seq => s.onCmd o.id seq (fun c =>
    if act = 0 then { c with stopped := none }
    else { c with stopped := none, ended := true, status := 2, faddr := c.stopped.getD 0 })

/-- The context that the core holds is saved again; where the save completes the spar joins its queue (R298, R299). -/
def State.retryHeld (s : State) (o : OpenRec) : State :=
  s.withCore o.core (fun s =>
    match s.core.phase with
    | .held cause pc ipc =>
      let r := s.runOf
      match s.saveCtx false r pc ipc 0 cause with
      | (s1, .area) => (s1.leaveSaved r).rejoin (s1.asWaiting (s.pinned r pc) 0)
      | (s1, .emergency a) | (s1, .held a) => s1.savef r pc ipc a (heldBit + cause % 65536) 1 true
    | _ => s)

/-- The chunk that a save left in the on-core part, spilled (R196, R298). -/
def State.spillHeld (s : State) (l : Launch) (o : OpenRec) (c : Ctx) : Chk State :=
  if s.core.rskHeld = some o.id then do
    let lo := max c.rsks.toNat (c.rskb.toNat + 64)
    let n := c.rskp.toNat - lo
    let s1 ← if n = 0 then .ok s else ioWrite s l.ctx none (BitVec.ofNat 64 lo) (c.rskCore.readN lo n)
    let s2 ← ioWrite s1 l.ctx none c.rskb c.descriptor
    .ok (s2.onCore (fun k => { k with rskHeld := none }))
  else .ok s

/-- The emergency area copied to the save area on the saving core (R298, R299). -/
def State.copyEmergency (s : State) (l : Launch) (o : OpenRec) (c : Ctx) : Chk State := do
  let s1 ← s.spillHeld l o c
  let parts := ((0, List.replicate 64 (0 : Byte)) :: savedParts c s.tick).map (fun p =>
    (p.1, s1.mem.dev.readN (s1.emBase + p.1) p.2.length))
  let pc := BitVec.ofNat 64 (ofBytes (s1.mem.dev.readN s1.emBase 8))
  match putParts l.ctx (s1.saveArea o.id) parts s1 with
  | (_, some a) => failAt Cause.savef a
  | (s2, none) =>
    let r : Run := { s2.runOf with sys := l.sys, rst := l.rst }
    let s3 ← deviceWrite s2 l.ctx (l.recVa o.id.idx + 8) (recordMark r pc 0)
    .ok (s3.onCore (fun k => { k with emergency := none }))

/-- What ERET reads from a record beside its lane and number: ACT, ENGINE, EMERG, CAUSE, and the mark of a held context
(R295, R298, R299). -/
structure Answer where
  act : Nat
  engine : Bool
  emerg : Bool
  cause : Nat
  held : Bool
  deriving DecidableEq, Repr

/-- Those fields in the record's 64 bytes. -/
def answerOf (bs : List Byte) : Answer :=
  let flags := savedN bs 15 1
  let cause := savedN bs 8 2
  { act := savedN bs 14 1, engine := flags.testBit 2, emerg := flags.testBit 1, cause := cause,
    held := decide (cause = Cause.savef) && (savedN bs 56 4).testBit 31 }

/-- STOP with RESUME: the spar joins its queue as a checkpointed spar does, its context in the save area (R299). -/
def State.answerStop (s : State) (l : Launch) (o : OpenRec) (q : Answer) : State :=
  let ready (s : State) : State :=
    match s.sched.waiting.find? (fun w => decide (w.id = o.id)) with
    | some w =>
      let s1 := match (do
        let s1 ← deviceWrite s l.ctx (s.saveArea o.id + 25) [1]
        deviceWrite s1 l.ctx (l.recVa o.id.idx + 16) (toBytes 8 0) : Chk State) with
        | .ok s1 => s1
        | .error _ => s
      (s1.rejoin w).closeRec o
    | none => s.closeRec o
  if q.emerg then
    let c := s.sched.saved.getD o.id.key {}
    let lc := ((s.sched.waiting.find? (fun w => decide (w.id = o.id))).map (·.lc)).getD o.core
    s.withCore o.core (fun s =>
      match s.copyEmergency l o c with
      | .ok s1 => ready s1
      | .error t =>
        let head (off : Nat) : Word := BitVec.ofNat 64 (ofBytes (s.mem.dev.readN (s.emBase + off) 8))
        let info : TrapInfo := { cause := Cause.savef, pc := head 0, ipc := head 8, addr := t.addr, aux := q.cause % 65536 }
        s.post { laneP := true, bytes := laneBytes true info s.coreNum lc 8 l.hdr (l.recVa o.id.idx), id := some o.id,
                 open_ := false, cmd := none })
  else ready s

/-- The effect of ERET on an open record (R299). -/
def State.answer (s : State) (o : OpenRec) (q : Answer) : State :=
  match s.launchOf o.id.launch with
  | none => s.closeRec o
  | some l =>
    if l.ended || l.finished then s.closeRec o
    else if q.act = 2 then (s.closeRec o).endLaunch o.id.launch
    else if q.engine then (s.answerCmd o q.act).closeRec o
    else if q.held then (s.retryHeld o).closeRec o
    else s.answerStop l o q

/-- The tests of the record at X1 and its answer (R299). -/
def eretOutcome (e : Env) (bs : List Byte) (ts : List (Target × Nat)) : SlotOut :=
  let q := answerOf bs
  if (savedN bs 15 1).testBit 3 then .fault Cause.erarg 2
  else
    match e.s.openRec (decide (savedN bs 10 1 ≠ 0)) (savedN bs 0 8) with
    | none => .fault Cause.erarg 1
    | some o =>
      if q.act = 0 ∨ q.act = 2 ∨ (q.act = 1 ∧ q.engine) then .ok (fun s => ((s.readDone 0 (e.c.rx 1) ts).acquire ts).answer o q)
      else .fault Cause.erarg 3

/-- ERET (R299): a system fence over every space, then the acquiring load of the record. -/
def slotEret (_ : SR) (e : Env) : SlotOut :=
  let x := e.c.rx 1
  let r := e.s.runOf
  if !r.sys then .fault Cause.priv
  else if !e.s.core.storeQ.isEmpty then .wait
  else if !canonical x then .fault Cause.ncanon 0 x
  else if x.toNat % 64 ≠ 0 then .fault Cause.malign 0 x
  else
    .bind (access e.s false .read ((x.extractLsb' 0 57).setWidth 64) 64) fun ts =>
    eretOutcome e (e.s.loadPieces ts) ts

end Sys2Proof.Machine
end

