-- ==== Sys2Proof/Machine/VecMove.lean ====
section
/-! DEFINITION. Data movement, the queue pop and VSHP (R119 to R122, R126). -/

namespace Sys2Proof.Machine

/-- VMOV: the extent at byte width (R119); a small immediate converts as INT8 (DESIGN CHOICE, log 23). -/
def slotVmov (a : VArgs) (e : Env) : SlotOut :=
  let src := e.src .int8 1 a.o1
  elementwise e a 8 [src] (fun _ q => (src.atPos a.o0.dir.toNat a.line.toNat 8 (e.c.nc 8) q, .none))

/-- VBCAST: the whole destination from one element, a row or a column (R119). -/
def slotVbcast (a : VArgs) (e : Env) : SlotOut :=
  let w := a.fmt.bits
  let src := e.src a.fmt 1 a.o1
  elementwise e a w [src] (fun _ q =>
    let from_ : Pos := match src with
      | .tile _ 0 => ⟨0, 0, 0⟩
      | _ => q
    (a.fmt.stored (src.at 0 a.line.toNat w (e.c.nc w) from_), .none))

/-- Writes at chosen positions of whole destinations, under the mask. -/
def placed (e : Env) (a : VArgs) (w : Nat) (els : List (Pos × Nat)) : SlotOut :=
  let (ws, _) := maskedWrites (a.mask e.c) a.o0.zer w (els.map (fun q => (q.1, q.2, Flags.none)))
  .ctx (fun c => c.wts a.dests ws)

/-- VTRN: the m x m square transposed (R120). -/
def slotVtrn (a : VArgs) (e : Env) : SlotOut :=
  let w := a.fmt.bits
  let nc := e.c.nc w
  let m := min e.c.nr nc
  let src := e.src a.fmt 1 a.o1
  placed e a w ((extent 0 0 m m).map (fun q => (⟨q.j, q.i, 0⟩, a.fmt.stored (src.at 0 0 w nc q))))

/-- The index of VPERM for a destination: byte x(64 i + j) (R121); an immediate converts as INT8 (the model's choice, log
23). -/
def permIndex (e : Env) (a : VArgs) (q : Pos) : Nat :=
  match e.src .int8 2 a.o2 with
  | .tile t _ => tileByte t q.i q.j
  | s => s.at 0 0 8 64 q

/-- VPERM in row mode (R121). -/
def slotVpermRow (a : VArgs) (e : Env) : SlotOut :=
  let w := a.fmt.bits
  let nc := e.c.nc w
  let src := e.src a.fmt 1 a.o1
  placed e a w ((extent 0 0 e.c.nr nc).map (fun q =>
    let x := permIndex e a q % 64
    (q, if nc ≤ x then 0 else a.fmt.stored (src.at 0 0 w nc ⟨q.i, x, x⟩))))

/-- VPERM in column mode (R121). -/
def slotVpermCol (a : VArgs) (e : Env) : SlotOut :=
  let w := a.fmt.bits
  let nc := e.c.nc w
  let nr := e.c.nr
  let src := e.src a.fmt 1 a.o1
  placed e a w ((extent 0 0 nr nc).map (fun q =>
    let x := permIndex e a q % 16
    (q, if nr ≤ x then 0 else a.fmt.stored (src.at 0 0 w nc ⟨x, q.j, q.j⟩))))

/-- POP: a queue entry image into row 0, or row k, of td (R122). -/
def slotPop (a : VArgs) (e : Env) : SlotOut :=
  let row := if a.o0.dir = 0 then 0 else a.line.toNat
  let src := e.src .int8 1 a.o1
  placed e a 8 ((List.range 64).map (fun b => (⟨row, b, b⟩, src.at 0 0 8 64 ⟨row, b, b⟩)))

/-- VSHP: SHAPE from two small immediates (R126). -/
def slotVshp (a : VArgs) (_ : Env) : SlotOut :=
  .ctx (fun c => { c with shape := BitVec.ofInt 64 (a.o1.imm - 1 + (a.o2.imm - 1) * 256) })

end Sys2Proof.Machine
end

