-- ==== Sys2Proof/Machine/Slots.lean ====
section
/-! DEFINITION. What each operation's slot answers at issue. -/

namespace Sys2Proof.Machine

/-- The slot of an operation at issue (R41). BUNDLE_ISSUE and the events stand in no slot. -/
def slotOut (i : Instr) (e : Env) : SlotOut :=
  match i with
  | .add a => slotAdd a e
  | .sub a => slotSub a e
  | .mul a => slotMul a e
  | .mulh a => slotMulh a e
  | .div a => slotDiv a e
  | .rem a => slotRem a e
  | .and a => slotAnd a e
  | .or a => slotOr a e
  | .xor a => slotXor a e
  | .shl a => slotShl a e
  | .shr a => slotShr a e
  | .sra a => slotSra a e
  | .min a => slotMin a e
  | .max a => slotMax a e
  | .clz a => slotClz a e
  | .popc a => slotPopc a e
  | .addi a => slotAddi a e
  | .andi a => slotAndi a e
  | .ori a => slotOri a e
  | .xori a => slotXori a e
  | .shli a => slotShli a e
  | .shri a => slotShri a e
  | .srai a => slotSrai a e
  | .ldi a => slotLdi a e
  | .ldih a => slotLdih a e
  | .sel a => slotSel a e
  | .cmp a => slotCmp a e
  | .cmpi a => slotCmpi a e
  | .pand a => slotPand a e
  | .por a => slotPor a e
  | .pxor a => slotPxor a e
  | .pnot a => slotPnot a e
  | .movpToX a => slotMovpToX a e
  | .movpToP a => slotMovpToP a e
  | .br a => slotBr a e
  | .brc a => slotBrc a e
  | .call a => slotCall a e
  | .ret a => slotRet a e
  | .loop a => slotLoop a e
  | .crr a => slotCrr a e
  | .crw a => slotCrw a e
  | .trap a => slotTrap a e
  | .eret a => slotEret a e
  | .spawn a => slotSpawn a e
  | .susp a => slotSusp a e
  | .exit a => slotExit a e
  | .sdrd a => slotSdrd a e
  | .sdfk a => slotSdfk a e
  | .widr a => slotWidr a e
  | .vadd a => slotVadd a e
  | .vsub a => slotVsub a e
  | .vmul a => slotVmul a e
  | .vfma a => slotVfma a e
  | .vfms a => slotVfms a e
  | .vmin a => slotVmin a e
  | .vmax a => slotVmax a e
  | .vabs a => slotVabs a e
  | .vand a => slotVand a e
  | .vor a => slotVor a e
  | .vxor a => slotVxor a e
  | .vshl a => slotVshl a e
  | .vshr a => slotVshr a e
  | .vcmp a => slotVcmp a e
  | .vsel a => slotVsel a e
  | .vmskNz a => slotVmskNz a e
  | .vmskLd a => slotVmskLd a e
  | .vmskSt a => slotVmskSt a e
  | .vmskNot a => slotVmskNot a e
  | .vmskAnd a => slotVmskAnd a e
  | .vmskOr a => slotVmskOr a e
  | .vmskAndn a => slotVmskAndn a e
  | .vmskAll a => slotVmskAll a e
  | .vmov a => slotVmov a e
  | .vbcast a => slotVbcast a e
  | .vtrn a => slotVtrn a e
  | .vpermRow a => slotVpermRow a e
  | .vpermCol a => slotVpermCol a e
  | .pop a => slotPop a e
  | .vcvt a => slotVcvt a e
  | .qnt a => slotQnt a e
  | .dqnt a => slotDqnt a e
  | .vshp a => slotVshp a e
  | .vrsum a => slotVrsum a e
  | .vcsum a => slotVcsum a e
  | .vrmax a => slotVrmax a e
  | .vcmax a => slotVcmax a e
  | .vrmin a => slotVrmin a e
  | .vcmin a => slotVcmin a e
  | .vemax a => slotVemax a e
  | .vexps a => slotVexps a e
  | .vresc a => slotVresc a e
  | .vrms a => slotVrms a e
  | .sfev a => slotSfev a e
  | .sfld a => slotSfld a e
  | .rnrw a => slotRnrw a e
  | .unrw a => slotUnrw a e
  | .rmulq a => slotRmulq a e
  | .umulq a => slotUmulq a e
  | .raddc a => slotRaddc a e
  | .uaddc a => slotUaddc a e
  | .rlrlu a => slotRlrlu a e
  | .ulrlu a => slotUlrlu a e
  | .rscl a => slotRscl a e
  | .uscl a => slotUscl a e
  | .rskmk a => slotRskmk a e
  | .rskck a => slotRskck a e
  | .rsksp a => slotRsksp a e
  | .rskfl a => slotRskfl a e
  | .mmaBf16 a => slotMmaBf16 a e
  | .mmaFp16 a => slotMmaFp16 a e
  | .mmaE4m3 a => slotMmaE4m3 a e
  | .mmaE5m2 a => slotMmaE5m2 a e
  | .mmaE2m3 a => slotMmaE2m3 a e
  | .mmaE3m2 a => slotMmaE3m2 a e
  | .mmaE2m1 a => slotMmaE2m1 a e
  | .mmaQ4x a => slotMmaQ4x a e
  | .mmag a => slotMmag a e
  | .sacc a => slotSacc a e
  | .mzero a => slotMzero a e
  | .mwld a => slotMwld a e
  | .mcfg a => slotMcfg a e
  | .mdrn a => slotMdrn a e
  | .mchk a => slotMchk a e
  | .mrecomp a => slotMrecomp a e
  | .mlatLoad a => slotMlatLoad a e
  | .mlatExpand a => slotMlatExpand a e
  | .mlatAbsorb a => slotMlatAbsorb a e
  | .ld a => slotLd a e
  | .st a => slotSt a e
  | .aadd a => slotAadd a e
  | .acas a => slotAcas a e
  | .axch a => slotAxch a e
  | .amax a => slotAmax a e
  | .amin a => slotAmin a e
  | .tld a => slotTld a e
  | .tst a => slotTst a e
  | .gld a => slotGld a e
  | .tsts a => slotTsts a e
  | .tagl a => slotTagl a e
  | .tags a => slotTags a e
  | .tagi a => slotTagi a e
  | .tagiA a => slotTagiA a e
  | .aset a => slotAset a e
  | .ainc a => slotAinc a e
  | .amod a => slotAmod a e
  | .abrev a => slotAbrev a e
  | .astp a => slotAstp a e
  | .alen a => slotAlen a e
  | .aget a => slotAget a e
  | .aclr a => slotAclr a e
  | .cpy a => slotCpy a e
  | .cpyf a follow => slotCpyf a follow e
  | .pfh a => slotPfh a e
  | .rcinv a => slotRcinv a e
  | .glog a => slotGlog a e
  | .gmrg a => slotGmrg a e
  | .rsto a => slotRsto a e
  | .rfaa a => slotRfaa a e
  | .rfen a => slotRfen a e
  | .collAr a => slotCollAr a e
  | .collAg a => slotCollAg a e
  | .collRs a => slotCollRs a e
  | .collA2a a => slotCollA2a a e
  | .mark a => slotMark a e
  | .fence a => slotFence a e
  | .acq a => slotAcq a e
  | .rel a => slotRel a e
  | .sstep a => slotSstep a e
  | .waita a => slotWaita a e
  | .waitk a => slotWaitk a e
  | .bundleIssue _
  | .sfevLand
  | .rskSpill
  | .rskFill
  | .matrixStart
  | .matrixKstep
  | .matrixComplete
  | .wstreamSector _
  | .storePerform _ _
  | .copyStart _
  | .copySector _
  | .copyComplete _
  | .followonEnter
  | .valleyFold
  | .collComplete _
  | .waitaTimeout
  | .monitorFire _
  | .waitTimeDue _
  | .pageWalk _ _ _
  | .l2ReadMiss _ _ _
  | .mcWindowExpire _
  | .hbmHalfWidth _
  | .mntFlush
  | .mntShoot
  | .mntDone
  | .arbiterChoose
  | .sparEntry
  | .sparResume
  | .yieldWriteback
  | .checkpoint
  | .kill
  | .faultStop
  | .lanePost _
  | .exchangeBegin _
  | .exchangeEnd _
  | .exbudExpire _
  | .laneEnable _
  | .launchPacket
  | .seedPush
  | .seedPop
  | .seedFork
  | .prefetchHint
  | .energyBudget
  | .evictionScheduleLoad
  | .fencePacket
  | .fencePost _
  | .portAccept
  | .hostEnable _
  | .hostDisable _
  | .hostWindowAccess _ _ _
  | .hostWindowClose
  | .hostSnoop _ _
  | .flitReceive _ _
  | .laneFault _ _
  | .retrainDone _ _ _
  | .linkEnable _
  | .routeSend _
  | .pairReceive _ _ _
  | .pairAck _ _ _ _
  | .pairResendTimeout _
  | .rfenPerform _
  | .collPeerTimeout _
  | .deviceReset
  | .bootStage _
  | .watchdogExpire
  | .recoveryImage _
  | .attRequest _
  | .attDone
  | .powerRequest _
  | .p2Wake
  | .thermalTrip _
  | .debugToken _ _
  | .thinjWrite _
  | .farordFinalise _
  | .imageLoad _ _
  | .kernelUnload _
  | .registerWrite _ _
  | .linkManagementReset _
  | .hbmRefreshScrub _ _ _ _
  | .lifecycleFuseAdvance _
  | .minimalModePacket
  | .recoveryRequest
  | .partcfgWrite _ => .ok id

end Sys2Proof.Machine
end

