-- ==== Sys2Proof/Machine/Issue.lean ====
section
/-! DEFINITION. The issue of a bundle (R41 to R47, R132, R352): what holds it, its snapshot and pops, its ports, the choice
among its faults, and its commit. -/

namespace Sys2Proof

open Machine

/-- A bundle with nothing in it, under the header that `i` needs. -/
def Bundle.bare (i : Instr) : Bundle :=
  { hdr := plainHdr i, scalar := .unused, vectorA := .unused, vectorB := .unused, matrix := .unused, load := .unused,
    store := .unused, copy := .unused, sync := .unused }

/-- The bundle of one scalar-slot operation. -/
def Bundle.ofScalar (i : Instr) : Bundle := { Bundle.bare i with scalar := .op i }

/-- The bundle of one vector operation. -/
def Bundle.ofVector (inB : Bool) (i : Instr) : Bundle :=
  if inB then { Bundle.bare i with vectorB := .op i } else { Bundle.bare i with vectorA := .op i }

/-- The bundle of one matrix operation. -/
def Bundle.ofMatrix (i : Instr) : Bundle := { Bundle.bare i with matrix := .op i }

/-- The bundle of one load- or store-slot operation. -/
def Bundle.ofMemory (inStore : Bool) (i : Instr) : Bundle :=
  if inStore then { Bundle.bare i with store := .op i } else { Bundle.bare i with load := .op i }

/-- The bundle of one copy-slot operation. -/
def Bundle.ofCopy (i : Instr) : Bundle := { Bundle.bare i with copy := .op i }

/-- The bundle of a CPYF and its follow-on (R231). -/
def Bundle.ofFollow (i : Instr) (follow : BitVec 80) : Bundle :=
  { Bundle.bare i with copy := .op i, matrix := decodeMatrix follow }

/-- The bundle of one sync-slot operation. -/
def Bundle.ofSync (i : Instr) : Bundle := { Bundle.bare i with sync := .op i }

/-- The operations of a bundle with their slot numbers. -/
def Bundle.ops (b : Bundle) : List (Nat × Instr) :=
  b.slots.filterMap (fun d => d.2.op?.map (fun i => (d.1, i)))

namespace Machine

/-! ### Guards (R26 to R31, R45) -/

/-- The predicates that guard an operation; the sync slot has none. -/
def guardsOf (i : Instr) : List (BitVec 4) :=
  match vectorForm i with
  | some (a, _) => a.g1 :: (if a.g2.getLsbD 3 then [] else [a.g2])
  | none =>
    match encodeScalar i, encodeMatrix i, encodeLoadStore i, encodeCopy i with
    | some b, _, _, _ => [b.extractLsb' 36 4]
    | _, some b, _, _ => [b.extractLsb' 68 4]
    | _, _, some b, _ => [b.extractLsb' 29 4]
    | _, _, _, some b => [b.extractLsb' 29 4]
    | _, _, _, _ => []

/-- Does an operation's guard hold; P0 reads true. -/
def guardTrue (c : Ctx) (i : Instr) : Bool := (guardsOf i).all c.rp

/-- The operations of a bundle whose guards hold. -/
def liveOps (c : Ctx) (b : Bundle) : List (Nat × Instr) := b.ops.filter (fun d => guardTrue c d.2)

/-! ### Pops (R35, R41, R45) -/

/-- A queue pop that a bundle names: slot, operand, queue and the predicate of its flag mode. -/
structure Pop where
  slot : Nat
  k : Nat
  q : Nat
  flag : Option Nat
  deriving DecidableEq, Repr

/-- The pops of a bundle, in slot order then operand order, whatever the guards (R41, R45). -/
def popsOf (b : Bundle) : List Pop :=
  b.ops.flatMap (fun d => match vectorForm d.2 with
    | some (a, f) => (f.fields a).filterMap (fun q =>
        if q.2.1.isSrc && q.2.2.isPop then some ⟨d.1, q.1, bits q.2.2.idx.toNat 0 3, q.2.2.flagPred⟩ else none)
    | none => [])

/-- What a pop meets: an entry, an empty queue in flag mode, an entry still to come, or nothing at all. -/
inductive Met where
  | entry (img : BitVec 512)
  | missed
  | later
  | never
  deriving DecidableEq, Repr

/-- One pop, `before` entries of its queue being spoken for. -/
def Pop.meet (c : Ctx) (p : Pop) (before : Nat) : Met :=
  let q := c.queue p.q
  match q.1[before]? with
  | some img => .entry img
  | none => if p.flag.isSome then .missed else if before < q.1.length + q.2 then .later else .never

/-- The pops of a bundle met in order, `taken` being the queues of the entries already spoken for. -/
def meetPops (c : Ctx) : List Nat → List Pop → List (Pop × Met)
  | _, [] => []
  | taken, p :: ps =>
    let m := p.meet c (taken.filter (fun q => decide (q = p.q))).length
    (p, m) :: meetPops c (if m = .missed then taken else p.q :: taken) ps

/-- The cause of a stall-mode pop that nothing can meet (R134, R159, R223, R236, R318). -/
def unfCause (q : Nat) : Nat :=
  match q with
  | 0 => Cause.qmunf
  | 1 => Cause.qcunf
  | 2 => Cause.qsunf
  | 3 => Cause.qwait
  | _ => Cause.qgunf

/-- A stall-mode pop of QS that an unlanded entry will meet moves tau to that landing point (R134). -/
def State.reachQs (s : State) (ps : List Pop) : Nat → State
  | 0 => s
  | n + 1 =>
    let c := s.core.ctx
    if (meetPops c [] ps).any (fun p => decide (p.1.q = 2 ∧ p.2 = .later)) then
      match c.shadow.find? (fun l => !l.qs.isEmpty) with
      | some l => State.reachQs ((s.onCtx (fun c => { c with tau := max c.tau l.at_ })).landDue) ps n
      | none => s
    else s

/-- Entries that pops took, leaving their queues. -/
def Ctx.dropPops (c : Ctx) (ms : List (Pop × Met)) : Ctx :=
  let n (q : Nat) : Nat := (ms.filter (fun p => decide (p.1.q = q) && (match p.2 with | .entry _ => true | _ => false))).length
  { c with qm := c.qm.drop (n 0), qc := c.qc.drop (n 1), qs := c.qs.drop (n 2), qx := c.qx.drop (n 3), qg := c.qg.drop (n 4) }

/-- The flags of flag-mode pops: true for an entry, false for an empty queue (R35). -/
def Ctx.popFlags (c : Ctx) (ms : List (Pop × Met)) : Ctx :=
  ms.foldl (fun c p => match p.1.flag with
    | some k => c.wp (BitVec.ofNat 4 k) (decide (p.2 ≠ .missed))
    | none => c) c

/-! ### The scoreboard (R44, R144, R174, R188, R218, R231, R309) -/

/-- The tiles that a matrix operation reads (R147, R148, R150, R156, R185). -/
def matrixReads (c : Ctx) (i : Instr) : List TileName :=
  let scales (a : MArgs) : List TileName :=
    (List.range (((a.k + 31) / 32 + 7) / 8)).map (fun q => ⟨a.ob.lvl.toNat, a.ob.idx.toNat + q⟩)
  let lat (a : MArgs) (expand : Bool) : List TileName :=
    a.ob.tile :: aTiles c c.mcfgr (if a.lfmt = .fp16 then .fp16 else .bf16) a.oa false (mlatK a expand (c.dhOf (a.f 6 3)))
  match i with
  | .mmag a => aTiles c c.mcfgr (fmtOf3 (a.f 25 3)) a.oa (a.f 22 1 = 1) a.k
  | .sacc a => (if a.f 7 1 = 1 then [a.oa.tile] else []) ++ (if a.f 8 1 = 1 then [a.ob.tile] else [])
  | .mwld a =>
    if a.f 1 1 = 1 then
      (List.range ((panelSectors (fmtOf3 (a.f 2 3)) (a.f 5 10 + 1) true + 7) / 8)).map (fun q => ⟨0, a.oa.idx.toNat + q⟩)
    else []
  | .mlatExpand a => lat a true
  | .mlatAbsorb a => lat a false
  | i => match mmaFmt i with
    | some (a, f) => aTiles c c.mcfgr f a.oa (a.f 22 1 = 1) a.k ++ (if f.micro then scales a else [])
    | none => []

/-- The tiles that an operation reads at issue or at its commit. -/
def tileReads (c : Ctx) (i : Instr) : List TileName :=
  match vectorForm i with
  | some (a, f) => (f.fields a).filterMap (fun q => if q.2.1.isSrc && q.2.2.isTile then some q.2.2.tile else none)
  | none => match i with
    | .tst a | .tsts a | .gld a => [a.dat.tile]
    | i => matrixReads c i

/-- The tiles that an operation writes, MDRN's block among them. -/
def tileWrites (c : Ctx) (i : Instr) : List TileName :=
  match vectorForm i with
  | some (a, f) =>
    (f.fields a).flatMap (fun q => if q.2.1.isDst then a.dest q.2.2 else []) ++ (if a.lat then [a.latch] else [])
  | none => match i with
    | .tld a | .gld a => if a.dat.neg then [] else [a.dat.tile]
    | .mdrn a => drainTiles a (bits c.mcfgr.toNat 0 7 + 1) (bits c.mcfgr.toNat 7 7 + 1)
    | _ => []

/-- The tiles that a job will write (R174). -/
def MJob.dests (j : MJob) : List TileName :=
  match j.op with
  | .mdrn a => drainTiles a j.m j.n
  | _ => []

/-- The accumulators that a matrix operation writes. -/
def zWrites (i : Instr) : List Nat :=
  match i with
  | .mmag a => (List.range (((a.k + 31) / 32 + a.groupSteps - 1) / a.groupSteps)).map (fun g => a.zd.toNat + g)
  | .mzero a => (List.range (a.f 0 6 + 1)).map (fun g => a.zd.toNat + g)
  | .sacc a | .mdrn a | .mchk a | .mrecomp a | .mlatExpand a | .mlatAbsorb a => [a.zd.toNat]
  | i => (mmaFmt i).toList.map (fun q => q.1.zd.toNat)

/-- The accumulators that a matrix operation reads or writes. -/
def zUses (i : Instr) : List Nat :=
  match i with
  | .sacc a => [a.f 0 6, a.zd.toNat]
  | i => zWrites i

/-- The segments that an operation of the Dormer stage uses. -/
def segUses (c : Ctx) (i : Instr) : List Nat :=
  match i with
  | .mlatLoad a => (List.range (projSegs a.dc (loadDh a))).map (fun q => a.f 6 3 + q)
  | .mlatExpand a => (List.range (projSegs a.dc (c.dhOf (a.f 6 3)))).map (fun q => a.f 6 3 + q)
  | _ => []

/-- Does an operation load a weight buffer. -/
def loadsWb (i : Instr) (wb : Bool) : Bool :=
  match i with
  | .mwld a => loadWb a == wb
  | _ => false

/-- Do an operation and a held follow-on meet in a source or destination (R231). -/
def meetsFollow (c : Ctx) (f i : Instr) : Bool :=
  let wb (b : Bool) : Bool := (loadsWb i b && (readsWb f b || loadsWb f b)) || (loadsWb f b && readsWb i b)
  let load (i : Instr) : Bool := match i with
    | .mlatLoad _ => true
    | _ => false
  (zUses f).any (fun z => (zWrites i).contains z) || wb false || wb true ||
    ((load f || load i) && (segUses c f).any (fun g => (segUses c i).contains g))

/-- Does the scoreboard hold an operation (R44, R174, R231). -/
def scoreHolds (c : Ctx) (i : Instr) : Bool :=
  c.jobs.any (fun j =>
    (tileWrites c i).any (fun n => (j.tiles.get? n.key).isSome || j.dests.contains n) ||
      (!j.dests.isEmpty && (tileReads c i).any (fun n => j.dests.contains n)) ||
      (zWrites j.op).any (fun z => (zUses i).contains z)) ||
    c.follow.any (fun f => meetsFollow c f.job.op i)

/-- Has the matrix engine no place for an operation (R43, R144); a follow-on takes none at issue (R231). -/
def engineFull (c : Ctx) (follow : Bool) (i : Instr) : Bool :=
  match i with
  | .mcfg _ => false
  | .mwld a => !follow && c.waiting.isSome && ((c.ws (loadWb a)).full || c.holdsLoad (loadWb a))
  | i => !follow && (encodeMatrix i).isSome && c.waiting.isSome

/-- Is the queue that a copy-slot command joins full (R218, R309). -/
def queueFull (k : Core) (i : Instr) : Bool :=
  match i with
  | .cpy _ | .cpyf _ _ | .glog _ => decide (16 ≤ (k.engines.toList.getD (k.ctx.engN % 4) []).length)
  | .rsto _ | .rfaa _ | .rfen _ | .collAr _ | .collAg _ | .collRs _ | .collA2a _ => decide (32 ≤ k.fabric.length)
  | _ => false

/-- Does the descriptor of a collective put its receive buffer in the scratchpad; one that cannot be read may (R188,
R315). -/
def collToSpm (s : State) (a : CArgs) : Bool :=
  match ioFetch s s.runOf.ctx (some false) (s.core.ctx.rx a.xl) 128 with
  | .ok b => (descOf b).dsp
  | .error _ => true

/-- Does an operation write the scratchpad (R188). -/
def writesSpm (s : State) (i : Instr) : Bool :=
  let c := s.core.ctx
  match i with
  | .st a | .tst a | .tsts a | .aadd a | .acas a | .axch a | .amax a | .amin a => a.sp
  | .cpy a | .cpyf a _ => decide (a.f 4 1 = 1) || (c.rx a.xl).getLsbD 63
  | .rfaa a => decide (a.f 0 1 = 1)
  | .collAr a | .collAg a | .collRs a | .collA2a a => collToSpm s a
  | _ => false

/-- Is an MLAT committed whose rows a scratchpad write could still change: one that has not captured them, or that would
gather them again after a checkpoint. The hold lasts to the instruction's end, so that no gathering sees a write committed
after it (R188; log 22). -/
def Ctx.gathering (c : Ctx) : Bool := c.jobs.any (fun j => (latArgs j.op).isSome)

/-- Is matrix work of the spar in flight, which a yield bundle waits for (R45, R231). -/
def Ctx.matrixBusy (c : Ctx) : Bool := !c.jobs.isEmpty || c.ws0.active.isSome || c.ws1.active.isSome

/-- Does the copy slot hold a CPYF that executes. -/
def hasFollow (live : List (Nat × Instr)) : Bool :=
  live.any (fun d => match d.2 with
    | .cpyf _ _ => true
    | _ => false)

/-- Is a bundle held at issue by what its operations would use. -/
def State.heldBy (s : State) (b : Bundle) (live : List (Nat × Instr)) : Bool :=
  let c := s.core.ctx
  (b.hdr.y && c.matrixBusy) ||
    live.any (fun d => scoreHolds c d.2 || engineFull c (hasFollow live) d.2 || queueFull s.core d.2 ||
      (c.gathering && writesSpm s d.2))

/-! ### Issue cycles (R46, R132) -/

/-- The banks that an operation's fields read at level 00. -/
def bankReads (i : Instr) : List Nat :=
  let of (o : Opnd) : List Nat := if o.lvl = 0 then [o.idx.toNat % 8] else []
  match vectorForm i with
  | some (a, f) => (f.fields a).flatMap (fun q => if q.2.1.isSrc then of q.2.2 else [])
  | none => match i with
    | .tst a | .tsts a => of a.dat
    | .mmag a => of a.oa
    | .sacc a => (if a.f 7 1 = 1 then of a.oa else []) ++ (if a.f 8 1 = 1 then of a.ob else [])
    | .mwld a => if a.f 1 1 = 1 then of a.oa else []
    | .mlatExpand a | .mlatAbsorb a => of a.oa ++ of a.ob
    | i => match mmaFmt i with
      | some (a, f) => of a.oa ++ (if f.micro then of a.ob else [])
      | none => []

/-- The banks that an operation's fields write at level 00; a suppressed destination counts nothing. -/
def bankWrites (i : Instr) : List Nat :=
  let of (o : Opnd) : List Nat := if o.lvl = 0 && !o.neg then [o.idx.toNat % 8] else []
  match vectorForm i with
  | some (a, f) => (f.fields a).flatMap (fun q => if q.2.1.isDst && !a.wbs then of q.2.2 else [])
  | none => match i with
    | .tld a | .gld a => of a.dat
    | .mdrn a => of a.oa ++ (if a.f 4 1 = 1 then of a.ob else [])
    | _ => []

/-- What banks serve beyond their ports (R46). -/
def excess (ports : Nat) (banks : List Nat) : Nat :=
  (List.range 8).foldl (fun n k => n + ((banks.filter (fun q => decide (q = k))).length - ports)) 0

/-- The extra issue cycles of a DIV, a REM or an SFLD (R86, R132). -/
def extraCycles (i : Instr) : Nat :=
  match i with
  | .div _ | .rem _ => 16
  | .sfld _ => 8
  | _ => 0

/-- The issue cycles of a bundle (R46, R132). -/
def issueCycles (b : Bundle) : Nat :=
  let is := b.ops.map (·.2)
  1 + excess 3 (is.flatMap bankReads) + excess 2 (is.flatMap bankWrites) + is.foldl (fun n i => n + extraCycles i) 0

/-! ### Counter ranges (R74) -/

/-- Elements for which an operation is allotted counters: those of its full extent where it names SR (R72, R74). -/
def srCount (c : Ctx) (i : Instr) : Nat :=
  let sr (code : Nat) : Bool := decide (Rm.ofCode c.arith code = .sr)
  match i with
  | .vcvt a => if sr (bits a.o2.ctl 0 2) then c.nr * c.nc (max (setFmt a.o2.ctl).bits a.fmt.bits) else 0
  | .qnt a => if sr (bits a.o4.ctl 0 2) then 32 * c.nr else 0
  | .dqnt a => if sr (bits a.o3.ctl 0 2) then 32 * c.nr else 0
  | .sfev a => if sr (bits a.o2.ctl 2 2) then c.nr * c.nc a.fmt.bits else 0
  | .mdrn a =>
    if sr (a.f 2 2) then (bits c.mcfgr.toNat 0 7 + 1) * (bits c.mcfgr.toNat 7 7 + 1) else 0
  | .cpy a | .cpyf a _ => if a.f 0 5 = 0x16 then 2 ^ 40 else 0
  | _ => 0

/-- SRCTR at the start of the allotment: a CRW's value where the bundle writes it (R74). -/
def srStart (c : Ctx) (live : List (Nat × Instr)) : Word :=
  live.foldl (fun v d => match d.2 with
    | .crw a => if bits a.imm.toNat 0 12 = 0x012 then c.rx a.ra else v
    | _ => v) c.srctr

/-- The counters allotted to the operations below a slot (R74). -/
def srBefore (c : Ctx) (live : List (Nat × Instr)) (slot : Nat) : Nat :=
  (live.filter (fun d => decide (d.1 < slot))).foldl (fun n d => n + srCount c d.2) 0

/-- The base of a slot (R74). -/
def srBaseOf (c : Ctx) (live : List (Nat × Instr)) (slot : Nat) : Word :=
  srStart c live + BitVec.ofNat 64 (srBefore c live slot)

/-! ### The slots -/

/-- What one slot sees (R41). -/
def envOf (s : State) (b : Bundle) (live : List (Nat × Instr)) (ms : List (Pop × Met)) (slot : Nat) : Env :=
  let e : Env := { s := s, slot := slot }
  { s := s, slot := slot, ldNeed := ((live.filter (fun d => decide (d.1 < slot))).map (fun d => e.loadNeed d.2)).sum,
    pops := ms.filterMap (fun p => match p.2 with
      | .entry img => some (p.1.slot, p.1.k, img)
      | _ => none),
    named := (popsOf b).map (·.q), srBase := srBaseOf s.core.ctx live slot, follow := decide (slot = 4) && hasFollow live }

/-- The outcome of one operation: an unmet pop's fault, then what its slot answers where its guard holds (R41, R45). -/
def slotResult (s : State) (b : Bundle) (live : List (Nat × Instr)) (ms : List (Pop × Met)) (d : Nat × Instr) : SlotOut :=
  match ms.find? (fun p => decide (p.1.slot = d.1 ∧ p.2 = .never)) with
  | some p => .fault (unfCause p.1.q)
  | none => if guardTrue s.core.ctx d.2 then slotOut d.2 (envOf s b live ms d.1) else .ok id

/-- The outcomes of a bundle's operations, in slot order. -/
def slotResults (s : State) (b : Bundle) (ms : List (Pop × Met)) : List (Nat × SlotOut) :=
  b.ops.map (fun d => (d.1, slotResult s b (liveOps s.core.ctx b) ms d))

/-- Is an outcome a wait. -/
def SlotOut.waits : SlotOut → Bool
  | .wait => true
  | _ => false

/-- Does an operation latch a half that it leaves held (R215). -/
def latchesHalf : Instr → Bool
  | .tsts a => decide (a.md 3 1 = 1 ∧ a.md 4 1 = 0)
  | _ => false

/-- Does an operation pop the remainder stack (R194). -/
def popsStack : Instr → Bool
  | .unrw _ | .umulq _ | .uaddc _ | .ulrlu _ | .uscl _ | .rskck _ => true
  | _ => false

/-- The faults of a yield bundle's own state: a moved segment that holds an entry, a half that is held or that the bundle
itself would leave held (R190, R216). -/
def State.yieldFaults (s : State) (b : Bundle) : List TrapInfo :=
  if !b.hdr.y then []
  else
    let c := s.core.ctx
    let r := s.runOf
    let moved := match s.launchOf r.id.launch with
      | some l => decide (l.segment r.id.idx ≠ (c.rskb, c.rskl))
      | none => false
    (if moved && decide (c.rskp ≠ c.rskb + 64) then [{ cause := Cause.rskord, det := 6, pc := s.core.pc }] else [])
      ++ (if c.half.isSome || (liveOps c b).any (fun d => latchesHalf d.2) then [{ cause := Cause.stash, pc := s.core.pc }]
          else [])

/-- The faults of a bundle in slot order, the header's first, with the slot number in AUX (R41, R42, R295). -/
def bundleFaults (s : State) (b : Bundle) (outs : List (Nat × SlotOut)) : List TrapInfo :=
  s.yieldFaults b ++ outs.filterMap (fun o => match o.2 with
    | .trap t => some { t with pc := s.core.pc, aux := o.1 }
    | _ => none)

/-! ### The boundary (R42, R43, R352) -/

/-- The stop at a boundary where a cause falls due, given the faults of the issuing bundle; a software trap comes last
(R352). -/
def State.boundary (s : State) (faults : List TrapInfo) : Option State :=
  match chooseCause faults (s.core.ctx.engTraps.map (fun t => { t with pc := s.core.pc })) with
  | some t => some (s.takeTrap t)
  | none => s.core.ctx.kept.swpend.map s.takeSwTrap

/-! ### Commit -/

/-- Cycles pass (R284, R289; log 4). -/
def State.elapse (s : State) (n : Nat) : State :=
  { s with cycle := s.cycle + n + Config.stallCycles s.tick, tick := s.tick + 1 }

/-- A held bundle: it has no effect, a WAITA that it holds counts from its first wait (R284), and a pop that it holds calls
for the chunk of its entry (R195). -/
def State.waitBundle (s : State) (b : Bundle) : State :=
  let waita (k : Core) : Option Nat :=
    match k.waita, b.sync.op? with
    | none, some (.waita a) => some (s.cycle + waitaCycles a)
    | w, _ => w
  let asks (c : Ctx) : Bool := c.topBelow && (liveOps c b).any (fun d => popsStack d.2)
  (s.onCore (fun k => { k with waita := waita k, ctx := { k.ctx with rskFill := k.ctx.rskFill || asks k.ctx } })).elapse 1

/-- The effect of a slot that neither waits nor faults. -/
def SlotOut.effect : SlotOut → State → State
  | .ok f => f
  | _ => id

/-- Is the sync slot's operation a REL, whose own bundle's accesses count as later (R243). -/
def relFirst (b : Bundle) : Bool :=
  match b.sync.op? with
  | some (.rel _) => true
  | _ => false

/-- The outcomes in the order of their effects: slot order, a REL before its bundle's accesses (R41, R243). -/
def effectOrder (b : Bundle) (outs : List (Nat × SlotOut)) : List (Nat × SlotOut) :=
  if relFirst b then outs.filter (fun o => decide (o.1 = 8)) ++ outs.filter (fun o => decide (o.1 ≠ 8)) else outs

/-- What every commit does beside its slots' results: pops, SRCTR, tau, the counts of commits and RUN (R24, R41, R74, R132). -/
def State.retireBundle (s : State) (b : Bundle) (ms : List (Pop × Met)) (sr : Word) : State :=
  s.onCore (fun k => { k with
    ctx := { ((k.ctx.dropPops ms).popFlags ms) with srctr := sr, tau := k.ctx.tau + issueCycles b, seq := k.ctx.seq + 1 },
    run := k.run.map (fun r => { r with runField := b.hdr.run.toNat }), cmdSeq := k.cmdSeq + 1 })

/-- The start of a yield after its bundle's commit: what the bundle itself left to land lands, and the write-back follows
(R45, R274). -/
def State.startYield (s : State) (pc : Word) : State :=
  s.landAll.onCore (fun k => { k with phase := .yielding, run := k.run.map (fun r => { r with ypc := pc }) })

/-- The commit of a bundle (R41). -/
def State.commit (s : State) (b : Bundle) (ms : List (Pop × Met)) (outs : List (Nat × SlotOut)) : State :=
  let live := liveOps s.core.ctx b
  let s1 := s.onCore (fun k => { k with pc := sext57 (k.pc + 64), waita := none })
  let s2 := (effectOrder b outs).foldl (fun s o => o.2.effect s) s1
  let sr := if live.any (fun d => decide (srCount s.core.ctx d.2 ≠ 0)) then srBaseOf s.core.ctx live 9 else s2.core.ctx.srctr
  let s3 := (s2.retireBundle b ms sr).elapse (issueCycles b)
  if b.hdr.y then s3.startYield s.core.pc else s3

/-! ### The issue -/

/-- May the core take the boundary before a bundle: it runs a spar, in a state in which cores issue, with room for a
record, and no pre-emption comes first (R291, R294, R297, R333). -/
def State.canIssue (s : State) : Bool :=
  let k := s.core
  let room (p : Bool) : Bool := decide ((k.lanesUnposted.filter (fun r => r.laneP == p)).length < 16)
  decide (k.phase = .running) && k.run.isSome && decide (s.plat.pst.toNat < 2) && decide (s.plat.dbg ≠ 2)
    && room false && room true &&
    (s.pendingCause || !(decide (k.preempt = some .checkpoint) || decide (k.preempt = some .kill)))

/-- A bundle that waits, or the stop that is due at its boundary. -/
def State.waitOrStop (s : State) (b : Bundle) : State :=
  match s.boundary [] with
  | some s1 => s1
  | none => s.waitBundle b

/-- The state that a bundle's commit finds: a yield bundle's waits until every pending result has landed (R45). -/
def State.landedFor (s : State) (b : Bundle) : State := if b.hdr.y then s.landAll else s

/-- The issue of a well-formed bundle: its slots see the snapshot, which holds the landings that are due and no other; a
bundle that waits or faults leaves the others as they were (R133, R135). -/
def State.issueAt (s : State) (b : Bundle) : State :=
  let ms := meetPops s.core.ctx [] (popsOf b)
  let outs := slotResults s b ms
  if ms.any (fun p => decide (p.2 = .later)) || s.heldBy b (liveOps s.core.ctx b) || outs.any (fun o => o.2.waits) then
    s.waitOrStop b
  else
    match s.boundary (bundleFaults s b outs) with
    | some s1 => s1
    | none => (s.landedFor b).commit b ms outs

/-- One attempt to issue a bundle (R40, R41, R133). -/
def State.issueBundle (s0 : State) (b : Bundle) : State :=
  let s := s0.landDue
  match illegal b s.core.ctx with
  | some det =>
    (s.boundary [{ cause := Cause.illegal, det := det, pc := s.core.pc, aux := det / 16 }]).getD s
  | none => (s.reachQs (popsOf b) (s.core.ctx.shadow.length + 1)).issueAt b

/-- A bundle issues; a core that issues none leaves everything as it is (R294, R298, R333). -/
def State.issue (s : State) (b : Bundle) : Host.Outcome State Fault Refusal :=
  .next (if s.canIssue then s.issueBundle b else s)

end Machine

end Sys2Proof
end

