-- ==== Sys2Proof/Machine/Link.lean ====
section
/-! DEFINITION. The link layer of the Ridge links: flits, acknowledgements, replay and retraining (R302 to R305). -/

namespace Sys2Proof.Machine

/-- A field of a flit. -/
def flitField (fl : BitVec 2048) (byte n : Nat) : Nat := (fl.extractLsb' (8 * byte) (8 * n)).toNat

/-- Is a flit's CRC right (R302). -/
def flitSound (fl : BitVec 2048) : Bool := decide (flitOf (fl.extractLsb' 0 1984) = fl)

/-- The difference of sequence numbers modulo 2^24. -/
def seqDiff (a b : Nat) : Nat := (a + 2 ^ 24 - b % 2 ^ 24) % 2 ^ 24

/-- The flits of a replay buffer from a sequence number on: those below it are acknowledged (R303). -/
def ackTo (l : Link) (seq : Nat) : Link :=
  { l with buffer := l.buffer.filter (fun f => decide (seqDiff (flitField f 0 3) seq < 2 ^ 23)) }

/-- A flit that carries no payload. -/
def linkFlit (l : Link) (type seq : Nat) : BitVec 2048 := flitOf (flitBody seq type l.expect.toNat 0)

/-- A count that holds at its largest value. -/
def bumpSat {n : Nat} (v : BitVec n) : BitVec n := if v = BitVec.allOnes n then v else v + 1

/-- A negative acknowledgement that names the expected number (R303). -/
def Link.nak (l : Link) : Link := { l with outbound := l.outbound ++ [linkFlit l 2 l.expect.toNat] }

/-- The sender replays from a sequence number (R303); REPLAY counts it only where a flit is sent again (R348). -/
def Link.replayFrom (l : Link) (seq : Nat) : Link :=
  let l1 := ackTo l seq
  { l1 with outbound := l1.outbound ++ l1.buffer,
            replay := if l1.buffer = [] then l1.replay else bumpSat l1.replay }

/-- What the receiver does with a data flit (R303). -/
def Link.takeData (l : Link) (fl : BitVec 2048) : Link :=
  let d := seqDiff (flitField fl 0 3) l.expect.toNat
  if d = 0 then
    let l1 := { l with inbound := l.inbound ++ [fl.extractLsb' 64 1920], expect := l.expect + 1 }
    { l1 with outbound := l1.outbound ++ [linkFlit l1 1 l1.nextSeq.toNat] }
  else if 2 ^ 23 ≤ d then l
  else l.nak

/-- A link retrains: its first marker carries its ACKSEQ (R304). -/
def Link.startRetrain (l : Link) : Link :=
  { l with state := if l.state = 2 then 3 else l.state, trained := false,
           outbound := l.outbound ++ [linkFlit l 3 l.nextSeq.toNat] }

/-- Does a link retrain: one that ran, or one that is held and has a lane marked faulty (R304, R305). -/
def Link.retraining (l : Link) : Bool := decide (l.state = 3) || (decide (l.state = 1) && !l.trained && decide (l.lfault ≠ 0))

/-- A flit arrives on a link that is up (R303). -/
def Link.take (l : Link) (fl : BitVec 2048) : Link :=
  let type := flitField fl 3 1
  if !flitSound fl || decide (3 < type) then l.nak
  else
    let l1 := ackTo l (flitField fl 4 3)
    match type with
    | 0 => l1.takeData fl
    | 1 => l1
    | 2 => l1.replayFrom (flitField fl 0 3)
    | _ => l1.startRetrain

/-- Delivered payloads of transactions for another device, to be forwarded (R306). -/
def State.passOn (s : State) (n : Nat) : State :=
  let other (p : BitVec 1920) : Bool := decide (payloadDst p ≠ s.fabric.devnum.toNat)
  let got := ((s.fabric.links.toList[n]?).map (·.inbound)).getD []
  let s1 := s.onLink n (fun l => { l with inbound := got.filter (fun p => !other p) })
  { s1 with fabric := { s1.fabric with transit := s1.fabric.transit ++ got.filter other } }

/-- FLIT_RECEIVE: the link takes the flit, and a payload for another device goes on (R303, R306). -/
def State.flitReceive (s : State) (n : Nat) (fl : BitVec 2048) : Option State :=
  if n < 12 ∧ s.linkState n = 2 then some ((s.onLink n (fun l => l.take fl)).passOn n).wake else none

/-- LANE_FAULT: a lane is marked faulty and both ends retrain (R304). -/
def State.laneFault (s : State) (n lane : Nat) : Option State :=
  if n < 12 ∧ lane < 16 ∧ s.linkState n ≠ 0 then
    some (s.onLink n (fun l =>
      let l1 := { l with lfault := l.lfault ||| BitVec.ofNat 16 (2 ^ lane) }
      if l.retraining then l1 else l1.startRetrain))
  else none

/-- The width after a retrain: the first of R304's groups whose lanes are all sound. -/
def widthOf (faults : BitVec 16) : BitVec 2 :=
  let sound (g : BitVec 16) : Bool := decide (g &&& faults = 0)
  if sound 0x00FF || sound 0xFF00 then 1
  else if sound 0x000F || sound 0x00F0 || sound 0x0F00 || sound 0xF000 then 2
  else 3

/-- RETRAIN_DONE: the link runs narrower or goes down, and replay resumes from the exchanged number; LFAULT
takes the lanes either end marked (R304, R305, R348). -/
def State.retrainDone (s : State) (n : Nat) (peerFaults : BitVec 16) (peerAck : BitVec 24) : Option State :=
  match s.fabric.links.toList[n]? with
  | none => none
  | some l =>
    let faults := l.lfault ||| peerFaults
    if l.retraining then
      let w := widthOf faults
      let up : BitVec 2 := if w = 3 then 0 else if s.fabric.ctl.getLsbD 0 then 2 else 1
      some (s.onLink n (fun l =>
        let l1 := { l with lfault := faults, width := w, state := up, retrain := bumpSat l.retrain,
                           trained := decide (w ≠ 3) }
        if w = 3 then l1 else l1.replayFrom peerAck.toNat))
    else none

/-- LINK_ENABLE: a write of LNKCTL; EN brings every held link up and stays set; one that retrains comes up after its retrain
(R304, R305). -/
def State.linkEnable (s : State) (v : Word) : State :=
  if v.getLsbD 0 ∧ s.serves then
    { s with fabric := { s.fabric with
      ctl := 1,
      links := s.fabric.links.map (fun l =>
        if l.state = 1 ∧ l.trained then { l with state := 2 } else if l.retraining then { l with state := 3 } else l) } }
  else s

/-- LINK_MANAGEMENT_RESET of a link of the partition: 16 lanes again, and the link comes up where EN is set (R304, R305). -/
def State.linkReset (s : State) (n : Nat) : Option State :=
  if n < 12 ∧ s.ownsLink n ∧ s.serves then
    some (s.onLink n (fun l => { l with lfault := 0, width := 0, trained := true,
                                        state := if s.fabric.ctl.getLsbD 0 then 2 else 1 }))
  else none

end Sys2Proof.Machine
end

