-- ==== Sys2Proof/Machine/Host.lean ====
section
/-! DEFINITION. The host interface: the command port, packets, launches, fences, the window and snoops (R319 to R327). -/

namespace Sys2Proof.Machine

/-! ### The port (R323) -/

/-- A field of a packet. -/
def pkt (p : BitVec 512) (off n : Nat) : Nat := bits p.toNat (8 * off) (8 * n)

/-- Bytes `[from, to)` of a packet are zero. -/
def pktZero (p : BitVec 512) (from_ last : Nat) : Bool := decide (pkt p from_ (last - from_) = 0)

/-- TYPE of a packet. -/
def pktType (p : BitVec 512) : Nat := pkt p 8 1

/-- CTX of a packet. -/
def pktCtx (p : BitVec 512) : Nat := pkt p 10 2

/-- The ACCEPT entry of a packet (R324). -/
def State.ackPacket (s : State) (p : BitVec 512) (status : Nat) (hdr : Word) : State :=
  s.postCompletion (BitVec.ofNat 64 (pkt p 0 8)) 0 (pktType p) status (s.seedDepth (pktCtx p)) (pktCtx p) hdr 0

/-- PORT_ACCEPT: the port acts on its latch (R323), and in minimal mode it accepts nothing (R20). A packet of no type is
answered with status 1 (R322, R324). -/
def State.portAccept (s : State) : Option State :=
  let h := s.host
  if s.plat.min || !h.portWrite || !h.accepted.isEmpty then none
  else
    let closed := { s with host := { h with portWrite := false } }
    if !h.ctl.getLsbD 0 then some closed
    else if BitVec.ofNat 64 (pkt h.latch 0 8) ≠ h.next then
      some { closed with host := { closed.host with ctl := h.ctl ||| 8 } }
    else if !s.logRoom then none
    else
      let s1 := { closed with host := { closed.host with next := h.next + 1 } }
      if pktType h.latch = 0 ∨ 8 < pktType h.latch then some (s1.ackPacket h.latch 1 0)
      else some { s1 with host := { s1.host with accepted := [h.latch] } }

/-- The accepted packet of a type, and the state without it. -/
def State.takePacket (s : State) (type : Nat) : Option (BitVec 512 × State) :=
  match s.host.accepted with
  | p :: ps => if pktType p = type then some (p, { s with host := { s.host with accepted := ps } }) else none
  | [] => none

/-- A packet's fields outside its type's are zero: bytes 12 to 15, PFLG but for `flags`, and the payload from `to`. -/
def pktPlain (p : BitVec 512) (flags last : Nat) : Bool :=
  pktZero p 12 16 && decide (pkt p 9 1 &&& flags = pkt p 9 1) && pktZero p last 64

/-! ### Launches (R275) -/

/-- The header's fields, and whether they keep to R275. -/
def headerOk (h : List Byte) : Bool :=
  let f (o n : Nat) : Nat := savedN h o n
  let nlev := f 11 1
  let lw := (List.range nlev).map (fun k => f (12 + k) 1)
  let ext := (List.range nlev).map (fun k => f (24 + 8 * k) 8)
  let entry := BitVec.ofNat 64 (f 0 8)
  canonical entry && decide (f 0 8 % 64 = 0) && decide (f 8 1 ≤ 7 ∧ f 9 1 ≤ 7 ∧ f 10 1 ≤ 15 ∧ 1 ≤ nlev ∧ nlev ≤ 6)
    && lw.all (fun w => decide (1 ≤ w ∧ w ≤ 64)) && decide (lw.foldl (· + ·) 0 ≤ 64)
    && (lw.zip ext).all (fun q => decide (1 ≤ q.2 ∧ q.2 ≤ 2 ^ q.1))
    && decide (f 19 1 = 0 ∧ 1 ≤ f 20 4 ∧ f 72 8 % 64 = 0 ∧ ext.foldl (· * ·) 1 ≤ f 80 4)
    && decide ((f 9 1).testBit 0 = true ∨ f 84 4 = 0) && decide ((f 9 1).testBit 0 = false ∨ f 18 1 % 2 ^ nlev ≠ 0)
    && decide (f (12 + nlev) (6 - nlev) = 0 ∧ f (24 + 8 * nlev) (8 * (6 - nlev)) = 0 ∧ f 18 1 < 2 ^ nlev)
    && decide (f 88 8 % 65536 = 0 ∧ f 96 8 % 65536 = 0 ∧ 1 ≤ f 104 4 ∧ f 120 8 = 0 ∧ f 160 32 = 0)

/-- The launch of a header. -/
def launchOfHeader (h : List Byte) (hdr : Word) (ctx : Nat) (sys : Bool) (seed : BitVec 128) (cseq : Word)
    (packet : Bool) : Launch :=
  let f (o n : Nat) : Nat := savedN h o n
  let w (o : Nat) : Word := BitVec.ofNat 64 (f o 8)
  let nlev := f 11 1
  { hdr := hdr, ctx := ctx, entry := w 0, cls := f 8 1, ss := (f 9 1).testBit 0, rst := (f 9 1).testBit 1, sys := sys,
    ptok := f 10 1, lw := (List.range nlev).map (fun k => f (12 + k) 1), affm := f 18 1,
    ext := (List.range nlev).map (fun k => f (24 + 8 * k) 8), sparb := w 72, sparn := f 80 4, exbud := f 84 4,
    saveb := w 88, rskpb := w 96, rsksz := f 104 4, rem0 := f 108 4, args := [w 128, w 136, w 144, w 152], seed := seed,
    budget := f 20 4, cseq := cseq, packet := packet }

/-- The top of a context's seed stack; an empty stack's reads zero (R326). -/
def State.seedTop (s : State) (ctx : Nat) : BitVec 128 := ((s.ctxOf ctx).seeds.head?).getD 0

/-- A launch header read and checked; its 57-bit address may stand sign-extended (R94, R320; log 35). -/
def State.readHeader (s : State) (ctx : Nat) (hdr : Word) : Option (List Byte) :=
  if hdr.toNat % 64 ≠ 0 ∨ (!canonical hdr ∧ 2 ^ 57 ≤ hdr.toNat) then none
  else match deviceRead s ctx hdr 192 with
    | .ok h => if headerOk h then some h else none
    | .error _ => none

/-- A launch created: NEXT takes the product of its extents (R275). -/
def State.createLaunch (s : State) (l : Launch) : Option State :=
  match deviceWrite s l.ctx (l.hdr + 112) (toBytes 4 l.total) with
  | .error _ => none
  | .ok s1 =>
    let n := s1.sched.nextLaunch
    some { s1 with sched := { s1.sched with launches := s1.sched.launches.put n l, nextLaunch := n + 1 } }

/-- The refusal of a launch packet, or the launch (R275, R293, R322, R324, R326). -/
def State.launchFrom (s : State) (p : BitVec 512) : Except Nat Launch :=
  let ctx := pktCtx p
  let hdr := BitVec.ofNat 64 (pkt p 16 8)
  if s.plat.min then .error 2
  else if !pktPlain p 0 45 || !pktZero p 25 32 || decide (16 < pkt p 24 1) || decide (2 < pkt p 44 1) then .error 1
  else if !s.lanes.ctl.getLsbD 0 then .error 3
  else
    match s.readHeader ctx hdr with
    | none => .error 1
    | some h =>
      let sys := (savedN h 9 1).testBit 2
      if sys ∧ ctx ≠ bits s.host.ctl.toNat 16 16 then .error 4
      else if s.seedDepth ctx < pkt p 24 1 then .error 6
      else .ok { launchOfHeader h hdr ctx sys (s.seedTop ctx) (BitVec.ofNat 64 (pkt p 0 8)) true with depth := s.seedDepth ctx }

/-- LAUNCH_PACKET: a launch is created, its hint acts, pre-emption is decided, and ACCEPT is posted; or it is refused
(R275, R291, R322). -/
def State.launchPacket (s : State) : Option State :=
  match s.takePacket 1 with
  | none => none
  | some (p, s1) =>
    let hdr := BitVec.ofNat 64 (pkt p 16 8)
    match s1.launchFrom p with
    | .error st => some (s1.ackPacket p st hdr)
    | .ok l =>
      match (s1.noteDevice l.ctx hdr 192).createLaunch l with
      | none => some (s1.ackPacket p 1 hdr)
      | some s2 =>
        let s3 := if pkt p 40 4 = 0 then s2
          else s2.hint l.ctx (pkt p 44 1) (sext57 (BitVec.ofNat 64 (pkt p 32 8))) (pkt p 40 4)
        let s4 := if s3.barred l then s3 else s3.preemptFor s2.sched.nextLaunch.pred l
        some (s4.ackPacket p 0 hdr)

/-! ### The other packets (R232, R257, R289, R325, R326) -/

/-- A context changed. -/
def State.onContext (s : State) (n : Nat) (f : Context → Context) : State :=
  { s with ctxs := s.ctxs.put n (f (s.ctxOf n)) }

/-- Seeds of a context's stack. -/
def seedSlots : Nat := 16

/-- SEED_PUSH. -/
def State.seedPush (s : State) : Option State :=
  match s.takePacket 2 with
  | none => none
  | some (p, s1) =>
    let ctx := pktCtx p
    if !pktPlain p 0 32 then some (s1.ackPacket p 1 0)
    else if seedSlots ≤ s1.seedDepth ctx then some (s1.ackPacket p 5 0)
    else some ((s1.onContext ctx (fun c => { c with seeds := BitVec.ofNat 128 (pkt p 16 16) :: c.seeds })).ackPacket p 0 0)

/-- SEED_POP. -/
def State.seedPop (s : State) : Option State :=
  match s.takePacket 3 with
  | none => none
  | some (p, s1) =>
    let ctx := pktCtx p
    if !pktPlain p 0 16 then some (s1.ackPacket p 1 0)
    else if s1.seedDepth ctx = 0 then some (s1.ackPacket p 6 0)
    else some ((s1.onContext ctx (fun c => { c with seeds := c.seeds.drop 1 })).ackPacket p 0 0)

/-- SEED_FORK: child(top, i) on top; an empty stack forks zero. -/
def State.seedFork (s : State) : Option State :=
  match s.takePacket 4 with
  | none => none
  | some (p, s1) =>
    let ctx := pktCtx p
    let seed := childSeed (s1.seedTop ctx) (BitVec.ofNat 64 (pkt p 16 8))
    if !pktPlain p 0 24 then some (s1.ackPacket p 1 0)
    else if seedSlots ≤ s1.seedDepth ctx then some (s1.ackPacket p 5 0)
    else some ((s1.onContext ctx (fun c => { c with seeds := seed :: c.seeds })).ackPacket p 0 0)

/-- PREFETCH_HINT. -/
def State.prefetchHint (s : State) : Option State :=
  match s.takePacket 5 with
  | none => none
  | some (p, s1) =>
    if !pktPlain p 0 29 || decide (2 < pkt p 28 1) then some (s1.ackPacket p 1 0)
    else some ((s1.hint (pktCtx p) (pkt p 28 1) (sext57 (BitVec.ofNat 64 (pkt p 16 8))) (pkt p 24 4)).ackPacket p 0 0)

/-- The launch of a context that a header address names, accepted and not finished (R325). -/
def State.launchNamed (s : State) (ctx : Nat) (hdr : Word) : Option Nat :=
  (s.sched.launches.find? (fun e => decide (e.2.ctx = ctx ∧ e.2.hdr = hdr) && !e.2.finished)).map (·.1)

/-- ENERGY_BUDGET (R289, R325). -/
def State.energyBudget (s : State) : Option State :=
  match s.takePacket 6 with
  | none => none
  | some (p, s1) =>
    let hdr := BitVec.ofNat 64 (pkt p 16 8)
    let mj := pkt p 24 4
    if !pktPlain p 0 28 || decide (mj = 0) then some (s1.ackPacket p 1 hdr)
    else
      match s1.launchNamed (pktCtx p) hdr with
      | none => some (s1.ackPacket p 9 hdr)
      | some n => some ((s1.onLaunch n (fun l => { l with budget := l.used + mj, armed := true })).ackPacket p 0 hdr)

/-- EVICTION_SCHEDULE_LOAD (R257). -/
def State.evictionLoad (s : State) : Option State :=
  match s.takePacket 7 with
  | none => none
  | some (p, s1) =>
    let n := pkt p 24 2
    if !pktPlain p 0 26 then some (s1.ackPacket p 1 0)
    else
      match (if n = 0 ∨ 256 < n ∨ 2 ^ 48 ≤ pkt p 16 8 then none else evictTable s1.mem (pkt p 16 8) n) with
      | none => some (s1.ackPacket p 7 0)
      | some es =>
        let s2 := s1.noteDev (pkt p 16 8) (16 * n)
        some (({ s2 with mem := { s2.mem with evict := es } }).ackPacket p 0 0)

/-- FENCE_PACKET: the fence waits for the launches of its context accepted before it (R325). -/
def State.fencePacket (s : State) : Option State :=
  match s.takePacket 8 with
  | none => none
  | some (p, s1) =>
    let ctx := pktCtx p
    if !pktPlain p 1 16 then some (s1.ackPacket p 1 0)
    else
      let ls := (s1.sched.launches.filter (fun e => e.2.packet && !e.2.finished && decide (e.2.ctx = ctx))).map (·.1)
      let f : Fence := { cseq := BitVec.ofNat 64 (pkt p 0 8), ctx := ctx, depth := s1.seedDepth ctx, bar := decide (pkt p 9 1 = 1), launches := ls }
      some { s1 with host := { s1.host with fences := s1.host.fences ++ [f] } }

/-- Is every store and remote transaction of a context's finished launches performed (R325). -/
def State.effectsDone (s : State) (ctx : Nat) : Bool :=
  let other (id : SparId) : Bool :=
    match s.launchOf id.launch with
    | some l => decide (l.ctx ≠ ctx) || !l.finished
    | none => true
  s.allCoresList.all (fun k => k.storeQ.all (fun e => other e.id)) && s.fabric.out.all (fun o => other o.id)

/-- FENCE_POST: the entry of the `n`-th waiting fence is posted (R325). -/
def State.fencePost (s : State) (n : Nat) : Option State :=
  match s.host.fences[n]? with
  | none => none
  | some f =>
    if f.launches.isEmpty && s.effectsDone f.ctx then
      some (({ s with host := { s.host with fences := s.host.fences.eraseIdx n } }).postCompletion f.cseq 0 8 0 f.depth f.ctx 0 0)
    else none

/-- MINIMAL_MODE_PACKET: firmware answers the next packet of the log with status 2 (R20, R323, R330). -/
def State.minimalPacket (s : State) : Option State :=
  let h := s.host
  if !s.plat.min || !h.ctl.getLsbD 0 || decide (h.clogn = 0) || !s.logRoom then none
  else
    let at_ : Place := { space := .host, owner := 0, addr := h.clogb.toNat + 64 * (h.next.toNat % h.clogn.toNat) }
    let p := BitVec.ofNat 512 (ofBytes ((List.range 64).map (fun i => s.mem.get (at_.off i))))
    if BitVec.ofNat 64 (pkt p 0 8) ≠ h.next then none
    else
      let hdr := if pktType p = 1 ∨ pktType p = 6 then BitVec.ofNat 64 (pkt p 16 8) else 0
      let s1 := s.readDone 0 0 [(.place at_ false, 64)]
      some (({ s1 with host := { h with next := h.next + 1 } }).ackPacket p 2 hdr)

/-! ### HOSTCTL (R320) -/

/-- A log's size within its limits. -/
def logSizeOk (n : Word) : Bool := decide (64 ≤ n.toNat ∧ n.toNat ≤ 2 ^ 20 ∧ n.toNat = 2 ^ Nat.log2 n.toNat)

/-- HOSTCTL's plain fields after a write: PORTERR clears by one, DCTX is replaced (R320). -/
def hostFields (old v : Word) : Word :=
  let porterr := (old &&& 8) &&& ~~~(v &&& 8)
  (old &&& 7) ||| porterr ||| (v &&& 0xFFFF0000)

/-- HOST_ENABLE: the dispatcher launch starts and the port opens, or ERR is set (R320). -/
def State.hostEnable (s : State) (v : Word) : State :=
  let ctl := hostFields s.host.ctl v
  let s1 := { s with host := { s.host with ctl := ctl } }
  if ctl.getLsbD 0 then s1
  else
    let dctx := bits v.toNat 16 16
    let h := s.host
    let bad := { s1 with host := { s1.host with ctl := ctl ||| 2 } }
    let ok := logSizeOk h.clogn && logSizeOk h.cpln && decide (h.clogb.toNat % 4096 = 0 ∧ h.cplb.toNat % 4096 = 0 ∧
      h.disphdr ≠ 0)
    let open_ (q : State) : State := { q with host := { q.host with ctl := (ctl &&& ~~~(2 : Word)) ||| 1 } }
    if !ok then bad
    else
      match s1.readHeader dctx h.disphdr with
      | none => bad
      | some bs => if s.plat.min then open_ s1 else
        let sys := (savedN bs 9 1).testBit 2
        match (s1.noteDevice dctx h.disphdr 192).createLaunch (launchOfHeader bs h.disphdr dctx sys (s1.seedTop dctx) 0 false) with
        | some s2 => open_ s2
        | none => bad

/-- The packet that the port has accepted takes its effect. -/
def State.settlePacket (s : State) : State :=
  (s.launchPacket <|> s.seedPush <|> s.seedPop <|> s.seedFork <|> s.prefetchHint <|> s.energyBudget <|> s.evictionLoad
    <|> s.fencePacket).getD s

/-- HOST_DISABLE: the port closes, every launch ends as ERET END ends one, and the seed stacks empty (R320, R326). A packet
that the port has accepted takes its effect first (log 35). -/
def State.hostDisable (s0 : State) (v : Word) : State :=
  let s := s0.settlePacket
  let empty (c : Nat × Context) : Nat × Context := (c.1, { c.2 with seeds := [] })
  let ctl := hostFields s.host.ctl v &&& ~~~(1 : Word)
  let s1 : State := { s with host := { s.host with ctl := ctl }, ctxs := s.ctxs.map empty }
  let live : List Nat := (s1.sched.launches.filter (fun e => !e.2.ended && !e.2.finished)).map (·.1)
  live.foldl (fun s n => s.endLaunch n) s1

/-! ### The window and snoops (R319, R321) -/

/-- The DEV address of a host access inside the window. -/
def State.windowAddr (s : State) (hpa n : Nat) : Option Nat :=
  let h := s.host
  if h.hwhpa.toNat ≤ hpa ∧ hpa + n ≤ h.hwhpa.toNat + h.hwlen.toNat ∧ n ≠ 0 then some (h.hwbase.toNat + (hpa - h.hwhpa.toNat)) else none

/-- Is a logical core's scratchpad in the physical core that carries it, and not in the pinned area (R18). -/
def State.imageIn (s : State) (lc : Nat) : Bool :=
  s.allCoresList.any (fun k => decide (k.num = lc % s.pcores ∧ k.image = some lc))

/-- A byte written at a DEV address that holds a part of the image of a logical core that is not present: its scratchpad, or its
tag table (R18, R321; log 32). -/
def State.pinnedByte (s : State) (a : Nat) (b : Byte) : State :=
  match (List.range 96).find? (fun lc => !s.imageIn lc && decide (Config.pinnedAt lc ≤ a ∧ a < Config.pinnedAt lc + 0x410000)) with
  | none => s
  | some lc =>
    let o := a - Config.pinnedAt lc
    if o < 0x400000 then { s with mem := s.mem.setN { space := .spm, owner := lc, addr := o } [b] }
    else
      let slot := (o - 0x400000) / 8
      { s with mem := s.mem.setTag lc slot (setField (s.mem.tag lc slot) (8 * (o % 8)) 8 b.toNat) }

/-- Bytes written from a DEV address on, where they hold parts of such images. -/
def State.pinnedWrite (s : State) (a : Nat) (bs : List Byte) : State :=
  bs.zipIdx.foldl (fun s b => s.pinnedByte (a + b.2) b.1) s

/-- HOST_WINDOW_ACCESS: a write reaches the DEV bytes and leaves the host holding the lines changed; a read leaves it
holding them. An access outside the window, or in minimal mode, changes nothing (R15, R20, R319, R321). -/
def State.windowAccess (s : State) (hpa : Nat) (write : Bool) (bs : List Byte) : State :=
  match if !s.serves then none else s.windowAddr hpa bs.length with
  | none => s
  | some a =>
    let lines := (List.range ((a + bs.length - 1) / 64 - a / 64 + 1)).map (fun i => a / 64 + i)
    let s1 := if write then (s.performSeg (devPlace a) bs).pinnedWrite a bs else s
    ({ s1 with host := { s1.host with hostHeld := joinSecs s1.host.hostHeld lines,
                                      hostDirty := if write then joinSecs s1.host.hostDirty lines else s1.host.hostDirty } }).wake

/-- HOST_WINDOW_CLOSE: host-held lines are recalled and the window closes (R321). -/
def State.windowClose (s : State) : State := { s with host := { s.host with hwlen := 0, hostHeld := [], hostDirty := [] } }

/-- HOST_SNOOP: the host writes bytes of its memory; read copies of the sectors go and monitors on them fire (R283,
R319). -/
def State.hostSnoop (s : State) (addr : Nat) (bs : List Byte) : State :=
  let p : Place := { space := .host, owner := 0, addr := addr }
  let m := (s.mem.setN p bs).dropCopies (fun k => decide (k < 2 ^ 80 ∧ addr / 128 ≤ k ∧ k ≤ (addr + bs.length - 1) / 128))
  let ms := fireAt s.sched.monitors p bs.length
  let s1 := { s with mem := m, sched := { s.sched with monitors := ms } }
  if ms = s.sched.monitors then s1 else s1.wake

end Sys2Proof.Machine
end

