-- ==== Sys2Proof/Machine/Loader.lean ====
section
/-! DEFINITION. Images: the container, Farord's finalisation, the loader and unloading (R55 to R63, R207, R337). -/

namespace Sys2Proof.Machine

/-! ### The container (R55, R56, R59) -/

/-- A section: type, alignment, contents. -/
structure Section where
  type : Nat
  align : Nat
  data : List Byte
  deriving DecidableEq, Repr

/-- An image's header fields and sections. -/
structure Image where
  form : Nat
  arev : Nat
  keyId : Nat
  secs : List Section
  deriving DecidableEq, Repr

/-- The magic bytes. -/
def magic : List Byte := [0x50, 0x4C, 0x41, 0x45, 0x52, 0x49, 0x4D, 0x47]

/-- A section table entry; `none` where it is malformed (R56). -/
def sectionOf (img e : List Byte) : Option Section :=
  let type := savedN e 0 4
  let off := savedN e 8 8
  let len := savedN e 16 8
  let align := savedN e 24 4
  if savedN e 4 4 = 0 ∧ savedN e 28 4 = 0 ∧ off + len ≤ img.length ∧ align ≠ 0 ∧ align = 2 ^ Nat.log2 align ∧
      ((1 ≤ type ∧ type ≤ 9) ∨ type = 15) then
    some { type := type, align := align, data := (img.drop off).take len }
  else none

/-- An image read from its bytes; `none` is refusal code 1, which a native image with an observer table meets too (log
11). An image with no signature section is read, and refused with code 2 (R59, R63). -/
def parseImage (img : List Byte) : Option Image :=
  let n := savedN img 12 4
  let tab := savedN img 24 8
  let form := savedN img 8 2
  if img.take 8 ≠ magic ∨ ¬ (form = 1 ∨ form = 2) ∨ n = 0 ∨ 255 < n ∨ savedN img 16 8 ≠ img.length ∨ savedN img 48 16 ≠ 0
      ∨ img.length < tab + 32 * n then none
  else
    match (List.range n).mapM (fun i => sectionOf img ((img.drop (tab + 32 * i)).take 32)) with
    | none => none
    | some ss =>
      let types := ss.map (·.type)
      if (types.count 15 = 0 ∨ (types.getLast? = some 15 ∧ types.count 15 = 1)) ∧ (form = 1 ∨ ¬ types.contains 8) then
        some { form := form, arev := savedN img 10 2, keyId := savedN img 32 16, secs := ss }
      else none

/-- The first section of a type, any other of that type taking no part (log 11); empty where there is none. -/
def Image.sec (i : Image) (type : Nat) : List Byte := ((i.secs.find? (fun s => decide (s.type = type))).map (·.data)).getD []

/-- Bytes of a signature section (R59). -/
def sigBytes : Nat := 4648

/-- The signature that the device firmware key makes over the bytes before the signature section (R59, R62). -/
def firmwareSig (lc : BitVec 2) (before : List Byte) : List Byte := (List.range 4627).map (Config.signByte lc before)

/-- The signature section is whole and an admitted key verifies it: the device firmware key for a native image that names
it, and for nothing else (R59, R334; log 7). -/
def State.signedImage (s : State) (i : Image) (img : List Byte) : Bool :=
  let lc := s.plat.lc
  let sec := i.sec 15
  decide (sec.length = sigBytes ∧ savedN sec 0 16 = i.keyId ∧ savedN sec 4643 5 = 0 ∧ lc ≠ 3) &&
    (if i.keyId = (Config.firmwareKey lc).toNat then
       decide (i.form = 2 ∧ (sec.drop 16).take 4627 = firmwareSig lc (img.take (img.length - sigBytes)))
     else Config.signed lc img)

/-! ### Farord (R60 to R62) -/

/-- SCOPE and SMASK of an observer mask (R61). -/
def observerScope (m : Byte) : Nat × Nat :=
  let on (b : Nat) : Bool := m.getLsbD b
  let scope := if on 4 then 4 else if on 3 then 3 else if on 0 then 2 else 0
  let spm := on 1 || on 2 || decide (m = 0)
  let dev := on 0 || on 1 || on 3 || on 4
  (scope, spm.toNat + 2 * dev.toNat + 4 * (on 4).toNat + 8 * (on 3).toNat)

/-- Is a load-slot operation strong. -/
def strongOp : SlotDec → Bool
  | .op (.ld a) | .op (.st a) | .op (.aadd a) | .op (.acas a) | .op (.axch a) | .op (.amax a) | .op (.amin a) => a.mode.getLsbD 4
  | _ => false

/-- A scope field rewritten from its index; `none` is refusal code 6 (R61). -/
def rewriteScope (look : Nat → Option Byte) (w : BitVec 512) (lo : Nat) (smask : Option Nat) : Option (BitVec 512) :=
  match look (w.extractLsb' lo 3).toNat with
  | none => none
  | some m =>
    if m.toNat / 32 ≠ 0 then none
    else
      let q := observerScope m
      let w1 := setField w lo 3 q.1
      some (match smask with
        | some at_ => setField w1 at_ 4 q.2
        | none => w1)

/-- A bundle with its scopes finalised (R60, R61). -/
def finaliseBundle (look : Nat → Option Byte) (w : BitVec 512) : Option (BitVec 512) := do
  let op := (w.extractLsb' 10 6).toNat
  let w1 ← if op = 2 ∨ op = 3 ∨ op = 4 then rewriteScope look w 7 (some 3) else some w
  let w2 ← if strongOp (decodeLoad (w.extractLsb' 96 40)) then rewriteScope look w1 97 none else some w1
  if strongOp (decodeStore (w.extractLsb' 56 40)) then rewriteScope look w2 57 none else some w2

/-- Is every entry of the observer table that a bundle's kernel holds valid, whether an operation names it or not (R61). -/
def observersOk (look : Nat → Option Byte) : Bool :=
  (List.range 8).all (fun n => (look n).all (fun m => decide (m.toNat / 32 = 0)))

/-- The bundles of a code section finalised; `none` is refusal code 6. -/
def finaliseCode (img code : List Byte) : Option (List Byte) :=
  if (List.range (chunks 64 code.length code).length).all (fun b => observersOk (Config.observer img (64 * b))) = false then none
  else ((chunks 64 code.length code).zipIdx.mapM (fun b =>
    (finaliseBundle (Config.observer img (64 * b.2)) (BitVec.ofNat 512 (ofBytes b.1))).map (bvBytes 64))).map List.flatten

/-- Sections laid out from an offset: each at its alignment. -/
def layOut : Nat → List Section → List (Nat × Section)
  | _, [] => []
  | at_, s :: ss =>
    let o := (at_ + s.align - 1) / s.align * s.align
    (o, s) :: layOut (o + s.data.length) ss

/-- An image's bytes (R55, R56). -/
def imageBytes (form arev keyId : Nat) (secs : List Section) : List Byte :=
  let placed := layOut (64 + 32 * secs.length) secs
  let body := placed.foldl (fun bs q => bs ++ List.replicate (q.1 - bs.length) 0 ++ q.2.data)
    (List.replicate (64 + 32 * secs.length) (0 : Byte))
  let head := magic ++ toBytes 2 form ++ toBytes 2 arev ++ toBytes 4 secs.length ++ toBytes 8 body.length ++ toBytes 8 64
    ++ toBytes 16 keyId ++ toBytes 16 0
  let tab := placed.flatMap (fun q => toBytes 4 q.2.type ++ toBytes 4 0 ++ toBytes 8 q.1 ++ toBytes 8 q.2.data.length
    ++ toBytes 4 q.2.align ++ toBytes 4 0)
  head ++ tab ++ body.drop (64 + 32 * secs.length)

/-- The native form of a portable image: scopes finalised, FORM 2, no observer table, signed with the device firmware key;
`none` is refusal code 6. Where its sections lie, and that a second section of a type takes no part, are the model's choices
(R62; log 11). -/
def nativeForm (lc : BitVec 2) (img : List Byte) (i : Image) : Option (List Byte) :=
  match finaliseCode img (i.sec 1) with
  | none => none
  | some code =>
    let kept := (i.secs.filter (fun s => decide (s.type ≠ 8 ∧ s.type ≠ 15))).map (fun s =>
      if s.type = 1 then { s with data := code } else s)
    let keyId := (Config.firmwareKey lc).toNat
    let whole (sig : List Byte) : List Byte :=
      imageBytes 2 i.arev keyId (kept ++ [{ type := 15, align := 8, data := toBytes 16 keyId ++ sig ++ toBytes 5 0 }])
    let blank := whole (List.replicate 4627 0)
    some (whole (firmwareSig lc (blank.take (blank.length - sigBytes))))

/-- The code that a load, finalisation or unload answers (R63). -/
def State.answerLoad (s : State) (code : Nat) : State := { s with plat := { s.plat with loadCode := code } }

/-- FARORD_FINALISE: a portable image is checked, finalised and cached once (R62); in minimal mode and in P3 nothing answers
(R20, R333). -/
def State.farord (s : State) (img : List Byte) : State :=
  if !s.serves then s
  else match parseImage img with
  | none => s.answerLoad 1
  | some i =>
    if i.form ≠ 1 then s.answerLoad 1
    else if !s.signedImage i img then s.answerLoad 2
    else if arev < i.arev then s.answerLoad 3
    else if s.images.any (fun p => decide (p.1 = img)) then s.answerLoad 0
    else match nativeForm s.plat.lc img i with
      | some n => { s with images := s.images ++ [(img, n)] }.answerLoad 0
      | none => s.answerLoad 6

/-! ### The loader (R57, R58, R63, R207, R337) -/

/-- Are banks free of every kernel resident on the logical cores (R63). -/
def banksFree (ks : List Kernel) (lcores : List Nat) (b n : Nat) : Bool :=
  ks.all (fun k => !k.lcores.any (fun c => lcores.contains c) || decide (b + n ≤ k.bank0 ∨ k.bank0 + k.banks ≤ b) ||
    decide (n = 0 ∨ k.banks = 0))

/-- The lowest common base bank (R63). -/
def baseBank (ks : List Kernel) (lcores : List Nat) (n : Nat) : Option Nat :=
  if n = 0 then some 0 else (List.range (17 - n)).find? (fun b => banksFree ks lcores b n)

/-- The bank count of a plan: one more than its highest relative bank (R57). -/
def planBanks (k : Config.ImageKernel) : Nat := (k.plan.map (fun q => q.1 + 1)).foldl max 0

/-- A kernel's SFU tables by slot (R54, R128). -/
def sfuTables (k : Config.ImageKernel) : Tbl SfuTable :=
  k.sfu.foldl (fun t q => t.put q.1 (BitVec.ofNat 8448 (ofBytes q.2))) []

/-- The size of the plan buffer that begins at a relative scratchpad address. -/
def bufferAt (k : Config.ImageKernel) (addr : Nat) : Option Nat :=
  (k.plan.find? (fun q => decide (q.1 * 0x40000 + q.2.1 = addr))).map (·.2.2.1)

/-- Does an exchange entry keep to its limits: core 0 to 95, and no more bytes than the smaller of two plan buffers
(R54). -/
def exchangeOk (k : Config.ImageKernel) (e : Nat × Nat × Nat × Nat) : Bool :=
  decide (e.1 ≤ 95) && (bufferAt k e.2.1).any (fun n => decide (e.2.2.2 ≤ n)) &&
    (bufferAt k e.2.2.1).any (fun n => decide (e.2.2.2 ≤ n))

/-- Does a plan buffer lie within its bank (R54). -/
def bufferOk (q : Nat × Nat × Nat × Nat × Nat) : Bool :=
  decide (q.1 ≤ 15 ∧ q.2.1 % 512 = 0 ∧ q.2.2.1 % 512 = 0 ∧ q.2.1 + q.2.2.1 ≤ 0x40000)

/-- Is a kernel well formed: 64-byte aligned, plan buffers within their banks, a bank count that is its plan's, exchange
entries within their limits, and valid SFU headers (R54, R56, R57, R128; log 11). -/
def kernelOk (k : Config.ImageKernel) : Bool :=
  decide (k.offset % 64 = 0 ∧ k.banks = planBanks k ∧ k.banks ≤ 16) && k.plan.all bufferOk && k.exch.all (exchangeOk k) &&
    (sfuTables k).all (fun e => sfuHeaderOk e.2)

/-- A kernel as the loader places it; its SHAPE holds 1 to 16 rows and 1 to 64 bytes (R54, R57, R63). -/
def placeKernel (p : LoadArgs) (k : Config.ImageKernel) (b : Nat) : Kernel :=
  { ctx := p.ctx.toNat, entry := p.codeVa.toNat + k.offset, bundles := k.bundles, codePa := p.codePa.toNat + k.offset,
    dataPa := p.dataPa.toNat, lcores := p.lcores, bank0 := b, banks := k.banks, shape := k.shape &&& 0x3F0F,
    plan := k.plan.map (fun q => (q.2.2.2.1, q.2.2.2.2)),
    exch := k.exch.map (fun e => (e.1, e.2.1 + b * 0x40000, e.2.2.1 + b * 0x40000, e.2.2.2)),
    sfu := sfuTables k }

/-- The kernels of an image placed one by one; `none` is refusal code 4 (R63). -/
def placeAll (p : LoadArgs) : List Config.ImageKernel → List Kernel → Option (List Kernel)
  | [], _ => some []
  | k :: ks, resident =>
    match baseBank resident p.lcores k.banks with
    | none => none
    | some b =>
      let q := placeKernel p k b
      (placeAll p ks (resident ++ [q])).map (q :: ·)

/-- Is a signed value within `w` bits. -/
def fitsSigned (w : Nat) (v : Int) : Bool := decide (-(2 ^ (w - 1) : Int) ≤ v ∧ v < (2 ^ (w - 1) : Int))

/-- Bytes with a bundle's scalar immediate replaced (R58). -/
def patchImm (code : List Byte) (site w : Nat) (v : Int) : List Byte :=
  let at_ := site / 64 * 64
  let b := BitVec.ofNat 512 (ofBytes ((code.drop at_).take 64))
  code.take at_ ++ bvBytes 64 (setField b 440 w (v % 2 ^ w).toNat) ++ code.drop (at_ + 64)

/-- One relocation on the code and data bytes; an error is its refusal code (R58). A section byte that does not fit its
kind, or a site outside its section, is a malformed record, code 1 (the model's choice, log 11). -/
def relocate (img : List Byte) (p : LoadArgs) (ks : List Kernel) (cd : List Byte × List Byte) (r : List Byte) :
    Except Nat (List Byte × List Byte) :=
  let site := savedN r 0 8
  let kind := savedN r 8 1
  let sym := Config.symbol img (savedN r 10 2)
  let addend := (BitVec.ofNat 32 (savedN r 12 4)).toInt
  let base := ((ks.find? (fun k => decide (k.entry ≤ p.codeVa.toNat + site ∧
    p.codeVa.toNat + site < k.entry + 64 * k.bundles))).map (·.bank0)).getD 0
  let spm : Int := sym + base * 0x40000 + addend
  let dev : Int := p.dataVa.toNat + sym + addend
  let imm (w : Nat) (v : Int) : Except Nat (List Byte × List Byte) :=
    if savedN r 9 1 ≠ 1 ∨ cd.1.length < site / 64 * 64 + 64 then .error 1
    else if fitsSigned w v then .ok (patchImm cd.1 site w v, cd.2)
    else .error 5
  match kind with
  | 1 => imm 30 spm
  | 2 => imm 24 spm
  | 3 => imm 30 dev
  | 4 => imm 24 dev
  | 5 =>
    if savedN r 9 1 ≠ 2 ∨ cd.2.length < site + 8 then .error 1
    else if dev < 0 ∨ 2 ^ 57 ≤ dev then .error 5
    else .ok (cd.1, cd.2.take site ++ toBytes 8 dev.toNat ++ cd.2.drop (site + 8))
  | _ => .error 1

/-- Every relocation of an image. -/
def relocateAll (img : List Byte) (p : LoadArgs) (ks : List Kernel) (i : Image) : Except Nat (List Byte × List Byte) :=
  if (i.sec 4).length % 16 ≠ 0 then .error 1
  else (chunks 16 (i.sec 4).length (i.sec 4)).foldlM (relocate img p ks) (i.sec 1, i.sec 2)

/-- A scratchpad's banks zeroed and their tag entries cleared (R207). -/
def Mem.clearBanks (m : Mem) (lcore b n : Nat) : Mem :=
  let lo := lcore * 2 ^ 22 + b * 0x40000
  let tag := lcore * 8192 + 512 * b
  { m with spm := Tbl.drop m.spm (fun a => decide (lo ≤ a ∧ a < lo + n * 0x40000)),
           tags := Tbl.drop m.tags (fun t => decide (tag ≤ t ∧ t < tag + 512 * n)) }

/-- The banks of a kernel zeroed on each of its cores, at a load and at an unload; both clear the record caches (R207,
R229). -/
def State.clearKernel (s : State) (k : Kernel) : State :=
  { s with mem := k.lcores.foldl (fun m c => m.clearBanks c k.bank0 k.banks) s.mem }.allCores (fun c => { c with records := [] })

/-- A table that an upper entry names: the one it points to, or a zeroed one taken from `free`, which then moves on by the
size of the largest table; `none` where a larger page maps the address (R261, R337; log 36). -/
def State.tableAt (s : State) (entry free : Nat) : Option (Nat × State × Nat) :=
  let e := readPte s.mem entry
  if pteField e 0 1 = 1 then (if pteField e 2 1 = 1 then none else some (pteField e 12 36 * 4096, s, free))
  else
    let zeroed := s.performSeg (devPlace free) (List.replicate 131072 0)
    some (free, zeroed.performSeg (devPlace entry) (toBytes 8 (1 + free)), free + 131072)

/-- A 64 KiB leaf written, with the upper tables that its address lacks (R261, R337). -/
def State.mapPage (q : State × Nat) (ctx : Nat) (va : Word) (pa : Nat) (w x : Bool) : State × Nat :=
  let idx (lo n : Nat) := bits va.toNat lo n
  match (do
    let (t2, s1, f1) ← q.1.tableAt ((q.1.ctxOf ctx).troot + 8 * idx 48 9) q.2
    let (t1, s2, f2) ← s1.tableAt (t2 + 8 * idx 39 9) f1
    let (t0, s3, f3) ← s2.tableAt (t1 + 8 * idx 30 9) f2
    pure (s3.performSeg (devPlace (t0 + 8 * idx 16 14)) (toBytes 8 (1 + 2 * w.toNat + 64 * x.toNat + pa)), f3)) with
  | some r => r
  | none => q

/-- Bytes written to a physical place and mapped by 64 KiB leaves; page tables are taken from the second part (R337). -/
def State.placeBytes (q : State × Nat) (ctx va pa : Nat) (w x : Bool) (bs : List Byte) : State × Nat :=
  let s1 := if bs.isEmpty then q.1 else q.1.performSeg (devPlace pa) bs
  (List.range ((va % 65536 + bs.length + 65535) / 65536)).foldl (fun q i =>
    State.mapPage q ctx (BitVec.ofNat 64 (va + 65536 * i)) (pa - va % 65536 + 65536 * i) w x) (s1, q.2)

/-- A launch header completed from a template and what its caller gives (R275, R337). -/
def completeHeader (t : Config.ImageLaunch) (entry : Nat) (a : LaunchArgs) : List Byte :=
  let pad (w n : Nat) (xs : List Nat) : List Byte := (List.range n).flatMap (fun k => toBytes w (xs.getD k 0))
  let at_ (a : BitVec 57) : List Byte := toBytes 8 (a.signExtend 64).toNat
  at_ (BitVec.ofNat 57 entry) ++ toBytes 1 t.cls ++ toBytes 1 t.flags ++ toBytes 1 a.ptok ++
    toBytes 1 t.lw.length ++ pad 1 6 t.lw ++ toBytes 1 t.affm ++ toBytes 1 0 ++ toBytes 4 t.energy ++ pad 8 6 a.ext ++
    at_ a.spars.1 ++ toBytes 4 a.sparn ++ toBytes 4 a.exbud ++ at_ a.saves.1 ++
    at_ a.pool.1 ++ toBytes 4 a.rsksz ++ toBytes 4 a.rem0 ++ toBytes 16 0 ++ pad 8 4 (a.args.map (·.toNat)) ++
    toBytes 32 0

/-- A launch made ready: its areas zeroed and its header written, each mapped in the context; `none` where the completed
header breaks R275, which the library refuses (R337). -/
def State.prepareLaunch (q : State × Nat) (p : LoadArgs) (ks : List Kernel) (ts : List Config.ImageLaunch) (a : LaunchArgs) :
    Option (State × Nat) :=
  match ts[a.template]? with
  | none => none
  | some t =>
    let entry := ((ks[t.kernel]?).map (·.entry)).getD 0
    let h := completeHeader t entry a
    if !headerOk h || decide (a.header.1.toNat % 64 ≠ 0) then none
    else
      let area (q : State × Nat) (at_ : BitVec 57 × BitVec 48) (bs : List Byte) : State × Nat :=
        State.placeBytes q p.ctx.toNat at_.1.toNat at_.2.toNat true false bs
      let q1 := area q a.spars (List.replicate (64 * a.sparn) 0)
      let q2 := area q1 a.saves (List.replicate (0x600000 * a.sparn) 0)
      let q3 := area q2 a.pool (List.replicate (a.rsksz * 65536 * a.sparn) 0)
      some (area q3 a.header h)

/-- The launches of a load, each answered by its header's address, or by none where it is refused. -/
def State.prepareLaunches (q : State × Nat) (p : LoadArgs) (ks : List Kernel) (ts : List Config.ImageLaunch) : State × Nat :=
  p.launches.foldl (fun q a =>
    match State.prepareLaunch q p ks ts a with
    | some r => ({ r.1 with plat := { r.1.plat with headers := r.1.plat.headers ++ [some (a.header.1.signExtend 64)] } }, r.2)
    | none => ({ q.1 with plat := { q.1.plat with headers := q.1.plat.headers ++ [none] } }, q.2)) q

/-- The kernels of a native image made resident, its symbols reported and its launches prepared (R63, R207, R229,
R337). -/
def State.settleImage (s : State) (img : List Byte) (p : LoadArgs) (ks : List Kernel) (cd : List Byte × List Byte) : State :=
  let ctx := p.ctx.toNat
  let q1 := State.placeBytes (s, p.tables.toNat) ctx p.codeVa.toNat p.codePa.toNat false true cd.1
  let q2 := State.placeBytes q1 ctx p.dataVa.toNat p.dataPa.toNat true false cd.2
  let syms := (Config.symbolNames img).map (fun n => (n, (p.dataVa + BitVec.ofNat 57 (Config.symbol img n)).signExtend 64))
  let s0 : State := { q2.1 with plat := { q2.1.plat with symbols := syms, headers := [] } }
  let s1 := (State.prepareLaunches (s0, q2.2) p ks (Config.imageLaunches img)).1
  let first := ((s1.kernels.getLast?).map (·.1 + 1)).getD 0
  let s2 := ks.foldl (fun s k => s.clearKernel k) s1
  { s2 with kernels := ks.zipIdx.foldl (fun t q => t.put (first + q.2) q.1) s2.kernels }

/-- A native image loaded (R63, R337). Where it meets several refusals, the header and places are judged first, then the
signature, AREV, the kernels' records, their banks, and the relocations (the model's choice, log 11). -/
def State.loadNative (s : State) (img : List Byte) (p : LoadArgs) : State :=
  match parseImage img with
  | none => s.answerLoad 1
  | some i =>
    if i.form ≠ 2 ∨ p.codeVa.toNat % 65536 ≠ 0 ∨ p.dataVa.toNat % 65536 ≠ 0 ∨ p.codePa.toNat % 65536 ≠ 0 ∨
        p.dataPa.toNat % 65536 ≠ 0 then s.answerLoad 1
    else if !s.signedImage i img then s.answerLoad 2
    else if arev < i.arev then s.answerLoad 3
    else if !(Config.imageKernels img).all kernelOk then s.answerLoad 1
    else
      match placeAll p (Config.imageKernels img) (s.kernels.map (·.2)) with
      | none => s.answerLoad 4
      | some ks =>
        match relocateAll img p ks i with
        | .error c => s.answerLoad c
        | .ok cd => (s.settleImage img p ks cd).answerLoad 0

/-- IMAGE_LOAD: a native image, or a portable one, which Farord finalises at its first load; in minimal mode and in P3
nothing answers (R20, R62, R63, R333). -/
def State.imageLoad (s : State) (img : List Byte) (p : LoadArgs) : State :=
  if !s.serves then s
  else if (parseImage img).any (fun i => decide (i.form = 1)) then
    let s1 := s.farord img
    match s1.images.find? (fun q => decide (q.1 = img)) with
    | some q => if s1.plat.loadCode = 0 then s1.loadNative q.2 p else s1
    | none => s1
  else s.loadNative img p

/-- Has a kernel a live spar. -/
def State.kernelBusy (s : State) (n : Nat) : Bool :=
  s.sched.ready.any (fun r => decide (r.kern = some n)) || s.sched.waiting.any (fun w => decide (w.kern = some n)) ||
    s.allCoresList.any (fun k => decide (k.run.bind (·.kernel) = some n) ||
      (match k.phase with
       | .picked r => decide (r.kern = some n)
       | _ => false))

/-- KERNEL_UNLOAD: the banks are released and zeroed, or code 7 (R63, R207). -/
def State.kernelUnload (s : State) (n : Nat) : Option State :=
  match s.kernels.get? n with
  | none => none
  | some k =>
    if s.kernelBusy n then some (s.answerLoad 7)
    else some (({ s.clearKernel k with kernels := s.kernels.del n }).answerLoad 0)

end Sys2Proof.Machine
end

