-- ==== Sys2Proof/Machine/Platform.lean ====
section
/-! DEFINITION. Start-up, attestation, power, debug, partitioning and the writes of the CXL.io register block (R5, R265,
R293, R305, R320, R321, R329 to R338). -/

namespace Sys2Proof.Machine

/-! ### Boot (R329 to R331) -/

/-- FCST of every core as firmware writes it while the arbiter does not run (R331). -/
def State.firmwareFcst (s : State) : State :=
  s.allCores (fun k => { k with afr := setField k.afr 0 8 (Config.firmwareFcst s.tick k.num % 256) })

/-- Does the boot after a reset enter minimal mode: after three failures, or where the last failed for a decommissioned device
(R329, R330). -/
def Platform.nextMin (p : Platform) : Bool := decide (3 ≤ p.fails) || decide (p.reason = 6)

/-- What a device reset keeps: storage outside the cores, fuses, FAILS, REASON, finalised images and the pending
partition layout, which minimal mode ignores (R327, R329, R331, R336). -/
def State.afterReset (s : State) (plat : Platform) : State :=
  let m := s.mem
  let min := plat.nextMin
  let cfg := if min then 0 else plat.partNext
  let s1 : State := { State.reset with
    mem := { dev := m.dev, host := m.host, peer := m.peer, codes := m.codes, badAtoms := m.badAtoms,
             slices := 32 * partDies cfg (plat.part % 4) },
    images := s.images,
    plat := { fails := plat.fails, reason := plat.reason, lc := plat.lc, min := min, booting := !min, part := plat.part,
              measures := plat.measures, partcfg := cfg, partNext := plat.partNext, halfChans := plat.halfChans,
              scrubs := plat.scrubs },
    host := { ctl := if min then 4 else 0 }, inputs := s.inputs, tick := s.tick }
  if min then s1.firmwareFcst.ticked else s1

/-- DEVICE_RESET: a reset starts a boot, or minimal mode (R20, R329, R330). -/
def State.deviceReset (s : State) : State := s.afterReset s.plat

/-- A boot fails: FAILS counts, REASON records, and the device resets (R329). -/
def State.bootFail (s : State) (reason : Nat) : State :=
  s.afterReset { s.plat with fails := min 3 (s.plat.fails + 1), reason := reason }

/-- The failure reasons of each stage (R329). -/
def stageReasons (lc : BitVec 2) : Nat → List Nat
  | 0 => if lc = 3 then [6] else []
  | 1 => [1, 2]
  | 2 => [3]
  | 3 => [4]
  | 5 => [5]
  | _ => []

/-- A measurement taken of the next stage: SHA3-512 of the old value and the stage's digest (R332; log 7). -/
def Platform.measured (p : Platform) (tick : Nat) : Platform :=
  { p with measures := p.measures.mapFinIdx (fun i m _ =>
      if i = p.stage then Config.sha3 (bvBytes 64 m ++ Config.stageDigest tick) else m) }

/-- Lines that the array self-test retires: at most the four spares of a core (R179, R329; log 36). -/
def retiredLines (total : Nat) (found : List Nat) : List Nat := ((found.filter (· < total)).eraseDups).take 4

/-- The array self-test: failing lines of every core leave service (R179, R329). -/
def State.arrayTest (s : State) : State :=
  (s.allCores (fun k => { k with pendRows := retiredLines 132 (Config.failingRows s.tick k.num),
                                 pendCols := retiredLines 100 (Config.failingCols s.tick k.num) }.retire)).ticked

/-- Lane training: each link of the partition that trains is held, any other stays down (R304, R305, R329, R336; log 13). -/
def State.trainLinks (s : State) : State :=
  let m := Config.trains s.tick
  { s with fabric := { s.fabric with links := s.fabric.links.mapFinIdx (fun i l _ =>
    if m.testBit i ∧ s.ownsLink i then { l with state := 1, width := 0, trained := true } else { l with state := 0 }) } }.ticked

/-- BOOT_STAGE: the stage completes, or fails with one of its reasons (R329). -/
def State.bootStage (s : State) (r : BootResult) : Option State :=
  if !s.plat.booting then none
  else
    match r with
    | .failed reason =>
      if (stageReasons s.plat.lc s.plat.stage).contains reason.toNat then some (s.bootFail reason.toNat) else none
    | .done =>
      if s.plat.stage = 0 ∧ s.plat.lc = 3 then none else
      let s0 := s.firmwareFcst
      let s1 := if s.plat.stage = 4 then s0.trainLinks else if s.plat.stage = 3 then s0.arrayTest else s0
      let p := s1.plat.measured s1.tick
      if p.stage = 5 then some ({ s1 with plat := { p with booting := false, fails := 0 } }.ticked)
      else some ({ s1 with plat := { p with stage := p.stage + 1 } }.ticked)

/-- WATCHDOG_EXPIRE (R329). -/
def State.watchdog (s : State) : Option State := if s.plat.booting then some (s.bootFail 7) else none

/-- RECOVERY_REQUEST (R329). -/
def State.recoveryRequest (s : State) : Option State := if s.plat.booting then some (s.bootFail 8) else none

/-- RECOVERY_IMAGE: in minimal mode a verified image clears FAILS and resets the device (R330). -/
def State.recoveryImage (s : State) (img : List Byte) : Option State :=
  if !s.plat.min || decide (s.plat.lc = 3) then none
  else if Config.signed s.plat.lc img && Config.versionOk img then some (s.afterReset { s.plat with fails := 0 })
  else some s

/-- LIFECYCLE_FUSE_ADVANCE: fuses only advance (R331). -/
def State.fuseAdvance (s : State) (lc : BitVec 2) : Option State :=
  if s.plat.lc.toNat < lc.toNat then some { s with plat := { s.plat with lc := lc } } else none

/-- PARTCFG_WRITE: one of four layouts, held for the next reset; any other value is refused (R336). -/
def State.partcfgWrite (s : State) (v : Word) : State :=
  if v.toNat < 4 then { s with plat := { s.plat with partNext := v.toNat } } else s

/-! ### Attestation (R332) -/

/-- A nonce register written; ATTNONCE3 starts a report, discarding one being formed. -/
def State.writeNonce (s : State) (k : Nat) (v : Word) : State :=
  let p := { s.plat with nonce := s.plat.nonce.mapFinIdx (fun i w _ => if i = k then v else w) }
  if k = 3 then { s with plat := { p with att := 1, report := [], shown := none } } else { s with plat := p }

/-- The 256-bit nonce. -/
def Platform.nonce256 (p : Platform) : BitVec 256 :=
  BitVec.ofNat 256 (p.nonce.toList.foldr (fun w v => w.toNat + 2 ^ 64 * v) 0)

/-- ATT_REQUEST: a write of ATTNONCE3. -/
def State.attRequest (s : State) (v : Word) : State := s.ifServes (s.writeNonce 3 v)

/-- The fields that a report of this device holds (R332). -/
def Platform.reported (p : Platform) : Report :=
  { lc := p.lc, dbg := p.dbg, partcfg := p.partcfg, part := p.part, measures := p.measures, nonce := p.nonce256 }

/-- Those fields as bytes that a report's encoding depends on. -/
def Report.fields (r : Report) : List Byte :=
  [BitVec.ofNat 8 r.lc.toNat, BitVec.ofNat 8 r.dbg.toNat, BitVec.ofNat 8 r.partcfg, BitVec.ofNat 8 r.part] ++
    r.measures.toList.flatMap (bvBytes 64) ++ bvBytes 32 r.nonce

/-- ATT_DONE: the report is ready in its 8 KiB window, in an encoding that the spec does not give (R332; log 7). -/
def State.attDone (s : State) : Option State :=
  if s.plat.att.getLsbD 0 && s.serves then
    let r := s.plat.reported
    let bs := (List.range 8192).map (Config.reportByte r.fields s.tick)
    some ({ s with plat := { s.plat with att := 2, report := bs, shown := some r } }.ticked)
  else none

/-! ### Power, debug, injection (R333 to R335, R338) -/

/-- No spar is ready or running (R333). -/
def State.quiet (s : State) : Bool :=
  s.sched.ready.isEmpty && s.allCoresList.all (fun k => decide (k.phase = .idle)) && s.host.accepted.isEmpty &&
    s.sched.launches.all (fun e => !s.pickable e.1 || (e.2.nextFor (fun _ => true)).isNone)

/-- P3: nothing is kept but fuses, FAILS and REASON; storage and PARTCFG go with it (R333). -/
def State.powerOff (s : State) (reason : Nat) : State :=
  { State.reset with
    mem := { host := s.mem.host, peer := s.mem.peer },
    plat := { part := s.plat.part, fails := s.plat.fails, reason := reason, lc := s.plat.lc, pst := 3, booting := false },
    inputs := s.inputs, tick := s.tick }

/-- POWER_REQUEST: a write of PWRCTL (R333 to R335). A cap outside its range is discarded; a request that the table refuses
changes nothing, and one for P2 with a spar ready or running enters no state. -/
def State.powerRequest (s : State) (v : Word) : State :=
  let cap := bits v.toNat 0 12
  let req := v.extractLsb' 12 2
  let p := { s.plat with cap := if 600 ≤ cap ∧ cap ≤ 2200 then cap else s.plat.cap, req := req }
  let s1 := { s with plat := p }
  match req.toNat with
  | 0 => { s1 with plat := { p with pst := 0 } }
  | 1 => { s1 with plat := { p with pst := 1 } }
  | 2 => if p.lc = 3 then s else if p.booting || !s1.quiet then s1 else { s1 with plat := { p with pst := 2 } }
  | _ => s1.powerOff p.reason

/-- P2_WAKE (R333). -/
def State.p2Wake (s : State) : Option State := if s.plat.pst = 2 then some s.wake else none

/-- THERMAL_TRIP of a device that is on (R333, R335). -/
def State.thermalTrip (s : State) (degC : Nat) : Option State :=
  if s.plat.pst = 3 then none
  else if 115 ≤ degC then some (s.powerOff 9)
  else if 105 ≤ degC then some { s with plat := { s.plat with pst := 1, cap := 1400 } }
  else none

/-- Does the lifecycle allow a debug state (R334). -/
def debugAllowed (lc dbg : BitVec 2) : Bool :=
  decide (dbg = 0) || (decide (dbg = 1) && decide (lc ≠ 3)) || (decide (dbg = 2) && decide (lc.toNat ≤ 1))

/-- DEBUG_TOKEN: a token sets the debug state, or is refused; in P3 it stays off. Past manufacturing it is an owner token:
signed under a key that the owner-locked state admits (R333, R334; log 7). -/
def State.debugToken (s : State) (dbg : BitVec 2) (token : List Byte) : State :=
  if decide (s.plat.pst ≠ 3) && debugAllowed s.plat.lc dbg && (decide (dbg = 0) || Config.signed (if s.plat.lc = 0 then 0 else 2) token) then
    { s with plat := { s.plat with dbg := dbg } }
  else s

/-- THINJ_WRITE: a write with ARM is discarded while one is pending, and refused in the cases of R338 with every other field
as it was (R338). -/
def State.thinjWrite (s : State) (v : Word) : State :=
  let old := s.plat.thinj
  let done := (old &&& 0x400000000) &&& ~~~(v &&& 0x400000000)
  let fields := v &&& 0x1FFFFFF7F
  let put (w : Word) : State := { s with plat := { s.plat with thinj := w } }
  s.ifServes <|
  if v.getLsbD 33 then
    if old.getLsbD 33 then s
    else if s.plat.lc.toNat ≥ 2 ∨ s.ownsCore (bits v.toNat 0 7) = false ∨ 95 < bits v.toNat 21 7 then
      put (old ||| 0x800000000)
    else put ((fields ||| 0x200000000) ||| done)
  else put ((fields ||| done) ||| (old &&& 0x800000000))

/-! ### Registers (R5, R265, R293, R305, R320, R321) -/

/-- LNKSTAT of a link (R305). -/
def Link.stat (l : Link) : Word :=
  BitVec.ofNat 64 (l.state.toNat + l.width.toNat * 4 + l.lfault.toNat * 2 ^ 16 + l.replay.toNat * 2 ^ 32 + l.retrain.toNat * 2 ^ 48)

/-- BOOTSTAT (R331). -/
def Platform.bootstat (p : Platform) : Word :=
  BitVec.ofNat 64 (p.stage % 16 + p.fails % 4 * 2 ^ 4 + p.min.toNat * 2 ^ 6 + p.reason % 256 * 2 ^ 8 + p.lc.toNat * 2 ^ 16
    + p.dbg.toNat * 2 ^ 18 + p.pst.toNat * 2 ^ 20)

/-- PWRCTL (R335). -/
def Platform.pwrctl (p : Platform) : Word := BitVec.ofNat 64 (p.cap % 4096 + p.req.toNat * 4096)

/-- What the host reads from a register of the block. -/
def State.readReg (s : State) : CxlReg → Word
  | .mntaddr => s.maint.addr
  | .mntlen => s.maint.len
  | .mntctx => s.maint.ctx
  | .mntcmd => s.maint.cmd
  | .mntstat => s.maint.stat
  | .lanefcb => s.lanes.fcb
  | .lanepcb => s.lanes.pcb
  | .embase => s.lanes.embase
  | .lanectl => s.lanes.ctl
  | .lnkstat n => ((s.fabric.links.toList[n]?).map (·.stat)).getD 0
  | .devnum => s.fabric.devnum
  | .rtbase => s.fabric.rtbase
  | .inbtb => s.fabric.inbtb
  | .pairb => s.fabric.pairb
  | .lnkctl => s.fabric.ctl
  | .clogb => s.host.clogb
  | .clogn => s.host.clogn
  | .clognext => s.host.next
  | .cplb => s.host.cplb
  | .cpln => s.host.cpln
  | .cplhead => s.host.head
  | .cpltail => s.host.tail
  | .disphdr => s.host.disphdr
  | .hostctl => s.host.ctl
  | .hwbase => s.host.hwbase
  | .hwlen => s.host.hwlen
  | .hwhpa => s.host.hwhpa
  | .thinj => s.plat.thinj
  | .attnonce k => s.plat.nonce.toList.getD k 0
  | .attstat => s.plat.att
  | .attrep n => if s.plat.att.getLsbD 0 then 0 else BitVec.ofNat 64 (savedN s.plat.report (8 * (n % 1024)) 8)
  | .bootstat => s.plat.bootstat
  | .pwrctl => s.plat.pwrctl

/-- A write of a lane register; discarded while the lanes are in service (R293). -/
def State.writeLane (s : State) (f : Lanes → Lanes) : State :=
  if s.lanes.ctl.getLsbD 0 then s else { s with lanes := f s.lanes }

/-- A write of a fabric register; discarded while the links are enabled (R305). -/
def State.writeFabric (s : State) (f : Fabric → Fabric) : State :=
  if s.fabric.ctl.getLsbD 0 then s else { s with fabric := f s.fabric }

/-- A write of a log register; discarded while the port is open (R320). -/
def State.writeHost (s : State) (f : HostIf → HostIf) : State :=
  if s.host.ctl.getLsbD 0 then s else { s with host := f s.host }

/-- A write of a window register; discarded while the window is open (R321). -/
def State.writeWindow (s : State) (f : HostIf → HostIf) : State :=
  if s.host.hwlen ≠ 0 then s else { s with host := f s.host }

/-- Bits [47:0] of a value. -/
def low48 (v : Word) : Word := v &&& 0xFFFFFFFFFFFF

/-- Does a register answer in minimal mode: those of the host interface that its packets need, and PWRCTL (R20, R320, R323,
R330, R334; log 36). -/
def inMinimal : CxlReg → Bool
  | .clogb | .clogn | .clognext | .cplb | .cpln | .cplhead | .cpltail | .disphdr | .hostctl | .pwrctl => true
  | _ => false

/-- REGISTER_WRITE: RW fields are replaced, W1C bits cleared, RO and reserved fields kept; a register with a behaviour of
its own has it (R5, R6). A base or length that is not the multiple its table asks for is held and used as it was written
(log 36). -/
def State.writeReg (s0 : State) (r : CxlReg) (v : Word) : State :=
  let s := s0.wake
  if s.plat.min && !inMinimal r then s else
  match r with
  | .mntaddr => { s with maint := { s.maint with addr := v } }
  | .mntlen => { s with maint := { s.maint with len := v } }
  | .mntctx => { s with maint := { s.maint with ctx := v &&& 0xFFFF } }
  | .mntcmd => s.writeMnt v
  | .mntstat => { s with maint := { s.maint with stat := s.maint.stat &&& ~~~(v &&& 6) } }
  | .lanefcb => s.writeLane (fun l => { l with fcb := low48 v })
  | .lanepcb => s.writeLane (fun l => { l with pcb := low48 v })
  | .embase => s.writeLane (fun l => { l with embase := low48 v })
  | .lanectl => s.laneEnable v
  | .lnkstat _ => s
  | .devnum => s.writeFabric (fun f => { f with devnum := v &&& 0xFFFF })
  | .rtbase => s.writeFabric (fun f => { f with rtbase := low48 v })
  | .inbtb => s.writeFabric (fun f => { f with inbtb := low48 v })
  | .pairb => s.writeFabric (fun f => { f with pairb := low48 v })
  | .lnkctl => s.linkEnable v
  | .clogb => s.writeHost (fun h => { h with clogb := low48 v })
  | .clogn => s.writeHost (fun h => { h with clogn := v &&& 0x1FFFFF })
  | .clognext => s.writeHost (fun h => { h with next := v })
  | .cplb => s.writeHost (fun h => { h with cplb := low48 v })
  | .cpln => s.writeHost (fun h => { h with cpln := v &&& 0x1FFFFF })
  | .cplhead => s
  | .cpltail => { s with host := { s.host with tail := v } }
  | .disphdr => s.writeHost (fun h => { h with disphdr := v &&& 0x1FFFFFFFFFFFFFF })
  | .hostctl => if v.getLsbD 0 then s.hostEnable v else s.hostDisable v
  | .hwbase => s.writeWindow (fun h => { h with hwbase := low48 v })
  | .hwlen => if low48 v = 0 then s.windowClose else s.writeWindow (fun h => { h with hwlen := low48 v })
  | .hwhpa => s.writeWindow (fun h => { h with hwhpa := v &&& 0xFFFFFFFFFFFFF })
  | .thinj => s.thinjWrite v
  | .attnonce k => s.writeNonce k v
  | .attstat => { s with plat := { s.plat with att := s.plat.att &&& ~~~(v &&& 2) } }
  | .bootstat => s
  | .attrep _ => s
  | .pwrctl => s.powerRequest v

/-- Does the register block answer the host: once boot stage 5 is complete, and not in P3 (R329, R333). -/
def State.hostUp (s : State) : Bool := !s.plat.booting && decide (s.plat.pst ≠ 3)

/-- What an access of the host to the register block leaves: `t`, where the block answers. -/
def State.ifHost (s t : State) : State := if s.hostUp then t else s

end Sys2Proof.Machine
end

