-- ==== Sys2Proof/Machine/ExecEvent.lean ====
section
/-! DEFINITION. The meaning of each event of the device and of the outside world. -/

namespace Sys2Proof.Machine

/-- Unposted records of a lane on a core (R294). -/
def Core.laneCount (k : Core) (p : Bool) : Nat := (k.lanesUnposted.filter (fun r => r.laneP == p)).length

/-- Has each core room for the records of an event: a core holds the first 16 of each lane, and what one event or bundle
brings beyond them follows as each of those is posted. An event waits for room in its lane, but for one with a lane F
record, which a full lane P never delays (R294; log 33). -/
def State.lanesFit (s t : State) : Bool :=
  (s.allCoresList.zip t.allCoresList).all (fun k => [false, true].all (fun p =>
    decide (k.2.laneCount p ≤ 16) || decide (k.2.laneCount p ≤ k.1.laneCount p) || decide (k.1.laneCount p = 0)
      || (p && decide (k.1.laneCount false < k.2.laneCount false))))

/-- The state after an event that takes place: its condition holds, and its records have room (R294). -/
def State.happens (s : State) (o : Option State) : Option State := o.filter (fun t => s.lanesFit t)

/-- An event asked for: it takes place, or nothing happens. -/
def State.happen (s : State) (o : Option State) : Host.Outcome State Fault Refusal := .next ((s.happens o).getD s)

/-- SFEV_LAND (R133). -/
def execSfevLand (s : State) : Host.Outcome State Fault Refusal := s.happen s.sfevLand

/-- RSK_SPILL (R195). -/
def execRskSpill (s : State) : Host.Outcome State Fault Refusal := s.happen s.rskSpill

/-- RSK_FILL (R195). -/
def execRskFill (s : State) : Host.Outcome State Fault Refusal := s.happen s.rskFill

/-- MATRIX_START (R144). -/
def execMatrixStart (s : State) : Host.Outcome State Fault Refusal := s.happen s.matrixStart

/-- MATRIX_KSTEP (R154). -/
def execMatrixKstep (s : State) : Host.Outcome State Fault Refusal := s.happen s.matrixKstep

/-- MATRIX_COMPLETE (R158). -/
def execMatrixComplete (s : State) : Host.Outcome State Fault Refusal := s.happen s.matrixComplete

/-- WSTREAM_SECTOR (R150). -/
def execWstreamSector (wb : Bool) (s : State) : Host.Outcome State Fault Refusal :=
  s.happen (s.wstreamSector wb)

/-- STORE_PERFORM (R211). -/
def execStorePerform (n : Nat) (status : Byte) (s : State) : Host.Outcome State Fault Refusal :=
  s.happen (s.storePerform n status.toNat)

/-- COPY_START (R229). -/
def execCopyStart (e : Nat) (s : State) : Host.Outcome State Fault Refusal := s.happen (s.copyStart e)

/-- COPY_SECTOR (R222). -/
def execCopySector (e : Nat) (s : State) : Host.Outcome State Fault Refusal :=
  s.happen (s.copySector e)

/-- COPY_COMPLETE (R223). -/
def execCopyComplete (e : Nat) (s : State) : Host.Outcome State Fault Refusal :=
  s.happen (s.copyComplete e)

/-- FOLLOWON_ENTER (R231). -/
def execFollowonEnter (s : State) : Host.Outcome State Fault Refusal := s.happen s.followonEnter

/-- VALLEY_FOLD (R235). -/
def execValleyFold (s : State) : Host.Outcome State Fault Refusal := s.happen s.valleyFold

/-- COLL_COMPLETE (R318). -/
def execCollComplete (got : CollInput) (s : State) : Host.Outcome State Fault Refusal :=
  s.happen (s.collComplete got)

/-- WAITA_TIMEOUT (R284). -/
def execWaitaTimeout (s : State) : Host.Outcome State Fault Refusal := s.happen s.waitaTimeout

/-- MONITOR_FIRE (R283). -/
def execMonitorFire (n : Nat) (s : State) : Host.Outcome State Fault Refusal :=
  s.happen (s.monitorFire n)

/-- WAIT_TIME_DUE (R282). -/
def execWaitTimeDue (spar : Nat) (s : State) : Host.Outcome State Fault Refusal :=
  s.happen (s.waitTimeDue spar)

/-- PAGE_WALK (R263). -/
def execPageWalk (ctx : BitVec 16) (va : BitVec 57) (acc : Access) (s : State) : Host.Outcome State Fault Refusal :=
  s.happen (s.pageWalk ctx.toNat (va.setWidth 64) acc)

/-- L2_READ_MISS (R256). -/
def execL2ReadMiss (pa : BitVec 48) (ch : BitVec 2) (cmp : Bool) (s : State) : Host.Outcome State Fault Refusal :=
  s.happen (s.l2ReadMiss pa.toNat ch.toNat cmp)

/-- MC_WINDOW_EXPIRE (R256). -/
def execMcWindowExpire (sector : Nat) (s : State) : Host.Outcome State Fault Refusal :=
  s.happen (s.windowExpire sector)

/-- HBM_HALF_WIDTH (R259). -/
def execHbmHalfWidth (chan : Nat) (s : State) : Host.Outcome State Fault Refusal := .next (s.halfWidth chan)

/-- MNT_FLUSH (R265). -/
def execMntFlush (s : State) : Host.Outcome State Fault Refusal := .next (s.ifHost (s.wake.writeMnt 1))

/-- MNT_SHOOT (R265). -/
def execMntShoot (s : State) : Host.Outcome State Fault Refusal := .next (s.ifHost (s.wake.writeMnt 2))

/-- MNT_DONE (R265). -/
def execMntDone (s : State) : Host.Outcome State Fault Refusal := s.happen s.mntDone

/-- ARBITER_CHOOSE (R285). -/
def execArbiterChoose (s : State) : Host.Outcome State Fault Refusal := s.happen s.arbiterChoose

/-- SPAR_ENTRY (R85). -/
def execSparEntry (s : State) : Host.Outcome State Fault Refusal := s.happen s.sparEntry

/-- SPAR_RESUME (R300). -/
def execSparResume (s : State) : Host.Outcome State Fault Refusal := s.happen s.sparResume

/-- YIELD_WRITEBACK (R274). -/
def execYieldWriteback (s : State) : Host.Outcome State Fault Refusal := s.happen s.yieldWriteback

/-- CHECKPOINT (R291). -/
def execCheckpoint (s : State) : Host.Outcome State Fault Refusal := s.happen s.checkpoint

/-- KILL (R291). -/
def execKill (s : State) : Host.Outcome State Fault Refusal := s.happen s.kill

/-- FAULT_STOP (R297). -/
def execFaultStop (s : State) : Host.Outcome State Fault Refusal := s.happen s.faultStop

/-- LANE_POST (R292). -/
def execLanePost (p : Bool) (s : State) : Host.Outcome State Fault Refusal := s.happen (s.lanePost p)

/-- EXCHANGE_BEGIN (R288). -/
def execExchangeBegin (launch : Nat) (s : State) : Host.Outcome State Fault Refusal :=
  s.happen (s.exchangeBegin launch)

/-- EXCHANGE_END (R288). -/
def execExchangeEnd (launch : Nat) (s : State) : Host.Outcome State Fault Refusal :=
  s.happen (s.exchangeEnd launch)

/-- EXBUD_EXPIRE (R288). -/
def execExbudExpire (launch : Nat) (s : State) : Host.Outcome State Fault Refusal :=
  s.happen (s.exbudExpire launch)

/-- LANE_ENABLE (R293). -/
def execLaneEnable (v : Word) (s : State) : Host.Outcome State Fault Refusal := .next (s.ifHost (s.wake.laneEnable v))

/-- LAUNCH_PACKET (R275). -/
def execLaunchPacket (s : State) : Host.Outcome State Fault Refusal := s.happen s.launchPacket

/-- SEED_PUSH (R326). -/
def execSeedPush (s : State) : Host.Outcome State Fault Refusal := s.happen s.seedPush

/-- SEED_POP (R326). -/
def execSeedPop (s : State) : Host.Outcome State Fault Refusal := s.happen s.seedPop

/-- SEED_FORK (R326). -/
def execSeedFork (s : State) : Host.Outcome State Fault Refusal := s.happen s.seedFork

/-- PREFETCH_HINT (R232). -/
def execPrefetchHint (s : State) : Host.Outcome State Fault Refusal := s.happen s.prefetchHint

/-- ENERGY_BUDGET (R289). -/
def execEnergyBudget (s : State) : Host.Outcome State Fault Refusal := s.happen s.energyBudget

/-- EVICTION_SCHEDULE_LOAD (R257). -/
def execEvictionScheduleLoad (s : State) : Host.Outcome State Fault Refusal :=
  s.happen s.evictionLoad

/-- FENCE_PACKET (R325). -/
def execFencePacket (s : State) : Host.Outcome State Fault Refusal := s.happen s.fencePacket

/-- FENCE_POST (R325). -/
def execFencePost (n : Nat) (s : State) : Host.Outcome State Fault Refusal := s.happen (s.fencePost n)

/-- PORT_ACCEPT (R323). -/
def execPortAccept (s : State) : Host.Outcome State Fault Refusal := s.happen s.portAccept

/-- HOST_ENABLE (R320). -/
def execHostEnable (v : Word) (s : State) : Host.Outcome State Fault Refusal := .next (s.ifHost (s.wake.hostEnable v))

/-- HOST_DISABLE (R320). -/
def execHostDisable (v : Word) (s : State) : Host.Outcome State Fault Refusal :=
  .next (s.ifHost (s.wake.hostDisable v))

/-- HOST_WINDOW_ACCESS (R321). -/
def execHostWindowAccess (hpa : Nat) (write : Bool) (bytes : List Byte) (s : State) :
    Host.Outcome State Fault Refusal :=
  .next (s.windowAccess hpa write bytes)

/-- HOST_WINDOW_CLOSE (R321). -/
def execHostWindowClose (s : State) : Host.Outcome State Fault Refusal := .next (s.ifHost (s.wake.windowClose))

/-- HOST_SNOOP (R319). -/
def execHostSnoop (addr : Nat) (bytes : List Byte) (s : State) : Host.Outcome State Fault Refusal :=
  .next (s.hostSnoop addr bytes)

/-- FLIT_RECEIVE (R303). -/
def execFlitReceive (link : Nat) (flit : BitVec 2048) (s : State) : Host.Outcome State Fault Refusal :=
  s.happen (s.flitReceive link flit)

/-- LANE_FAULT (R304). -/
def execLaneFault (link lane : Nat) (s : State) : Host.Outcome State Fault Refusal :=
  s.happen (s.laneFault link lane)

/-- RETRAIN_DONE (R304). -/
def execRetrainDone (link : Nat) (peerFaults : BitVec 16) (peerAck : BitVec 24) (s : State) :
    Host.Outcome State Fault Refusal :=
  s.happen (s.retrainDone link peerFaults peerAck)

/-- LINK_ENABLE (R305). -/
def execLinkEnable (v : Word) (s : State) : Host.Outcome State Fault Refusal := .next (s.ifHost (s.wake.linkEnable v))

/-- ROUTE_SEND (R306). -/
def execRouteSend (n : Nat) (s : State) : Host.Outcome State Fault Refusal := s.happen (s.routeSend n)

/-- PAIR_RECEIVE (R307). -/
def execPairReceive (src : BitVec 16) (psn : BitVec 32) (t : Txn) (s : State) : Host.Outcome State Fault Refusal :=
  .next (s.pairReceive src.toNat psn.toNat t)

/-- PAIR_ACK (R307). -/
def execPairAck (dst : BitVec 16) (psn : BitVec 32) (status : Byte) (old : Word) (s : State) :
    Host.Outcome State Fault Refusal :=
  s.happen (s.pairAck dst.toNat psn.toNat status.toNat old)

/-- PAIR_RESEND_TIMEOUT (R307). -/
def execPairResendTimeout (dst : BitVec 16) (s : State) : Host.Outcome State Fault Refusal :=
  s.happen (s.pairResend dst.toNat)

/-- RFEN_PERFORM (R312). -/
def execRfenPerform (src : BitVec 16) (s : State) : Host.Outcome State Fault Refusal :=
  s.happen (s.rfenPerform src.toNat)

/-- COLL_PEER_TIMEOUT (R314). -/
def execCollPeerTimeout (rank : Nat) (s : State) : Host.Outcome State Fault Refusal :=
  s.happen (s.collPeerTimeout rank)

/-- DEVICE_RESET (R329). -/
def execDeviceReset (s : State) : Host.Outcome State Fault Refusal := .next (s.deviceReset)

/-- BOOT_STAGE (R329). -/
def execBootStage (r : BootResult) (s : State) : Host.Outcome State Fault Refusal :=
  s.happen (s.bootStage r)

/-- WATCHDOG_EXPIRE (R329). -/
def execWatchdogExpire (s : State) : Host.Outcome State Fault Refusal := s.happen s.watchdog

/-- RECOVERY_IMAGE (R330). -/
def execRecoveryImage (image : List Byte) (s : State) : Host.Outcome State Fault Refusal :=
  s.happen (s.recoveryImage image)

/-- ATT_REQUEST (R332). -/
def execAttRequest (v : Word) (s : State) : Host.Outcome State Fault Refusal := .next (s.ifHost (s.wake.attRequest v))

/-- ATT_DONE (R332). -/
def execAttDone (s : State) : Host.Outcome State Fault Refusal := s.happen s.attDone

/-- POWER_REQUEST (R333). -/
def execPowerRequest (v : Word) (s : State) : Host.Outcome State Fault Refusal := .next (s.ifHost (s.wake.powerRequest v))

/-- P2_WAKE (R333). -/
def execP2Wake (s : State) : Host.Outcome State Fault Refusal := s.happen s.p2Wake

/-- THERMAL_TRIP (R335). -/
def execThermalTrip (degC : Nat) (s : State) : Host.Outcome State Fault Refusal :=
  s.happen (s.thermalTrip degC)

/-- DEBUG_TOKEN (R334). -/
def execDebugToken (dbg : BitVec 2) (token : List Byte) (s : State) : Host.Outcome State Fault Refusal :=
  .next (s.debugToken dbg token)

/-- THINJ_WRITE (R338). -/
def execThinjWrite (v : Word) (s : State) : Host.Outcome State Fault Refusal := .next (s.ifHost (s.wake.thinjWrite v))

/-- FARORD_FINALISE (R62). -/
def execFarordFinalise (image : List Byte) (s : State) : Host.Outcome State Fault Refusal := .next (s.farord image)

/-- IMAGE_LOAD (R63). -/
def execImageLoad (image : List Byte) (place : LoadArgs) (s : State) : Host.Outcome State Fault Refusal :=
  .next (s.imageLoad image place)

/-- KERNEL_UNLOAD (R63). -/
def execKernelUnload (n : Nat) (s : State) : Host.Outcome State Fault Refusal :=
  s.happen (s.kernelUnload n)

/-- REGISTER_WRITE (R5). -/
def execRegisterWrite (r : CxlReg) (v : Word) (s : State) : Host.Outcome State Fault Refusal := .next (s.ifHost (s.writeReg r v))

/-- LINK_MANAGEMENT_RESET (R304). -/
def execLinkManagementReset (link : Nat) (s : State) : Host.Outcome State Fault Refusal :=
  s.happen (s.linkReset link)

/-- HBM_REFRESH_SCRUB (R260). -/
def execHbmRefreshScrub (chan errs row : Nat) (bad : List Nat) (s : State) : Host.Outcome State Fault Refusal :=
  .next (s.refreshScrub chan errs row bad)

/-- LIFECYCLE_FUSE_ADVANCE (R331). -/
def execLifecycleFuseAdvance (lc : BitVec 2) (s : State) : Host.Outcome State Fault Refusal :=
  s.happen (s.fuseAdvance lc)

/-- MINIMAL_MODE_PACKET (R323). -/
def execMinimalModePacket (s : State) : Host.Outcome State Fault Refusal :=
  s.happen s.minimalPacket

/-- RECOVERY_REQUEST (R329). -/
def execRecoveryRequest (s : State) : Host.Outcome State Fault Refusal :=
  s.happen s.recoveryRequest

/-- PARTCFG_WRITE (R336). -/
def execPartcfgWrite (v : Word) (s : State) : Host.Outcome State Fault Refusal := .next (s.partcfgWrite v)

/-- The state after each event, where its condition holds; none for an operation of a bundle. -/
def State.event (s : State) : Instr → Option State
  | .sfevLand => s.sfevLand
  | .rskSpill => s.rskSpill
  | .rskFill => s.rskFill
  | .matrixStart => s.matrixStart
  | .matrixKstep => s.matrixKstep
  | .matrixComplete => s.matrixComplete
  | .wstreamSector wb => s.wstreamSector wb
  | .storePerform n status => s.storePerform n status.toNat
  | .copyStart e => s.copyStart e
  | .copySector e => s.copySector e
  | .copyComplete e => s.copyComplete e
  | .followonEnter => s.followonEnter
  | .valleyFold => s.valleyFold
  | .collComplete got => s.collComplete got
  | .waitaTimeout => s.waitaTimeout
  | .monitorFire n => s.monitorFire n
  | .waitTimeDue spar => s.waitTimeDue spar
  | .pageWalk ctx va acc => s.pageWalk ctx.toNat (va.setWidth 64) acc
  | .l2ReadMiss pa ch cmp => s.l2ReadMiss pa.toNat ch.toNat cmp
  | .mcWindowExpire sector => s.windowExpire sector
  | .hbmHalfWidth chan => some (s.halfWidth chan)
  | .mntFlush => some (s.ifHost (s.wake.writeMnt 1))
  | .mntShoot => some (s.ifHost (s.wake.writeMnt 2))
  | .mntDone => s.mntDone
  | .arbiterChoose => s.arbiterChoose
  | .sparEntry => s.sparEntry
  | .sparResume => s.sparResume
  | .yieldWriteback => s.yieldWriteback
  | .checkpoint => s.checkpoint
  | .kill => s.kill
  | .faultStop => s.faultStop
  | .lanePost p => s.lanePost p
  | .exchangeBegin launch => s.exchangeBegin launch
  | .exchangeEnd launch => s.exchangeEnd launch
  | .exbudExpire launch => s.exbudExpire launch
  | .laneEnable v => some (s.ifHost (s.wake.laneEnable v))
  | .launchPacket => s.launchPacket
  | .seedPush => s.seedPush
  | .seedPop => s.seedPop
  | .seedFork => s.seedFork
  | .prefetchHint => s.prefetchHint
  | .energyBudget => s.energyBudget
  | .evictionScheduleLoad => s.evictionLoad
  | .fencePacket => s.fencePacket
  | .fencePost n => s.fencePost n
  | .portAccept => s.portAccept
  | .hostEnable v => some (s.ifHost (s.wake.hostEnable v))
  | .hostDisable v => some (s.ifHost (s.wake.hostDisable v))
  | .hostWindowClose => some (s.ifHost (s.wake.windowClose))
  | .hostSnoop addr bytes => some (s.hostSnoop addr bytes)
  | .flitReceive link flit => s.flitReceive link flit
  | .laneFault link lane => s.laneFault link lane
  | .linkEnable v => some (s.ifHost (s.wake.linkEnable v))
  | .routeSend n => s.routeSend n
  | .pairReceive src psn t => some (s.pairReceive src.toNat psn.toNat t)
  | .pairResendTimeout dst => s.pairResend dst.toNat
  | .rfenPerform src => s.rfenPerform src.toNat
  | .collPeerTimeout rank => s.collPeerTimeout rank
  | .deviceReset => some (s.deviceReset)
  | .bootStage r => s.bootStage r
  | .watchdogExpire => s.watchdog
  | .recoveryImage image => s.recoveryImage image
  | .attRequest v => some (s.ifHost (s.wake.attRequest v))
  | .attDone => s.attDone
  | .powerRequest v => some (s.ifHost (s.wake.powerRequest v))
  | .p2Wake => s.p2Wake
  | .thermalTrip degC => s.thermalTrip degC
  | .debugToken dbg token => some (s.debugToken dbg token)
  | .thinjWrite v => some (s.ifHost (s.wake.thinjWrite v))
  | .farordFinalise image => some (s.farord image)
  | .imageLoad image place => some (s.imageLoad image place)
  | .kernelUnload n => s.kernelUnload n
  | .registerWrite r v => some (s.ifHost (s.writeReg r v))
  | .linkManagementReset link => s.linkReset link
  | .hbmRefreshScrub chan errs row bad => some (s.refreshScrub chan errs row bad)
  | .lifecycleFuseAdvance lc => s.fuseAdvance lc
  | .minimalModePacket => s.minimalPacket
  | .recoveryRequest => s.recoveryRequest
  | .partcfgWrite v => some (s.partcfgWrite v)
  | _ => none

/-- Can an event take place. -/
def enabled (s : State) (i : Instr) : Bool := (s.happens (s.event i)).isSome

end Sys2Proof.Machine
end

