-- ==== Sys2Proof/Machine/ExecMatrix.lean ====
section
/-! DEFINITION. The meaning of each matrix operation (R144 to R157, R173 to R187). -/

namespace Sys2Proof.Machine

/-- MMA_BF16 (R154): a bundle of this operation alone issues; its slot is `slotMmaBf16`. -/
def execMmaBf16 (a : MArgs) (s : State) : Host.Outcome State Fault Refusal :=
  s.issue (.ofMatrix (.mmaBf16 a))

/-- MMA_FP16 (R154): a bundle of this operation alone issues; its slot is `slotMmaFp16`. -/
def execMmaFp16 (a : MArgs) (s : State) : Host.Outcome State Fault Refusal :=
  s.issue (.ofMatrix (.mmaFp16 a))

/-- MMA_E4M3 (R154): a bundle of this operation alone issues; its slot is `slotMmaE4m3`. -/
def execMmaE4m3 (a : MArgs) (s : State) : Host.Outcome State Fault Refusal :=
  s.issue (.ofMatrix (.mmaE4m3 a))

/-- MMA_E5M2 (R154): a bundle of this operation alone issues; its slot is `slotMmaE5m2`. -/
def execMmaE5m2 (a : MArgs) (s : State) : Host.Outcome State Fault Refusal :=
  s.issue (.ofMatrix (.mmaE5m2 a))

/-- MMA_E2M3 (R154): a bundle of this operation alone issues; its slot is `slotMmaE2m3`. -/
def execMmaE2m3 (a : MArgs) (s : State) : Host.Outcome State Fault Refusal :=
  s.issue (.ofMatrix (.mmaE2m3 a))

/-- MMA_E3M2 (R154): a bundle of this operation alone issues; its slot is `slotMmaE3m2`. -/
def execMmaE3m2 (a : MArgs) (s : State) : Host.Outcome State Fault Refusal :=
  s.issue (.ofMatrix (.mmaE3m2 a))

/-- MMA_E2M1 (R154): a bundle of this operation alone issues; its slot is `slotMmaE2m1`. -/
def execMmaE2m1 (a : MArgs) (s : State) : Host.Outcome State Fault Refusal :=
  s.issue (.ofMatrix (.mmaE2m1 a))

/-- MMA_Q4X (R154): a bundle of this operation alone issues; its slot is `slotMmaQ4x`. -/
def execMmaQ4x (a : MArgs) (s : State) : Host.Outcome State Fault Refusal := s.issue (.ofMatrix (.mmaQ4x a))

/-- MMAG (R155): a bundle of this operation alone issues; its slot is `slotMmag`. -/
def execMmag (a : MArgs) (s : State) : Host.Outcome State Fault Refusal := s.issue (.ofMatrix (.mmag a))

/-- SACC (R156): a bundle of this operation alone issues; its slot is `slotSacc`. -/
def execSacc (a : MArgs) (s : State) : Host.Outcome State Fault Refusal := s.issue (.ofMatrix (.sacc a))

/-- MZERO (R157): a bundle of this operation alone issues; its slot is `slotMzero`. -/
def execMzero (a : MArgs) (s : State) : Host.Outcome State Fault Refusal := s.issue (.ofMatrix (.mzero a))

/-- MWLD (R150): a bundle of this operation alone issues; its slot is `slotMwld`. -/
def execMwld (a : MArgs) (s : State) : Host.Outcome State Fault Refusal := s.issue (.ofMatrix (.mwld a))

/-- MCFG (R146): a bundle of this operation alone issues; its slot is `slotMcfg`. -/
def execMcfg (a : MArgs) (s : State) : Host.Outcome State Fault Refusal := s.issue (.ofMatrix (.mcfg a))

/-- MDRN (R174): a bundle of this operation alone issues; its slot is `slotMdrn`. -/
def execMdrn (a : MArgs) (s : State) : Host.Outcome State Fault Refusal := s.issue (.ofMatrix (.mdrn a))

/-- MCHK (R175): a bundle of this operation alone issues; its slot is `slotMchk`. -/
def execMchk (a : MArgs) (s : State) : Host.Outcome State Fault Refusal := s.issue (.ofMatrix (.mchk a))

/-- MRECOMP (R176): a bundle of this operation alone issues; its slot is `slotMrecomp`. -/
def execMrecomp (a : MArgs) (s : State) : Host.Outcome State Fault Refusal :=
  s.issue (.ofMatrix (.mrecomp a))

/-- MLAT_LOAD (R182): a bundle of this operation alone issues; its slot is `slotMlatLoad`. -/
def execMlatLoad (a : MArgs) (s : State) : Host.Outcome State Fault Refusal :=
  s.issue (.ofMatrix (.mlatLoad a))

/-- MLAT_EXPAND (R187): a bundle of this operation alone issues; its slot is `slotMlatExpand`. -/
def execMlatExpand (a : MArgs) (s : State) : Host.Outcome State Fault Refusal :=
  s.issue (.ofMatrix (.mlatExpand a))

/-- MLAT_ABSORB (R187): a bundle of this operation alone issues; its slot is `slotMlatAbsorb`. -/
def execMlatAbsorb (a : MArgs) (s : State) : Host.Outcome State Fault Refusal :=
  s.issue (.ofMatrix (.mlatAbsorb a))

end Sys2Proof.Machine
end

