-- ==== Sys2Proof/Machine/ExecMemory.lean ====
section
/-! DEFINITION. The meaning of each load-, store-, copy- and sync-slot operation (R103, R210 to R250, R284, R288, R309 to R318). -/

namespace Sys2Proof.Machine

/-- LD (R212): a bundle of this operation alone issues; its slot is `slotLd`. -/
def execLd (a : LArgs) (s : State) : Host.Outcome State Fault Refusal := s.issue (.ofMemory a.inStore (.ld a))

/-- ST (R212): a bundle of this operation alone issues; its slot is `slotSt`. -/
def execSt (a : LArgs) (s : State) : Host.Outcome State Fault Refusal := s.issue (.ofMemory a.inStore (.st a))

/-- AADD (R212): a bundle of this operation alone issues; its slot is `slotAadd`. -/
def execAadd (a : LArgs) (s : State) : Host.Outcome State Fault Refusal :=
  s.issue (.ofMemory a.inStore (.aadd a))

/-- ACAS (R212): a bundle of this operation alone issues; its slot is `slotAcas`. -/
def execAcas (a : LArgs) (s : State) : Host.Outcome State Fault Refusal :=
  s.issue (.ofMemory a.inStore (.acas a))

/-- AXCH (R212): a bundle of this operation alone issues; its slot is `slotAxch`. -/
def execAxch (a : LArgs) (s : State) : Host.Outcome State Fault Refusal :=
  s.issue (.ofMemory a.inStore (.axch a))

/-- AMAX (R212): a bundle of this operation alone issues; its slot is `slotAmax`. -/
def execAmax (a : LArgs) (s : State) : Host.Outcome State Fault Refusal :=
  s.issue (.ofMemory a.inStore (.amax a))

/-- AMIN (R212): a bundle of this operation alone issues; its slot is `slotAmin`. -/
def execAmin (a : LArgs) (s : State) : Host.Outcome State Fault Refusal :=
  s.issue (.ofMemory a.inStore (.amin a))

/-- TLD (R213): a bundle of this operation alone issues; its slot is `slotTld`. -/
def execTld (a : LArgs) (s : State) : Host.Outcome State Fault Refusal := s.issue (.ofMemory a.inStore (.tld a))

/-- TST (R213): a bundle of this operation alone issues; its slot is `slotTst`. -/
def execTst (a : LArgs) (s : State) : Host.Outcome State Fault Refusal := s.issue (.ofMemory a.inStore (.tst a))

/-- GLD (R214): a bundle of this operation alone issues; its slot is `slotGld`. -/
def execGld (a : LArgs) (s : State) : Host.Outcome State Fault Refusal := s.issue (.ofMemory a.inStore (.gld a))

/-- TSTS (R215): a bundle of this operation alone issues; its slot is `slotTsts`. -/
def execTsts (a : LArgs) (s : State) : Host.Outcome State Fault Refusal :=
  s.issue (.ofMemory a.inStore (.tsts a))

/-- TAGL (R217): a bundle of this operation alone issues; its slot is `slotTagl`. -/
def execTagl (a : LArgs) (s : State) : Host.Outcome State Fault Refusal :=
  s.issue (.ofMemory a.inStore (.tagl a))

/-- TAGS (R217): a bundle of this operation alone issues; its slot is `slotTags`. -/
def execTags (a : LArgs) (s : State) : Host.Outcome State Fault Refusal :=
  s.issue (.ofMemory a.inStore (.tags a))

/-- TAGI (R217): a bundle of this operation alone issues; its slot is `slotTagi`. -/
def execTagi (a : LArgs) (s : State) : Host.Outcome State Fault Refusal :=
  s.issue (.ofMemory a.inStore (.tagi a))

/-- TAGI_A (R217): a bundle of this operation alone issues; its slot is `slotTagiA`. -/
def execTagiA (a : LArgs) (s : State) : Host.Outcome State Fault Refusal :=
  s.issue (.ofMemory a.inStore (.tagiA a))

/-- ASET (R103): a bundle of this operation alone issues; its slot is `slotAset`. -/
def execAset (a : LArgs) (s : State) : Host.Outcome State Fault Refusal :=
  s.issue (.ofMemory a.inStore (.aset a))

/-- AINC (R103): a bundle of this operation alone issues; its slot is `slotAinc`. -/
def execAinc (a : LArgs) (s : State) : Host.Outcome State Fault Refusal :=
  s.issue (.ofMemory a.inStore (.ainc a))

/-- AMOD (R103): a bundle of this operation alone issues; its slot is `slotAmod`. -/
def execAmod (a : LArgs) (s : State) : Host.Outcome State Fault Refusal :=
  s.issue (.ofMemory a.inStore (.amod a))

/-- ABREV (R103): a bundle of this operation alone issues; its slot is `slotAbrev`. -/
def execAbrev (a : LArgs) (s : State) : Host.Outcome State Fault Refusal :=
  s.issue (.ofMemory a.inStore (.abrev a))

/-- ASTP (R103): a bundle of this operation alone issues; its slot is `slotAstp`. -/
def execAstp (a : LArgs) (s : State) : Host.Outcome State Fault Refusal :=
  s.issue (.ofMemory a.inStore (.astp a))

/-- ALEN (R103): a bundle of this operation alone issues; its slot is `slotAlen`. -/
def execAlen (a : LArgs) (s : State) : Host.Outcome State Fault Refusal :=
  s.issue (.ofMemory a.inStore (.alen a))

/-- AGET (R103): a bundle of this operation alone issues; its slot is `slotAget`. -/
def execAget (a : LArgs) (s : State) : Host.Outcome State Fault Refusal :=
  s.issue (.ofMemory a.inStore (.aget a))

/-- ACLR (R103): a bundle of this operation alone issues; its slot is `slotAclr`. -/
def execAclr (a : LArgs) (s : State) : Host.Outcome State Fault Refusal :=
  s.issue (.ofMemory a.inStore (.aclr a))

/-- CPY (R226): a bundle of this operation alone issues; its slot is `slotCpy`. -/
def execCpy (a : CArgs) (s : State) : Host.Outcome State Fault Refusal := s.issue (.ofCopy (.cpy a))

/-- CPYF (R231): a bundle of this operation alone issues; its slot is `slotCpyf`. -/
def execCpyf (a : CArgs) (follow : BitVec 80) (s : State) : Host.Outcome State Fault Refusal :=
  s.issue (.ofFollow (.cpyf a follow) follow)

/-- PFH (R232): a bundle of this operation alone issues; its slot is `slotPfh`. -/
def execPfh (a : CArgs) (s : State) : Host.Outcome State Fault Refusal := s.issue (.ofCopy (.pfh a))

/-- RCINV (R230): a bundle of this operation alone issues; its slot is `slotRcinv`. -/
def execRcinv (a : CArgs) (s : State) : Host.Outcome State Fault Refusal := s.issue (.ofCopy (.rcinv a))

/-- GLOG (R234): a bundle of this operation alone issues; its slot is `slotGlog`. -/
def execGlog (a : CArgs) (s : State) : Host.Outcome State Fault Refusal := s.issue (.ofCopy (.glog a))

/-- GMRG (R236): a bundle of this operation alone issues; its slot is `slotGmrg`. -/
def execGmrg (a : CArgs) (s : State) : Host.Outcome State Fault Refusal := s.issue (.ofCopy (.gmrg a))

/-- RSTO (R310): a bundle of this operation alone issues; its slot is `slotRsto`. -/
def execRsto (a : CArgs) (s : State) : Host.Outcome State Fault Refusal := s.issue (.ofCopy (.rsto a))

/-- RFAA (R311): a bundle of this operation alone issues; its slot is `slotRfaa`. -/
def execRfaa (a : CArgs) (s : State) : Host.Outcome State Fault Refusal := s.issue (.ofCopy (.rfaa a))

/-- RFEN (R312): a bundle of this operation alone issues; its slot is `slotRfen`. -/
def execRfen (a : CArgs) (s : State) : Host.Outcome State Fault Refusal := s.issue (.ofCopy (.rfen a))

/-- COLL_AR (R316): a bundle of this operation alone issues; its slot is `slotCollAr`. -/
def execCollAr (a : CArgs) (s : State) : Host.Outcome State Fault Refusal := s.issue (.ofCopy (.collAr a))

/-- COLL_AG (R315): a bundle of this operation alone issues; its slot is `slotCollAg`. -/
def execCollAg (a : CArgs) (s : State) : Host.Outcome State Fault Refusal := s.issue (.ofCopy (.collAg a))

/-- COLL_RS (R316): a bundle of this operation alone issues; its slot is `slotCollRs`. -/
def execCollRs (a : CArgs) (s : State) : Host.Outcome State Fault Refusal := s.issue (.ofCopy (.collRs a))

/-- COLL_A2A (R315): a bundle of this operation alone issues; its slot is `slotCollA2a`. -/
def execCollA2a (a : CArgs) (s : State) : Host.Outcome State Fault Refusal := s.issue (.ofCopy (.collA2a a))

/-- MARK (R244): a bundle of this operation alone issues; its slot is `slotMark`. -/
def execMark (a : YArgs) (s : State) : Host.Outcome State Fault Refusal := s.issue (.ofSync (.mark a))

/-- FENCE (R245): a bundle of this operation alone issues; its slot is `slotFence`. -/
def execFence (a : YArgs) (s : State) : Host.Outcome State Fault Refusal := s.issue (.ofSync (.fence a))

/-- ACQ (R250): a bundle of this operation alone issues; its slot is `slotAcq`. -/
def execAcq (a : YArgs) (s : State) : Host.Outcome State Fault Refusal := s.issue (.ofSync (.acq a))

/-- REL (R248): a bundle of this operation alone issues; its slot is `slotRel`. -/
def execRel (a : YArgs) (s : State) : Host.Outcome State Fault Refusal := s.issue (.ofSync (.rel a))

/-- SSTEP (R288): a bundle of this operation alone issues; its slot is `slotSstep`. -/
def execSstep (a : YArgs) (s : State) : Host.Outcome State Fault Refusal := s.issue (.ofSync (.sstep a))

/-- WAITA (R284): a bundle of this operation alone issues; its slot is `slotWaita`. -/
def execWaita (a : YArgs) (s : State) : Host.Outcome State Fault Refusal := s.issue (.ofSync (.waita a))

/-- WAITK (R284): a bundle of this operation alone issues; its slot is `slotWaitk`. -/
def execWaitk (a : YArgs) (s : State) : Host.Outcome State Fault Refusal := s.issue (.ofSync (.waitk a))

end Sys2Proof.Machine
end

