-- ==== Sys2Proof/Machine/ExecScalar.lean ====
section
/-! DEFINITION. The meaning of BUNDLE_ISSUE and of each scalar-slot operation (R41, R86 to R98, R277 to R283, R299). -/

namespace Sys2Proof.Machine

/-- BUNDLE_ISSUE (R41): the bundle of these bits issues. -/
def execBundleIssue (w : BitVec 512) (s : State) : Host.Outcome State Fault Refusal :=
  s.issue (decodeBundle w)

/-- ADD (R87): a bundle of this operation alone issues; its slot is `slotAdd`. -/
def execAdd (a : SR) (s : State) : Host.Outcome State Fault Refusal := s.issue (.ofScalar (.add a))

/-- SUB (R87): a bundle of this operation alone issues; its slot is `slotSub`. -/
def execSub (a : SR) (s : State) : Host.Outcome State Fault Refusal := s.issue (.ofScalar (.sub a))

/-- MUL (R87): a bundle of this operation alone issues; its slot is `slotMul`. -/
def execMul (a : SR) (s : State) : Host.Outcome State Fault Refusal := s.issue (.ofScalar (.mul a))

/-- MULH (R87): a bundle of this operation alone issues; its slot is `slotMulh`. -/
def execMulh (a : SR) (s : State) : Host.Outcome State Fault Refusal := s.issue (.ofScalar (.mulh a))

/-- DIV (R88): a bundle of this operation alone issues; its slot is `slotDiv`. -/
def execDiv (a : SR) (s : State) : Host.Outcome State Fault Refusal := s.issue (.ofScalar (.div a))

/-- REM (R88): a bundle of this operation alone issues; its slot is `slotRem`. -/
def execRem (a : SR) (s : State) : Host.Outcome State Fault Refusal := s.issue (.ofScalar (.rem a))

/-- AND (R87): a bundle of this operation alone issues; its slot is `slotAnd`. -/
def execAnd (a : SR) (s : State) : Host.Outcome State Fault Refusal := s.issue (.ofScalar (.and a))

/-- OR (R87): a bundle of this operation alone issues; its slot is `slotOr`. -/
def execOr (a : SR) (s : State) : Host.Outcome State Fault Refusal := s.issue (.ofScalar (.or a))

/-- XOR (R87): a bundle of this operation alone issues; its slot is `slotXor`. -/
def execXor (a : SR) (s : State) : Host.Outcome State Fault Refusal := s.issue (.ofScalar (.xor a))

/-- SHL (R87): a bundle of this operation alone issues; its slot is `slotShl`. -/
def execShl (a : SR) (s : State) : Host.Outcome State Fault Refusal := s.issue (.ofScalar (.shl a))

/-- SHR (R87): a bundle of this operation alone issues; its slot is `slotShr`. -/
def execShr (a : SR) (s : State) : Host.Outcome State Fault Refusal := s.issue (.ofScalar (.shr a))

/-- SRA (R87): a bundle of this operation alone issues; its slot is `slotSra`. -/
def execSra (a : SR) (s : State) : Host.Outcome State Fault Refusal := s.issue (.ofScalar (.sra a))

/-- MIN (R87): a bundle of this operation alone issues; its slot is `slotMin`. -/
def execMin (a : SR) (s : State) : Host.Outcome State Fault Refusal := s.issue (.ofScalar (.min a))

/-- MAX (R87): a bundle of this operation alone issues; its slot is `slotMax`. -/
def execMax (a : SR) (s : State) : Host.Outcome State Fault Refusal := s.issue (.ofScalar (.max a))

/-- CLZ (R87): a bundle of this operation alone issues; its slot is `slotClz`. -/
def execClz (a : SR) (s : State) : Host.Outcome State Fault Refusal := s.issue (.ofScalar (.clz a))

/-- POPC (R87): a bundle of this operation alone issues; its slot is `slotPopc`. -/
def execPopc (a : SR) (s : State) : Host.Outcome State Fault Refusal := s.issue (.ofScalar (.popc a))

/-- ADDI (R89): a bundle of this operation alone issues; its slot is `slotAddi`. -/
def execAddi (a : SI) (s : State) : Host.Outcome State Fault Refusal := s.issue (.ofScalar (.addi a))

/-- ANDI (R89): a bundle of this operation alone issues; its slot is `slotAndi`. -/
def execAndi (a : SI) (s : State) : Host.Outcome State Fault Refusal := s.issue (.ofScalar (.andi a))

/-- ORI (R89): a bundle of this operation alone issues; its slot is `slotOri`. -/
def execOri (a : SI) (s : State) : Host.Outcome State Fault Refusal := s.issue (.ofScalar (.ori a))

/-- XORI (R89): a bundle of this operation alone issues; its slot is `slotXori`. -/
def execXori (a : SI) (s : State) : Host.Outcome State Fault Refusal := s.issue (.ofScalar (.xori a))

/-- SHLI (R89): a bundle of this operation alone issues; its slot is `slotShli`. -/
def execShli (a : SI) (s : State) : Host.Outcome State Fault Refusal := s.issue (.ofScalar (.shli a))

/-- SHRI (R89): a bundle of this operation alone issues; its slot is `slotShri`. -/
def execShri (a : SI) (s : State) : Host.Outcome State Fault Refusal := s.issue (.ofScalar (.shri a))

/-- SRAI (R89): a bundle of this operation alone issues; its slot is `slotSrai`. -/
def execSrai (a : SI) (s : State) : Host.Outcome State Fault Refusal := s.issue (.ofScalar (.srai a))

/-- LDI (R90): a bundle of this operation alone issues; its slot is `slotLdi`. -/
def execLdi (a : SL) (s : State) : Host.Outcome State Fault Refusal := s.issue (.ofScalar (.ldi a))

/-- LDIH (R90): a bundle of this operation alone issues; its slot is `slotLdih`. -/
def execLdih (a : SL) (s : State) : Host.Outcome State Fault Refusal := s.issue (.ofScalar (.ldih a))

/-- SEL (R92): a bundle of this operation alone issues; its slot is `slotSel`. -/
def execSel (a : SR) (s : State) : Host.Outcome State Fault Refusal := s.issue (.ofScalar (.sel a))

/-- CMP (R91): a bundle of this operation alone issues; its slot is `slotCmp`. -/
def execCmp (a : SR) (s : State) : Host.Outcome State Fault Refusal := s.issue (.ofScalar (.cmp a))

/-- CMPI (R91): a bundle of this operation alone issues; its slot is `slotCmpi`. -/
def execCmpi (a : SI) (s : State) : Host.Outcome State Fault Refusal := s.issue (.ofScalar (.cmpi a))

/-- PAND (R93): a bundle of this operation alone issues; its slot is `slotPand`. -/
def execPand (a : SR) (s : State) : Host.Outcome State Fault Refusal := s.issue (.ofScalar (.pand a))

/-- POR (R93): a bundle of this operation alone issues; its slot is `slotPor`. -/
def execPor (a : SR) (s : State) : Host.Outcome State Fault Refusal := s.issue (.ofScalar (.por a))

/-- PXOR (R93): a bundle of this operation alone issues; its slot is `slotPxor`. -/
def execPxor (a : SR) (s : State) : Host.Outcome State Fault Refusal := s.issue (.ofScalar (.pxor a))

/-- PNOT (R93): a bundle of this operation alone issues; its slot is `slotPnot`. -/
def execPnot (a : SR) (s : State) : Host.Outcome State Fault Refusal := s.issue (.ofScalar (.pnot a))

/-- MOVP_TO_X (R92): a bundle of this operation alone issues; its slot is `slotMovpToX`. -/
def execMovpToX (a : SR) (s : State) : Host.Outcome State Fault Refusal := s.issue (.ofScalar (.movpToX a))

/-- MOVP_TO_P (R92): a bundle of this operation alone issues; its slot is `slotMovpToP`. -/
def execMovpToP (a : SR) (s : State) : Host.Outcome State Fault Refusal := s.issue (.ofScalar (.movpToP a))

/-- BR (R95): a bundle of this operation alone issues; its slot is `slotBr`. -/
def execBr (a : SL) (s : State) : Host.Outcome State Fault Refusal := s.issue (.ofScalar (.br a))

/-- BRC (R95): a bundle of this operation alone issues; its slot is `slotBrc`. -/
def execBrc (a : SI) (s : State) : Host.Outcome State Fault Refusal := s.issue (.ofScalar (.brc a))

/-- CALL (R95): a bundle of this operation alone issues; its slot is `slotCall`. -/
def execCall (a : SL) (s : State) : Host.Outcome State Fault Refusal := s.issue (.ofScalar (.call a))

/-- RET (R95): a bundle of this operation alone issues; its slot is `slotRet`. -/
def execRet (a : SR) (s : State) : Host.Outcome State Fault Refusal := s.issue (.ofScalar (.ret a))

/-- LOOP (R95): a bundle of this operation alone issues; its slot is `slotLoop`. -/
def execLoop (a : SI) (s : State) : Host.Outcome State Fault Refusal := s.issue (.ofScalar (.loop a))

/-- CRR (R97): a bundle of this operation alone issues; its slot is `slotCrr`. -/
def execCrr (a : SI) (s : State) : Host.Outcome State Fault Refusal := s.issue (.ofScalar (.crr a))

/-- CRW (R97): a bundle of this operation alone issues; its slot is `slotCrw`. -/
def execCrw (a : SI) (s : State) : Host.Outcome State Fault Refusal := s.issue (.ofScalar (.crw a))

/-- TRAP (R96): a bundle of this operation alone issues; its slot is `slotTrap`. -/
def execTrap (a : SI) (s : State) : Host.Outcome State Fault Refusal := s.issue (.ofScalar (.trap a))

/-- ERET (R299): a bundle of this operation alone issues; its slot is `slotEret`. -/
def execEret (a : SR) (s : State) : Host.Outcome State Fault Refusal := s.issue (.ofScalar (.eret a))

/-- SPAWN (R278): a bundle of this operation alone issues; its slot is `slotSpawn`. -/
def execSpawn (a : SR) (s : State) : Host.Outcome State Fault Refusal := s.issue (.ofScalar (.spawn a))

/-- SUSP (R282): a bundle of this operation alone issues; its slot is `slotSusp`. -/
def execSusp (a : SR) (s : State) : Host.Outcome State Fault Refusal := s.issue (.ofScalar (.susp a))

/-- EXIT (R280): a bundle of this operation alone issues; its slot is `slotExit`. -/
def execExit (a : SR) (s : State) : Host.Outcome State Fault Refusal := s.issue (.ofScalar (.exit a))

/-- SDRD (R279): a bundle of this operation alone issues; its slot is `slotSdrd`. -/
def execSdrd (a : SR) (s : State) : Host.Outcome State Fault Refusal := s.issue (.ofScalar (.sdrd a))

/-- SDFK (R279): a bundle of this operation alone issues; its slot is `slotSdfk`. -/
def execSdfk (a : SR) (s : State) : Host.Outcome State Fault Refusal := s.issue (.ofScalar (.sdfk a))

/-- WIDR (R281): a bundle of this operation alone issues; its slot is `slotWidr`. -/
def execWidr (a : SI) (s : State) : Host.Outcome State Fault Refusal := s.issue (.ofScalar (.widr a))

end Sys2Proof.Machine
end

