-- ==== Sys2Proof/Machine/ExecVector.lean ====
section
/-! DEFINITION. The meaning of each vector operation (R114 to R141, R199 to R205). -/

namespace Sys2Proof.Machine

/-- VADD (R114): a bundle of this operation alone issues; its slot is `slotVadd`. -/
def execVadd (a : VArgs) (s : State) : Host.Outcome State Fault Refusal := s.issue (.ofVector a.inB (.vadd a))

/-- VSUB (R114): a bundle of this operation alone issues; its slot is `slotVsub`. -/
def execVsub (a : VArgs) (s : State) : Host.Outcome State Fault Refusal := s.issue (.ofVector a.inB (.vsub a))

/-- VMUL (R114): a bundle of this operation alone issues; its slot is `slotVmul`. -/
def execVmul (a : VArgs) (s : State) : Host.Outcome State Fault Refusal := s.issue (.ofVector a.inB (.vmul a))

/-- VFMA (R114): a bundle of this operation alone issues; its slot is `slotVfma`. -/
def execVfma (a : VArgs) (s : State) : Host.Outcome State Fault Refusal := s.issue (.ofVector a.inB (.vfma a))

/-- VFMS (R114): a bundle of this operation alone issues; its slot is `slotVfms`. -/
def execVfms (a : VArgs) (s : State) : Host.Outcome State Fault Refusal := s.issue (.ofVector a.inB (.vfms a))

/-- VMIN (R114): a bundle of this operation alone issues; its slot is `slotVmin`. -/
def execVmin (a : VArgs) (s : State) : Host.Outcome State Fault Refusal := s.issue (.ofVector a.inB (.vmin a))

/-- VMAX (R114): a bundle of this operation alone issues; its slot is `slotVmax`. -/
def execVmax (a : VArgs) (s : State) : Host.Outcome State Fault Refusal := s.issue (.ofVector a.inB (.vmax a))

/-- VABS (R115): a bundle of this operation alone issues; its slot is `slotVabs`. -/
def execVabs (a : VArgs) (s : State) : Host.Outcome State Fault Refusal := s.issue (.ofVector a.inB (.vabs a))

/-- VAND (R115): a bundle of this operation alone issues; its slot is `slotVand`. -/
def execVand (a : VArgs) (s : State) : Host.Outcome State Fault Refusal := s.issue (.ofVector a.inB (.vand a))

/-- VOR (R115): a bundle of this operation alone issues; its slot is `slotVor`. -/
def execVor (a : VArgs) (s : State) : Host.Outcome State Fault Refusal := s.issue (.ofVector a.inB (.vor a))

/-- VXOR (R115): a bundle of this operation alone issues; its slot is `slotVxor`. -/
def execVxor (a : VArgs) (s : State) : Host.Outcome State Fault Refusal := s.issue (.ofVector a.inB (.vxor a))

/-- VSHL (R115): a bundle of this operation alone issues; its slot is `slotVshl`. -/
def execVshl (a : VArgs) (s : State) : Host.Outcome State Fault Refusal := s.issue (.ofVector a.inB (.vshl a))

/-- VSHR (R115): a bundle of this operation alone issues; its slot is `slotVshr`. -/
def execVshr (a : VArgs) (s : State) : Host.Outcome State Fault Refusal := s.issue (.ofVector a.inB (.vshr a))

/-- VCMP (R116): a bundle of this operation alone issues; its slot is `slotVcmp`. -/
def execVcmp (a : VArgs) (s : State) : Host.Outcome State Fault Refusal := s.issue (.ofVector a.inB (.vcmp a))

/-- VSEL (R117): a bundle of this operation alone issues; its slot is `slotVsel`. -/
def execVsel (a : VArgs) (s : State) : Host.Outcome State Fault Refusal := s.issue (.ofVector a.inB (.vsel a))

/-- VMSK_NZ (R118): a bundle of this operation alone issues; its slot is `slotVmskNz`. -/
def execVmskNz (a : VArgs) (s : State) : Host.Outcome State Fault Refusal :=
  s.issue (.ofVector a.inB (.vmskNz a))

/-- VMSK_LD (R118): a bundle of this operation alone issues; its slot is `slotVmskLd`. -/
def execVmskLd (a : VArgs) (s : State) : Host.Outcome State Fault Refusal :=
  s.issue (.ofVector a.inB (.vmskLd a))

/-- VMSK_ST (R118): a bundle of this operation alone issues; its slot is `slotVmskSt`. -/
def execVmskSt (a : VArgs) (s : State) : Host.Outcome State Fault Refusal :=
  s.issue (.ofVector a.inB (.vmskSt a))

/-- VMSK_NOT (R118): a bundle of this operation alone issues; its slot is `slotVmskNot`. -/
def execVmskNot (a : VArgs) (s : State) : Host.Outcome State Fault Refusal :=
  s.issue (.ofVector a.inB (.vmskNot a))

/-- VMSK_AND (R118): a bundle of this operation alone issues; its slot is `slotVmskAnd`. -/
def execVmskAnd (a : VArgs) (s : State) : Host.Outcome State Fault Refusal :=
  s.issue (.ofVector a.inB (.vmskAnd a))

/-- VMSK_OR (R118): a bundle of this operation alone issues; its slot is `slotVmskOr`. -/
def execVmskOr (a : VArgs) (s : State) : Host.Outcome State Fault Refusal :=
  s.issue (.ofVector a.inB (.vmskOr a))

/-- VMSK_ANDN (R118): a bundle of this operation alone issues; its slot is `slotVmskAndn`. -/
def execVmskAndn (a : VArgs) (s : State) : Host.Outcome State Fault Refusal :=
  s.issue (.ofVector a.inB (.vmskAndn a))

/-- VMSK_ALL (R118): a bundle of this operation alone issues; its slot is `slotVmskAll`. -/
def execVmskAll (a : VArgs) (s : State) : Host.Outcome State Fault Refusal :=
  s.issue (.ofVector a.inB (.vmskAll a))

/-- VMOV (R119): a bundle of this operation alone issues; its slot is `slotVmov`. -/
def execVmov (a : VArgs) (s : State) : Host.Outcome State Fault Refusal := s.issue (.ofVector a.inB (.vmov a))

/-- VBCAST (R119): a bundle of this operation alone issues; its slot is `slotVbcast`. -/
def execVbcast (a : VArgs) (s : State) : Host.Outcome State Fault Refusal :=
  s.issue (.ofVector a.inB (.vbcast a))

/-- VTRN (R120): a bundle of this operation alone issues; its slot is `slotVtrn`. -/
def execVtrn (a : VArgs) (s : State) : Host.Outcome State Fault Refusal := s.issue (.ofVector a.inB (.vtrn a))

/-- VPERM_ROW (R121): a bundle of this operation alone issues; its slot is `slotVpermRow`. -/
def execVpermRow (a : VArgs) (s : State) : Host.Outcome State Fault Refusal :=
  s.issue (.ofVector a.inB (.vpermRow a))

/-- VPERM_COL (R121): a bundle of this operation alone issues; its slot is `slotVpermCol`. -/
def execVpermCol (a : VArgs) (s : State) : Host.Outcome State Fault Refusal :=
  s.issue (.ofVector a.inB (.vpermCol a))

/-- POP (R122): a bundle of this operation alone issues; its slot is `slotPop`. -/
def execPop (a : VArgs) (s : State) : Host.Outcome State Fault Refusal := s.issue (.ofVector a.inB (.pop a))

/-- VCVT (R123): a bundle of this operation alone issues; its slot is `slotVcvt`. -/
def execVcvt (a : VArgs) (s : State) : Host.Outcome State Fault Refusal := s.issue (.ofVector a.inB (.vcvt a))

/-- QNT (R124): a bundle of this operation alone issues; its slot is `slotQnt`. -/
def execQnt (a : VArgs) (s : State) : Host.Outcome State Fault Refusal := s.issue (.ofVector a.inB (.qnt a))

/-- DQNT (R125): a bundle of this operation alone issues; its slot is `slotDqnt`. -/
def execDqnt (a : VArgs) (s : State) : Host.Outcome State Fault Refusal := s.issue (.ofVector a.inB (.dqnt a))

/-- VSHP (R126): a bundle of this operation alone issues; its slot is `slotVshp`. -/
def execVshp (a : VArgs) (s : State) : Host.Outcome State Fault Refusal := s.issue (.ofVector a.inB (.vshp a))

/-- VRSUM (R137): a bundle of this operation alone issues; its slot is `slotVrsum`. -/
def execVrsum (a : VArgs) (s : State) : Host.Outcome State Fault Refusal :=
  s.issue (.ofVector a.inB (.vrsum a))

/-- VCSUM (R137): a bundle of this operation alone issues; its slot is `slotVcsum`. -/
def execVcsum (a : VArgs) (s : State) : Host.Outcome State Fault Refusal :=
  s.issue (.ofVector a.inB (.vcsum a))

/-- VRMAX (R137): a bundle of this operation alone issues; its slot is `slotVrmax`. -/
def execVrmax (a : VArgs) (s : State) : Host.Outcome State Fault Refusal :=
  s.issue (.ofVector a.inB (.vrmax a))

/-- VCMAX (R137): a bundle of this operation alone issues; its slot is `slotVcmax`. -/
def execVcmax (a : VArgs) (s : State) : Host.Outcome State Fault Refusal :=
  s.issue (.ofVector a.inB (.vcmax a))

/-- VRMIN (R137): a bundle of this operation alone issues; its slot is `slotVrmin`. -/
def execVrmin (a : VArgs) (s : State) : Host.Outcome State Fault Refusal :=
  s.issue (.ofVector a.inB (.vrmin a))

/-- VCMIN (R137): a bundle of this operation alone issues; its slot is `slotVcmin`. -/
def execVcmin (a : VArgs) (s : State) : Host.Outcome State Fault Refusal :=
  s.issue (.ofVector a.inB (.vcmin a))

/-- VEMAX (R138): a bundle of this operation alone issues; its slot is `slotVemax`. -/
def execVemax (a : VArgs) (s : State) : Host.Outcome State Fault Refusal :=
  s.issue (.ofVector a.inB (.vemax a))

/-- VEXPS (R139): a bundle of this operation alone issues; its slot is `slotVexps`. -/
def execVexps (a : VArgs) (s : State) : Host.Outcome State Fault Refusal :=
  s.issue (.ofVector a.inB (.vexps a))

/-- VRESC (R140): a bundle of this operation alone issues; its slot is `slotVresc`. -/
def execVresc (a : VArgs) (s : State) : Host.Outcome State Fault Refusal :=
  s.issue (.ofVector a.inB (.vresc a))

/-- VRMS (R141): a bundle of this operation alone issues; its slot is `slotVrms`. -/
def execVrms (a : VArgs) (s : State) : Host.Outcome State Fault Refusal := s.issue (.ofVector a.inB (.vrms a))

/-- SFEV (R131): a bundle of this operation alone issues; its slot is `slotSfev`. -/
def execSfev (a : VArgs) (s : State) : Host.Outcome State Fault Refusal := s.issue (.ofVector a.inB (.sfev a))

/-- SFLD (R129): a bundle of this operation alone issues; its slot is `slotSfld`. -/
def execSfld (a : VArgs) (s : State) : Host.Outcome State Fault Refusal := s.issue (.ofVector a.inB (.sfld a))

/-- RNRW (R200): a bundle of this operation alone issues; its slot is `slotRnrw`. -/
def execRnrw (a : VArgs) (s : State) : Host.Outcome State Fault Refusal := s.issue (.ofVector a.inB (.rnrw a))

/-- UNRW (R200): a bundle of this operation alone issues; its slot is `slotUnrw`. -/
def execUnrw (a : VArgs) (s : State) : Host.Outcome State Fault Refusal := s.issue (.ofVector a.inB (.unrw a))

/-- RMULQ (R201): a bundle of this operation alone issues; its slot is `slotRmulq`. -/
def execRmulq (a : VArgs) (s : State) : Host.Outcome State Fault Refusal :=
  s.issue (.ofVector a.inB (.rmulq a))

/-- UMULQ (R201): a bundle of this operation alone issues; its slot is `slotUmulq`. -/
def execUmulq (a : VArgs) (s : State) : Host.Outcome State Fault Refusal :=
  s.issue (.ofVector a.inB (.umulq a))

/-- RADDC (R202): a bundle of this operation alone issues; its slot is `slotRaddc`. -/
def execRaddc (a : VArgs) (s : State) : Host.Outcome State Fault Refusal :=
  s.issue (.ofVector a.inB (.raddc a))

/-- UADDC (R202): a bundle of this operation alone issues; its slot is `slotUaddc`. -/
def execUaddc (a : VArgs) (s : State) : Host.Outcome State Fault Refusal :=
  s.issue (.ofVector a.inB (.uaddc a))

/-- RLRLU (R203): a bundle of this operation alone issues; its slot is `slotRlrlu`. -/
def execRlrlu (a : VArgs) (s : State) : Host.Outcome State Fault Refusal :=
  s.issue (.ofVector a.inB (.rlrlu a))

/-- ULRLU (R203): a bundle of this operation alone issues; its slot is `slotUlrlu`. -/
def execUlrlu (a : VArgs) (s : State) : Host.Outcome State Fault Refusal :=
  s.issue (.ofVector a.inB (.ulrlu a))

/-- RSCL (R203): a bundle of this operation alone issues; its slot is `slotRscl`. -/
def execRscl (a : VArgs) (s : State) : Host.Outcome State Fault Refusal := s.issue (.ofVector a.inB (.rscl a))

/-- USCL (R203): a bundle of this operation alone issues; its slot is `slotUscl`. -/
def execUscl (a : VArgs) (s : State) : Host.Outcome State Fault Refusal := s.issue (.ofVector a.inB (.uscl a))

/-- RSKMK (R204): a bundle of this operation alone issues; its slot is `slotRskmk`. -/
def execRskmk (a : VArgs) (s : State) : Host.Outcome State Fault Refusal :=
  s.issue (.ofVector a.inB (.rskmk a))

/-- RSKCK (R204): a bundle of this operation alone issues; its slot is `slotRskck`. -/
def execRskck (a : VArgs) (s : State) : Host.Outcome State Fault Refusal :=
  s.issue (.ofVector a.inB (.rskck a))

/-- RSKSP (R205): a bundle of this operation alone issues; its slot is `slotRsksp`. -/
def execRsksp (a : VArgs) (s : State) : Host.Outcome State Fault Refusal :=
  s.issue (.ofVector a.inB (.rsksp a))

/-- RSKFL (R205): a bundle of this operation alone issues; its slot is `slotRskfl`. -/
def execRskfl (a : VArgs) (s : State) : Host.Outcome State Fault Refusal :=
  s.issue (.ofVector a.inB (.rskfl a))

end Sys2Proof.Machine
end

