-- ==== Sys2Proof/Machine/Dispatch.lean ====
section
/-! DEFINITION. The meaning of every operation and event, one arm each. -/

namespace Sys2Proof.Machine

open Sys2Proof

/-- What an operation or event does. -/
def exec (i : Instr) (s : State) : Host.Outcome State Fault Refusal :=
  match i with
  | .bundleIssue w => Sys2Proof.Machine.execBundleIssue w s
  | .add a => Sys2Proof.Machine.execAdd a s
  | .sub a => Sys2Proof.Machine.execSub a s
  | .mul a => Sys2Proof.Machine.execMul a s
  | .mulh a => Sys2Proof.Machine.execMulh a s
  | .div a => Sys2Proof.Machine.execDiv a s
  | .rem a => Sys2Proof.Machine.execRem a s
  | .and a => Sys2Proof.Machine.execAnd a s
  | .or a => Sys2Proof.Machine.execOr a s
  | .xor a => Sys2Proof.Machine.execXor a s
  | .shl a => Sys2Proof.Machine.execShl a s
  | .shr a => Sys2Proof.Machine.execShr a s
  | .sra a => Sys2Proof.Machine.execSra a s
  | .min a => Sys2Proof.Machine.execMin a s
  | .max a => Sys2Proof.Machine.execMax a s
  | .clz a => Sys2Proof.Machine.execClz a s
  | .popc a => Sys2Proof.Machine.execPopc a s
  | .addi a => Sys2Proof.Machine.execAddi a s
  | .andi a => Sys2Proof.Machine.execAndi a s
  | .ori a => Sys2Proof.Machine.execOri a s
  | .xori a => Sys2Proof.Machine.execXori a s
  | .shli a => Sys2Proof.Machine.execShli a s
  | .shri a => Sys2Proof.Machine.execShri a s
  | .srai a => Sys2Proof.Machine.execSrai a s
  | .ldi a => Sys2Proof.Machine.execLdi a s
  | .ldih a => Sys2Proof.Machine.execLdih a s
  | .sel a => Sys2Proof.Machine.execSel a s
  | .cmp a => Sys2Proof.Machine.execCmp a s
  | .cmpi a => Sys2Proof.Machine.execCmpi a s
  | .pand a => Sys2Proof.Machine.execPand a s
  | .por a => Sys2Proof.Machine.execPor a s
  | .pxor a => Sys2Proof.Machine.execPxor a s
  | .pnot a => Sys2Proof.Machine.execPnot a s
  | .movpToX a => Sys2Proof.Machine.execMovpToX a s
  | .movpToP a => Sys2Proof.Machine.execMovpToP a s
  | .br a => Sys2Proof.Machine.execBr a s
  | .brc a => Sys2Proof.Machine.execBrc a s
  | .call a => Sys2Proof.Machine.execCall a s
  | .ret a => Sys2Proof.Machine.execRet a s
  | .loop a => Sys2Proof.Machine.execLoop a s
  | .crr a => Sys2Proof.Machine.execCrr a s
  | .crw a => Sys2Proof.Machine.execCrw a s
  | .trap a => Sys2Proof.Machine.execTrap a s
  | .eret a => Sys2Proof.Machine.execEret a s
  | .spawn a => Sys2Proof.Machine.execSpawn a s
  | .susp a => Sys2Proof.Machine.execSusp a s
  | .exit a => Sys2Proof.Machine.execExit a s
  | .sdrd a => Sys2Proof.Machine.execSdrd a s
  | .sdfk a => Sys2Proof.Machine.execSdfk a s
  | .widr a => Sys2Proof.Machine.execWidr a s
  | .vadd a => Sys2Proof.Machine.execVadd a s
  | .vsub a => Sys2Proof.Machine.execVsub a s
  | .vmul a => Sys2Proof.Machine.execVmul a s
  | .vfma a => Sys2Proof.Machine.execVfma a s
  | .vfms a => Sys2Proof.Machine.execVfms a s
  | .vmin a => Sys2Proof.Machine.execVmin a s
  | .vmax a => Sys2Proof.Machine.execVmax a s
  | .vabs a => Sys2Proof.Machine.execVabs a s
  | .vand a => Sys2Proof.Machine.execVand a s
  | .vor a => Sys2Proof.Machine.execVor a s
  | .vxor a => Sys2Proof.Machine.execVxor a s
  | .vshl a => Sys2Proof.Machine.execVshl a s
  | .vshr a => Sys2Proof.Machine.execVshr a s
  | .vcmp a => Sys2Proof.Machine.execVcmp a s
  | .vsel a => Sys2Proof.Machine.execVsel a s
  | .vmskNz a => Sys2Proof.Machine.execVmskNz a s
  | .vmskLd a => Sys2Proof.Machine.execVmskLd a s
  | .vmskSt a => Sys2Proof.Machine.execVmskSt a s
  | .vmskNot a => Sys2Proof.Machine.execVmskNot a s
  | .vmskAnd a => Sys2Proof.Machine.execVmskAnd a s
  | .vmskOr a => Sys2Proof.Machine.execVmskOr a s
  | .vmskAndn a => Sys2Proof.Machine.execVmskAndn a s
  | .vmskAll a => Sys2Proof.Machine.execVmskAll a s
  | .vmov a => Sys2Proof.Machine.execVmov a s
  | .vbcast a => Sys2Proof.Machine.execVbcast a s
  | .vtrn a => Sys2Proof.Machine.execVtrn a s
  | .vpermRow a => Sys2Proof.Machine.execVpermRow a s
  | .vpermCol a => Sys2Proof.Machine.execVpermCol a s
  | .pop a => Sys2Proof.Machine.execPop a s
  | .vcvt a => Sys2Proof.Machine.execVcvt a s
  | .qnt a => Sys2Proof.Machine.execQnt a s
  | .dqnt a => Sys2Proof.Machine.execDqnt a s
  | .vshp a => Sys2Proof.Machine.execVshp a s
  | .vrsum a => Sys2Proof.Machine.execVrsum a s
  | .vcsum a => Sys2Proof.Machine.execVcsum a s
  | .vrmax a => Sys2Proof.Machine.execVrmax a s
  | .vcmax a => Sys2Proof.Machine.execVcmax a s
  | .vrmin a => Sys2Proof.Machine.execVrmin a s
  | .vcmin a => Sys2Proof.Machine.execVcmin a s
  | .vemax a => Sys2Proof.Machine.execVemax a s
  | .vexps a => Sys2Proof.Machine.execVexps a s
  | .vresc a => Sys2Proof.Machine.execVresc a s
  | .vrms a => Sys2Proof.Machine.execVrms a s
  | .sfev a => Sys2Proof.Machine.execSfev a s
  | .sfld a => Sys2Proof.Machine.execSfld a s
  | .sfevLand => Sys2Proof.Machine.execSfevLand s
  | .rnrw a => Sys2Proof.Machine.execRnrw a s
  | .unrw a => Sys2Proof.Machine.execUnrw a s
  | .rmulq a => Sys2Proof.Machine.execRmulq a s
  | .umulq a => Sys2Proof.Machine.execUmulq a s
  | .raddc a => Sys2Proof.Machine.execRaddc a s
  | .uaddc a => Sys2Proof.Machine.execUaddc a s
  | .rlrlu a => Sys2Proof.Machine.execRlrlu a s
  | .ulrlu a => Sys2Proof.Machine.execUlrlu a s
  | .rscl a => Sys2Proof.Machine.execRscl a s
  | .uscl a => Sys2Proof.Machine.execUscl a s
  | .rskmk a => Sys2Proof.Machine.execRskmk a s
  | .rskck a => Sys2Proof.Machine.execRskck a s
  | .rsksp a => Sys2Proof.Machine.execRsksp a s
  | .rskfl a => Sys2Proof.Machine.execRskfl a s
  | .rskSpill => Sys2Proof.Machine.execRskSpill s
  | .rskFill => Sys2Proof.Machine.execRskFill s
  | .mmaBf16 a => Sys2Proof.Machine.execMmaBf16 a s
  | .mmaFp16 a => Sys2Proof.Machine.execMmaFp16 a s
  | .mmaE4m3 a => Sys2Proof.Machine.execMmaE4m3 a s
  | .mmaE5m2 a => Sys2Proof.Machine.execMmaE5m2 a s
  | .mmaE2m3 a => Sys2Proof.Machine.execMmaE2m3 a s
  | .mmaE3m2 a => Sys2Proof.Machine.execMmaE3m2 a s
  | .mmaE2m1 a => Sys2Proof.Machine.execMmaE2m1 a s
  | .mmaQ4x a => Sys2Proof.Machine.execMmaQ4x a s
  | .mmag a => Sys2Proof.Machine.execMmag a s
  | .sacc a => Sys2Proof.Machine.execSacc a s
  | .mzero a => Sys2Proof.Machine.execMzero a s
  | .mwld a => Sys2Proof.Machine.execMwld a s
  | .mcfg a => Sys2Proof.Machine.execMcfg a s
  | .mdrn a => Sys2Proof.Machine.execMdrn a s
  | .mchk a => Sys2Proof.Machine.execMchk a s
  | .mrecomp a => Sys2Proof.Machine.execMrecomp a s
  | .mlatLoad a => Sys2Proof.Machine.execMlatLoad a s
  | .mlatExpand a => Sys2Proof.Machine.execMlatExpand a s
  | .mlatAbsorb a => Sys2Proof.Machine.execMlatAbsorb a s
  | .matrixStart => Sys2Proof.Machine.execMatrixStart s
  | .matrixKstep => Sys2Proof.Machine.execMatrixKstep s
  | .matrixComplete => Sys2Proof.Machine.execMatrixComplete s
  | .wstreamSector wb => Sys2Proof.Machine.execWstreamSector wb s
  | .ld a => Sys2Proof.Machine.execLd a s
  | .st a => Sys2Proof.Machine.execSt a s
  | .aadd a => Sys2Proof.Machine.execAadd a s
  | .acas a => Sys2Proof.Machine.execAcas a s
  | .axch a => Sys2Proof.Machine.execAxch a s
  | .amax a => Sys2Proof.Machine.execAmax a s
  | .amin a => Sys2Proof.Machine.execAmin a s
  | .tld a => Sys2Proof.Machine.execTld a s
  | .tst a => Sys2Proof.Machine.execTst a s
  | .gld a => Sys2Proof.Machine.execGld a s
  | .tsts a => Sys2Proof.Machine.execTsts a s
  | .tagl a => Sys2Proof.Machine.execTagl a s
  | .tags a => Sys2Proof.Machine.execTags a s
  | .tagi a => Sys2Proof.Machine.execTagi a s
  | .tagiA a => Sys2Proof.Machine.execTagiA a s
  | .aset a => Sys2Proof.Machine.execAset a s
  | .ainc a => Sys2Proof.Machine.execAinc a s
  | .amod a => Sys2Proof.Machine.execAmod a s
  | .abrev a => Sys2Proof.Machine.execAbrev a s
  | .astp a => Sys2Proof.Machine.execAstp a s
  | .alen a => Sys2Proof.Machine.execAlen a s
  | .aget a => Sys2Proof.Machine.execAget a s
  | .aclr a => Sys2Proof.Machine.execAclr a s
  | .storePerform n status => Sys2Proof.Machine.execStorePerform n status s
  | .cpy a => Sys2Proof.Machine.execCpy a s
  | .cpyf a follow => Sys2Proof.Machine.execCpyf a follow s
  | .pfh a => Sys2Proof.Machine.execPfh a s
  | .rcinv a => Sys2Proof.Machine.execRcinv a s
  | .glog a => Sys2Proof.Machine.execGlog a s
  | .gmrg a => Sys2Proof.Machine.execGmrg a s
  | .copyStart e => Sys2Proof.Machine.execCopyStart e s
  | .copySector e => Sys2Proof.Machine.execCopySector e s
  | .copyComplete e => Sys2Proof.Machine.execCopyComplete e s
  | .followonEnter => Sys2Proof.Machine.execFollowonEnter s
  | .valleyFold => Sys2Proof.Machine.execValleyFold s
  | .rsto a => Sys2Proof.Machine.execRsto a s
  | .rfaa a => Sys2Proof.Machine.execRfaa a s
  | .rfen a => Sys2Proof.Machine.execRfen a s
  | .collAr a => Sys2Proof.Machine.execCollAr a s
  | .collAg a => Sys2Proof.Machine.execCollAg a s
  | .collRs a => Sys2Proof.Machine.execCollRs a s
  | .collA2a a => Sys2Proof.Machine.execCollA2a a s
  | .collComplete got => Sys2Proof.Machine.execCollComplete got s
  | .mark a => Sys2Proof.Machine.execMark a s
  | .fence a => Sys2Proof.Machine.execFence a s
  | .acq a => Sys2Proof.Machine.execAcq a s
  | .rel a => Sys2Proof.Machine.execRel a s
  | .sstep a => Sys2Proof.Machine.execSstep a s
  | .waita a => Sys2Proof.Machine.execWaita a s
  | .waitk a => Sys2Proof.Machine.execWaitk a s
  | .waitaTimeout => Sys2Proof.Machine.execWaitaTimeout s
  | .monitorFire n => Sys2Proof.Machine.execMonitorFire n s
  | .waitTimeDue spar => Sys2Proof.Machine.execWaitTimeDue spar s
  | .pageWalk ctx va acc => Sys2Proof.Machine.execPageWalk ctx va acc s
  | .l2ReadMiss pa ch cmp => Sys2Proof.Machine.execL2ReadMiss pa ch cmp s
  | .mcWindowExpire sector => Sys2Proof.Machine.execMcWindowExpire sector s
  | .hbmHalfWidth chan => Sys2Proof.Machine.execHbmHalfWidth chan s
  | .mntFlush => Sys2Proof.Machine.execMntFlush s
  | .mntShoot => Sys2Proof.Machine.execMntShoot s
  | .mntDone => Sys2Proof.Machine.execMntDone s
  | .arbiterChoose => Sys2Proof.Machine.execArbiterChoose s
  | .sparEntry => Sys2Proof.Machine.execSparEntry s
  | .sparResume => Sys2Proof.Machine.execSparResume s
  | .yieldWriteback => Sys2Proof.Machine.execYieldWriteback s
  | .checkpoint => Sys2Proof.Machine.execCheckpoint s
  | .kill => Sys2Proof.Machine.execKill s
  | .faultStop => Sys2Proof.Machine.execFaultStop s
  | .lanePost p => Sys2Proof.Machine.execLanePost p s
  | .exchangeBegin launch => Sys2Proof.Machine.execExchangeBegin launch s
  | .exchangeEnd launch => Sys2Proof.Machine.execExchangeEnd launch s
  | .exbudExpire launch => Sys2Proof.Machine.execExbudExpire launch s
  | .laneEnable v => Sys2Proof.Machine.execLaneEnable v s
  | .launchPacket => Sys2Proof.Machine.execLaunchPacket s
  | .seedPush => Sys2Proof.Machine.execSeedPush s
  | .seedPop => Sys2Proof.Machine.execSeedPop s
  | .seedFork => Sys2Proof.Machine.execSeedFork s
  | .prefetchHint => Sys2Proof.Machine.execPrefetchHint s
  | .energyBudget => Sys2Proof.Machine.execEnergyBudget s
  | .evictionScheduleLoad => Sys2Proof.Machine.execEvictionScheduleLoad s
  | .fencePacket => Sys2Proof.Machine.execFencePacket s
  | .fencePost n => Sys2Proof.Machine.execFencePost n s
  | .portAccept => Sys2Proof.Machine.execPortAccept s
  | .hostEnable v => Sys2Proof.Machine.execHostEnable v s
  | .hostDisable v => Sys2Proof.Machine.execHostDisable v s
  | .hostWindowAccess hpa write bytes => Sys2Proof.Machine.execHostWindowAccess hpa write bytes s
  | .hostWindowClose => Sys2Proof.Machine.execHostWindowClose s
  | .hostSnoop addr bytes => Sys2Proof.Machine.execHostSnoop addr bytes s
  | .flitReceive link flit => Sys2Proof.Machine.execFlitReceive link flit s
  | .laneFault link lane => Sys2Proof.Machine.execLaneFault link lane s
  | .retrainDone link peerFaults peerAck => Sys2Proof.Machine.execRetrainDone link peerFaults peerAck s
  | .linkEnable v => Sys2Proof.Machine.execLinkEnable v s
  | .routeSend n => Sys2Proof.Machine.execRouteSend n s
  | .pairReceive src psn t => Sys2Proof.Machine.execPairReceive src psn t s
  | .pairAck dst psn status old => Sys2Proof.Machine.execPairAck dst psn status old s
  | .pairResendTimeout dst => Sys2Proof.Machine.execPairResendTimeout dst s
  | .rfenPerform src => Sys2Proof.Machine.execRfenPerform src s
  | .collPeerTimeout rank => Sys2Proof.Machine.execCollPeerTimeout rank s
  | .deviceReset => Sys2Proof.Machine.execDeviceReset s
  | .bootStage r => Sys2Proof.Machine.execBootStage r s
  | .watchdogExpire => Sys2Proof.Machine.execWatchdogExpire s
  | .recoveryImage image => Sys2Proof.Machine.execRecoveryImage image s
  | .attRequest v => Sys2Proof.Machine.execAttRequest v s
  | .attDone => Sys2Proof.Machine.execAttDone s
  | .powerRequest v => Sys2Proof.Machine.execPowerRequest v s
  | .p2Wake => Sys2Proof.Machine.execP2Wake s
  | .thermalTrip degC => Sys2Proof.Machine.execThermalTrip degC s
  | .debugToken dbg token => Sys2Proof.Machine.execDebugToken dbg token s
  | .thinjWrite v => Sys2Proof.Machine.execThinjWrite v s
  | .farordFinalise image => Sys2Proof.Machine.execFarordFinalise image s
  | .imageLoad image place => Sys2Proof.Machine.execImageLoad image place s
  | .kernelUnload n => Sys2Proof.Machine.execKernelUnload n s
  | .registerWrite r v => Sys2Proof.Machine.execRegisterWrite r v s
  | .linkManagementReset link => Sys2Proof.Machine.execLinkManagementReset link s
  | .hbmRefreshScrub chan errs row bad => Sys2Proof.Machine.execHbmRefreshScrub chan errs row bad s
  | .lifecycleFuseAdvance lc => Sys2Proof.Machine.execLifecycleFuseAdvance lc s
  | .minimalModePacket => Sys2Proof.Machine.execMinimalModePacket s
  | .recoveryRequest => Sys2Proof.Machine.execRecoveryRequest s
  | .partcfgWrite v => Sys2Proof.Machine.execPartcfgWrite v s

end Sys2Proof.Machine
end

