-- ==== Sys2Proof/WellFormed.lean ====
section
/-! DEFINITION. Well-formed instructions: the fields that choose a constructor agree with it, and its bundle meets none
of the conditions of R40 that the bits alone decide. An event carries no words and is well formed. -/

namespace Sys2Proof

/-- Do the fields that tell operations of one opcode apart, and the slot, agree with the constructor (R26, R37 to R39). -/
def chosen : Instr → Bool
  | .movpToX a => !a.fn.getLsbD 0
  | .movpToP a => a.fn.getLsbD 0
  | .vpermRow a => !a.o3.idx.getLsbD 0
  | .vpermCol a => a.o3.idx.getLsbD 0
  | .vmskNz a => decide (a.o3.idx.extractLsb' 0 3 = 0)
  | .vmskLd a => decide (a.o3.idx.extractLsb' 0 3 = 1)
  | .vmskSt a => decide (a.o3.idx.extractLsb' 0 3 = 2)
  | .vmskNot a => decide (a.o3.idx.extractLsb' 0 3 = 3)
  | .vmskAnd a => decide (a.o3.idx.extractLsb' 0 3 = 4)
  | .vmskOr a => decide (a.o3.idx.extractLsb' 0 3 = 5)
  | .vmskAndn a => decide (a.o3.idx.extractLsb' 0 3 = 6)
  | .vmskAll a => decide (a.o3.idx.extractLsb' 0 3 = 7)
  | .sfev a | .sfld a => a.inB
  | .rnrw a | .unrw a | .rmulq a | .umulq a | .raddc a | .uaddc a | .rlrlu a | .ulrlu a | .rscl a | .uscl a | .rskmk a
  | .rskck a | .rsksp a | .rskfl a => !a.inB
  | .mlatExpand a => decide (a.mctl.extractLsb' 0 2 = 0)
  | .mlatAbsorb a => decide (a.mctl.extractLsb' 0 2 = 1)
  | .mlatLoad a => decide (a.mctl.extractLsb' 0 2 = 2)
  | .ld a | .tld a | .gld a | .tagl a | .aadd a | .acas a | .axch a | .amax a | .amin a => !a.inStore
  | .st a | .tst a | .tsts a | .tags a => a.inStore
  | .tagi a => a.inStore && !a.mode.getLsbD 0
  | .tagiA a => a.inStore && a.mode.getLsbD 0
  | .collAr a => decide (a.xfm.extractLsb' 0 2 = 0)
  | .collAg a => decide (a.xfm.extractLsb' 0 2 = 1)
  | .collRs a => decide (a.xfm.extractLsb' 0 2 = 2)
  | .collA2a a => decide (a.xfm.extractLsb' 0 2 = 3)
  | .bundleIssue w => decide (decodeWord w = .bundleIssue w)
  | _ => true

/-- Does an instruction stand in a bundle: a slot's operation, or BUNDLE_ISSUE. -/
def inBundle (i : Instr) : Bool :=
  match i with
  | .bundleIssue _ => true
  | i => (encodeScalar i).isSome || (encodeVector i).isSome || (encodeMatrix i).isSome || (encodeLoadStore i).isSome ||
      (encodeCopy i).isSome || (encodeSync i).isSome

/-- Well-formedness, computed. -/
def wellFormed (i : Instr) : Bool :=
  !inBundle i || (chosen i && (Machine.illegalWith (decodeBundle (encode i)) (fun _ => false)).isNone)

/-- A well-formed instruction. -/
abbrev WellFormed (i : Instr) : Prop := wellFormed i = true

end Sys2Proof
end

