-- ==== Sys2Proof/Machine/Agents.lean ====
section
/-! DEFINITION. Who may move next: the fetch of a bundle, the device's own events that are enabled, and the inputs from
outside (R41, R42, R264, R333; log 1). -/

namespace Sys2Proof.Machine

/-! ### Fetch (R42, R94) -/

/-- The pieces of the 64 bytes at the PC, translated for fetch in the context. -/
def State.fetchPieces (s : State) : Chk (List (Target × Nat)) :=
  resolve s s.runOf.ctx s.runOf.sys .fetch ((s.core.pc.extractLsb' 0 57).setWidth 64) 64

/-- The 64 bytes at the PC. -/
def State.fetchBytes (s : State) : Chk (List Byte) := do
  let ts ← s.fetchPieces
  .ok (s.loadPieces ts)

/-- What fetching the bundle at the PC does beside: a read of its sector (R255, R256, R319, R321). -/
def State.fetchDone (s : State) : State :=
  match s.fetchPieces with
  | .ok ts => s.readDone 0 s.core.pc ts
  | .error _ => s

/-- The stop of a core whose bundle cannot be fetched: a fault with the bundle's address as PC, against the other causes
of the boundary (R42, R352). -/
def State.fetchFault (s : State) (t : TrapInfo) : State :=
  (s.landDue.boundary [{ t with pc := s.core.pc }]).getD s

/-- The core fetches and issues the bundle at its PC. -/
def State.runBundle (s : State) : Host.Outcome State Fault Refusal :=
  match s.fetchBytes with
  | .error t => .next (s.fetchFault t)
  | .ok bs =>
    match decode bs with
    | .ok (i, _) => exec i s.fetchDone
    | .error _ => .fault .notABundle

/-! ### Agents -/

/-- One move: the first input, an event on a core, or the issue of a core's next bundle. -/
inductive Agent where
  | input (i : Instr)
  | event (core : Nat) (i : Instr)
  | bundle (core : Nat)
  deriving DecidableEq, Repr

/-- The events of one core that the core itself may bring about. -/
def Core.events (k : Core) : List Instr :=
  [.sfevLand, .rskSpill, .rskFill, .matrixStart, .matrixKstep, .matrixComplete, .wstreamSector false, .wstreamSector true,
   .followonEnter, .valleyFold, .waitaTimeout, .sparEntry, .sparResume, .yieldWriteback, .checkpoint, .kill, .faultStop,
   .lanePost false, .lanePost true]
  ++ (List.range k.storeQ.length).map (fun n => .storePerform n 0)
  ++ (List.range 4).flatMap (fun e =>
    if (k.engines.toList.getD e []).isEmpty then [] else [.copyStart e, .copySector e, .copyComplete e])
  ++ (if k.fabric.isEmpty then [] else [.routeSend 0])

/-- Has a core nothing of its own to do. -/
def Core.asleep (k : Core) : Bool :=
  decide (k.phase = .idle) && k.storeQ.isEmpty && k.lanesUnposted.isEmpty && k.engines.toList.all (·.isEmpty)
    && k.fabric.isEmpty && k.gmrg.isEmpty

/-- Is there a spar that some core might pick. -/
def State.hasReady (s : State) : Bool :=
  !s.sched.ready.isEmpty ||
    s.sched.launches.any (fun e => !e.2.ended && !e.2.finished && (e.2.nextFor (fun _ => true)).isSome)

/-- The moves of the core that moves. -/
def State.coreAgents (s : State) : List Agent :=
  let k := s.core
  let own := if k.asleep then [] else (k.events.filter (enabled s)).map (Agent.event k.num)
  let pick := if s.hasReady && enabled s .arbiterChoose then [.event k.num .arbiterChoose] else []
  let bundle := if s.canIssue then [.bundle k.num] else []
  own ++ pick ++ bundle

/-- The events of the device that no core brings about. -/
def State.deviceEvents (s : State) : List Instr :=
  s.mem.windows.map (fun w => .mcWindowExpire w.1)
  ++ [.mntDone, .launchPacket, .seedPush, .seedPop, .seedFork, .prefetchHint, .energyBudget, .evictionScheduleLoad,
      .fencePacket, .portAccept, .attDone, .minimalModePacket, .bootStage .done]
  ++ (List.range s.sched.monitors.length).map .monitorFire
  ++ (List.range s.sched.waiting.length).map .waitTimeDue
  ++ s.sched.launches.flatMap (fun e => [.exchangeBegin e.1, .exchangeEnd e.1, .exbudExpire e.1])
  ++ (List.range s.host.fences.length).map .fencePost
  ++ (List.range (max s.fabric.out.length (if s.fabric.transit.isEmpty && s.fabric.ackOut.isEmpty then 0 else 1))).map .routeSend
  ++ s.fabric.flags.map (fun f => .rfenPerform (BitVec.ofNat 16 f.1))
  ++ (if s.sched.ready.isEmpty then [] else [.p2Wake])

/-- Every move that the state allows. -/
def State.agents (s : State) : List Agent :=
  (s.inputs.take 1).map .input
  ++ (s.deviceEvents.filter (enabled s)).map (.event s.core.num)
  ++ (s.allCoresList.filter (fun k => !k.asleep || s.hasReady)).flatMap (fun k => (s.swapTo k.num).coreAgents)

/-- The move taken: the only one, or one that a free value picks among several (log 1). -/
def State.chosen (s : State) : Option Agent :=
  match s.agents with
  | [] => none
  | [a] => some a
  | a :: as => some ((a :: as).getD (Config.pick s.tick % (as.length + 1)) a)

/-- Is an operation something the outside world or a free agent of the device asks for: any event. -/
def isEvent (i : Instr) : Bool := !inBundle i

/-- The first input taken: its effect, or nothing where it cannot happen. -/
def State.takeInput (s : State) (i : Instr) : Host.Outcome State Fault Refusal :=
  let s1 := { s with inputs := s.inputs.drop 1 }.ticked
  if isEvent i then exec i s1 else .next s1

/-- One agent moves. -/
def State.move (s : State) (a : Agent) : Host.Outcome State Fault Refusal :=
  match a with
  | .input i => s.takeInput i
  | .event n i => exec i ((s.swapTo n).ticked)
  | .bundle n => (s.swapTo n).runBundle

end Sys2Proof.Machine
end

