-- ==== Sys2Proof/Machine/Step.lean ====
section
/-! DEFINITION. One step of the device, and how a program is placed to be run. -/

namespace Sys2Proof.Machine

/-- One agent of the device moves; where none can, time passes. -/
def step (s : State) : Host.Outcome State Fault Refusal :=
  match s.chosen with
  | some a => s.move a
  | none => .next (s.elapse 1)

/-- The address at which `withFetchWord` places a bundle, virtual and physical. -/
def codeBase : Nat := 0x10000

/-- The launch whose one spar `withFetchWord` runs. -/
def fetchLaunch : Launch :=
  { hdr := 0, ctx := 0, entry := BitVec.ofNat 64 codeBase, cls := 0, ss := false, rst := false, sys := false, ptok := 0,
    lw := [1], affm := 0, ext := [1], sparb := 0, sparn := 1, exbud := 0, saveb := 0, rskpb := 0, rsksz := 1, rem0 := 0,
    args := [0, 0, 0, 0], seed := 0, budget := 1, cseq := 0, packet := false, generated := [0] }

/-- The run of its spar on core 0. -/
def fetchRun : Run :=
  { id := ⟨0, 0⟩, recVa := 0, ctx := 0, sys := false, rst := false, ss := false, lcore := 0, wid := 0, prio := 0,
    kernel := none, bank0 := 0, banks := 0, home := false, started := 0 }

/-- A spar at its entry on the core that moves, its code page translated and the instruction's 64 bytes at its PC, with
nothing else in the device that could move first (log 10). -/
def State.withFetchWord (s : State) (nbits w : Nat) : State :=
  let tb : TbEnt := { ctx := 0, base := codeBase, size := 65536, pte := BitVec.ofNat 64 (codeBase + 0x41) }
  { s with
    core := { s.core with ctx := { s.core.ctx with shadow := [], engTraps := [], rskb := 0, rskp := 64, rskl := 0x10000,
                                                   kept := { s.core.ctx.kept with swpend := none } },
                          pc := BitVec.ofNat 64 codeBase, phase := .running, run := some fetchRun, tb := tb :: s.core.tb,
                          preempt := none },
    mem := { s.mem with dev := s.mem.dev.writeN codeBase (leBytes 64 (w % 2 ^ min nbits 512)) },
    sched := { s.sched with launches := s.sched.launches.put 0 fetchLaunch },
    plat := { s.plat with booting := false, pst := 0, dbg := 0 },
    inputs := [] }

end Sys2Proof.Machine
end

