-- ==== Sys2Proof/Safety.lean ====
section
/-! DEFINITION. What a safe run means, in the terms that statements use: the canonical form of storage, when a bundle of
one operation issues, what its commit does beside its own effect, and what an operation leaves unchanged. -/

namespace Sys2Proof.Machine

/-! ### Canonical storage -/

/-- Every storage table is in its canonical form. -/
def Mem.wf (m : Mem) : Bool :=
  m.dev.wf && m.host.wf && m.spm.wf && m.peer.wf && m.tags.rising && m.codes.rising && m.copies.rising && m.copyVas.rising
    && m.windows.rising && m.osig.rising && m.spmVer.rising

/-- The tables of a context are in their canonical form. -/
def Ctx.wf (c : Ctx) : Bool := c.t.rising && c.w.rising && c.l.rising && c.z.rising && c.zt.rising && c.rskCore.wf

/-! ### The issue of one operation -/

/-- The bundle that holds one operation alone, as `exec` issues it. -/
def aloneBundle (i : Instr) : Bundle :=
  match i with
  | .bundleIssue w => decodeBundle w
  | .cpyf a m => .ofFollow (.cpyf a m) m
  | .ld a | .st a | .aadd a | .acas a | .axch a | .amax a | .amin a | .tld a | .tst a | .gld a | .tsts a | .tagl a
  | .tags a | .tagi a | .tagiA a | .aset a | .ainc a | .amod a | .abrev a | .astp a | .alen a | .aget a | .aclr a =>
    .ofMemory a.inStore i
  | i =>
    match vectorForm i with
    | some (a, _) => .ofVector a.inB i
    | none =>
      if (encodeScalar i).isSome then .ofScalar i
      else if (encodeMatrix i).isSome then .ofMatrix i
      else if (encodeCopy i).isSome then .ofCopy i
      else .ofSync i

/-- Every pop of a bundle finds an entry, or is in flag mode (R35). -/
def popsMet (c : Ctx) (b : Bundle) : Bool :=
  (meetPops c [] (popsOf b)).all (fun p => decide (p.2 ≠ .later ∧ p.2 ≠ .never))

/-- A bundle issues at once: its core takes the boundary before it, no cause and no landing is due there, the bundle is
well formed, its pops are met, nothing holds it, and a yield bundle finds no landing left and no fault of its own (R40 to
R45, R133, R216). -/
def State.clear (s : State) (b : Bundle) : Bool :=
  s.canIssue && !s.pendingCause && s.core.ctx.due.isEmpty && (illegal b s.core.ctx).isNone && popsMet s.core.ctx b
    && !s.heldBy b (liveOps s.core.ctx b) && (!b.hdr.y || s.core.ctx.shadow.isEmpty)
    && (s.yieldFaults b).isEmpty

/-- A bundle of one operation issues at once and the operation's guard holds. -/
def State.runs (s : State) (i : Instr) : Bool := s.clear (aloneBundle i) && guardTrue s.core.ctx i

/-- Every core has room for one more record in each of its lanes (R294). -/
def State.laneRoom (s : State) : Bool :=
  s.allCoresList.all (fun k => [false, true].all (fun p => decide (k.laneCount p < 16)))

/-- What the slot of an operation alone in its bundle sees. -/
def State.envFor (s : State) (i : Instr) : Env :=
  let b := aloneBundle i
  envOf s b (liveOps s.core.ctx b) (meetPops s.core.ctx [] (popsOf b))
    ((b.ops.find? (fun d => decide (d.2 = i))).map (·.1) |>.getD 0)

/-- The effect of what a slot answers, where it neither waits nor faults. -/
def SlotOut.succeeds (o : SlotOut) : Bool :=
  match o with
  | .ok _ => true
  | _ => false

/-- The state after the commit of a bundle whose slots have the effect `f`: the PC has moved on before it; the pops, the
counter, tau, the counts and the cycles after it; a yield bundle starts its spar's yield (R41, R74, R132, R274). -/
def State.retired (s : State) (b : Bundle) (f : State → State) : State :=
  let live := liveOps s.core.ctx b
  let ms := meetPops s.core.ctx [] (popsOf b)
  let s2 := f (s.onCore (fun k => { k with pc := sext57 (k.pc + 64), waita := none }))
  let sr := if live.any (fun d => decide (srCount s.core.ctx d.2 ≠ 0)) then srBaseOf s.core.ctx live 9
    else s2.core.ctx.srctr
  let s3 := (s2.retireBundle b ms sr).elapse (issueCycles b)
  if b.hdr.y then s3.startYield s.core.pc else s3

/-! ### What an operation leaves unchanged -/

/-- The registers that an operation may change. -/
structure Changes where
  xs : List (BitVec 6) := []
  ps : List (BitVec 4) := []
  as_ : List (BitVec 5) := []
  ms : List (BitVec 3) := []
  tiles : List TileName := []
  zs : List Nat := []
  ctl : List Nat := []
  deriving DecidableEq, Repr

/-- Every register outside the list reads as before; CYCLE (0x002) counts on. -/
structure RegsKept (s t : State) (ch : Changes) : Prop where
  x : ∀ r, r ∉ ch.xs → t.core.ctx.rx r = s.core.ctx.rx r
  p : ∀ k, k ∉ ch.ps → t.core.ctx.rp k = s.core.ctx.rp k
  a : ∀ n, n ∉ ch.as_ → t.core.ctx.ra n = s.core.ctx.ra n
  m : ∀ k, k ∉ ch.ms → t.core.ctx.rm k = s.core.ctx.rm k
  tile : ∀ n, n.lvl < 3 → n ∉ ch.tiles → t.core.ctx.rt n = s.core.ctx.rt n
  z : ∀ n, n ∉ ch.zs → t.core.ctx.rz n = s.core.ctx.rz n
  ctl : ∀ i, i ∉ ch.ctl → i ≠ 0x002 → readCtl t i = readCtl s i

/-- The queues, the remainder stack, the latched half and the unlanded results are as before. -/
structure QueuesKept (s t : State) : Prop where
  qm : t.core.ctx.qm = s.core.ctx.qm
  qc : t.core.ctx.qc = s.core.ctx.qc
  qs : t.core.ctx.qs = s.core.ctx.qs
  qx : t.core.ctx.qx = s.core.ctx.qx
  qg : t.core.ctx.qg = s.core.ctx.qg
  rsk : t.core.ctx.rskCore = s.core.ctx.rskCore
  half : t.core.ctx.half = s.core.ctx.half
  shadow : t.core.ctx.shadow = s.core.ctx.shadow

/-- The matrix engine, its buffers and the copy engines are as before. -/
structure EnginesKept (s t : State) : Prop where
  mcfgr : t.core.ctx.mcfgr = s.core.ctx.mcfgr
  wb0 : t.core.ctx.wb0 = s.core.ctx.wb0
  wb1 : t.core.ctx.wb1 = s.core.ctx.wb1
  segs : t.core.ctx.segs = s.core.ctx.segs
  sfu : t.core.ctx.sfu = s.core.ctx.sfu
  zt : t.core.ctx.zt = s.core.ctx.zt
  running : t.core.ctx.running = s.core.ctx.running
  waiting : t.core.ctx.waiting = s.core.ctx.waiting
  ws0 : t.core.ctx.ws0 = s.core.ctx.ws0
  ws1 : t.core.ctx.ws1 = s.core.ctx.ws1
  follow : t.core.ctx.follow = s.core.ctx.follow
  engines : t.core.engines = s.core.engines
  fabric : t.core.fabric = s.core.fabric
  gmrg : t.core.gmrg = s.core.gmrg
  rcinv : t.core.rcinv = s.core.rcinv

/-- Every byte of storage is as before, and reads as before through the read copies; no store was queued. -/
structure MemoryKept (s t : State) : Prop where
  byte : ∀ p, t.mem.get p = s.mem.get p
  view : ∀ p, t.mem.view p = s.mem.view p
  queue : t.core.storeQ = s.core.storeQ
  tags : t.mem.tags = s.mem.tags

/-- What every core shares beside storage is as before, and so are the other cores. -/
structure DeviceKept (s t : State) : Prop where
  others : t.others = s.others
  sched : t.sched = s.sched
  lanes : t.lanes = s.lanes
  host : t.host = s.host
  maint : t.maint = s.maint
  fabric : t.fabric = s.fabric
  valley : t.valley = s.valley
  ctxs : t.ctxs = s.ctxs
  kernels : t.kernels = s.kernels
  plat : t.plat = s.plat
  inputs : t.inputs = s.inputs

/-- Nothing outside the listed registers changes, beside the PC and the cycle count. -/
structure OnlyRegs (s t : State) (ch : Changes) : Prop where
  regs : RegsKept s t ch
  queues : QueuesKept s t
  engines : EnginesKept s t
  kept : t.core.ctx.kept = s.core.ctx.kept
  memory : MemoryKept s t
  device : DeviceKept s t

/-- The address of the next bundle (R94). -/
def State.nextPc (s : State) : Word := sext57 (s.core.pc + 64)

/-- An operation runs to a next state that holds `v` in X register `rd` (X0 reads zero), and changes nothing else. -/
def WritesX (s : State) (i : Instr) (rd : BitVec 6) (v : Word) : Prop :=
  ∃ t, exec i s = .next t ∧ t.core.pc = s.nextPc ∧ t.core.ctx.rx rd = (if rd = 0 then 0 else v)
    ∧ OnlyRegs s t { xs := [rd] }

/-- An operation runs to a next state that holds `v` in predicate `k` (P0 reads true), and changes nothing else. -/
def WritesP (s : State) (i : Instr) (k : BitVec 4) (v : Bool) : Prop :=
  ∃ t, exec i s = .next t ∧ t.core.pc = s.nextPc ∧ t.core.ctx.rp k = (if k = 0 then true else v)
    ∧ OnlyRegs s t { ps := [k] }

/-- An operation runs to a next state that holds `v` in address register `n`, and changes nothing else. -/
def WritesA (s : State) (i : Instr) (n : BitVec 5) (v : AReg) : Prop :=
  ∃ t, exec i s = .next t ∧ t.core.pc = s.nextPc ∧ t.core.ctx.ra n = v ∧ OnlyRegs s t { as_ := [n] }

/-- An operation runs to a next state with the PC at `target`, and changes nothing else but the listed registers. -/
def GoesTo (s : State) (i : Instr) (target : Word) (ch : Changes) : Prop :=
  ∃ t, exec i s = .next t ∧ t.core.pc = target ∧ OnlyRegs s t ch

/-! ### Vector operations -/

/-- Element (i, j) of a tile at an element width (R104, R107). -/
def elem (t : Tile) (w i j : Nat) : Nat := tileField t (512 * i + w * j) w

/-- The state with an operation's pops taken from their queues and their flags written (R35, R41). -/
def State.afterPops (s : State) (i : Instr) : State :=
  let ms := meetPops s.core.ctx [] (popsOf (aloneBundle i))
  s.onCtx (fun c => (c.dropPops ms).popFlags ms)

/-- The positions of a vector slot's extent at an element width (R107 to R109). -/
def positions (s : State) (a : VArgs) (w : Nat) : List Pos :=
  extent a.o0.dir.toNat a.line.toNat s.core.ctx.nr (s.core.ctx.nc w)

/-- Every one of some tiles holds `f n q` at the `n`-th position `q` of a list where a mask lets it be written, zero
where `zer` is set and the mask does not, and every other element as before (R111). -/
structure Elements (s t : State) (ds : List TileName) (m : Option (BitVec 512)) (zer : Bool) (w : Nat) (ps : List Pos)
    (f : Nat → Pos → Nat) : Prop where
  written : ∀ d ∈ ds, ∀ n q, ps[n]? = some q → elem (t.core.ctx.rt d) w q.i q.j =
    if maskOn m q.i q.j then f n q % 2 ^ w else if zer then 0 else elem (s.core.ctx.rt d) w q.i q.j
  kept : ∀ d ∈ ds, ∀ i j, i < 16 → j < 512 / w → (∀ q ∈ ps, ¬(q.i = i ∧ q.j = j)) →
    elem (t.core.ctx.rt d) w i j = elem (s.core.ctx.rt d) w i j

/-- The lines of a vector slot's destination and sources are valid and fit (R108, R109): no VLINE. -/
def linesOk (s : State) (a : VArgs) (w : Nat) (srcs : List Src) : Bool :=
  lineValid a.o0.dir.toNat a.line.toNat s.core.ctx.nr (s.core.ctx.nc w) &&
    srcs.all (fun q => q.fits a.o0.dir.toNat a.line.toNat s.core.ctx.nr (s.core.ctx.nc w))

/-- The flags of the positions that a mask lets be written, joined (R73, R111). -/
def joinedFlags (m : Option (BitVec 512)) (ps : List Pos) (f : Nat → Pos → Flags) : Flags :=
  ps.zipIdx.foldl (fun g q => if maskOn m q.1.i q.1.j then g.join (f q.2 q.1) else g) Flags.none

/-- A vector operation's bundle commits: its pops are taken, its flags and saturation events recorded, its counters
allotted, and nothing changes beside what `ch` lists. -/
structure VectorDone (s t : State) (i : Instr) (fl : Flags) (ch : Changes) : Prop where
  pc : t.core.pc = s.nextPc
  astat : t.core.ctx.astat = (s.raise fl).core.ctx.astat
  satcnt : t.core.satcnt = (s.raise fl).core.satcnt
  srctr : t.core.ctx.srctr = s.core.ctx.srctr + BitVec.ofNat 64 (srCount s.core.ctx i)
  frame : OnlyRegs (s.afterPops i) t { ch with ctl := [0x011, 0x012, 0x013] ++ ch.ctl }

/-- An element-wise operation runs: element `n` of its extent, at a position, is `f n q`, with its flags. -/
def VectorWrites (s : State) (i : Instr) (a : VArgs) (w : Nat) (f : Nat → Pos → Nat × Flags) : Prop :=
  ∃ t, exec i s = .next t ∧
    Elements s t a.dests (a.mask s.core.ctx) a.o0.zer w (positions s a w) (fun n q => (f n q).1) ∧
    VectorDone s t i (joinedFlags (a.mask s.core.ctx) (positions s a w) (fun n q => (f n q).2)) { tiles := a.dests }

/-- An operation runs to the state of its bundle's commit with the effect `f`. -/
def Retires (s : State) (i : Instr) (f : State → State) : Prop := exec i s = .next (s.retired (aloneBundle i) f)

/-- An operation's bundle takes a trap: the spar stops with this cause's record, and nothing of the bundle commits
(R41, R297). -/
def Traps (s : State) (i : Instr) (t : TrapInfo) : Prop := exec i s = .next (s.takeTrap t)

/-! ### Storage -/

/-- A place whose byte is none of the `n` bytes from `p` on. -/
def Place.apart (p q : Place) (n : Nat) : Prop := q.space ≠ p.space ∨ q.key < p.key ∨ p.key + n ≤ q.key

/-- Storage holds these bytes from a place on, and every other byte is as before. -/
def PutBytes (s t : State) (p : Place) (bs : List Byte) : Prop :=
  (∀ (i : Nat) (b : Byte), bs[i]? = some b → t.mem.get (p.off i) = b) ∧
    ∀ q, p.apart q bs.length → t.mem.get q = s.mem.get q

/-- The effective address of a load- or store-slot form, where it is canonical (R100). -/
def State.ea (s : State) (a : LArgs) : Word := ((s.core.ctx.ra a.ar).sum.extractLsb' 0 57).setWidth 64

/-- The effective address is canonical and a multiple of `n` (R100, R211). -/
def State.eaOk (s : State) (a : LArgs) (n : Nat) : Bool :=
  canonical (s.core.ctx.ra a.ar).sum && decide ((s.ea a).toNat % n = 0)

/-- The address register of a form after its access (R102). -/
def State.stepped (s : State) (a : LArgs) : AReg := (s.core.ctx.ra a.ar).update (s.core.ctx.ra a.ar).step

end Sys2Proof.Machine
end

