-- ==== Sys2Proof/Certificates/Slice0/Obligations.lean ====
section
/-! DEFINITION. The statements for the provers, from the spec's numbered rules. -/

open Sys2Proof Sys2Proof.Machine


/-! ### The scalar slot -/

/-- A scalar-slot operation makes its bundle ill-formed with reason 2, in slot 1 (R40). -/
def ReasonTwo (i : Instr) : Prop := ∀ c : Ctx, illegal (aloneBundle i) c = some (16 * 1 + 2)

/-- R87: the integer operations, for every register and both values of FN[0]. -/
def Obligations.IntegerArithmetic : Prop :=
  ∀ (s : State) (a : SR),
    let x := s.core.ctx.rx a.ra
    let y := s.core.ctx.rx a.rb
    let uns := a.fn.getLsbD 0
    (s.runs (.add a) = true → WritesX s (.add a) a.rd (x + y)) ∧
    (s.runs (.sub a) = true → WritesX s (.sub a) a.rd (x - y)) ∧
    (s.runs (.mul a) = true → WritesX s (.mul a) a.rd (x * y)) ∧
    (s.runs (.mulh a) = true → WritesX s (.mulh a) a.rd
      (if uns then BitVec.ofNat 64 (x.toNat * y.toNat / 2 ^ 64) else BitVec.ofInt 64 (x.toInt * y.toInt / 2 ^ 64))) ∧
    (s.runs (.and a) = true → WritesX s (.and a) a.rd (x &&& y)) ∧
    (s.runs (.or a) = true → WritesX s (.or a) a.rd (x ||| y)) ∧
    (s.runs (.xor a) = true → WritesX s (.xor a) a.rd (x ^^^ y)) ∧
    (s.runs (.shl a) = true → WritesX s (.shl a) a.rd (x <<< (y.toNat % 64))) ∧
    (s.runs (.shr a) = true → WritesX s (.shr a) a.rd (x >>> (y.toNat % 64))) ∧
    (s.runs (.sra a) = true → WritesX s (.sra a) a.rd (x.sshiftRight (y.toNat % 64))) ∧
    (s.runs (.min a) = true → WritesX s (.min a) a.rd
      (if uns then (if y.toNat < x.toNat then y else x) else (if y.toInt < x.toInt then y else x))) ∧
    (s.runs (.max a) = true → WritesX s (.max a) a.rd
      (if uns then (if x.toNat < y.toNat then y else x) else (if x.toInt < y.toInt then y else x))) ∧
    (s.runs (.clz a) = true → WritesX s (.clz a) a.rd
      (if x = 0 then 64 else BitVec.ofNat 64 (63 - Nat.log2 x.toNat))) ∧
    (s.runs (.popc a) = true → WritesX s (.popc a) a.rd
      (BitVec.ofNat 64 ((List.range 64).filter (fun n => x.getLsbD n)).length))

/-- R88: division and remainder on every operand, with the fixed results of the boundary cases; neither traps. -/
def Obligations.Division : Prop :=
  ∀ (s : State) (a : SR),
    let x := s.core.ctx.rx a.ra
    let y := s.core.ctx.rx a.rb
    let uns := a.fn.getLsbD 0
    let low : Word := 0x8000000000000000
    (s.runs (.div a) = true → WritesX s (.div a) a.rd
      (if y = 0 then 0xFFFFFFFFFFFFFFFF
       else if uns then BitVec.ofNat 64 (x.toNat / y.toNat)
       else if x = low ∧ y = 0xFFFFFFFFFFFFFFFF then low
       else BitVec.ofInt 64 (x.toInt.tdiv y.toInt))) ∧
    (s.runs (.rem a) = true → WritesX s (.rem a) a.rd
      (if y = 0 then x
       else if uns then BitVec.ofNat 64 (x.toNat % y.toNat)
       else if x = low ∧ y = 0xFFFFFFFFFFFFFFFF then 0
       else BitVec.ofInt 64 (x.toInt.tmod y.toInt))) ∧
    (y ≠ 0 → x.toInt.tmod y.toInt ≠ 0 → (x.toInt.tmod y.toInt < 0 ↔ x.toInt < 0))

/-- R89 and R90: the immediate operations; a shift count that does not fit six bits is reason 2. -/
def Obligations.Immediates : Prop :=
  (∀ (s : State) (a : SI),
    let x := s.core.ctx.rx a.ra
    let n : Word := a.imm.signExtend 64
    (s.runs (.addi a) = true → WritesX s (.addi a) a.rd (x + n)) ∧
    (s.runs (.andi a) = true → WritesX s (.andi a) a.rd (x &&& n)) ∧
    (s.runs (.ori a) = true → WritesX s (.ori a) a.rd (x ||| n)) ∧
    (s.runs (.xori a) = true → WritesX s (.xori a) a.rd (x ^^^ n)) ∧
    (s.runs (.shli a) = true → WritesX s (.shli a) a.rd (x <<< (a.imm.toNat % 64))) ∧
    (s.runs (.shri a) = true → WritesX s (.shri a) a.rd (x >>> (a.imm.toNat % 64))) ∧
    (s.runs (.srai a) = true → WritesX s (.srai a) a.rd (x.sshiftRight (a.imm.toNat % 64))) ∧
    (63 < a.imm.toNat → ReasonTwo (.shli a) ∧ ReasonTwo (.shri a) ∧ ReasonTwo (.srai a))) ∧
  (∀ (s : State) (a : SL),
    (s.runs (.ldi a) = true → WritesX s (.ldi a) a.rd (a.imm.signExtend 64)) ∧
    (s.runs (.ldih a) = true → WritesX s (.ldih a) a.rd
      (BitVec.ofNat 64 ((s.core.ctx.rx a.rd).toNat * 2 ^ 30 + a.imm.toNat))))

/-- The conditions of the table of R91. -/
def condTable (code : Nat) (x b : Word) : Prop :=
  match code with
  | 0 => x = b
  | 1 => x ≠ b
  | 2 => x.toInt < b.toInt
  | 3 => x.toInt ≥ b.toInt
  | 4 => x.toNat < b.toNat
  | 5 => x.toNat ≥ b.toNat
  | 6 => x.toInt ≤ b.toInt
  | 7 => x.toInt > b.toInt
  | 8 => x.toNat ≤ b.toNat
  | 9 => x.toNat > b.toNat
  | _ => x &&& b ≠ 0

/-- R91: comparison into a predicate, under every condition the table gives; the codes it reserves, and a non-zero
FN[11:4], are reason 2. -/
def Obligations.Comparison : Prop :=
  (∀ (s : State) (a : SR), s.runs (.cmp a) = true → a.fn.toNat ≤ 10 →
    ∃ v, WritesP s (.cmp a) (a.rd.extractLsb' 0 4) v ∧
      (v = true ↔ condTable a.fn.toNat (s.core.ctx.rx a.ra) (s.core.ctx.rx a.rb))) ∧
  (∀ (s : State) (a : SI), s.runs (.cmpi a) = true → bits a.imm.toNat 20 4 ≤ 10 →
    ∃ v, WritesP s (.cmpi a) (a.rd.extractLsb' 0 4) v ∧
      (v = true ↔ condTable (bits a.imm.toNat 20 4) (s.core.ctx.rx a.ra) ((a.imm.extractLsb' 0 20).signExtend 64))) ∧
  (∀ a : SR, 10 < a.fn.toNat → ReasonTwo (.cmp a)) ∧
  (∀ a : SI, 10 < bits a.imm.toNat 20 4 → ReasonTwo (.cmpi a))

/-- R92: SEL selects by a predicate; MOVP moves all predicates to a scalar, bit 0 being 1, and P1 to P15 from one; the
other bits of FN are zero. -/
def Obligations.SelectAndPredicateMoves : Prop :=
  (∀ (s : State) (a : SR), s.runs (.sel a) = true → WritesX s (.sel a) a.rd
    (if s.core.ctx.rp (a.fn.extractLsb' 0 4) then s.core.ctx.rx a.ra else s.core.ctx.rx a.rb)) ∧
  (∀ (s : State) (a : SR), s.runs (.movpToX a) = true →
    ∃ v : Word, WritesX s (.movpToX a) a.rd v ∧
      (∀ k : BitVec 4, v.getLsbD k.toNat = s.core.ctx.rp k) ∧ v.toNat < 2 ^ 16) ∧
  (∀ (s : State) (a : SR), s.runs (.movpToP a) = true →
    ∃ t, exec (.movpToP a) s = .next t ∧ t.core.pc = s.nextPc ∧
      (∀ k : BitVec 4, t.core.ctx.rp k = (if k = 0 then true else (s.core.ctx.rx a.ra).getLsbD k.toNat)) ∧
      OnlyRegs s t { ps := (List.range 15).map (fun n => BitVec.ofNat 4 (n + 1)) }) ∧
  (∀ a : SR, 15 < a.fn.toNat → ReasonTwo (.sel a)) ∧
  (∀ a : SR, 1 < a.fn.toNat ∨ a.ra ≠ 0 → ReasonTwo (.movpToX a)) ∧
  (∀ a : SR, 1 < a.fn.toNat ∨ a.rd ≠ 0 → ReasonTwo (.movpToP a))

/-- R93: the predicate-logic forms; P0 reads true and is not written; the other fields are zero. -/
def Obligations.PredicateLogic : Prop :=
  ∀ (s : State) (a : SR),
    let pa := s.core.ctx.rp (a.ra.extractLsb' 0 4)
    let pb := s.core.ctx.rp (a.rb.extractLsb' 0 4)
    let ta := pa ^^ a.fn.getLsbD 0
    let tb := pb ^^ a.fn.getLsbD 1
    let pd := a.rd.extractLsb' 0 4
    (s.runs (.pand a) = true → WritesP s (.pand a) pd (ta && tb)) ∧
    (s.runs (.por a) = true → WritesP s (.por a) pd (ta || tb)) ∧
    (s.runs (.pxor a) = true → WritesP s (.pxor a) pd (ta ^^ tb)) ∧
    (s.runs (.pnot a) = true → WritesP s (.pnot a) pd (!pa)) ∧
    (3 < a.fn.toNat → ReasonTwo (.pand a) ∧ ReasonTwo (.por a) ∧ ReasonTwo (.pxor a)) ∧
    (a.rb ≠ 0 ∨ a.fn ≠ 0 → ReasonTwo (.pnot a))

/-- The address at an offset of bundles from the PC, sign-extended from bit 56 (R94). -/
def offsetFrom (pc : Word) (n : Int) : Word := (BitVec.ofInt 57 (pc.toInt + 64 * n)).signExtend 64

/-- R95: where each branch form goes, and what it writes; a branch that is not taken falls through. -/
def Obligations.Branches : Prop :=
  (∀ (s : State) (a : SL), s.runs (.br a) = true → GoesTo s (.br a) (offsetFrom s.core.pc a.imm.toInt) {}) ∧
  (∀ (s : State) (a : SI), s.runs (.brc a) = true → GoesTo s (.brc a)
    (if s.core.ctx.rp (a.rd.extractLsb' 0 4) ^^ a.rd.getLsbD 4 then offsetFrom s.core.pc a.imm.toInt else s.nextPc) {}) ∧
  (∀ (s : State) (a : SL), s.runs (.call a) = true →
    ∃ t, exec (.call a) s = .next t ∧ t.core.pc = offsetFrom s.core.pc a.imm.toInt ∧
      t.core.ctx.rx a.rd = (if a.rd = 0 then 0 else s.nextPc) ∧ OnlyRegs s t { xs := [a.rd] }) ∧
  (∀ (s : State) (a : SR), s.runs (.ret a) = true →
    let x := s.core.ctx.rx a.ra
    ((x.extractLsb' 0 57).signExtend 64 = x → GoesTo s (.ret a) (x &&& ~~~(63 : Word)) {}) ∧
    ((x.extractLsb' 0 57).signExtend 64 ≠ x →
      Traps s (.ret a) { cause := 0x03, pc := s.core.pc, addr := x, aux := 1 })) ∧
  (∀ (s : State) (a : SI), s.runs (.loop a) = true →
    let v := s.core.ctx.rx a.rd - 1
    ∃ t, exec (.loop a) s = .next t ∧ t.core.pc = (if v ≠ 0 then offsetFrom s.core.pc a.imm.toInt else s.nextPc) ∧
      t.core.ctx.rx a.rd = (if a.rd = 0 then 0 else v) ∧ OnlyRegs s t { xs := [a.rd] })

/-- R97: what CRR reads from each control register, in the snapshot. -/
def Obligations.ControlReads : Prop :=
  ∀ (s : State) (a : SI), s.runs (.crr a) = true →
    let c := s.core.ctx
    let table : List (Nat × Word) :=
      [(0x000, s.vshape), (0x001, s.corenum), (0x002, BitVec.ofNat 64 s.cycle), (0x010, c.arith), (0x011, c.astat),
       (0x012, c.srctr), (0x013, s.core.satcnt), (0x014, s.core.satthr), (0x020, c.shape), (0x021, c.mprog),
       (0x030, c.rskp), (0x031, c.rskb), (0x032, c.rskl), (0x040, c.kept.seedtop.extractLsb' 0 64),
       (0x041, c.kept.seedtop.extractLsb' 64 64), (0x050, s.core.thcnt), (0x051, s.core.errmap), (0x060, s.runOf.ebud),
       (0x061, s.afr)]
    (∃ v, (bits a.imm.toNat 0 12, v) ∈ table) ∧
    ∀ v, (bits a.imm.toNat 0 12, v) ∈ table → WritesX s (.crr a) a.rd v

/-- An operation runs to a next state in which control register `idx` reads `v`, and changes nothing else. -/
def WritesCtl (s : State) (i : Instr) (idx : Nat) (v : Word) : Prop :=
  ∃ t, exec i s = .next t ∧ t.core.pc = s.nextPc ∧ readCtl t idx = v ∧ OnlyRegs s t { ctl := [idx] }

/-- R97, R190 and R289: CRW replaces a read-write register (its reserved bits discarded, AFR's DEPTH kept), clears the named bits
of ASTAT, and reaches a privileged register in a privileged spar; one to RSKB or RSKL of an empty segment moves it: RSKP is RSKB +
64, NSEQ 0, and the empty descriptor is written at RSKB, or where that faults the engine's RSKSPL waits for the boundary. -/
def Obligations.ControlWrites : Prop :=
  ∀ (s : State) (a : SI), s.runs (.crw a) = true →
    let idx := bits a.imm.toNat 0 12
    let x := s.core.ctx.rx a.ra
    (idx = 0x010 → WritesCtl s (.crw a) 0x010 (if x.toNat % 4 = 3 then 0 else x &&& 3)) ∧
    (idx = 0x011 → WritesCtl s (.crw a) 0x011 (s.core.ctx.astat &&& ~~~x)) ∧
    (idx = 0x012 → WritesCtl s (.crw a) 0x012 x) ∧
    (idx = 0x013 → WritesCtl s (.crw a) 0x013 (x &&& 0xFFFFFFFF)) ∧
    (idx = 0x020 → WritesCtl s (.crw a) 0x020 (x &&& 0x3F0F)) ∧
    (s.runOf.sys = true → idx = 0x014 → WritesCtl s (.crw a) 0x014 (x &&& 0xFFFFFFFF)) ∧
    (s.runOf.sys = true → idx = 0x050 → WritesCtl s (.crw a) 0x050 x) ∧
    (s.runOf.sys = true → idx = 0x061 → WritesCtl s (.crw a) 0x061 ((x &&& 0x100FF) ||| (s.afr &&& 0xFF00))) ∧
    (∀ p ∈ [(0x031, x &&& ~~~(0xFFFF : Word), s.core.ctx.rskl), (0x032, s.core.ctx.rskb, x &&& ~~~(0xFFFF : Word))],
      idx = p.1 → s.runOf.sys = true → s.core.ctx.rskp = s.core.ctx.rskb + 64 →
      ∃ t, exec (.crw a) s = .next t ∧ t.core.pc = s.nextPc ∧ t.core.ctx.rskb = p.2.1 ∧ t.core.ctx.rskl = p.2.2 ∧
        t.core.ctx.rskp = p.2.1 + 64 ∧ t.core.ctx.nseq = 0 ∧ t.core.ctx.rskCore = [] ∧
        (∀ r, t.core.ctx.rx r = s.core.ctx.rx r) ∧ (∀ n, t.core.ctx.rt n = s.core.ctx.rt n) ∧
        (∀ u, ioWrite s s.runOf.ctx none p.2.1 (toBytes 8 64 ++ toBytes 56 0) = .ok u → t.mem = u.mem ∧
          OnlyRegs (u.onCtx (fun c => { c with rskCore := [] })) t { ctl := [0x030, 0x031, 0x032] }) ∧
        (∀ q, ioWrite s s.runOf.ctx none p.2.1 (toBytes 8 64 ++ toBytes 56 0) = .error q → t.mem = s.mem ∧
          t.core.ctx.engTraps = s.core.ctx.engTraps ++ [{ cause := 0x45, addr := p.2.1 }]))

/-- R97 and R190: a CRW to a privileged register in a spar that is not privileged faults PRIV, and one to RSKB or RSKL
while the segment holds an entry faults RSKORD with DET SEGBUSY; nothing of the bundle commits. -/
def Obligations.ControlWriteFaults : Prop :=
  ∀ (s : State) (a : SI), s.runs (.crw a) = true →
    let idx := bits a.imm.toNat 0 12
    (s.runOf.sys = false → idx ∈ [0x014, 0x031, 0x032, 0x050, 0x061] →
      Traps s (.crw a) { cause := 0x02, pc := s.core.pc, aux := 1 }) ∧
    (s.runOf.sys = true → idx ∈ [0x031, 0x032] → s.core.ctx.rskp ≠ s.core.ctx.rskb + 64 →
      Traps s (.crw a) { cause := 0x0E, det := 6, pc := s.core.pc, aux := 1 })


/-! ### The vector slots: element-wise forms -/

/-- The value of a source operand's element at a position, NEG applied (R109, R110, R113). -/
def sourceVal (s : State) (i : Instr) (a : VArgs) (k : Nat) (o : Opnd) (q : Pos) : Val :=
  (s.envFor i).val a a.fmt k o (s.core.ctx.nc a.fmt.bits) q

/-- The storage bits of a source operand's element at a position, NEG complementing them (R113). -/
def sourceBits (s : State) (i : Instr) (a : VArgs) (k : Nat) (o : Opnd) (q : Pos) : Nat :=
  (s.envFor i).raw a a.fmt k o (s.core.ctx.nc a.fmt.bits) q

/-- Where the first `n` sources are valid beside the destination (R108, R109). -/
def sourcesOk (s : State) (i : Instr) (a : VArgs) (w n : Nat) (f : Fmt) : Bool :=
  linesOk s a w (([(1, a.o1), (2, a.o2), (3, a.o3)].take n).map (fun q => (s.envFor i).src f q.1 q.2))

/-- R114 and R115: the arithmetic forms compute every element of the extent exactly and round it once into the element
type; NaN in either operand of a minimum or maximum gives NaN, and -0 orders below +0. -/
def Obligations.VectorArithmetic : Prop :=
  (∀ p ∈ [(Instr.vadd, Val.add), (Instr.vsub, Val.sub), (Instr.vmul, Val.mul), (Instr.vmin, valMin), (Instr.vmax, valMax)],
    ∀ (s : State) (a : VArgs), s.runs (p.1 a) = true → sourcesOk s (p.1 a) a a.fmt.bits 2 a.fmt = true →
      VectorWrites s (p.1 a) a a.fmt.bits (fun _ q =>
        fitEl a.fmt (p.2 (sourceVal s (p.1 a) a 1 a.o1 q) (sourceVal s (p.1 a) a 2 a.o2 q)))) ∧
  (∀ p ∈ [(Instr.vfma, fun x y z => (x.mul y).add z), (Instr.vfms, fun x y z => (x.mul y).sub z)],
    ∀ (s : State) (a : VArgs), s.runs (p.1 a) = true → sourcesOk s (p.1 a) a a.fmt.bits 3 a.fmt = true →
      VectorWrites s (p.1 a) a a.fmt.bits (fun _ q =>
        fitEl a.fmt (p.2 (sourceVal s (p.1 a) a 1 a.o1 q) (sourceVal s (p.1 a) a 2 a.o2 q) (sourceVal s (p.1 a) a 3 a.o3 q)))) ∧
  (∀ (s : State) (a : VArgs), s.runs (.vabs a) = true → sourcesOk s (.vabs a) a a.fmt.bits 1 a.fmt = true →
    VectorWrites s (.vabs a) a a.fmt.bits (fun _ q => absEl a.fmt (sourceVal s (.vabs a) a 1 a.o1 q)))

/-- The bits that a write of an element stores: a six-bit element leaves bits [7:6] of its byte zero (R82). -/
def storedBits (f : Fmt) (v : Nat) : Nat := if f = .e2m3 ∨ f = .e3m2 then v % 64 else v

/-- R82 and R115: the bitwise forms on the elements' storage bits, and the shifts, whose counts at or beyond the element's width
give zero or all sign bits; none raises a flag. -/
def Obligations.VectorBits : Prop :=
  (∀ p ∈ [(Instr.vand, fun x y : Nat => x &&& y), (Instr.vor, fun x y => x ||| y), (Instr.vxor, fun x y => x ^^^ y)],
    ∀ (s : State) (a : VArgs), s.runs (p.1 a) = true → sourcesOk s (p.1 a) a a.fmt.bits 2 a.fmt = true →
      VectorWrites s (p.1 a) a a.fmt.bits (fun _ q =>
        (storedBits a.fmt (p.2 (sourceBits s (p.1 a) a 1 a.o1 q) (sourceBits s (p.1 a) a 2 a.o2 q)), Flags.none))) ∧
  (∀ p ∈ [(Instr.vshl, fun (w : Nat) (x : Int) (n : Nat) => if w ≤ n then 0 else x * 2 ^ n),
          (Instr.vshr, fun w x n => if w ≤ n then (if x < 0 then -1 else 0) else x / 2 ^ n)],
    ∀ (s : State) (a : VArgs), s.runs (p.1 a) = true → sourcesOk s (p.1 a) a a.fmt.bits 2 a.fmt = true →
      let el (k : Nat) (o : Opnd) (q : Pos) : Nat := ((s.envFor (p.1 a)).src a.fmt k o).atPos a.o0.dir.toNat a.line.toNat
        a.fmt.bits (s.core.ctx.nc a.fmt.bits) q
      let signed (q : Pos) : Int :=
        (BitVec.ofNat a.fmt.bits (if a.o1.neg then negCode a.fmt (el 1 a.o1 q) else el 1 a.o1 q)).toInt
      VectorWrites s (p.1 a) a a.fmt.bits (fun _ q =>
        ((BitVec.ofInt a.fmt.bits (p.2 a.fmt.bits (signed q) (el 2 a.o2 q))).toNat, Flags.none)))

/-- R82, R117 and R119: VSEL takes the first source where mask k holds a 1 and the second elsewhere; VMOV copies the extent
at byte width; VBCAST fills every element from the element, row or column that its source names. That a small immediate of
VMOV converts as INT8, and that VSEL writes bits [7:6] of a six-bit element's byte as zero, are the model's choices (log
23). -/
def Obligations.VectorSelectAndMove : Prop :=
  (∀ (s : State) (a : VArgs), s.runs (.vsel a) = true → sourcesOk s (.vsel a) a a.fmt.bits 2 a.fmt = true →
    let el (k : Nat) (o : Opnd) (q : Pos) : Nat :=
      let code := ((s.envFor (.vsel a)).src a.fmt k o).atPos a.o0.dir.toNat a.line.toNat a.fmt.bits
        (s.core.ctx.nc a.fmt.bits) q
      if o.neg then negCode a.fmt code else code
    VectorWrites s (.vsel a) a a.fmt.bits (fun _ q =>
      (storedBits a.fmt (if (s.core.ctx.rm (a.o3.idx.extractLsb' 0 3)).getLsbD (32 * q.i + q.j % 32) then el 1 a.o1 q
        else el 2 a.o2 q), Flags.none))) ∧
  (∀ (s : State) (a : VArgs), s.runs (.vmov a) = true → sourcesOk s (.vmov a) a 8 1 .int8 = true →
    VectorWrites s (.vmov a) a 8 (fun _ q =>
      (((s.envFor (.vmov a)).src .int8 1 a.o1).atPos a.o0.dir.toNat a.line.toNat 8 (s.core.ctx.nc 8) q, Flags.none))) ∧
  (∀ (s : State) (a : VArgs), s.runs (.vbcast a) = true → sourcesOk s (.vbcast a) a a.fmt.bits 1 a.fmt = true →
    VectorWrites s (.vbcast a) a a.fmt.bits (fun _ q =>
      (storedBits a.fmt (match (s.envFor (.vbcast a)).src a.fmt 1 a.o1 with
       | .tile t 0 => elem t a.fmt.bits 0 0
       | .tile t 1 => elem t a.fmt.bits a.line.toNat q.j
       | .tile t 2 => elem t a.fmt.bits q.i a.line.toNat
       | .tile t _ => elem t a.fmt.bits q.i q.j
       | .const v => v
       | .image img => (img.extractLsb' (a.fmt.bits * q.j) a.fmt.bits).toNat), Flags.none)))

/-- R108 and R109: an element-wise form whose lines are not valid, or do not pair, faults VLINE, and nothing of its bundle
commits; VMOV's lines are of bytes, VCVT's of the wider of its two types, VCMP's extent is that of its first source, and SFEV's
into QS the view. -/
def Obligations.InvalidLines : Prop :=
  (∀ p ∈ [(Instr.vadd, 2), (Instr.vsub, 2), (Instr.vmul, 2), (Instr.vmin, 2), (Instr.vmax, 2), (Instr.vfma, 3), (Instr.vfms, 3),
         (Instr.vabs, 1), (Instr.vand, 2), (Instr.vor, 2), (Instr.vxor, 2), (Instr.vshl, 2), (Instr.vshr, 2), (Instr.vsel, 2),
         (Instr.vbcast, 1)],
    ∀ (s : State) (a : VArgs), s.runs (p.1 a) = true → sourcesOk s (p.1 a) a a.fmt.bits p.2 a.fmt = false →
      Traps s (p.1 a) { cause := 0x04, pc := s.core.pc, aux := if a.inB then 3 else 2 }) ∧
  (∀ (s : State) (a : VArgs), s.runs (.vmov a) = true → sourcesOk s (.vmov a) a 8 1 .int8 = false →
    Traps s (.vmov a) { cause := 0x04, pc := s.core.pc, aux := if a.inB then 3 else 2 }) ∧
  (∀ (s : State) (a : VArgs),
    let c := s.core.ctx
    let trap (i : Instr) : Prop := Traps s i { cause := 0x04, pc := s.core.pc, aux := if a.inB then 3 else 2 }
    let src (i : Instr) (f : Fmt) (k : Nat) (o : Opnd) : Src := (s.envFor i).src f k o
    (s.runs (.vcvt a) = true →
      linesOk s a (max (setFmt a.o2.ctl).bits a.fmt.bits) [src (.vcvt a) (setFmt a.o2.ctl) 1 a.o1] = false → trap (.vcvt a)) ∧
    (s.runs (.vcmp a) = true →
      let dd := if a.o1.isTile then a.o1.dir.toNat else 0
      let nc := c.nc a.fmt.bits
      (lineValid dd a.line.toNat c.nr nc && (src (.vcmp a) a.fmt 2 a.o2).fits dd a.line.toNat c.nr nc) = false →
      trap (.vcmp a)) ∧
    (s.runs (.sfev a) = true → (a.o2.ctl / 16) % 2 = 0 →
      linesOk s a a.fmt.bits [src (.sfev a) a.fmt 1 a.o1] = false → trap (.sfev a)) ∧
    (s.runs (.sfev a) = true → (a.o2.ctl / 16) % 2 = 1 →
      (src (.sfev a) a.fmt 1 a.o1).fits 0 a.line.toNat c.nr (c.nc a.fmt.bits) = false → trap (.sfev a)))

/-! ### The vector slots: masks, moves, conversion, statistics -/

/-- The bit of a mask that governs an element position (R111). -/
def maskBit (q : Pos) : Nat := 32 * q.i + q.j % 32

/-- A mask that a comparison or test leaves: where a bit governs a position of the extent and the guard mask holds a 1
there, the AND of the results it governs; where the guard mask holds a 0, as before; where it governs none, 0. -/
def MaskFrom (old new : BitVec 512) (g : Option (BitVec 512)) (ps : List Pos) (res : Pos → Bool) : Prop :=
  ∀ b < 512, new.getLsbD b =
    if ps.any (fun q => decide (maskBit q = b)) then
      (if (g.map (·.getLsbD b)).getD true then ps.all (fun q => decide (maskBit q ≠ b) || res q) else old.getLsbD b)
    else false

/-- R116: VCMP writes the mask and the predicate that its control operands enable, with IV for a NaN, and no tile; its
extent is the view or the line that its first source names. -/
def Obligations.VectorCompare : Prop :=
  ∀ (s : State) (a : VArgs), s.runs (.vcmp a) = true →
    let c := s.core.ctx
    let w := a.fmt.bits
    let nc := c.nc w
    let k := a.line.toNat
    let dd := if a.o1.isTile then a.o1.dir.toNat else 0
    let src (n : Nat) (o : Opnd) : Src := (s.envFor (.vcmp a)).src a.fmt n o
    let val (n : Nat) (o : Opnd) (q : Pos) : Val :=
      let code := (src n o).atPos dd k w nc q
      a.fmt.value 0 (if o.neg then negCode a.fmt code else code)
    let ps := extent dd k c.nr nc
    let on (q : Pos) : Bool := maskOn (a.mask c) q.i q.j
    let res (q : Pos) : Bool := vcond (bits a.o3.ctl 0 4) (val 1 a.o1 q) (val 2 a.o2 q)
    let nan (q : Pos) : Bool := on q && ((val 1 a.o1 q).isNan || (val 2 a.o2 q).isNan)
    let mk := BitVec.ofNat 3 (bits a.o3.ctl 4 3)
    let pd := BitVec.ofNat 4 (bits a.o4.ctl 0 4)
    0 < nc → lineValid dd k c.nr nc = true → (src 2 a.o2).fits dd k c.nr nc = true →
    ∃ t, exec (.vcmp a) s = .next t ∧
      VectorDone s t (.vcmp a) { iv := ps.any nan }
        { ms := if bits a.o3.ctl 7 1 = 1 then [mk] else [], ps := if bits a.o4.ctl 5 1 = 1 then [pd] else [] } ∧
      (bits a.o3.ctl 7 1 = 1 → MaskFrom (c.rm mk) (t.core.ctx.rm mk) (a.mask c) ps res) ∧
      (bits a.o4.ctl 5 1 = 1 → pd ≠ 0 → t.core.ctx.rp pd =
        if bits a.o4.ctl 4 1 = 1 then ps.all (fun q => !on q || res q) else ps.any (fun q => on q && res q))

/-- R66, R70, R107, R108 and R118: each mode of VMSK; `nz` sets IV for a NaN and for the marker of a Q4X slot 31; `ld` and
`st` take a line of bytes. That `ld` and `st` count their lines in bytes and fault VLINE on one that is not valid, and that NEG on
the source of `ld` is ignored, are the model's readings (log 23). -/
def Obligations.MaskForms : Prop :=
  ∀ (s : State) (a : VArgs),
    let c := s.core.ctx
    let k := BitVec.ofNat 3 (bits a.o3.ctl 3 3)
    let j := BitVec.ofNat 3 (bits a.o3.ctl 6 3)
    let lineOk (o : Opnd) : Bool := lineValid (if o.isTile then o.dir.toNat else 0) a.line.toNat c.nr (c.nc 8)
    let gives (i : Instr) (v : BitVec 512) : Prop :=
      ∃ t, exec i s = .next t ∧ VectorDone s t i Flags.none { ms := [k] } ∧ t.core.ctx.rm k = v
    (s.runs (.vmskNz a) = true →
      let w := a.fmt.bits
      let dd := if a.o1.isTile then a.o1.dir.toNat else 0
      let ps := extent dd a.line.toNat c.nr (c.nc w)
      let el (q : Pos) : Val × Flags := ((s.envFor (.vmskNz a)).src a.fmt 1 a.o1).decoded a.fmt dd a.line.toNat (c.nc w) q
      (lineValid dd a.line.toNat c.nr (c.nc w) = false →
        Traps s (.vmskNz a) { cause := 0x04, pc := s.core.pc, aux := if a.inB then 3 else 2 }) ∧
      (0 < c.nc w → lineValid dd a.line.toNat c.nr (c.nc w) = true →
        ∃ t, exec (.vmskNz a) s = .next t ∧
          VectorDone s t (.vmskNz a) { iv := ps.any (fun q => (el q).1.isNan || (el q).2.iv) } { ms := [k] } ∧
          MaskFrom 0 (t.core.ctx.rm k) none ps (fun q => !(el q).1.isZero))) ∧
    (∀ p ∈ [(Instr.vmskLd a, a.o1), (.vmskSt a, a.o0)], s.runs p.1 = true → lineOk p.2 = false →
      Traps s p.1 { cause := 0x04, pc := s.core.pc, aux := if a.inB then 3 else 2 }) ∧
    (s.runs (.vmskLd a) = true → lineOk a.o1 = true → ∃ v, gives (.vmskLd a) v ∧ ∀ b < 512, v.getLsbD b =
      match (s.envFor (.vmskLd a)).src .fp32 1 a.o1 with
      | .tile t _ => t.getLsbD b
      | .image img => img.getLsbD b
      | .const n => (BitVec.ofNat 32 n).getLsbD (b % 32)) ∧
    (s.runs (.vmskSt a) = true → lineOk a.o0 = true → ∃ t, exec (.vmskSt a) s = .next t ∧
      VectorDone s t (.vmskSt a) Flags.none { tiles := a.dests } ∧
      Elements s t a.dests none false 512 [⟨0, 0, 0⟩] (fun _ _ => (c.rm j).toNat)) ∧
    (s.runs (.vmskNot a) = true → gives (.vmskNot a) (~~~c.rm j)) ∧
    (s.runs (.vmskAnd a) = true → gives (.vmskAnd a) (c.rm k &&& c.rm j)) ∧
    (s.runs (.vmskOr a) = true → gives (.vmskOr a) (c.rm k ||| c.rm j)) ∧
    (s.runs (.vmskAndn a) = true → gives (.vmskAndn a) (c.rm k &&& ~~~c.rm j)) ∧
    (s.runs (.vmskAll a) = true → gives (.vmskAll a) (BitVec.allOnes 512))

/-- R82, R120 and R121: VTRN transposes the square of the view, reading the snapshot; VPERM takes each element through its index
byte, or zero past the view. That a small immediate as VPERM's index tile converts as INT8 is the model's choice (log 23). -/
def Obligations.TransposeAndPermute : Prop :=
  ∀ (s : State) (a : VArgs),
    let c := s.core.ctx
    let w := a.fmt.bits
    let nc := c.nc w
    let m := min c.nr nc
    let run (i : Instr) (ps : List Pos) (f : Pos → Nat) : Prop :=
      ∃ t, exec i s = .next t ∧ VectorDone s t i Flags.none { tiles := a.dests } ∧
        Elements s t a.dests (a.mask c) a.o0.zer w ps (fun _ q => f q)
    let el (i : Instr) (r k : Nat) : Nat := storedBits a.fmt (((s.envFor i).src a.fmt 1 a.o1).at 0 0 w nc ⟨r, k, k⟩)
    let idx (i : Instr) (q : Pos) : Nat :=
      match (s.envFor i).src .int8 2 a.o2 with
      | .tile t _ => tileByte t q.i q.j
      | x => x.at 0 0 8 64 q
    (s.runs (.vtrn a) = true → run (.vtrn a) (extent 0 0 m m) (fun q => el (.vtrn a) q.j q.i)) ∧
    (s.runs (.vpermRow a) = true → run (.vpermRow a) (extent 0 0 c.nr nc)
      (fun q => if nc ≤ idx (.vpermRow a) q % 64 then 0 else el (.vpermRow a) q.i (idx (.vpermRow a) q % 64))) ∧
    (s.runs (.vpermCol a) = true → run (.vpermCol a) (extent 0 0 c.nr nc)
      (fun q => if c.nr ≤ idx (.vpermCol a) q % 16 then 0 else el (.vpermCol a) (idx (.vpermCol a) q % 16) q.j))

/-- R122 and R35: POP writes the oldest entry's image into a row of every destination and takes the entry; in flag mode
an empty queue gives a row of zeros, and the predicate tells which. -/
def Obligations.PopTakesEntry : Prop :=
  ∀ (s : State) (a : VArgs), s.runs (.pop a) = true →
    let c := s.core.ctx
    let n := bits a.o1.idx.toNat 0 3
    let row := if a.o0.dir = 0 then 0 else a.line.toNat
    let img := (c.queue n).1.headD 0
    ∃ t, exec (.pop a) s = .next t ∧
      VectorDone s t (.pop a) Flags.none { tiles := a.dests } ∧
      Elements s t a.dests (a.mask c) a.o0.zer 8 ((List.range 64).map (fun b => ⟨row, b, b⟩))
        (fun _ q => (img.extractLsb' (8 * q.j) 8).toNat) ∧
      (∀ m < 5, (t.core.ctx.queue m).1 = if m = n then (c.queue n).1.tail else (c.queue m).1) ∧
      (∀ k : BitVec 4, k ≠ 0 → t.core.ctx.rp k =
        if a.o1.flagPred = some k.toNat then !(c.queue n).1.isEmpty else c.rp k)

/-- R126: VSHP writes SHAPE, each field one less than its immediate. -/
def Obligations.ShapeWrite : Prop :=
  ∀ (s : State) (a : VArgs), s.runs (.vshp a) = true →
    ∃ t, exec (.vshp a) s = .next t ∧ VectorDone s t (.vshp a) Flags.none { ctl := [0x020] } ∧
      (t.core.ctx.nr : Int) = a.o1.imm ∧ (t.core.ctx.nb : Int) = a.o2.imm ∧ t.core.ctx.shape &&& ~~~0x3F0F = 0

/-- R123 and R69: VCVT reads each element at the source type, Q16 under its scale, and rounds it once in the named mode
into the destination type. -/
def Obligations.Conversion : Prop :=
  ∀ (s : State) (a : VArgs), s.runs (.vcvt a) = true →
    let c := s.core.ctx
    let sf := setFmt a.o2.ctl
    let w := max sf.bits a.fmt.bits
    let src := (s.envFor (.vcvt a)).src sf 1 a.o1
    let nc := c.nc w
    let el (q : Pos) : Nat × Flags :=
      let code := src.atPos a.o0.dir.toNat a.line.toNat sf.bits nc q
      roundF a.fmt a.o3.imm (sf.value a.o3.imm (if a.o1.neg then negCode sf code else code))
        (Rm.ofCode c.arith (bits a.o2.ctl 0 2)) (srWord c.kept.seedtop c.srctr (q.i * nc + q.j))
    linesOk s a w [src] = true →
    ∃ t, exec (.vcvt a) s = .next t ∧
      VectorDone s t (.vcvt a) (joinedFlags (a.mask c) (positions s a w) (fun _ q => (el q).2)) { tiles := a.dests } ∧
      Elements s t a.dests (a.mask c) a.o0.zer a.fmt.bits (positions s a w) (fun _ q => (el q).1)

/-- R124 and R79: QNT quantises one block of 32 for each row, masked elements in its maximum too, and writes the block's
scale into byte i of row 0 of OPD3, whatever the mask holds. -/
def Obligations.Quantise : Prop :=
  ∀ (s : State) (a : VArgs), s.runs (.qnt a) = true →
    let c := s.core.ctx
    let e := s.envFor (.qnt a)
    let sf := setFmt a.o4.ctl
    let block (i : Nat) : QBlock := quantBlock a.fmt (Rm.ofCode c.arith (bits a.o4.ctl 0 2))
      ((qntRow e a sf i).zipIdx.map (fun v => (v.1, srWord c.kept.seedtop c.srctr (32 * i + v.2))))
    let ps := extent 0 0 c.nr 32
    let el (q : Pos) : Nat × Flags := (block q.i).els.getD q.j (0, Flags.none)
    let fl := (joinedFlags (a.mask c) ps (fun _ q => (el q).2)).join
      ((List.range c.nr).foldl (fun g i => g.join (block i).flags) Flags.none)
    ∃ t, exec (.qnt a) s = .next t ∧
      VectorDone s t (.qnt a) fl { tiles := a.dests ++ a.dest a.o3 } ∧
      Elements s t a.dests (a.mask c) a.o0.zer a.fmt.bits ps (fun _ q => (el q).1) ∧
      Elements s t (a.dest a.o3) none false 8 ((List.range c.nr).map (fun i => ⟨0, i, i⟩)) (fun _ q => (block q.j).scale)

/-- R125 and R81: DQNT decodes the 32 elements of each row under the row's scale and rounds them into the destination
type; for FP32 the first sixteen go to OPD0 and the others to OPD4. NEG on the scale operand negates the decoded value, a small
immediate there converts as INT8 and is read as E8M0, and NEG on INT8 elements negates the decoded value too: the model's
readings (log 23). -/
def Obligations.Dequantise : Prop :=
  ∀ (s : State) (a : VArgs), s.runs (.dqnt a) = true →
    let c := s.core.ctx
    let e := s.envFor (.dqnt a)
    let sf := setFmt a.o3.ctl
    let el (i j : Nat) : Nat × Flags :=
      let v := (dqntRow e a sf i).getD j (.nan, Flags.none)
      let y := roundF a.fmt 0 v.1 (Rm.ofCode c.arith (bits a.o3.ctl 0 2)) (srWord c.kept.seedtop c.srctr (32 * i + j))
      (y.1, v.2.join y.2)
    (a.fmt ≠ .fp32 → ∃ t, exec (.dqnt a) s = .next t ∧
      VectorDone s t (.dqnt a) (joinedFlags (a.mask c) (extent 0 0 c.nr 32) (fun _ q => (el q.i q.j).2))
        { tiles := a.dests } ∧
      Elements s t a.dests (a.mask c) a.o0.zer a.fmt.bits (extent 0 0 c.nr 32) (fun _ q => (el q.i q.j).1)) ∧
    (a.fmt = .fp32 → ∃ t, exec (.dqnt a) s = .next t ∧
      VectorDone s t (.dqnt a) ((joinedFlags (a.mask c) (extent 0 0 c.nr 16) (fun _ q => (el q.i q.j).2)).join
        (joinedFlags (a.mask c) (extent 0 0 c.nr 16) (fun _ q => (el q.i (16 + q.j)).2)))
        { tiles := a.dests ++ a.dest a.o4 } ∧
      Elements s t a.dests (a.mask c) a.o0.zer 32 (extent 0 0 c.nr 16) (fun _ q => (el q.i q.j).1) ∧
      Elements s t (a.dest a.o4) (a.mask c) a.o4.zer 32 (extent 0 0 c.nr 16) (fun _ q => (el q.i (16 + q.j)).1))

/-- The unmasked elements of a row, or of a column, of the data source of a statistic (R137). -/
def contributing (s : State) (i : Instr) (a : VArgs) (col : Bool) (n : Nat) : List Val :=
  let c := s.core.ctx
  let w := a.fmt.bits
  let line := if col then (List.range c.nr).map (fun r => (r, n)) else (List.range (c.nc w)).map (fun j => (n, j))
  (line.filter (fun p => maskOn (a.mask c) p.1 p.2)).map (fun p => (s.envFor i).whole a.fmt 1 a.o1 p.1 p.2)

/-- R136 and R137: a reduction writes its rounded result for each row at bytes 64i to 64i + 3, or for each column at
bytes 4j to 4j + 3, and leaves every other byte; no contributor gives the operation's identity. -/
def Obligations.Reductions : Prop :=
  ∀ p ∈ [(Instr.vrsum, false, fun _ vs => Val.sum vs), (Instr.vcsum, true, fun _ vs => Val.sum vs),
         (Instr.vrmax, false, fun a vs => extremeOf a valMax true vs), (Instr.vcmax, true, fun a vs => extremeOf a valMax true vs),
         (Instr.vrmin, false, fun a vs => extremeOf a valMin false vs), (Instr.vcmin, true, fun a vs => extremeOf a valMin false vs)],
    ∀ (s : State) (a : VArgs), s.runs (p.1 a) = true → 0 < s.core.ctx.nc a.fmt.bits →
      let n := if p.2.1 then s.core.ctx.nc a.fmt.bits else s.core.ctx.nr
      let res (r : Nat) : Nat × Flags := roundF (if a.fmt.float?.isSome then .fp32 else .int32) 0
        (p.2.2 a (contributing s (p.1 a) a p.2.1 r)) .rne 0
      ∃ t, exec (p.1 a) s = .next t ∧
        VectorDone s t (p.1 a) ((List.range n).foldl (fun g r => g.join (res r).2) Flags.none) { tiles := a.dests } ∧
        (∀ d ∈ a.dests, ∀ r < n, tileField (t.core.ctx.rt d) (if p.2.1 then 32 * r else 512 * r) 32 = (res r).1 % 2 ^ 32) ∧
        (∀ d ∈ a.dests, ∀ b < 1024, (∀ r < n, b / 4 ≠ if p.2.1 then r else 16 * r) →
          tileField (t.core.ctx.rt d) (8 * b) 8 = tileField (s.core.ctx.rt d) (8 * b) 8)

/-- R138 to R140: VEMAX writes each row's new exponent; VEXPS and VRESC write every element of the view. That a small immediate
as a row exponent converts as INT32, and that an image gives its first word to every row, are the model's choices (log 23). -/
def Obligations.ScaledExponential : Prop :=
  ∀ (s : State) (a : VArgs),
    let stat (i : Instr) (k : Nat) (o : Opnd) (r : Nat) : Int :=
      (BitVec.ofNat 32 (((s.envFor i).src .int32 k o).at 0 0 32 64 ⟨r, 0, 0⟩)).toInt
    (s.runs (.vemax a) = true → 0 < s.core.ctx.nc a.fmt.bits →
      let res (r : Nat) : Nat × Flags := emaxRow (contributing s (.vemax a) a false r) (stat (.vemax a) 2 a.o2 r)
      ∃ t, exec (.vemax a) s = .next t ∧
        VectorDone s t (.vemax a) ((List.range s.core.ctx.nr).foldl (fun g r => g.join (res r).2) Flags.none)
          { tiles := a.dests } ∧
        Elements s t a.dests none false 32 ((List.range s.core.ctx.nr).map (fun r => ⟨r, 0, 0⟩)) (fun _ q => (res q.i).1)) ∧
    (s.runs (.vexps a) = true →
      VectorWrites s (.vexps a) a a.fmt.bits (fun _ q =>
        expScaled a.fmt ((s.envFor (.vexps a)).whole a.fmt 1 a.o1 q.i q.j) (stat (.vexps a) 2 a.o2 q.i))) ∧
    (s.runs (.vresc a) = true →
      VectorWrites s (.vresc a) a a.fmt.bits (fun _ q =>
        roundF a.fmt 0 (((s.envFor (.vresc a)).whole a.fmt 1 a.o1 q.i q.j).scale
          (max (-1000) (min 1000 (stat (.vresc a) 2 a.o2 q.i - stat (.vresc a) 3 a.o3 q.i)))) .rne 0))

/-- R141: VRMS multiplies each element by the row's rounded reciprocal root mean square and its gain, rounding once, and
writes the row's factor where SW asks for it. That the flags of the mean's and the factor's roundings join those of the elements
is the model's reading (log 21). -/
def Obligations.RmsNormalise : Prop :=
  ∀ (s : State) (a : VArgs), s.runs (.vrms a) = true →
    let c := s.core.ctx
    let w := a.fmt.bits
    let x (r j : Nat) : Val := (s.envFor (.vrms a)).whole a.fmt 1 a.o1 r j
    let g (j : Nat) : Val := (s.envFor (.vrms a)).whole a.fmt 2 a.o2 0 j
    let mean (r : Nat) : Nat × Flags := rmsR ((List.range (c.nc w)).map (x r)) (epsOf (bits a.o3.ctl 0 6))
    let factor (r : Nat) : Nat := (rmsS (mean r).1).1
    let el (q : Pos) : Nat × Flags :=
      roundF a.fmt 0 (((x q.i q.j).mul (Fmt.fp32.value 0 (factor q.i))).mul (g q.j)) .rne 0
    let rows := if c.nc w = 0 then Flags.none
      else (List.range c.nr).foldl (fun f r => f.join ((mean r).2.join (rmsS (mean r).1).2)) Flags.none
    ∃ t, exec (.vrms a) s = .next t ∧
      VectorDone s t (.vrms a) ((joinedFlags (a.mask c) (extent 0 0 c.nr (c.nc w)) (fun _ q => (el q).2)).join rows)
        { tiles := a.dests ++ (if bits a.o3.ctl 6 1 = 1 then a.dest a.o4 else []) } ∧
      Elements s t a.dests (a.mask c) a.o0.zer w (extent 0 0 c.nr (c.nc w)) (fun _ q => (el q).1) ∧
      (bits a.o3.ctl 6 1 = 1 → 0 < c.nc w → Elements s t (a.dest a.o4) none false 32
        ((List.range c.nr).map (fun r => ⟨r, 0, 0⟩)) (fun _ q => factor q.i))

/-- R107: under a view of no whole element an operation on the view runs, writes nothing and raises nothing. -/
def Obligations.EmptyView : Prop :=
  (∀ op ∈ [Instr.vadd, Instr.vsub, Instr.vmul, Instr.vmin, Instr.vmax, Instr.vfma, Instr.vfms, Instr.vabs, Instr.vand, Instr.vor,
      Instr.vxor, Instr.vshl, Instr.vshr, Instr.vsel, Instr.vbcast, Instr.vcmp, Instr.vmskNz, Instr.vtrn, Instr.vpermRow,
      Instr.vpermCol, Instr.vrsum, Instr.vcsum, Instr.vrmax, Instr.vcmax, Instr.vrmin, Instr.vcmin, Instr.vemax, Instr.vexps,
      Instr.vresc, Instr.vrms, Instr.sfev],
    ∀ (s : State) (a : VArgs), s.runs (op a) = true → s.core.ctx.nc a.fmt.bits = 0 →
      ∃ t, exec (op a) s = .next t ∧ VectorDone s t (op a) Flags.none {}) ∧
  (∀ (s : State) (a : VArgs), s.runs (.vcvt a) = true → s.core.ctx.nc (max (setFmt a.o2.ctl).bits a.fmt.bits) = 0 →
    ∃ t, exec (.vcvt a) s = .next t ∧ VectorDone s t (.vcvt a) Flags.none {})

/-! ### Traps, spars, seeds -/

/-- R96: TRAP leaves its software trap pending and continues; the next boundary stops with cause SWTRAP, its code, the value of
its register and the address after it. R299: ERET in a spar that is not privileged faults PRIV; in a privileged one it waits for
the core's stores, faults as its load does, faults ERARG for a notice (DET 2), a record that is not open (DET 1) and an answer
that the record does not take (DET 3), and else gives the answer, after the acquiring load of the record: the record closes,
an ended launch stays ended, END ends the launch, a stopped command resumes or is ended with ABORT, a context that a core
holds is saved again, and one in an emergency area is copied to its save area, or its stop stays open behind a SAVEF notice
where the copy faults (R298). The clauses for an X1 that is not canonical or not 64-byte aligned are the model's reading of how
that load faults (log 34). -/
def Obligations.SoftwareTrapAndReturn : Prop :=
  (∀ (s : State) (a : SI), s.runs (.trap a) = true →
    ∃ t, exec (.trap a) s = .next t ∧ t.core.pc = s.nextPc ∧
      t.core.ctx.kept = { s.core.ctx.kept with swpend := some (a.imm.extractLsb' 0 16, s.core.ctx.rx a.ra) } ∧
      OnlyRegs (s.onCtx (fun c => { c with kept := t.core.ctx.kept })) t {} ∧
      ∃ u, t.boundary [] = some u ∧ u.core.phase = .stopping
        { cause := 0x46, pc := s.nextPc, addr := s.core.ctx.rx a.ra, aux := a.imm.toNat % 2 ^ 16 }) ∧
  (∀ (s : State) (a : SR), s.runs (.eret a) = true →
    let x := s.core.ctx.rx 1
    let trap (q : TrapInfo) : Prop := Traps s (.eret a) { q with pc := s.core.pc, aux := 1 }
    (s.runOf.sys = false → trap { cause := 0x02 }) ∧
    (s.runOf.sys = true → s.core.storeQ ≠ [] → exec (.eret a) s = .next (s.waitBundle (aloneBundle (.eret a)))) ∧
    (s.runOf.sys = true → s.core.storeQ = [] → (x.extractLsb' 0 57).signExtend 64 ≠ x → trap { cause := 0x03, addr := x }) ∧
    (s.runOf.sys = true → s.core.storeQ = [] → (x.extractLsb' 0 57).signExtend 64 = x →
      (x.toNat % 64 ≠ 0 → trap { cause := 0x10, addr := x }) ∧
      (∀ q, x.toNat % 64 = 0 → access s false .read ((x.extractLsb' 0 57).setWidth 64) 64 = .error q → trap q) ∧
      (∀ ts, x.toNat % 64 = 0 → access s false .read ((x.extractLsb' 0 57).setWidth 64) 64 = .ok ts →
        let r := s.loadPieces ts
        let field (off n : Nat) : Nat := ofBytes ((r.drop off).take n)
        let act := field 14 1
        let engine := (field 15 1).testBit 2
        let rec? := s.openRec (decide (field 10 1 ≠ 0)) (field 0 8)
        let takes := act = 0 ∨ act = 2 ∨ (act = 1 ∧ engine = true)
        ((field 15 1).testBit 3 = true → trap { cause := 0x23, det := 2 }) ∧
        ((field 15 1).testBit 3 = false → rec? = none → trap { cause := 0x23, det := 1 }) ∧
        (∀ o, (field 15 1).testBit 3 = false → rec? = some o →
          (¬takes → trap { cause := 0x23, det := 3 }) ∧
          (takes → Retires s (.eret a) (fun t => ((t.readDone 0 x ts).acquire ts).answer o
            { act := act, engine := engine, emerg := (field 15 1).testBit 1, cause := field 8 2,
              held := decide (field 8 2 = 0x47) && (field 56 4).testBit 31 })))))) ∧
  (∀ (s : State) (o : OpenRec) (q : Answer) (l : Launch), s.launchOf o.id.launch = some l →
    let gone (t : State) : Prop := ∀ k ∈ t.lanes.open_, ¬(k.laneP = o.laneP ∧ k.seq = o.seq)
    ((l.ended || l.finished) = true → s.answer o q = s.closeRec o ∧ gone (s.answer o q)) ∧
    ((l.ended || l.finished) = false → q.act = 2 → s.answer o q = (s.closeRec o).endLaunch o.id.launch) ∧
    ((l.ended || l.finished) = false → q.act ≠ 2 → q.engine = true → gone (s.answer o q) ∧
      ∀ n, o.cmd = some n → ∀ e c, s.headCmd e = some c → c.id = o.id → c.seq = n → c.stopped.isSome = true →
        (s.answer o q).headCmd e = some (if q.act = 0 then { c with stopped := none }
          else { c with stopped := none, ended := true, status := 2, faddr := c.stopped.getD 0 })) ∧
    ((l.ended || l.finished) = false → q.act ≠ 2 → q.engine = false → q.held = false → q.emerg = false →
      ∀ w, s.sched.waiting.find? (fun w => decide (w.id = o.id)) = some w →
        gone (s.answer o q) ∧ (∃ r ∈ (s.answer o q).sched.ready, r.id = o.id ∧ r.cls = w.cls) ∧
          ∀ v ∈ (s.answer o q).sched.waiting, v.id ≠ o.id) ∧
    (∀ cause pc ipc s1, (l.ended || l.finished) = false → q.act ≠ 2 → q.engine = false → q.held = true →
      let u := s.swapTo o.core
      u.core.phase = .held cause pc ipc →
      (u.saveCtx false u.runOf pc ipc 0 cause = (s1, .area) →
        gone (s.answer o q) ∧ ∃ r ∈ (s.answer o q).sched.ready, r.id = u.runOf.id ∧ r.cls = u.runOf.prio) ∧
      (∀ a, u.saveCtx false u.runOf pc ipc 0 cause = (s1, .emergency a) ∨
          u.saveCtx false u.runOf pc ipc 0 cause = (s1, .held a) →
        gone (s.answer o q) ∧ (s.answer o q).sched.ready = s1.sched.ready ∧
          (o.core = s.core.num → ∃ r, (s.answer o q).core.lanesUnposted = s1.core.lanesUnposted ++ [r] ∧ r.laneP = true ∧
            r.held = true ∧ r.open_ = true ∧ r.bytes.take 2 = toBytes 2 0x47))) ∧
    (∀ w, (l.ended || l.finished) = false → q.act ≠ 2 → q.engine = false → q.held = false → q.emerg = true →
      s.sched.waiting.find? (fun w => decide (w.id = o.id)) = some w →
      let u := s.swapTo o.core
      let c := s.sched.saved.getD o.id.key {}
      (∀ s1, u.copyEmergency l o c = .ok s1 → gone (s.answer o q) ∧
        (∃ r ∈ (s.answer o q).sched.ready, r.id = o.id ∧ r.cls = w.cls) ∧
        (∀ v ∈ (s.answer o q).sched.waiting, v.id ≠ o.id) ∧ (o.core = s.core.num → (s.answer o q).core.emergency = none)) ∧
      (∀ t, u.copyEmergency l o c = .error t → (s.answer o q).lanes = s.lanes ∧ (s.answer o q).sched = s.sched ∧
        (o.core = s.core.num → (s.answer o q).core.emergency = s.core.emergency ∧
          ∃ r, (s.answer o q).core.lanesUnposted = s.core.lanesUnposted ++ [r] ∧ r.laneP = true ∧ r.open_ = false ∧
            r.bytes.take 2 = toBytes 2 0x47))))

/-- R279 and R281: SDRD draws from the seed, SDFK replaces it by its child, and WIDR reads the work identifier, a level of
it, the record index or a word of the completion set, which `.csc` clears. -/
def Obligations.SeedsAndIdentifiers : Prop :=
  (∀ (s : State) (a : SR), s.runs (.sdrd a) = true →
    WritesX s (.sdrd a) a.rd (arxh s.core.ctx.kept.seedtop (s.core.ctx.rx a.ra))) ∧
  (∀ (s : State) (a : SR), s.runs (.sdfk a) = true →
    let k := s.core.ctx.kept
    let x := s.core.ctx.rx a.ra
    ∃ t, exec (.sdfk a) s = .next t ∧ t.core.pc = s.nextPc ∧
      t.core.ctx.kept = { k with seedtop := arxh k.seedtop (~~~x) ++ arxh k.seedtop x } ∧
      OnlyRegs (s.onCtx (fun c => { c with kept := t.core.ctx.kept })) t {}) ∧
  (∀ (s : State) (a : SI) (l : Launch), s.runs (.widr a) = true → s.launchOf s.runOf.id.launch = some l →
    let sel := a.imm.toNat
    let r := s.runOf
    let set := s.core.ctx.kept.cset
    (sel = 8 → WritesX s (.widr a) a.rd r.wid) ∧
    (sel = 9 → WritesX s (.widr a) a.rd (BitVec.ofNat 64 r.id.idx)) ∧
    (1 ≤ sel → sel ≤ 6 → WritesX s (.widr a) a.rd
      (BitVec.ofNat 64 (r.wid.toNat / 2 ^ (l.lw.drop sel).foldl (· + ·) 0 % 2 ^ l.lw.getD (sel - 1) 0))) ∧
    (16 ≤ sel → sel < 20 → WritesX s (.widr a) a.rd (set.extractLsb' (64 * (sel - 16)) 64)) ∧
    (24 ≤ sel → sel < 28 →
      ∃ t, exec (.widr a) s = .next t ∧ t.core.pc = s.nextPc ∧
        t.core.ctx.rx a.rd = (if a.rd = 0 then 0 else set.extractLsb' (64 * (sel - 24)) 64) ∧
        (∀ b < 256, t.core.ctx.kept.cset.getLsbD b = (set.getLsbD b && decide (b / 64 ≠ sel - 24))) ∧
        t.core.ctx.kept = { s.core.ctx.kept with cset := t.core.ctx.kept.cset } ∧
        OnlyRegs (s.onCtx (fun c => { c with kept := t.core.ctx.kept })) t { xs := [a.rd] }))

/-- R278: SPAWN with a full area writes all ones and creates nothing; else it takes the next index, writes the child's
record with X1 to X4 of the snapshot, and the child is ready. A bad level, identifier or address faults SPARG. -/
def Obligations.Spawn : Prop :=
  ∀ (s : State) (a : SR) (l : Launch), s.runs (.spawn a) = true → s.launchOf s.runOf.id.launch = some l →
    let r := s.runOf
    let lv := a.fn.toNat % 8
    let xa := s.core.ctx.rx a.ra
    let xb := s.core.ctx.rx a.rb
    let bad := l.lw.length < lv ∨ 2 ^ l.lw.getD (lv - 1) 0 ≤ xa.toNat ∨ xb.toNat % 64 ≠ 0 ∨ canonical xb = false
    (bad → Traps s (.spawn a) { cause := 0x15, pc := s.core.pc, aux := 1 }) ∧
    (∀ nx, ¬bad → deviceRead s r.ctx (l.hdr + 112) 4 = .ok nx →
      let read := s.noteDevice r.ctx (l.hdr + 112) 4
      (l.sparn ≤ ofBytes nx → ∃ t, exec (.spawn a) s = .next t ∧ t.core.pc = s.nextPc ∧
        t.core.ctx.rx a.rd = (if a.rd = 0 then 0 else BitVec.allOnes 64) ∧ (∀ p, t.mem.get p = s.mem.get p) ∧
        OnlyRegs read t { xs := [a.rd] }) ∧
      (∀ nextAt recAt, ofBytes nx < l.sparn → deviceDest s r.ctx (l.hdr + 112) 4 = .ok nextAt →
        deviceDest s r.ctx (l.recVa (ofBytes nx)) 64 = .ok recAt →
        let i := ofBytes nx
        let wid := setField r.wid (l.shift lv) (l.width lv) xa.toNat
        let record := recordBytes wid xb (2 * r.sys.toNat + 4 * r.rst.toNat) 0 (recordWord3 r.prio 0 0 0 l.rem0)
          [s.core.ctx.rx 1, s.core.ctx.rx 2, s.core.ctx.rx 3, s.core.ctx.rx 4]
        ∃ t, exec (.spawn a) s = .next t ∧ t.core.pc = s.nextPc ∧
          t.core.ctx.rx a.rd = (if a.rd = 0 then 0 else BitVec.ofNat 64 i) ∧
          t.mem = ((read.performSegs (dealBytes nextAt (toBytes 4 (i + 1)))).performSegs (dealBytes recAt record)).mem ∧
          (∃ q : Ready, t.sched.ready = s.sched.ready ++ [q] ∧ q.id = ⟨r.id.launch, i⟩ ∧ q.cls = r.prio ∧ q.core = s.core.num) ∧
          OnlyRegs (spawnChild l r i wid xb s.core.ctx.kept.seedtop s.core.ctx.preserved nextAt recAt read) t
            { xs := [a.rd] }))

/-- R282 and R283: SUSP names the wait of its spar, whose core then writes the spar back; R280: EXIT ends it there. A wait
word that SUSP may not name faults SPARG. -/
def Obligations.SuspendAndExit : Prop :=
  (∀ (s : State) (a : SR), s.runs (.susp a) = true →
    let w := s.core.ctx.rx a.ra
    (waitWordOk w = false → Traps s (.susp a) { cause := 0x15, pc := s.core.pc, aux := 1 }) ∧
    (waitWordOk w = true → w.toNat % 16 ≠ 1 → Retires s (.susp a) (fun t => t.setWait w)) ∧
    (∀ p cmp n ts, waitWordOk w = true → w.toNat % 16 = 1 →
      resolve s s.runOf.ctx s.runOf.sys .read (waitSector w) 1 = .ok ((.place p cmp, n) :: ts) →
      Retires s (.susp a) (fun t =>
        { t.setWait w with sched := { t.sched with monitors := suspArm t.sched.monitors s.runOf.id p } }))) ∧
  (∀ (s : State) (a : SR), s.runs (.exit a) = true →
    Retires s (.exit a) (fun t => t.onCore (fun k => { k with run := k.run.map (fun r => { r with exits := true }) }))) ∧
  (∀ (s t : State) (i : Instr), s.runs i = true → (∃ a, i = .susp a ∨ i = .exit a) → exec i s = .next t →
    (∃ q, t.core.phase = .stopping q) ∨ (t.core.phase = .yielding ∧ t.core.pc = s.nextPc ∧ t.core.ctx.shadow = []))

/-! ### The special-function unit -/

/-- One element of SFEV: the table evaluated and rounded in the named mode (R130, R131). -/
def sfevEl (s : State) (a : VArgs) (dir : Nat) (q : Pos) : Nat × Flags :=
  let c := s.core.ctx
  let w := a.fmt.bits
  let code := ((s.envFor (.sfev a)).src a.fmt 1 a.o1).atPos dir a.line.toNat w (c.nc w) q
  let y := sfuEval c.sfu[a.o2.ctl % 4] (a.fmt.value 0 (if a.o1.neg then negCode a.fmt code else code))
  let r := roundF a.fmt 0 y.1 (Rm.ofCode c.arith (bits a.o2.ctl 2 2)) (srWord c.kept.seedtop c.srctr (q.i * c.nc w + q.j))
  (r.1, y.2.join r.2)

/-- The tile that a whole source of FP32 elements supplies: a constant in every element, an image in row 0 (R110). -/
def wholeTile : Src → Tile
  | .tile t _ => t
  | .const v => (BitVec.replicate 256 (BitVec.ofNat 32 v)).setWidth 8192
  | .image r => r.setWidth 8192

/-- R129, R131, R133 and R134: SFLD writes a table whose header is valid, else faults SFTBL; SFEV computes at its snapshot
and lands 12 cycles of tau later, in its tiles or, in the queue form, as one entry of QS for each row, or faults QSOVF
where QS has no room (what an immediate or an image supplies to SFLD is the model's choice, log 23); SFEV_LAND makes every result that is due take effect, in their order, and leaves the others. -/
def Obligations.SpecialFunctions : Prop :=
  (∀ (s : State) (a : VArgs), s.runs (.sfld a) = true →
    let source (k : Nat) (o : Opnd) : Tile := wholeTile ((s.envFor (.sfld a)).src .fp32 k o)
    let table : SfuTable := source 1 a.o1 ++ (source 2 a.o2).extractLsb' 0 256
    (sfuHeaderOk table = false →
      Traps s (.sfld a) { cause := 0x0D, pc := s.core.pc, aux := if a.inB then 3 else 2 }) ∧
    (sfuHeaderOk table = true → ∃ t, exec (.sfld a) s = .next t ∧ t.core.pc = s.nextPc ∧
      (∀ n : Fin 4, t.core.ctx.sfu[n] = if n.val = a.o3.ctl % 4 then table else s.core.ctx.sfu[n]) ∧
      OnlyRegs ((s.afterPops (.sfld a)).onCtx (fun c => { c with sfu := t.core.ctx.sfu })) t {})) ∧
  (∀ (s : State) (a : VArgs), s.runs (.sfev a) = true → (a.o2.ctl / 16) % 2 = 0 →
    let c := s.core.ctx
    let w := a.fmt.bits
    let ps := positions s a w
    let m := a.mask c
    let el (q : Pos) : Nat × Flags := sfevEl s a a.o0.dir.toNat q
    0 < c.nc w → linesOk s a w [(s.envFor (.sfev a)).src a.fmt 1 a.o1] = true →
    ∃ t l, exec (.sfev a) s = .next t ∧ t.core.pc = s.nextPc ∧ t.core.ctx.shadow = c.shadow ++ [l] ∧
      l.at_ = c.tau + 12 ∧ l.dests = a.dests ∧ l.qs = [] ∧ l.flags = joinedFlags m ps (fun _ q => (el q).2) ∧
      (∀ x, x ∈ l.writes ↔ ∃ q ∈ ps, (maskOn m q.i q.j = true ∧ x = ⟨512 * q.i + w * q.j, w, (el q).1⟩) ∨
        (maskOn m q.i q.j = false ∧ a.o0.zer = true ∧ x = ⟨512 * q.i + w * q.j, w, 0⟩)) ∧
      t.core.ctx.srctr = c.srctr + BitVec.ofNat 64 (srCount c (.sfev a)) ∧
      OnlyRegs ((s.afterPops (.sfev a)).onCtx (fun c => { c with shadow := t.core.ctx.shadow })) t { ctl := [0x012] }) ∧
  (∀ (s : State) (a : VArgs), s.runs (.sfev a) = true → (a.o2.ctl / 16) % 2 = 1 →
    let c := s.core.ctx
    let w := a.fmt.bits
    let ps := extent 0 a.line.toNat c.nr (c.nc w)
    let m := a.mask c
    let el (q : Pos) : Nat × Flags := sfevEl s a 0 q
    let pops := ((s.envFor (.sfev a)).named.filter (fun q => decide (q = 2))).length
    0 < c.nc w → ((s.envFor (.sfev a)).src a.fmt 1 a.o1).fits 0 a.line.toNat c.nr (c.nc w) = true →
    (16 + pops < c.qs.length + c.qsPending + c.nr →
      Traps s (.sfev a) { cause := 0x1D, pc := s.core.pc, aux := if a.inB then 3 else 2 }) ∧
    (c.qs.length + c.qsPending + c.nr ≤ 16 + pops → ∃ t l, exec (.sfev a) s = .next t ∧ t.core.pc = s.nextPc ∧
      t.core.ctx.shadow = c.shadow ++ [l] ∧ l.at_ = c.tau + 12 ∧ l.dests = [] ∧
      l.flags = joinedFlags m ps (fun _ q => (el q).2) ∧ l.qs.length = c.nr ∧
      (∀ i r, l.qs[i]? = some r → ∀ b, r.getLsbD b = true ↔ ∃ q ∈ ps, maskOn m q.i q.j = true ∧ q.i = i ∧
        w * q.j ≤ b ∧ b < w * q.j + w ∧ (el q).1.testBit (b - w * q.j) = true) ∧
      t.core.ctx.srctr = c.srctr + BitVec.ofNat 64 (srCount c (.sfev a)) ∧
      OnlyRegs ((s.afterPops (.sfev a)).onCtx (fun c => { c with shadow := t.core.ctx.shadow })) t { ctl := [0x012] })) ∧
  (∀ (s : State) (a : VArgs), s.runs (.sfev a) = true → s.core.ctx.nc a.fmt.bits = 0 →
    ∃ t, exec (.sfev a) s = .next t ∧ t.core.pc = s.nextPc ∧ OnlyRegs (s.afterPops (.sfev a)) t {}) ∧
  (∀ (s : State),
    let due := s.core.ctx.shadow.filter (fun l => decide (l.at_ ≤ s.core.ctx.tau))
    let rest := s.core.ctx.shadow.filter (fun l => decide (s.core.ctx.tau < l.at_))
    let raised := due.foldl (fun u l => u.raise l.flags) s
    (due = [] → exec .sfevLand s = .next s) ∧
    (due ≠ [] → (∀ l ∈ due, l.dests.Nodup ∧ ∀ d ∈ l.dests, d.lvl < 3) → s.laneRoom = true →
    ∃ t, exec .sfevLand s = .next t ∧ t.core.pc = s.core.pc ∧ t.core.ctx.shadow = rest ∧
      t.core.ctx.qs = s.core.ctx.qs ++ due.flatMap (·.qs) ∧
      (∀ d : TileName, d.lvl < 3 → t.core.ctx.rt d =
        (due.filter (fun l => decide (d ∈ l.dests))).foldl (fun x l => applyWrites x l.writes) (s.core.ctx.rt d)) ∧
      t.core.ctx.astat = raised.core.ctx.astat ∧ t.core.satcnt = raised.core.satcnt ∧
      OnlyRegs (s.onCtx (fun c => { c with shadow := rest, qs := t.core.ctx.qs })) t
        { tiles := due.flatMap (·.dests), ctl := [0x011, 0x013] }))

/-! ### The remainder stack -/

/-- A forward form runs where its entry fits the segment and the on-core part: it writes its tile, records its flags and
pushes its payload with its tag (R192, R193, R195); an entry beyond RSKL faults RSKOVF, and one that the on-core part has no
room for waits for a spill. -/
def PushesForm (s : State) (i : Instr) (a : VArgs) (cls w param sw dw : Nat) (f : Pos → Fwd) : Prop :=
  let c := s.core.ctx
  let ps := extent 0 0 c.nr (c.nc sw)
  let sz := 1 + (ps.length * w + 63) / 64
  let next := c.rskp + BitVec.ofNat 64 (8 * sz)
  let fl := joinedFlags none ps (fun _ q => (f q).fl)
  (c.rskl.toNat < c.rskp.toNat + 8 * sz →
    Traps s i { cause := 0x44, addr := c.rskp, pc := s.core.pc, aux := if a.inB then 3 else 2 }) ∧
  (c.rskp.toNat + 8 * sz ≤ c.rskl.toNat → 2 ^ 20 < (next - c.rsks).toNat → exec i s = .next (s.waitBundle (aloneBundle i))) ∧
  (c.rskp.toNat + 8 * sz ≤ c.rskl.toNat → (next - c.rsks).toNat ≤ 2 ^ 20 →
    ∃ t, exec i s = .next t ∧ t.core.pc = s.nextPc ∧ t.core.ctx.rskp = next ∧ t.core.ctx.nseq = c.nseq + 1 ∧
      t.core.ctx.rskCore = c.rskCore.writeN c.rskp.toNat (toBytes (8 * (sz - 1)) (packCodes w (ps.map (fun q => (f q).bits))) ++
        toBytes 8 (rskTag cls (tidOf a.o0) w sz (c.nr - 1) (c.nb - 1) param c.nseq)) ∧
      Elements s t [a.o0.tile] none false dw ps (fun _ q => (f q).y) ∧
      t.core.ctx.astat = (s.raise fl).core.ctx.astat ∧ t.core.satcnt = (s.raise fl).core.satcnt ∧
      OnlyRegs (s.onCtx (fun c => { c with rskp := t.core.ctx.rskp, nseq := t.core.ctx.nseq, rskCore := t.core.ctx.rskCore })) t
        { tiles := [a.o0.tile], ctl := [0x011, 0x013] })

/-- R200 to R204: the forward form of each pair, element by element, and RSKMK, whose entry has no payload. Under a view of no
whole element a form still pushes its entry, with an empty payload: the model's reading of R107 (log 19). -/
def Obligations.ReversibleForward : Prop :=
  (∀ (s : State) (a : VArgs), s.runs (.rnrw a) = true →
    PushesForm s (.rnrw a) a 1 17 0 32 16 (fun q => rnrwEl (elem (s.core.ctx.rt a.o1.tile) 32 q.i q.j))) ∧
  (∀ (s : State) (a : VArgs), s.runs (.rmulq a) = true →
    PushesForm s (.rmulq a) a 2 16 a.o3.ctl 16 16 (fun q =>
      rmulqEl a.o3.ctl (elem (s.core.ctx.rt a.o1.tile) 16 q.i q.j) (elem (s.core.ctx.rt a.o2.tile) 16 q.i q.j))) ∧
  (∀ (s : State) (a : VArgs), s.runs (.raddc a) = true →
    let w := a.fmt.bits
    PushesForm s (.raddc a) a 3 (if a.fmt = .bf16 then 16 else 0) a.et.toNat w w (fun q =>
      let x := elem (s.core.ctx.rt a.o1.tile) w q.i q.j
      let f := elem (s.core.ctx.rt a.o2.tile) w q.i q.j
      if a.fmt = .bf16 then
        let r := roundF .bf16 0 ((Fmt.bf16.value 0 x).add (Fmt.bf16.value 0 f)) .rne 0
        { y := r.1, bits := (x + 65536 - bf16Sub r.1 f) % 65536, fl := r.2 }
      else { y := (x + f) % 2 ^ w, bits := 0 })) ∧
  (∀ (s : State) (a : VArgs), s.runs (.rlrlu a) = true →
    let n := a.o2.ctl
    PushesForm s (.rlrlu a) a 4 n n 16 16 (fun q =>
      let v := (BitVec.ofNat 16 (elem (s.core.ctx.rt a.o1.tile) 16 q.i q.j)).toInt
      if 0 ≤ v then { y := (BitVec.ofInt 16 v).toNat, bits := 0 }
      else { y := (BitVec.ofInt 16 (v / 2 ^ n)).toNat, bits := (v % 2 ^ n).toNat })) ∧
  (∀ (s : State) (a : VArgs), s.runs (.rscl a) = true →
    let k := (BitVec.ofNat 5 a.o2.ctl).toInt
    PushesForm s (.rscl a) a 5 k.natAbs (BitVec.ofInt 6 k).toNat 16 16 (fun q =>
      rsclEl k (elem (s.core.ctx.rt a.o1.tile) 16 q.i q.j))) ∧
  (∀ (s : State) (a : VArgs), s.runs (.rskmk a) = true →
    let c := s.core.ctx
    (c.rskl.toNat < c.rskp.toNat + 8 →
      Traps s (.rskmk a) { cause := 0x44, addr := c.rskp, pc := s.core.pc, aux := if a.inB then 3 else 2 }) ∧
    (c.rskp.toNat + 8 ≤ c.rskl.toNat → (c.rskp + 8 - c.rsks).toNat ≤ 2 ^ 20 →
      ∃ t, exec (.rskmk a) s = .next t ∧ t.core.pc = s.nextPc ∧ t.core.ctx.rskp = c.rskp + 8 ∧
        t.core.ctx.nseq = c.nseq + 1 ∧
        t.core.ctx.rskCore = c.rskCore.writeN c.rskp.toNat (toBytes 8 (rskTag 6 a.o1.ctl 0 1 0 0 0 c.nseq)) ∧
        OnlyRegs (s.onCtx (fun c =>
          { c with rskp := t.core.ctx.rskp, nseq := t.core.ctx.nseq, rskCore := t.core.ctx.rskCore })) t {}))

/-- The tag of the top entry agrees with an undo up to one of R194's checks in its order: 1 class and parameter, 2 tile, 3
shape, 4 order and size. -/
def tagAgrees (c : Ctx) (cls tid n : Nat) (param : Option Nat) (shaped : Bool) (upto : Nat) : Prop :=
  let tag := c.topTag
  let sz := bits tag 22 10
  (1 ≤ upto → bits tag 0 4 = cls ∧ param.getD (bits tag 42 6) = bits tag 42 6) ∧
  (2 ≤ upto → bits tag 4 13 = tid) ∧
  (3 ≤ upto → shaped = true → bits tag 32 4 = c.nr - 1 ∧ bits tag 36 6 = c.nb - 1) ∧
  (4 ≤ upto → bits tag 48 16 = (c.nseq + 65535) % 65536 ∧ sz = 1 + (n * bits tag 17 5 + 63) / 64 ∧
    c.rskb.toNat + 64 + 8 * sz ≤ c.rskp.toNat)

/-- A pop meets its checks in their order: an empty stack and a disagreement fault RSKORD with their DET, an entry that is not
wholly on core waits for a fill, and where all agrees `ok` holds (R194, R195). -/
def PopChecks (s : State) (i : Instr) (aux cls tid n : Nat) (param : Option Nat) (shaped : Bool) (ok : Prop) : Prop :=
  let c := s.core.ctx
  let start := c.rskp.toNat - 8 * bits c.topTag 22 10
  let trap (det : Nat) : Prop := Traps s i { cause := 0x0E, det := det, pc := s.core.pc, aux := aux }
  let waits : Prop := exec i s = .next (s.waitBundle (aloneBundle i))
  let agrees := tagAgrees c cls tid n param shaped
  (c.rskp = c.rskb + 64 → trap 0) ∧
  (c.rskp ≠ c.rskb + 64 → c.rskp.toNat < c.rsks.toNat + 8 → waits) ∧
  (c.rskp ≠ c.rskb + 64 → c.rsks.toNat + 8 ≤ c.rskp.toNat →
    (∀ d ∈ [1, 2, 3, 4], agrees (d - 1) → ¬agrees d → trap d) ∧ (agrees 4 → start < c.rsks.toNat → waits) ∧
    (agrees 4 → c.rsks.toNat ≤ start → ok))

/-- The state's remainder stack as another state has it. -/
def withStack (s t : State) : State :=
  s.onCtx (fun c => { c with rskp := t.core.ctx.rskp, nseq := t.core.ctx.nseq, rskCore := t.core.ctx.rskCore })

/-- An undo runs where its entry is the top one and on core: it pops the entry, writes its tile and raises nothing; the pop
asks for a fill where little is left on core; a value that no forward form left faults RSKORD with DET VALUE (R194, R195). -/
def PopsForm (s : State) (i : Instr) (a : VArgs) (cls : Nat) (param : Option Nat) (sw dw : Nat)
    (f : Nat → Nat → Pos → Option Nat) : Prop :=
  let c := s.core.ctx
  let ps := extent 0 0 c.nr (c.nc sw)
  let tag := c.topTag
  let sz := bits tag 22 10
  let payload := unpackCodes (bits tag 17 5) ps.length (ofBytes (c.rskBytes (c.rskp.toNat - 8 * sz) (8 * (sz - 1))))
  let el (n : Nat) (q : Pos) : Option Nat := f (bits tag 42 6) (payload.getD n 0) q
  let aux := if a.inB then 3 else 2
  PopChecks s i aux cls (tidOf a.o1) ps.length param true
    (((∃ (n : Nat) (q : Pos), ps[n]? = some q ∧ el n q = none) →
      Traps s i { cause := 0x0E, det := 5, pc := s.core.pc, aux := aux }) ∧
    ((∀ (n : Nat) (q : Pos), ps[n]? = some q → (el n q).isSome = true) →
      ∃ t, exec i s = .next t ∧ t.core.pc = s.nextPc ∧ t.core.ctx.rskp = c.rskp - BitVec.ofNat 64 (8 * sz) ∧
        t.core.ctx.nseq = c.nseq - 1 ∧ t.core.ctx.rskFill = t.core.ctx.rskLow ∧
        Elements s t [a.o0.tile] none false dw ps (fun n q => (el n q).getD 0) ∧
        OnlyRegs (withStack s t) t { tiles := [a.o0.tile] }))

/-- An element of UNRW, from a bit of the entry and the narrow element (R200). -/
def unrwEl (b y : Nat) : Option Nat :=
  let up := b / 65536 % 2
  if up = 1 ∧ (y = 0 ∨ y = 0x8000) then none else some ((y + 65536 - up) % 65536 * 65536 + b % 65536)

/-- An element of UADDC (R202). -/
def uaddcEl (t : Fmt) (b y f : Nat) : Nat :=
  if t = .bf16 then (bf16Sub y f + b) % 65536 else (y + 2 ^ t.bits - f) % 2 ^ t.bits

/-- An element of ULRLU (R203). -/
def ulrluEl (n b y : Nat) : Option Nat :=
  let v := (BitVec.ofNat 16 y).toInt
  if 0 ≤ v then (if b ≠ 0 then none else some y) else some (BitVec.ofInt 16 (v * 2 ^ n + b)).toNat

/-- R194 and R200 to R204: the undo form of each pair, and RSKCK, which checks a mark. Under a view of no whole element a form
still pops its entry, whose payload is empty: the model's reading of R107 (log 19). -/
def Obligations.ReversibleUndo : Prop :=
  (∀ (s : State) (a : VArgs), s.runs (.unrw a) = true →
    PopsForm s (.unrw a) a 1 (some 0) 32 32 (fun _ b q => unrwEl b (elem (s.core.ctx.rt a.o1.tile) 16 q.i q.j))) ∧
  (∀ (s : State) (a : VArgs), s.runs (.umulq a) = true →
    PopsForm s (.umulq a) a 2 none 16 16 (fun sh b q => umulqEl sh b (elem (s.core.ctx.rt a.o1.tile) 16 q.i q.j)
      (elem (s.core.ctx.rt a.o2.tile) 16 q.i q.j))) ∧
  (∀ (s : State) (a : VArgs), s.runs (.uaddc a) = true →
    let w := a.fmt.bits
    PopsForm s (.uaddc a) a 3 (some a.et.toNat) w w (fun _ b q => some (uaddcEl a.fmt b
      (elem (s.core.ctx.rt a.o1.tile) w q.i q.j) (elem (s.core.ctx.rt a.o2.tile) w q.i q.j)))) ∧
  (∀ (s : State) (a : VArgs), s.runs (.ulrlu a) = true →
    PopsForm s (.ulrlu a) a 4 none 16 16 (fun n b q => ulrluEl n b (elem (s.core.ctx.rt a.o1.tile) 16 q.i q.j))) ∧
  (∀ (s : State) (a : VArgs), s.runs (.uscl a) = true →
    PopsForm s (.uscl a) a 5 none 16 16 (fun pm b q =>
      usclEl (BitVec.ofNat 6 pm).toInt b (elem (s.core.ctx.rt a.o1.tile) 16 q.i q.j))) ∧
  (∀ (s : State) (a : VArgs), s.runs (.rskck a) = true →
    PopChecks s (.rskck a) (if a.inB then 3 else 2) 6 a.o1.ctl 0 (some 0) false
      (∃ t, exec (.rskck a) s = .next t ∧ t.core.pc = s.nextPc ∧ t.core.ctx.rskp = s.core.ctx.rskp - 8 ∧
        t.core.ctx.nseq = s.core.ctx.nseq - 1 ∧ t.core.ctx.rskFill = t.core.ctx.rskLow ∧ OnlyRegs (withStack s t) t {}))

/-- R199 to R203: the undo of each pair recovers every element that its forward form consumed, from the result and the
entry's bits. -/
def Obligations.ReversiblePairs : Prop :=
  (∀ x < 2 ^ 32, unrwEl (rnrwEl x).bits (rnrwEl x).y = some x) ∧
  (∀ sh ≤ 16, ∀ x < 2 ^ 16, ∀ m, umulqEl sh (rmulqEl sh x m).bits (rmulqEl sh x m).y m = some x) ∧
  (∀ x < 2 ^ 16, ∀ f < 2 ^ 16, uaddcEl .bf16 ((x + 65536 -
    bf16Sub (roundF .bf16 0 ((Fmt.bf16.value 0 x).add (Fmt.bf16.value 0 f)) .rne 0).1 f) % 65536)
    (roundF .bf16 0 ((Fmt.bf16.value 0 x).add (Fmt.bf16.value 0 f)) .rne 0).1 f = x) ∧
  (∀ t ∈ [Fmt.int32, Fmt.q16, Fmt.int8], ∀ x < 2 ^ t.bits, ∀ f < 2 ^ t.bits, uaddcEl t 0 ((x + f) % 2 ^ t.bits) f = x) ∧
  (∀ n, ∀ x < 2 ^ 16, let v := (BitVec.ofNat 16 x).toInt
    ulrluEl n (if 0 ≤ v then 0 else (v % 2 ^ n).toNat)
      (if 0 ≤ v then x else (BitVec.ofInt 16 (v / 2 ^ n)).toNat) = some x) ∧
  (∀ k : Int, -16 ≤ k → k ≤ 15 → ∀ x < 2 ^ 16, usclEl k (rsclEl k x).bits (rsclEl k x).y = some x)

/-- The X, P, A, mask, tile and accumulator registers and the remainder stack's own as they were: what a spill or fill
leaves (R195, R205). -/
def ProgramKept (s t : State) : Prop :=
  (∀ r, t.core.ctx.rx r = s.core.ctx.rx r) ∧ (∀ k, t.core.ctx.rp k = s.core.ctx.rp k) ∧ (∀ n, t.core.ctx.ra n = s.core.ctx.ra n) ∧
    (∀ k, t.core.ctx.rm k = s.core.ctx.rm k) ∧ (∀ n, t.core.ctx.rt n = s.core.ctx.rt n) ∧
    (∀ n, t.core.ctx.rz n = s.core.ctx.rz n) ∧ t.core.ctx.rskp = s.core.ctx.rskp ∧ t.core.ctx.rskb = s.core.ctx.rskb ∧
    t.core.ctx.rskl = s.core.ctx.rskl ∧ t.core.ctx.nseq = s.core.ctx.nseq

/-- The on-core part of a stack covers whole chunks from a multiple of 64 KiB at or above RSKB, and holds at most 1 MiB
(R195). -/
def stackOk (c : Ctx) : Prop :=
  c.rsks.toNat % 65536 = 0 ∧ c.rskb.toNat % 65536 = 0 ∧ c.rskb.toNat ≤ c.rsks.toNat ∧ c.rsks.toNat ≤ c.rskp.toNat ∧
    c.rskp.toNat ≤ c.rsks.toNat + 2 ^ 20

/-- R195, R196 and R205: RSKSP spills chunks while more than its count is on core, and for a count of zero writes the partial
chunk too; RSKFL fills chunks up to its count or 7/8; a fault leaves an RSKSPL trap of the engine for the next boundary, and the
registers are as before. RSK_SPILL moves one chunk out where the on-core part is above 7/8, RSK_FILL one in where a pop left it
below 1/8. All of them wait for a request entry (R242), RSKSP and RSKFL also for the stores that have left the queue (log 28). -/
def Obligations.StackTraffic : Prop :=
  (∀ (s : State) (a : VArgs), s.stackFree = false → ∀ i ∈ [Instr.rsksp a, .rskfl a], s.runs i = true →
    exec i s = .next (s.waitBundle (aloneBundle i))) ∧
  (∀ (s : State) (a : VArgs), s.runs (.rsksp a) = true → s.stackFree = true →
    let n := a.o1.ctl
    Retires s (.rsksp a) (fun t => rskDone (match spillDown n 16 t with
      | (u, none) => if n = 0 then u.spillAll else (u, none)
      | r => r)) ∧
    (stackOk s.core.ctx → ∃ t, exec (.rsksp a) s = .next t ∧ t.core.pc = s.nextPc ∧ ProgramKept s t ∧
      (∀ q ∈ t.core.ctx.engTraps, q.cause = 0x45) ∧
      (t.core.ctx.engTraps = [] → (t.core.ctx.rskp - t.core.ctx.rsks).toNat ≤ n * 65536 ∨
        t.core.ctx.rsks.toNat = t.core.ctx.rskp.toNat / 65536 * 65536))) ∧
  (∀ (s : State) (a : VArgs), s.runs (.rskfl a) = true → s.stackFree = true →
    let n := a.o1.ctl
    Retires s (.rskfl a) (fun t => rskDone (fillUp n 16 t)) ∧
    (stackOk s.core.ctx → ∃ t, exec (.rskfl a) s = .next t ∧ t.core.pc = s.nextPc ∧ ProgramKept s t ∧
      (∀ q ∈ t.core.ctx.engTraps, q.cause = 0x45) ∧
      (t.core.ctx.engTraps = [] → n * 65536 ≤ (t.core.ctx.rskp - t.core.ctx.rsks).toNat ∨ t.core.ctx.rsks = t.core.ctx.rskb ∨
        917504 < (t.core.ctx.rskp - t.core.ctx.rsks).toNat + 65536))) ∧
  (∀ s : State, s.core.run.isSome = true → engineFree s = true → 917504 < (s.core.ctx.rskp - s.core.ctx.rsks).toNat → s.core.ctx.engTraps = [] →
    ∃ t, exec .rskSpill s = .next t ∧ t.core.pc = s.core.pc ∧ ProgramKept s t ∧
      (∀ u, s.spillChunk = .ok u → t = u ∧ t.core.ctx.rsks = s.core.ctx.rsks + 65536) ∧
      (∀ q, s.spillChunk = .error q → q.isHold = false → t = s.onCtx (fun c => { c with engTraps := [{ cause := 0x45, addr := q.addr }] }))) ∧
  (∀ s : State, s.core.run.isSome = true → engineFree s = true → s.core.ctx.rskFill = true → (s.core.ctx.rskp - s.core.ctx.rsks).toNat < 131072 →
    s.core.ctx.rskb.toNat < s.core.ctx.rsks.toNat → s.core.ctx.engTraps = [] →
    ∃ t, exec .rskFill s = .next t ∧ t.core.pc = s.core.pc ∧ ProgramKept s t ∧
      (∀ u, s.fillChunk = .ok u → t = u ∧ t.core.ctx.rsks = s.core.ctx.rsks - 65536) ∧
      (∀ q, s.fillChunk = .error q → q.isHold = false → t = s.onCtx (fun c => { c with engTraps := [{ cause := 0x45, addr := q.addr }] })))

/-! ### The matrix slot -/

/-- A matrix operation's job reaches the engine: it starts where nothing runs and waits behind the running one otherwise,
with its tiles captured as they stand and its QM entry reserved where it pushes one (R44, R144, R146, R159); `g` is what its
commit does beside. -/
def SendsJob (s : State) (i : Instr) (push : Bool) (ns : List TileName) (g : Ctx → Ctx) : Prop :=
  let c := s.core.ctx
  ∃ t j, exec i s = .next t ∧ t.core.pc = s.nextPc ∧ j.op = i ∧ j.addr = s.core.pc ∧ j.cfg = c.mcfgr ∧
    j.seed = c.kept.seedtop ∧ j.kstep = 0 ∧ j.push = push ∧ j.tiles = captureTiles c ns ∧
    t.core.ctx.qmRes = c.qmRes + push.toNat ∧
    t.core.ctx.running = (if c.running.isNone then some j else c.running) ∧
    t.core.ctx.waiting = (if c.running.isNone then none else some j) ∧
    OnlyRegs (s.onCtx (fun c => { g c with running := t.core.ctx.running, waiting := t.core.ctx.waiting })) t { ctl := [0x012] }

/-- The first of an operation's issue checks that fails is the cause of its trap; where none fails its job is sent. -/
def ChecksThenSends (s : State) (i : Instr) (push : Bool) (ns : List TileName) (checks : List (Bool × Nat)) : Prop :=
  (∀ q, checks.find? (·.1) = some q → Traps s i { cause := q.2, pc := s.core.pc, aux := 4 }) ∧
  (checks.find? (·.1) = none → SendsJob s i push ns id)

/-- No QM entry is free for a reservation beyond those that the bundle's own pops free (R159). -/
def noQmEntry (s : State) : Bool := decide (16 < s.core.ctx.qm.length + s.core.ctx.qmRes + 1)

/-- The tile footprint of an accumulator's chain is smaller than M by N (R168). -/
def smallFootprint (c : Ctx) (z : Nat) : Bool :=
  decide ((c.zth z).fm < bits c.mcfgr.toNat 0 7 + 1 ∨ (c.zth z).fn < bits c.mcfgr.toNat 7 7 + 1)

/-- The A tiles of an MMA or MMAG (R152). -/
def aReads (s : State) (a : MArgs) (f : Fmt) : List TileName :=
  aTiles s.core.ctx s.core.ctx.mcfgr f a.oa (a.f 22 1 = 1) a.k

/-- The scale tiles of a micro-scaled MMA: eight blocks of 32 to a tile (R152, R170). -/
def scaleReads (a : MArgs) (micro : Bool) : List TileName :=
  if micro then
    (List.range ((((a.k + 31) / 32) + 7) / 8)).map (fun q => ⟨a.ob.lvl.toNat, a.ob.idx.toNat + q⟩) else []

/-- A gathered A tile does not exist. -/
def gatherBad (s : State) (a : MArgs) (f : Fmt) : Bool :=
  decide (a.f 22 1 = 1) && (aReads s a f).any (fun n => decide (n.lvl = 0 ∧ 2047 < n.idx))

/-- The weight buffer holds another format, or fewer k-rows than the operation reads. -/
def weightsBad (s : State) (a : MArgs) (f : Fmt) : Bool :=
  let b := s.core.ctx.wb (a.f 21 1 = 1)
  decide (b.tag ≠ some f) || decide (b.kl < a.koff + a.k)

/-- The checks of an MMA in their order (R153). -/
def mmaChecks (s : State) (a : MArgs) (f : Fmt) (micro : Bool) : List (Bool × Nat) :=
  [(gatherBad s a f, 0x06), (micro && decide (a.koff % 32 ≠ 0), 0x05), (weightsBad s a f, 0x07),
   (decide (a.f 20 1 = 1) && smallFootprint s.core.ctx a.zd.toNat, 0x09), (postOf s.core.ctx.mcfgr && noQmEntry s, 0x1B)]

/-- The checks of an MMAG in their order (R153, R155). -/
def mmagChecks (s : State) (a : MArgs) : List (Bool × Nat) :=
  let f := fmtOf3 (a.f 25 3)
  [(gatherBad s a f, 0x06), (f.micro && decide (a.koff % 32 ≠ 0), 0x05), (weightsBad s a f, 0x07),
   (postOf s.core.ctx.mcfgr && noQmEntry s, 0x1B)]

/-- R147, R153 to R157, R168 and R173 to R176: the checks of the multiplying, accumulating, draining and checking
operations in their order, and the job that each sends. The rules name the checks and leave their order open: the order of
MIDX, MXALIGN, MWPNL, THSHP and QMOVF is the model's (log 16). -/
def Obligations.MatrixCommands : Prop :=
  (∀ p ∈ [(Instr.mmaBf16, Fmt.bf16, false), (Instr.mmaFp16, .fp16, false), (Instr.mmaE4m3, .e4m3, true),
          (Instr.mmaE5m2, .e5m2, true), (Instr.mmaE2m3, .e2m3, true), (Instr.mmaE3m2, .e3m2, true),
          (Instr.mmaE2m1, .e2m1, true), (Instr.mmaQ4x, .q4x, true)],
    ∀ (s : State) (a : MArgs), s.runs (p.1 a) = true →
      ChecksThenSends s (p.1 a) (postOf s.core.ctx.mcfgr) (aReads s a p.2.1 ++ scaleReads a p.2.2) (mmaChecks s a p.2.1 p.2.2)) ∧
  (∀ (s : State) (a : MArgs), s.runs (.mmag a) = true →
    ChecksThenSends s (.mmag a) (postOf s.core.ctx.mcfgr) (aReads s a (fmtOf3 (a.f 25 3))) (mmagChecks s a)) ∧
  (∀ (s : State) (a : MArgs), s.runs (.sacc a) = true →
    ChecksThenSends s (.sacc a) (postOf s.core.ctx.mcfgr)
      ((if a.f 7 1 = 1 then [a.oa.tile] else []) ++ (if a.f 8 1 = 1 then [a.ob.tile] else []))
      [(smallFootprint s.core.ctx a.zd.toNat, 0x09), (postOf s.core.ctx.mcfgr && noQmEntry s, 0x1B)]) ∧
  (∀ (s : State) (a : MArgs), s.runs (.mdrn a) = true →
    ChecksThenSends s (.mdrn a) (postOf s.core.ctx.mcfgr) []
      [(smallFootprint s.core.ctx a.zd.toNat, 0x09), (postOf s.core.ctx.mcfgr && noQmEntry s, 0x1B)]) ∧
  (∀ p ∈ [(Instr.mzero, fun _ : MArgs => false), (Instr.mchk, fun a => decide (a.f 0 1 = 1)), (Instr.mrecomp, fun _ => false)],
    ∀ (s : State) (a : MArgs), s.runs (p.1 a) = true →
      let push := postOf s.core.ctx.mcfgr || p.2 a
      ChecksThenSends s (p.1 a) push [] [(push && noQmEntry s, 0x1B)])

/-- The A tiles of a computing MLAT: K is the tokens of a value, else d_h to expand and d_c to absorb (R184, R185). -/
def latReads (s : State) (a : MArgs) (expand : Bool) : List TileName :=
  let c := s.core.ctx
  aTiles c c.mcfgr (if a.lfmt = .fp16 then .fp16 else .bf16) a.oa false
    (if a.value then a.tokens else if expand then c.dhOf (a.f 6 3) else a.dc)

/-- The segment holds no projection of the operation's d_c, or one without the columns that a value reads. -/
def projectionBad (s : State) (a : MArgs) : Bool :=
  match (s.core.ctx.segs.toList.getD (a.f 6 3) {}).tag with
  | .base dc dh _ _ => decide (dc ≠ a.dc) || (a.value && decide (dh < a.coff + (bits s.core.ctx.mcfgr.toNat 7 7 + 1)))
  | _ => true

/-- The checks of a computing MLAT in their order (R185). -/
def latChecks (s : State) (a : MArgs) (expand : Bool) : List (Bool × Nat) :=
  let c := s.core.ctx
  let entries := (List.range (if a.value then a.tokens else bits c.mcfgr.toNat 7 7 + 1)).map
    (fun q => tileField (c.rt a.ob.tile) (32 * q) 32)
  [(expand && projectionBad s a, 0x0B), (entries.any (indexBad a.lfmt a.dc s.runOf.bank0 s.runOf.banks), 0x0C),
   (decide (a.f 2 1 = 1) && smallFootprint c a.zd.toNat, 0x09), (postOf c.mcfgr && noQmEntry s, 0x1B)]

/-- R146, R149, R150, R180, R182 and R185: MCFG writes MCFGR; MWLD tags its buffer and joins its stream; `mlat.load` tags
its segments; the compute forms of MLAT check their projection and their index. The rules leave the order of the checks open: SSVIOL before
NCANON before MWALIGN before QMOVF, and the order inside `latChecks`, are the model's (log 16). -/
def Obligations.MatrixLoads : Prop :=
  (∀ (s : State) (a : MArgs), s.runs (.mcfg a) = true →
    ∃ t, exec (.mcfg a) s = .next t ∧ t.core.pc = s.nextPc ∧ t.core.ctx.mcfgr = BitVec.ofNat 64 (a.mctl.toNat % 2 ^ 21) ∧
      OnlyRegs (s.onCtx (fun c => { c with mcfgr := t.core.ctx.mcfgr })) t {}) ∧
  (∀ (s : State) (a : MArgs), s.runs (.mwld a) = true →
    let c := s.core.ctx
    let x := c.rx a.oa.xreg
    let tiles := decide (a.f 1 1 = 1)
    let wb := decide (a.f 0 1 = 1)
    let push := postOf c.mcfgr
    let trap (cause : Nat) (addr : Word) : Prop := Traps s (.mwld a) { cause := cause, addr := addr, pc := s.core.pc, aux := 4 }
    (tiles = false → s.runOf.ss = true → trap 0x16 x) ∧
    (tiles = false → s.runOf.ss = false → canonical x = false → trap 0x03 x) ∧
    (tiles = false → s.runOf.ss = false → canonical x = true → x.toNat % 128 ≠ 0 → trap 0x08 x) ∧
    ((tiles = true ∨ (s.runOf.ss = false ∧ canonical x = true ∧ x.toNat % 128 = 0)) →
      ((push && noQmEntry s) = true → trap 0x1B 0) ∧
      ((push && noQmEntry s) = false → ∃ t, exec (.mwld a) s = .next t ∧ t.core.pc = s.nextPc ∧
        (t.core.ctx.wb wb).tag = some (fmtOf3 (a.f 2 3)) ∧ (t.core.ctx.wb wb).kl = a.f 5 10 + 1 ∧
        (t.core.ctx.wb wb).data = (c.wb wb).data ∧ t.core.ctx.wb (!wb) = c.wb (!wb) ∧
        t.core.ctx.qmRes = c.qmRes + push.toNat ∧
        ((c.ws wb).active = none → (c.ws wb).queued = none → c.holdsLoad wb = false →
          ∃ l, (t.core.ctx.ws wb).active = some l ∧ l.fmt = fmtOf3 (a.f 2 3) ∧ l.k = a.f 5 10 + 1 ∧ l.fromTiles = tiles ∧
            (tiles = false → l.src = x.toNat) ∧ l.landed = 0 ∧ l.addr = s.core.pc) ∧
        OnlyRegs (s.onCtx (fun c =>
          { c with wb0 := t.core.ctx.wb0, wb1 := t.core.ctx.wb1, ws0 := t.core.ctx.ws0, ws1 := t.core.ctx.ws1,
                   running := t.core.ctx.running, waiting := t.core.ctx.waiting })) t {}))) ∧
  (∀ (s : State) (a : MArgs), s.runs (.mlatLoad a) = true →
    let c := s.core.ctx
    let x := c.rx a.oa.xreg
    let push := postOf c.mcfgr
    let trap (cause : Nat) (addr : Word) : Prop :=
      Traps s (.mlatLoad a) { cause := cause, addr := addr, pc := s.core.pc, aux := 4 }
    (s.runOf.ss = true → trap 0x16 x) ∧
    (s.runOf.ss = false → canonical x = false → trap 0x03 x) ∧
    (s.runOf.ss = false → canonical x = true → x.toNat % 128 ≠ 0 → trap 0x08 x) ∧
    (s.runOf.ss = false → canonical x = true → x.toNat % 128 = 0 →
      ((push && noQmEntry s) = true → trap 0x1B 0) ∧
      ((push && noQmEntry s) = false → SendsJob s (.mlatLoad a) push []
        (fun c => { c with segs := tagSegs c.segs (a.f 6 3) a.dc (loadDh a) x })))) ∧
  (∀ p ∈ [(Instr.mlatExpand, true), (Instr.mlatAbsorb, false)],
    ∀ (s : State) (a : MArgs), s.runs (p.1 a) = true →
      ChecksThenSends s (p.1 a) (postOf s.core.ctx.mcfgr) (a.ob.tile :: latReads s a p.2) (latChecks s a p.2))

/-- The running instruction of the matrix engine completes: its QM entry lands where it pushes one, and nothing runs (R144, R158,
R177). -/
def JobEnds (s t : State) (j : MJob) (byte9 sats : Nat) (tail : List Nat) : Prop :=
  t.core.ctx.running = none ∧ t.core.ctx.waiting = s.core.ctx.waiting ∧ t.core.pc = s.core.pc ∧ t.mem = s.mem ∧
    (∀ r, t.core.ctx.rx r = s.core.ctx.rx r) ∧
    t.core.ctx.qm = s.core.ctx.qm ++ (if j.push then [qmEntry j.addr (matrixOpc j.op) byte9 sats tail] else [])

/-- A check that fails stops the running instruction at its start with THMIS (R171, R295). -/
def JobStops (s t : State) (j : MJob) (det z : Nat) : Prop :=
  t.core.ctx.running = some { j with stopped := true, kstep := 0, rows := none } ∧ t.core.ctx.qm = s.core.ctx.qm ∧
    (∀ n, t.core.ctx.rt n = s.core.ctx.rt n) ∧
    t.core.ctx.engTraps = s.core.ctx.engTraps ++ [{ cause := 0x0A, det := det, aux := z, ipc := j.addr }]

/-- The bytes 16 to 21 that a check gives its QM entry (R177). -/
def checkBytes (o : CheckOut) : List Nat :=
  let at_ := o.at_.getD (0xFF, 0xFF)
  [o.outcome, min 255 o.rows, min 255 o.cols, min 255 o.exempt, at_.1, at_.2]

/-- R171, R178 and R179: what a check finds. No failing line: nothing changes. One row and one column that cross at an element
whose correction passes: the element is corrected, CORR counts, and ERRMAP names the physical row and column with KIND 0. Any
other case replays a chain of fresh sources; one that is not fresh, or longer than 8 records, is THMIS, and ERRMAP names the
failing lines with KIND 1. -/
def CheckFinds (s : State) (n : Nat) : Prop :=
  let c := s.core.ctx
  let h := c.zth n
  let z := c.rz n
  let seen : CheckOut := { rows := (failing z h).1.length, cols := (failing z h).2.length, exempt := h.exempt }
  (failing z h = ([], []) → s.checkZ n = (s, seen)) ∧
  (∀ i k, failing z h = ([i], [k]) → (rowBad (correctCell z h i k) h i || colBad (correctCell z h i k) h k) = false →
    ∃ t, s.checkZ n = (t, { seen with outcome := 1, at_ := some (i, k) }) ∧ t.core.ctx.rz n = correctCell z h i k ∧
      (∀ q, q ≠ n → t.core.ctx.rz q = c.rz q) ∧ t.core.thcnt = bumpField s.core.thcnt 0 1 ∧
      bits t.core.errmap.toNat 0 8 = physical 128 s.core.retRows i % 256 ∧
      bits t.core.errmap.toNat 8 8 = physical 96 s.core.retCols k % 256 ∧ bits t.core.errmap.toNat 16 1 = 0) ∧
  (∀ i k, failing z h = ([i], [k]) → (rowBad (correctCell z h i k) h i || colBad (correctCell z h i k) h k) = true →
    s.checkZ n = (s.errmapHit [i] [k] 1).recompute n seen) ∧
  (∀ rs ks, failing z h = (rs, ks) → (rs, ks) ≠ ([], []) → (∀ i k, (rs, ks) ≠ ([i], [k])) →
    s.checkZ n = (s.errmapHit rs ks 1).recompute n seen) ∧
  (s.recomputable h = false → s.recompute n seen = (s, { seen with outcome := 3, mis := some 1 })) ∧
  (s.recomputable h = true → failing (replay c n h) h = ([], []) →
    ∃ t, s.recompute n seen = (t, { seen with outcome := 2 }) ∧ t.core.ctx.rz n = replay c n h ∧
      t.core.thcnt = bumpField s.core.thcnt 32 1) ∧
  (s.recomputable h = true → failing (replay c n h) h ≠ ([], []) →
    ∃ t, s.recompute n seen = (t, { seen with outcome := 3, mis := some 0 }) ∧ t.core.ctx.rz n = replay c n h)

/-- R43, R144, R150, R151, R154 to R158, R161, R168, R171, R173 to R179, R182, R186, R187, R231, R242 and R272: the waiting
instruction starts once nothing runs; a k-step adds its products to the accumulator, those of an MMAG to a partial sum that
enters its tile with the group's last step, those of an MLAT from the rows gathered at its start; MZERO, SACC, MDRN, MCHK and
MRECOMP complete in one step, with the check of R171 where they have one, and an instruction of k-steps once all have run, each
with its QM entry; a sector of a stream lands, and one that cannot be read stops its stream with the trap of its fault; a
follow-on enters once its copy has ended. The engine starts nothing once its spar stops, and runs only k-steps whose rows have
landed before their stream stopped. -/
def Obligations.MatrixEngineEvents : Prop :=
  (∀ (s : State) (j : MJob), s.core.matrixOn = true → s.core.ctx.running = none → s.core.ctx.waiting = some j →
    exec .matrixStart s = .next (s.onCtx (fun c => { c with running := some j, waiting := none }))) ∧
  (∀ (s : State) (t : TrapInfo), s.core.phase = .stopping t →
    exec .matrixStart s = .next s ∧
      ((∀ j, s.core.ctx.running = some j → s.core.ctx.starved j = false) → exec .matrixKstep s = .next s)) ∧
  (∀ (s : State) (j : MJob) (a : MArgs) (f : Fmt), s.core.kstepsOn j = true → s.core.ctx.running = some j →
    mmaFmt j.op = some (a, f) → j.stopped = false → s.plat.dbg ≠ 2 → j.kstep < (a.k + 31) / 32 → s.laneRoom = true →
    let c := s.core.ctx
    let group := ∃ b, j.op = .mmag b
    let micro := f.micro
    let p : Prod := { a := a, k := a.k, fa := f, micro := micro, acc := decide (a.f 20 1 = 1), tf := f.tf }
    let pg : Prod := { p with micro := false, acc := false }
    let cells := kCells (c.rz a.zd.toNat) (j.kstep == 0 && !p.acc) a.oa.neg micro (j.kblock c p j.kstep)
    let gs := a.groupSteps
    let zg := a.zd.toNat + j.kstep / gs
    let part := partials (decide (j.kstep % gs = 0)) a.oa.neg (j.kblock c pg j.kstep) c.part
    let ends := j.kstep % gs = gs - 1 ∨ j.kstep + 1 = (a.k + 31) / 32
    let runs (t : State) : Prop := (∃ k, t.core.ctx.running = some { j with kstep := j.kstep + 1, sats := k }) ∧
      t.core.pc = s.core.pc ∧ t.mem = s.mem ∧ (∀ r, t.core.ctx.rx r = c.rx r) ∧ ∀ n, t.core.ctx.rt n = c.rt n
    (¬group → c.panelReady j p j.kstep = true →
      ∃ t, exec .matrixKstep s = .next t ∧ runs t ∧ t.core.ctx.rz a.zd.toNat = zPuts (c.rz a.zd.toNat) cells ∧
        ∀ n, n ≠ a.zd.toNat → t.core.ctx.rz n = c.rz n) ∧
    (group → c.panelReady j pg j.kstep = true → ¬ends →
      ∃ t, exec .matrixKstep s = .next t ∧ runs t ∧ t.core.ctx.part = part ∧ ∀ n, t.core.ctx.rz n = c.rz n) ∧
    (group → c.panelReady j pg j.kstep = true → ends →
      ∃ t, exec .matrixKstep s = .next t ∧ runs t ∧ t.core.ctx.part = [] ∧
        t.core.ctx.rz zg = zPuts (c.rz zg) (groupCells j.m j.n part) ∧ ∀ n, n ≠ zg → t.core.ctx.rz n = c.rz n) ∧
    ((if j.op = .mmag a then c.panelReady j pg j.kstep else c.panelReady j p j.kstep) = false →
      exec .matrixKstep s = .next s)) ∧
  (∀ (s : State) (j : MJob) (a : MArgs) (p : Prod), s.core.kstepsOn j = true → s.core.ctx.running = some j →
    latArgs j.op = some a → j.prod = some p → j.stopped = false → s.plat.dbg ≠ 2 → j.kstep < (p.k + 31) / 32 →
    s.laneRoom = true →
    let es := (List.range (if a.value then a.tokens else j.n)).map (fun k => tileField (j.tile a.ob.tile) (32 * k) 32)
    let zd := a.zd.toNat
    let steps (s1 : State) (rows : List (List Val)) : Prop :=
      let j1 := { j with rows := some rows }
      let c := s1.core.ctx
      let cells := kCells (c.rz zd) (j.kstep == 0 && !decide (a.f 2 1 = 1)) a.oa.neg false (j1.kblock c p j.kstep)
      ∃ t, exec .matrixKstep s = .next t ∧ t.core.ctx.rz zd = zPuts (c.rz zd) cells ∧
        (∀ n, n ≠ zd → t.core.ctx.rz n = c.rz n) ∧ (∃ k, t.core.ctx.running = some { j1 with kstep := j.kstep + 1, sats := k }) ∧
        t.core.pc = s.core.pc ∧ t.mem = s1.mem ∧ ∀ r, t.core.ctx.rx r = s.core.ctx.rx r
    (∀ rows, j.rows = some rows → steps s rows) ∧
    (∀ s1 rows, j.rows = none → gatherRows s a.lfmt a.dc es = (s1, .ok rows) → steps s1 rows) ∧
    (∀ s1 page, j.rows = none → gatherRows s a.lfmt a.dc es = (s1, .error page) →
      ∃ t, exec .matrixKstep s = .next t ∧ t.mem = s1.mem ∧
        t.core.ctx.running = some { j with stopped := true, kstep := 0, rows := none } ∧
        t.core.ctx.engTraps = s.core.ctx.engTraps ++
          [{ cause := 0x0A, det := 4, aux := zd, addr := BitVec.ofNat 64 page, ipc := j.addr }])) ∧
  (∀ (s : State) (j : MJob) (a : MArgs) (codes : List (List Nat)), s.core.kstepsOn j = true → s.core.ctx.running = some j →
    j.op = .mlatLoad a → j.stopped = false → j.reload = false → s.plat.dbg ≠ 2 → j.kstep < a.f 9 5 + 1 →
    (engineFree s = false → exec .matrixKstep s = .next s) ∧
    (engineFree s = true → projBlock s j.xs a.dc (loadDh a) j.kstep = .ok codes →
      exec .matrixKstep s = .next ((s.noteProj j.xs a.dc (loadDh a) j.kstep).onCtx (fun c =>
        { c.putBlock (a.f 6 3) (loadDh a) j.kstep codes with running := some { j with kstep := j.kstep + 1 } })))) ∧
  (∀ (s : State) (j : MJob), s.core.ctx.running = some j → s.core.ctx.waiting.all (fun w => !isPanelLoad w) = true →
    j.stopped = false → s.core.lanesUnposted = [] →
    let c := s.core.ctx
    (∀ a, j.op = .mzero a → ∃ t, exec .matrixComplete s = .next t ∧ JobEnds s t j a.zd.toNat j.sats [] ∧
      ∀ n, t.core.ctx.rz n = if a.zd.toNat ≤ n ∧ n ≤ a.zd.toNat + a.f 0 6 then 0 else c.rz n) ∧
    (∀ a, j.op = .sacc a → CheckFinds s (a.f 0 6) ∧
      (∀ s1 o det, s.checkZ (a.f 0 6) = (s1, o) → o.mis = some det →
        ∃ t, exec .matrixComplete s = .next t ∧ JobStops s t j det (a.f 0 6)) ∧
      (∀ s1 o, s.checkZ (a.f 0 6) = (s1, o) → o.mis = none →
        let d := s1.core.ctx
        let cells := saccCells j a (d.rz (a.f 0 6)) (d.rz a.zd.toNat)
        ∃ t, exec .matrixComplete s = .next t ∧ JobEnds s t j a.zd.toNat (j.sats + (cellFlags cells).sats) [] ∧
          t.core.ctx.rz a.zd.toNat = zPuts (d.rz a.zd.toNat) cells ∧ t.core.thcnt = s1.core.thcnt ∧
          t.core.errmap = s1.core.errmap ∧ (∀ n, n ≠ a.zd.toNat → t.core.ctx.rz n = d.rz n) ∧
          t.core.ctx.astat = (s1.raise (cellFlags cells)).core.ctx.astat)) ∧
    (∀ a, j.op = .mdrn a → CheckFinds (s.inject a.zd.toNat) a.zd.toNat ∧
      (∀ s1 o det, (s.inject a.zd.toNat).checkZ a.zd.toNat = (s1, o) → o.mis = some det →
        ∃ t, exec .matrixComplete s = .next t ∧ JobStops s t j det a.zd.toNat) ∧
      (∀ s1 o, (s.inject a.zd.toNat).checkZ a.zd.toNat = (s1, o) → o.mis = none → a.oa.lvl.toNat < 3 → a.ob.lvl.toNat < 3 →
        let f := drainFmt a
        let el (i k : Nat) : Nat × Flags := roundF f 0 (zVal (s1.core.ctx.rz a.zd.toNat) i k) (Rm.ofCode j.arith (a.f 2 2))
          (srWord j.seed j.srBase (i * j.n + k))
        let fl := (List.range j.m).foldl (fun g i => (List.range j.n).foldl (fun g k => g.join (el i k).2) g) Flags.none
        let ncb := (j.n * (f.bits / 8) + 63) / 64
        let tileAt (i k : Nat) : TileName := ⟨a.oa.lvl.toNat, a.oa.idx.toNat + i / 16 * ncb + k * (f.bits / 8) / 64⟩
        let sums := flash j.n ((List.range j.m).map (fun i => (List.range j.n).map (fun k => f.value 0 (el i k).1)))
        ∃ t, exec .matrixComplete s = .next t ∧ JobEnds s t j a.zd.toNat (j.sats + fl.sats) (checkBytes o) ∧
          (∀ n, t.core.ctx.rz n = s1.core.ctx.rz n) ∧ t.core.thcnt = s1.core.thcnt ∧ t.core.errmap = s1.core.errmap ∧
          (∀ i k, i < j.m → k < j.n → (a.f 4 1 = 0 ∨ tileAt i k ≠ a.ob.tile) →
            elem (t.core.ctx.rt (tileAt i k)) f.bits (i % 16) (k % (64 / (f.bits / 8))) = (el i k).1) ∧
          (a.f 4 1 = 1 → j.n ≤ 96 → (∀ i k, i < j.m → k < j.n → tileAt i k ≠ a.ob.tile) →
            (∀ k x, sums.1[k]? = some x → tileField (t.core.ctx.rt a.ob.tile) (32 * k) 32 = x) ∧
            (∀ i x, sums.2.1[i]? = some x → tileField (t.core.ctx.rt a.ob.tile) (8 * 384 + 32 * i) 32 = x) ∧
            tileField (t.core.ctx.rt a.ob.tile) (8 * 896) 32 = sums.2.2) ∧
          (∀ n, n.lvl < 3 → n ∉ drainTiles a j.m j.n → t.core.ctx.rt n = s.core.ctx.rt n))) ∧
    (∀ a, j.op = .mchk a →
      let s0 := s.inject a.zd.toNat
      CheckFinds s0 a.zd.toNat ∧
      (a.f 0 1 = 1 → ∃ t, exec .matrixComplete s = .next t ∧
        JobEnds s t j a.zd.toNat j.sats (checkBytes (s0.reportZ a.zd.toNat)) ∧ (∀ n, t.core.ctx.rz n = s0.core.ctx.rz n) ∧
        t.core.thcnt = s.core.thcnt ∧ t.core.errmap = s.core.errmap) ∧
      (∀ s1 o det, a.f 0 1 = 0 → s0.checkZ a.zd.toNat = (s1, o) → o.mis = some det →
        ∃ t, exec .matrixComplete s = .next t ∧ JobStops s t j det a.zd.toNat) ∧
      (∀ s1 o, a.f 0 1 = 0 → s0.checkZ a.zd.toNat = (s1, o) → o.mis = none →
        ∃ t, exec .matrixComplete s = .next t ∧ JobEnds s t j a.zd.toNat j.sats (checkBytes o) ∧
          (∀ n, t.core.ctx.rz n = s1.core.ctx.rz n) ∧ t.core.thcnt = s1.core.thcnt ∧ t.core.errmap = s1.core.errmap)) ∧
    (∀ a, j.op = .mrecomp a →
      let s0 := s.inject a.zd.toNat
      let seen : CheckOut := { exempt := (s0.core.ctx.zth a.zd.toNat).exempt }
      (∀ s1 o det, s0.recompute a.zd.toNat seen = (s1, o) → o.mis = some det →
        ∃ t, exec .matrixComplete s = .next t ∧ JobStops s t j det a.zd.toNat) ∧
      (∀ s1 o, s0.recompute a.zd.toNat seen = (s1, o) → o.mis = none →
        ∃ t, exec .matrixComplete s = .next t ∧ JobEnds s t j a.zd.toNat j.sats (checkBytes o) ∧
          t.core.ctx.rz a.zd.toNat = replay s0.core.ctx a.zd.toNat (s0.core.ctx.zth a.zd.toNat) ∧
          t.core.thcnt = bumpField s.core.thcnt 32 1 ∧ t.core.errmap = s.core.errmap)) ∧
    (∀ p, j.prod = some p → (p.k + 31) / 32 ≤ j.kstep → ∃ t, exec .matrixComplete s = .next t ∧
      JobEnds s t j p.a.zd.toNat j.sats [] ∧ ∀ n, t.core.ctx.rz n = c.rz n) ∧
    (∀ p, j.prod = some p → j.kstep < (p.k + 31) / 32 → exec .matrixComplete s = .next s)) ∧
  (∀ (s : State) (wb : Bool) (l : WLoad), (s.core.ctx.ws wb).active = some l → l.stopped = false →
    s.core.ctx.streamFree wb l = true →
    let va := BitVec.ofNat 64 (l.src + 128 * l.landed)
    (l.fromTiles = true →
      exec (.wstreamSector wb) s = .next (s.landSector wb l ((l.bytes.drop (128 * l.landed)).take 128))) ∧
    (l.fromTiles = false → engineFree s = false → exec (.wstreamSector wb) s = .next s) ∧
    (∀ bs, l.fromTiles = false → engineFree s = true → ioRead s s.runOf.ctx none va 128 = .ok bs →
      exec (.wstreamSector wb) s = .next ((s.noteIo s.runOf.ctx none va 128).landSector wb l bs)) ∧
    (∀ q, l.fromTiles = false → engineFree s = true → ioRead s s.runOf.ctx none va 128 = .error q → q.isHold = true →
      exec (.wstreamSector wb) s = .next s) ∧
    (∀ q, l.fromTiles = false → engineFree s = true → ioRead s s.runOf.ctx none va 128 = .error q → q.isHold = false →
      ∃ t, exec (.wstreamSector wb) s = .next t ∧ (t.core.ctx.ws wb).active = some { l with stopped := true } ∧
        t.core.ctx.engTraps = s.core.ctx.engTraps ++ [{ q with ipc := l.addr, aux := 4 }] ∧ t.mem = s.mem)) ∧
  (∀ (s : State) (f : Follow) (a : MArgs) (g : Fmt), s.core.ctx.follow = [f] →
    s.core.engines.toList.flatten.all (fun q => decide (q.id ≠ s.runOf.id ∨ q.seq ≠ f.copySeq)) = true →
    mmaFmt f.job.op = some (a, g) → s.core.ctx.running = none → s.core.ctx.waiting = none →
    ∃ t, exec .followonEnter s = .next t ∧ t.core.ctx.follow = [] ∧
      t.core.ctx.running = some { f.job with seq := s.core.ctx.seq, follow := true } ∧ t.core.ctx.waiting = none)

/-! ### The load and store slots -/

/-- The bytes that the pieces of a store hold, each with its place. -/
def placedBytes (segs : List (Place × List Byte)) : List (Place × Byte) :=
  segs.flatMap (fun g => g.2.zipIdx.map (fun b => (g.1.off b.2, b.1)))

/-- R212 and R102: LD writes the eight bytes it reads at their home, and waits for the core's own queued stores to them (R238,
R240); ST queues the register's eight bytes; the address register takes its step. A strong form acquires or releases (R246).
That a load waits for its own core's stores where R240 orders them, and is answered from no store queue, is log 18's
reading. -/
def Obligations.ScalarLoadsAndStores : Prop :=
  (∀ (s : State) (a : LArgs) (ts : List (Target × Nat)), s.runs (.ld a) = true → s.eaOk a 8 = true →
    access s a.sp .read (s.ea a) 8 = .ok ts → (a.sp = true ∨ requestsFree s 1 = true) →
    let read := s.readDone a.ch.toNat (s.ea a) ts
    (s.queueMeets (fun _ => true) ts = true → exec (.ld a) s = .next (s.waitBundle (aloneBundle (.ld a)))) ∧
    (s.queueMeets (fun _ => true) ts = false →
    ∃ t, exec (.ld a) s = .next t ∧ t.core.pc = s.nextPc ∧
      t.core.ctx.rx a.dat.xreg = (if a.dat.xreg = 0 then 0 else BitVec.ofNat 64 (ofBytes (s.loadPieces ts))) ∧
      t.core.ctx.ra a.ar = s.stepped a ∧ (∀ p, t.mem.get p = s.mem.get p) ∧
      OnlyRegs (if a.strong then read.acquire ts else read) t { xs := [a.dat.xreg], as_ := [a.ar] })) ∧
  (∀ (s : State) (a : LArgs) (p : Place) (cmp : Bool), s.runs (.st a) = true → s.eaOk a 8 = true →
    access s a.sp .write (s.ea a) 8 = .ok [(.place p cmp, 8)] → (a.sp = true ∨ requestsFree s 1 = true) →
    let bs := toBytes 8 (s.core.ctx.rx a.dat.xreg).toNat
    ∃ t e, exec (.st a) s = .next t ∧ t.core.pc = s.nextPc ∧ t.core.ctx.ra a.ar = s.stepped a ∧
      t.core.storeQ = s.core.storeQ ++ [e] ∧ (p.addr % 8 = 0 → e.segs = [(p, bs)]) ∧
      placedBytes e.segs = placedBytes [(p, bs)] ∧ (∀ q, t.mem.get q = s.mem.get q) ∧
      OnlyRegs (s.queueStore s.core.pc [⟨s.ea a, [(.place p cmp, 8)], bs⟩] a.strong a.sp a.scope a.ch.toNat) t { as_ := [a.ar] })

/-- R212, R239 and R260: an atomic that may act now reads the old word into its register, writes the new one at its place and
leaves every other byte; ACAS takes Xn+1 where the old word is Xn. A strong one collects its line's signature and clears RSIG
(R246). One at the command port writes the packet latch alone (R323). One on HOST or PEER faults ASCOPE, one whose old word
the stack cannot deliver HWERR. -/
def Obligations.Atomics : Prop :=
  ∀ f ∈ [(Instr.aadd, fun (old x _ : Word) => old + x), (Instr.acas, fun old x y => if old = x then y else old),
         (Instr.axch, fun _ x _ => x), (Instr.amax, fun old x _ => if old.toInt < x.toInt then x else old),
         (Instr.amin, fun old x _ => if x.toInt < old.toInt then x else old)],
    ∀ (s : State) (a : LArgs) (p : Place) (cmp : Bool), s.runs (f.1 a) = true → s.eaOk a 8 = true →
      access s a.sp .write (s.ea a) 8 = .ok [(.place p cmp, 8)] →
      let c := s.core.ctx
      let old := BitVec.ofNat 64 (ofBytes (s.mem.viewN p 8))
      let new := f.2 old (c.rx a.dat.xreg) (c.rx (a.dat.xreg + 1))
      (p.space = .host ∨ p.space = .peer →
        Traps s (f.1 a) { cause := 0x13, addr := s.ea a, pc := s.core.pc, aux := if a.inStore then 6 else 5 }) ∧
      (p.space ≠ .host → p.space ≠ .peer → hwBad s.mem p 8 = true →
        Traps s (f.1 a) { cause := 0x1A, addr := s.ea a, pc := s.core.pc, aux := if a.inStore then 6 else 5 }) ∧
      (p.space ≠ .host → p.space ≠ .peer → hwBad s.mem p 8 = false → atomicReady s p.space a.strong a.scope = true →
        (a.sp = true ∨ requestsFree s 1 = true) → s.mem.wf = true →
        let k := if a.sp then c.kept else { c.kept with wsig := c.kept.wsig ||| sigRange (s.ea a) 8 }
        let kept := if a.strong then { k with asig := k.asig ||| s.mem.collect p, rsig := 0, rsigNew := false } else k
        let read := ((if a.strong then s.releaseLeft a.scope s.core.cmdSeq else s).readDone a.ch.toNat (s.ea a)
          [(.place p cmp, 8)]).onCtx (fun c => { c with kept := kept })
        ∃ t, exec (f.1 a) s = .next t ∧ t.core.pc = s.nextPc ∧
          t.core.ctx.rx a.dat.xreg = (if a.dat.xreg = 0 then 0 else old) ∧ t.core.ctx.ra a.ar = s.stepped a ∧
          (portAt p 8 = none → PutBytes s t p (toBytes 8 new.toNat) ∧
            OnlyRegs { read with mem := t.mem, host := (read.recall true p 8).host,
                                 sched := { s.sched with monitors := fireAt s.sched.monitors p 8 } } t
              { xs := [a.dat.xreg], as_ := [a.ar] }) ∧
          (portAt p 8 = some 0 → (∀ q, t.mem.get q = s.mem.get q) ∧
            OnlyRegs { read with mem := t.mem, host := read.host.portStore (p.addr - portBase) (toBytes 8 new.toNat) } t
              { xs := [a.dat.xreg], as_ := [a.ar] }))

/-- The rows that a GLD loads: each with its address and its pieces, none for a row that its offset leaves out (R214). -/
def gldRows (s : State) (i : Instr) (a : LArgs) : List (Word × List (Target × Nat)) :=
  (List.range s.core.ctx.nr).filterMap (fun r => (gldRow (s.envFor i) a r).toOption)

/-- The bytes of those rows: zeros for one that is left out. -/
def gldBytes (s : State) (rows : List (Word × List (Target × Nat))) : List Byte :=
  rows.flatMap (fun q => if q.2 = [] then List.replicate s.core.ctx.nb 0 else s.loadPieces q.2)

/-- R213 to R216: TLD writes the view's rows from the bytes it loads, verified where its image is thatched (THMIS where it
cannot be corrected); TST queues the view's rows or its thatched image; GLD gathers rows; TSTS queues the stash images. A load
waits for the core's own queued stores to its bytes (log 18). A GLD takes the lane F fault of its rows before one of lane P,
then the lowest address (R42, R214). Under a view narrower than one element TSTS queues nothing, by R107 of
06_tile_file_and_vector.md as log 19 reads it. -/
def Obligations.TileTransfers : Prop :=
  (∀ (s : State) (a : LArgs) (ts : List (Target × Nat)), s.runs (.tld a) = true →
    let c := s.core.ctx
    let f := tileFmt a
    let n := (s.envFor (.tld a)).tileBytes a
    let bs := s.loadPieces ts
    let ps := (List.range c.nr).flatMap (fun i => (List.range c.nb).map (fun j => (⟨i, j, j⟩ : Pos)))
    let parsed := (thParse f.bits c.nr (c.nc f.bits) bs).verified f 0 (fun _ => noScale) (c.nc f.bits)
    let read := s.readDone a.ch.toNat (s.ea a) ts
    let loads (data : List Byte) (fixed : Bool) : Prop :=
      ∃ t, exec (.tld a) s = .next t ∧ t.core.pc = s.nextPc ∧ t.core.ctx.ra a.ar = s.stepped a ∧
        Elements s t (if a.dat.neg then [] else [a.dat.tile]) none false 8 ps
          (fun _ q => (data.getD (q.i * c.nb + q.j) 0).toNat) ∧
        t.core.thcnt = (if fixed then bumpField read.core.thcnt 0 1 else read.core.thcnt) ∧
        OnlyRegs read t { tiles := if a.dat.neg then [] else [a.dat.tile], as_ := [a.ar], ctl := [0x050] }
    access s a.sp .read (s.ea a) n = .ok ts → bs.length = n → (a.sp = true ∨ requestsFree s (sectorsOf (s.ea a) n) = true) →
    (s.queueMeets (fun _ => true) ts = true → s.eaOk a (if a.md 1 1 = 1 then 128 else 64) = true →
      (a.md 1 1 = 1 → c.nb % (f.bits / 8) = 0) → exec (.tld a) s = .next (s.waitBundle (aloneBundle (.tld a)))) ∧
    (s.queueMeets (fun _ => true) ts = false →
    (a.md 1 1 = 0 → s.eaOk a 64 = true → loads bs false) ∧
    (a.md 1 1 = 1 → s.eaOk a 128 = true → c.nb % (f.bits / 8) = 0 →
      (∀ im fixed, parsed = some (im, fixed) → im.codes.length = c.nr →
        loads (im.codes.flatMap (fun row => toBytes c.nb (packCodes f.bits row))) fixed) ∧
      (parsed = none → Traps s (.tld a)
        { cause := 0x0A, det := 5, addr := s.ea a, pc := s.core.pc, aux := if a.inStore then 6 else 5 })))) ∧
  (∀ (s : State) (a : LArgs) (ts : List (Target × Nat)), s.runs (.tst a) = true →
    let c := s.core.ctx
    let f := tileFmt a
    let n := (s.envFor (.tst a)).tileBytes a
    let codes := c.viewCodes (c.rt a.dat.tile) f.bits
    let bs := if a.md 1 1 = 0 then c.viewBytes (c.rt a.dat.tile)
      else flashed f.bits c.nr (c.nc f.bits) codes (codes.map (decodeRow f 0 noScale))
    access s a.sp .write (s.ea a) n = .ok ts → (a.sp = true ∨ requestsFree s (sectorsOf (s.ea a) n) = true) →
    s.eaOk a (if a.md 1 1 = 1 then 128 else 64) = true → (a.md 1 1 = 1 → c.nb % (f.bits / 8) = 0) →
    ∃ t e, exec (.tst a) s = .next t ∧ t.core.pc = s.nextPc ∧ t.core.ctx.ra a.ar = s.stepped a ∧
      t.core.storeQ = s.core.storeQ ++ [e] ∧ placedBytes e.segs = placedBytes (dealBytes (placesOf ts) bs) ∧
      (∀ q, t.mem.get q = s.mem.get q) ∧
      OnlyRegs (s.queueStore s.core.pc [⟨s.ea a, ts, bs⟩] false a.sp 0 a.ch.toNat) t { as_ := [a.ar] }) ∧
  (∀ (s : State) (a : LArgs), s.runs (.gld a) = true →
    let c := s.core.ctx
    let e := s.envFor (.gld a)
    let rows := gldRows s (.gld a) a
    let bs := gldBytes s rows
    let ps := (List.range c.nr).flatMap (fun i => (List.range c.nb).map (fun j => (⟨i, j, j⟩ : Pos)))
    (∀ q, lowestFault a.sp ((List.range c.nr).map (gldRow e a)) = some q →
      Traps s (.gld a) { q with pc := s.core.pc, aux := if a.inStore then 6 else 5 }) ∧
    (rows.length = c.nr → (∀ q ∈ rows, q.2 ≠ [] → (s.loadPieces q.2).length = c.nb) →
      (a.sp = true ∨ requestsFree s c.nr = true) → s.queueMeets (fun _ => true) (rows.flatMap (·.2)) = false →
      ∃ t, exec (.gld a) s = .next t ∧ t.core.pc = s.nextPc ∧ t.core.ctx.ra a.ar = s.stepped a ∧
        Elements s t (if a.dat.neg then [] else [a.dat.tile]) none false 8 ps
          (fun _ q => (bs.getD (q.i * c.nb + q.j) 0).toNat) ∧
        OnlyRegs (rows.foldl (fun u q => u.readDone a.ch.toNat q.1 q.2) s) t
          { tiles := if a.dat.neg then [] else [a.dat.tile], as_ := [a.ar] })) ∧
  (∀ (s : State) (a : LArgs) (rs : List Range), s.runs (.tsts a) = true → s.eaOk a 2048 = true →
    let c := s.core.ctx
    let im := stashImages c a
    (stashBad c a = true → Traps s (.tsts a)
      { cause := 0x11, addr := s.ea a, pc := s.core.pc, aux := if a.inStore then 6 else 5 }) ∧
    (stashBad c a = false → a.md 3 1 = 0 → c.nc (stashFmt a).bits = 0 → WritesA s (.tsts a) a.ar (s.stepped a)) ∧
    (stashBad c a = false → (a.md 3 1 = 1 ∨ c.nc (stashFmt a).bits ≠ 0) → rs.map (fun r => (r.va, r.bs)) = im.1.map (fun r => (s.ea a + BitVec.ofNat 64 r.1, r.2)) →
      (∀ r ∈ rs, access s a.sp .write r.va r.bs.length = .ok r.ts) →
      (a.sp = true ∨ requestsFree s ((rs.map (fun r => sectorsOf r.va r.bs.length)).foldl (· + ·) 0) = true) →
      ∃ t e, exec (.tsts a) s = .next t ∧ t.core.pc = s.nextPc ∧ t.core.ctx.ra a.ar = s.stepped a ∧
        t.core.storeQ = s.core.storeQ ++ [e] ∧ placedBytes e.segs = placedBytes (rs.flatMap (fun r => dealBytes (placesOf r.ts) r.bs)) ∧
        t.core.ctx.half = (if a.md 3 1 = 0 then c.half else if a.md 4 1 = 1 then none else some (c.rt a.dat.tile)) ∧
        t.core.ctx.astat = (s.raise im.2).core.ctx.astat ∧
        OnlyRegs ((s.queueStore s.core.pc rs false a.sp 0 a.ch.toNat).onCtx (fun c => { c with half := t.core.ctx.half })) t
          { as_ := [a.ar], ctl := [0x011, 0x013] }))

/-- R217: TAGL answers the slot that holds the block of its address, or all ones; TAGS makes a slot of the kernel hold it;
TAGI clears V of a slot, named or found by address. No tag operation changes another entry. -/
def Obligations.Tags : Prop :=
  (∀ (s : State) (a : LArgs), s.runs (.tagl a) = true → canonical (s.core.ctx.ra a.ar).sum = true →
    let lc := s.runOf.lcore
    let holds (q : Nat) : Prop := (s.mem.tag lc q).getLsbD 0 = true ∧ (s.mem.tag lc q).extractLsb' 9 48 = (s.ea a).extractLsb' 9 48
    ∃ t v, exec (.tagl a) s = .next t ∧ t.core.pc = s.nextPc ∧ t.core.ctx.ra a.ar = s.stepped a ∧
      t.core.ctx.rx a.dat.xreg = (if a.dat.xreg = 0 then 0 else v) ∧
      ((∃ q ∈ s.slots, holds q ∧ v = BitVec.ofNat 64 q) ∨ ((∀ q ∈ s.slots, ¬holds q) ∧ v = BitVec.allOnes 64)) ∧
      OnlyRegs s t { xs := [a.dat.xreg], as_ := [a.ar] }) ∧
  (∀ (s : State) (a : LArgs), s.runs (.tags a) = true → s.eaOk a 512 = true →
    let lc := s.runOf.lcore
    let x := (s.core.ctx.rx a.dat.xreg).toNat
    let trap (cause : Nat) : Prop :=
      Traps s (.tags a) { cause := cause, addr := s.ea a, pc := s.core.pc, aux := if a.inStore then 6 else 5 }
    let dup := s.slots.any (fun q => decide (q ≠ x) && tagHolds (s.mem.tag lc q) (s.ea a))
    (s.slotIn x = false → trap 0x0F) ∧ (s.slotIn x = true → dup = true → trap 0x12) ∧
    (s.slotIn x = true → dup = false → s.mem.tags.rising = true →
      ∃ t, exec (.tags a) s = .next t ∧ t.core.pc = s.nextPc ∧ t.core.ctx.ra a.ar = s.stepped a ∧
        (∀ b < 64, (t.mem.tag lc x).getLsbD b =
          (decide (b = 0) || (decide (b = 1) && a.mode.getLsbD 0) || (decide (9 ≤ b ∧ b < 57) && (s.ea a).getLsbD b))) ∧
        (∀ l q, tagKey l q ≠ tagKey lc x → t.mem.tag l q = s.mem.tag l q) ∧
        OnlyRegs { s with mem := { s.mem with tags := t.mem.tags } } t { as_ := [a.ar] })) ∧
  (∀ (s : State) (a : LArgs), s.runs (.tagi a) = true →
    let lc := s.runOf.lcore
    let x := (s.core.ctx.rx a.dat.xreg).toNat
    (s.slotIn x = false → Traps s (.tagi a)
      { cause := 0x0F, addr := s.core.ctx.rx a.dat.xreg, pc := s.core.pc, aux := if a.inStore then 6 else 5 }) ∧
    (s.slotIn x = true → s.mem.tags.rising = true →
      ∃ t, exec (.tagi a) s = .next t ∧ t.core.pc = s.nextPc ∧
        (∀ b < 64, (t.mem.tag lc x).getLsbD b = (decide (b ≠ 0) && (s.mem.tag lc x).getLsbD b)) ∧
        (∀ l q, tagKey l q ≠ tagKey lc x → t.mem.tag l q = s.mem.tag l q) ∧
        OnlyRegs { s with mem := { s.mem with tags := t.mem.tags } } t {})) ∧
  (∀ (s : State) (a : LArgs), s.runs (.tagiA a) = true → canonical (s.core.ctx.ra a.ar).sum = true →
    let lc := s.runOf.lcore
    s.mem.tags.rising = true →
    ∃ t, exec (.tagiA a) s = .next t ∧ t.core.pc = s.nextPc ∧ t.core.ctx.ra a.ar = s.stepped a ∧
      (∀ q, s.tagFind (s.ea a) = some q →
        (∀ b < 64, (t.mem.tag lc q).getLsbD b = (decide (b ≠ 0) && (s.mem.tag lc q).getLsbD b)) ∧
        (∀ l r, tagKey l r ≠ tagKey lc q → t.mem.tag l r = s.mem.tag l r)) ∧
      (s.tagFind (s.ea a) = none → t.mem.tags = s.mem.tags) ∧
      OnlyRegs { s with mem := { s.mem with tags := t.mem.tags } } t { as_ := [a.ar] })

/-- R101 and R103: what each address-unit operation writes to its address register, and what AGET reads. -/
def Obligations.AddressUnit : Prop :=
  ∀ (s : State) (a : LArgs),
    let r := s.core.ctx.ra a.ar
    let x := s.core.ctx.rx a.dat.xreg
    (s.runs (.aset a) = true → WritesA s (.aset a) a.ar { r with base := x, idx := 0, mode := 0 }) ∧
    (s.runs (.ainc a) = true → (r.mode = 0 ∨ (r.mode = 1 ∧ r.len = 0)) →
      WritesA s (.ainc a) a.ar { r with idx := r.idx + x.setWidth 32 }) ∧
    (s.runs (.ainc a) = true → r.mode = 1 → r.len ≠ 0 →
      WritesA s (.ainc a) a.ar { r with idx := BitVec.ofInt 32 ((r.idx.toInt + (x.setWidth 32).toInt) % r.len.toNat) }) ∧
    (s.runs (.ainc a) = true → r.mode ≠ 0 → r.mode ≠ 1 → WritesA s (.ainc a) a.ar (r.update (x.setWidth 32))) ∧
    (s.runs (.amod a) = true → WritesA s (.amod a) a.ar { r with len := x.setWidth 31, mode := 1 }) ∧
    (s.runs (.abrev a) = true → WritesA s (.abrev a) a.ar { r with len := x.setWidth 31, mode := 2 }) ∧
    (s.runs (.astp a) = true → WritesA s (.astp a) a.ar { r with step := x.setWidth 32 }) ∧
    (s.runs (.alen a) = true → WritesA s (.alen a) a.ar { r with len := x.setWidth 31 }) ∧
    (s.runs (.aclr a) = true → WritesA s (.aclr a) a.ar { base := 0, idx := 0, step := 0, len := 0, mode := 0 }) ∧
    (s.runs (.aget a) = true → WritesX s (.aget a) a.dat.xreg
      ([r.base, r.idx.signExtend 64, r.step.signExtend 64, r.len.setWidth 64, r.mode.setWidth 64].getD (a.mode.toNat % 8)
        (r.base + r.idx.signExtend 64)))

/-- R100, R206, R210, R211, R213, R214 and R287: an address that is not canonical faults NCANON, one that is not aligned
MALIGN, and then the access has its own fault; nothing of the bundle commits. A thatched tile also needs a view of whole
elements, a gathered row 512 bytes that it does not cross; TAGL and TAGI of an address need a canonical one only. -/
def Obligations.AddressFaults : Prop :=
  (∀ p ∈ [(Instr.ld, 8, Access.read), (Instr.st, 8, .write), (Instr.aadd, 8, .write), (Instr.acas, 8, .write),
         (Instr.axch, 8, .write), (Instr.amax, 8, .write), (Instr.amin, 8, .write), (Instr.tags, 512, .read),
         (Instr.tsts, 2048, .write)],
    ∀ (s : State) (a : LArgs), s.runs (p.1 a) = true →
      let aux := if a.inStore then 6 else 5
      let sum := (s.core.ctx.ra a.ar).sum
      (canonical sum = false → Traps s (p.1 a) { cause := 0x03, addr := sum, pc := s.core.pc, aux := aux }) ∧
      (canonical sum = true → (s.ea a).toNat % p.2.1 ≠ 0 →
        Traps s (p.1 a) { cause := 0x10, addr := s.ea a, pc := s.core.pc, aux := aux }) ∧
      (∀ q, s.eaOk a p.2.1 = true → p.2.1 = 8 → access s a.sp p.2.2 (s.ea a) 8 = .error q →
        Traps s (p.1 a) { q with pc := s.core.pc, aux := aux })) ∧
  (∀ p ∈ [(Instr.tld, Access.read), (Instr.tst, .write)], ∀ (s : State) (a : LArgs), s.runs (p.1 a) = true →
    let aux := if a.inStore then 6 else 5
    let sum := (s.core.ctx.ra a.ar).sum
    let whole := a.md 1 1 = 1 → s.core.ctx.nb % ((tileFmt a).bits / 8) = 0
    let al := if a.md 1 1 = 1 then 128 else 64
    (canonical sum = false → Traps s (p.1 a) { cause := 0x03, addr := sum, pc := s.core.pc, aux := aux }) ∧
    (canonical sum = true → ((s.ea a).toNat % al ≠ 0 ∨ ¬whole) →
      Traps s (p.1 a) { cause := 0x10, addr := s.ea a, pc := s.core.pc, aux := aux }) ∧
    (∀ q, s.eaOk a al = true → whole → access s a.sp p.2 (s.ea a) ((s.envFor (p.1 a)).tileBytes a) = .error q →
      Traps s (p.1 a) { q with pc := s.core.pc, aux := aux })) ∧
  (∀ (s : State) (a : LArgs) (r : Nat), s.runs (.gld a) = true → r < s.core.ctx.nr →
    let c := s.core.ctx
    let aux := if a.inStore then 6 else 5
    let o := BitVec.ofNat 32 (tileField (c.rt a.dat.tile) (512 * r) 32)
    let sum := (c.ra a.ar).sum + o.signExtend 64
    let va : Word := (sum.extractLsb' 0 57).setWidth 64
    let only := ∀ k < c.nr, k ≠ r → (gldRow (s.envFor (.gld a)) a k).toOption.isSome = true
    o ≠ 0x80000000 →
    (a.sp = true → canonical (c.ra a.ar).sum = false →
      Traps s (.gld a) { cause := 0x03, addr := (c.ra a.ar).sum, pc := s.core.pc, aux := aux }) ∧
    (a.sp = false → only → canonical sum = false → Traps s (.gld a) { cause := 0x03, addr := sum, pc := s.core.pc, aux := aux }) ∧
    (a.sp = false → only → canonical sum = true → 512 < va.toNat % 512 + c.nb →
      Traps s (.gld a) { cause := 0x10, addr := va, pc := s.core.pc, aux := aux }) ∧
    (∀ q, a.sp = false → only → canonical sum = true → va.toNat % 512 + c.nb ≤ 512 →
      access s false .read va c.nb = .error q → Traps s (.gld a) { q with pc := s.core.pc, aux := aux })) ∧
  (∀ (s : State) (a : LArgs) (r : Nat × List Byte) (q : TrapInfo), s.runs (.tsts a) = true → s.eaOk a 2048 = true →
    stashBad s.core.ctx a = false → (a.md 3 1 = 1 ∨ s.core.ctx.nc (stashFmt a).bits ≠ 0) →
    (stashImages s.core.ctx a).1.head? = some r → access s a.sp .write (s.ea a) r.2.length = .error q →
    Traps s (.tsts a) { q with pc := s.core.pc, aux := if a.inStore then 6 else 5 }) ∧
  (∀ f ∈ [Instr.tagl, Instr.tagiA], ∀ (s : State) (a : LArgs), s.runs (f a) = true →
    canonical (s.core.ctx.ra a.ar).sum = false →
    Traps s (f a) { cause := 0x03, addr := (s.core.ctx.ra a.ar).sum, pc := s.core.pc, aux := if a.inStore then 6 else 5 })

/-- R237, R239, R246, R249, R283 and R307: a piece of the store that its order admits is performed at its place, changes no
other byte and fires the monitors of its sectors; the store leaves the queue with its last piece, which carries its releasing
signature to its line. A PEER store takes the next PSN of its pair for each of its ranges and stays in the queue for its
acknowledgements. One that fails leaves a STERR notice in place of its bytes (R211). Which of several pieces is performed next
is a free value, and a PEER store is sent whole (logs 18 and 27). -/
def Obligations.StorePerformed : Prop :=
  ∀ (s : State) (n : Nat) (e : StoreEnt), s.core.storeQ[n]? = some e → s.readyUnits n ≠ [] → s.mem.wf = true →
    let mine (q : StoreEnt) : Bool := decide (q.seq = e.seq ∧ q.id = e.id)
    let queue := (if e.rel.isSome then s.releaseLeft e.scope e.seq else s).core.storeQ
    ((∀ g ∈ s.readyUnits n, g.1.space ≠ .peer ∧ portAt g.1 g.2.length = none) →
      ∃ t g, g ∈ s.readyUnits n ∧ exec (.storePerform n 0) s = .next t ∧ t.core.ctx = s.core.ctx ∧ t.core.pc = s.core.pc ∧
        PutBytes s t g.1 g.2 ∧ t.sched = { s.sched with monitors := fireAt s.sched.monitors g.1 g.2.length } ∧
        (e.segs.erase g ≠ [] →
          t.core.storeQ = queue.map (fun q => if mine q then { q with segs := e.segs.erase g } else q)) ∧
        (e.segs.erase g = [] → t.core.storeQ = queue.filter (fun q => !mine q)) ∧
        (e.segs.erase g ≠ [] ∨ e.rel = none ∨ e.failed = true → t.mem.psig = s.mem.psig ∧ t.mem.osig = s.mem.osig) ∧
        (∀ sig new, e.segs.erase g = [] → e.rel = some (sig, new) → e.failed = false →
          t.mem.psig = (s.mem.release g.1 sig new).psig ∧ t.mem.osig = (s.mem.release g.1 sig new).osig)) ∧
    (let peer := e.segs.filter (fun g => decide (g.1.space = .peer))
     (∀ g ∈ s.readyUnits n, g.1.space = .peer) →
      ∃ t os, exec (.storePerform n 0) s = .next t ∧ t.core.ctx = s.core.ctx ∧
        t.core.storeQ = queue.map (fun q => if mine q then { e with left := true, sent := peer.length } else q) ∧
        t.fabric.out = s.fabric.out ++ os ∧
        os.map (fun o => (o.dst, o.txn)) = peer.map (fun g => (g.1.owner, .store (BitVec.ofNat 48 g.1.addr) g.2)) ∧
        (∀ o ∈ os, o.store = some e.seq ∧ o.cmd = none ∧ o.id = e.id ∧ o.core = s.core.num) ∧
        (∀ g, peer = [g] → os.map (fun o => o.psn) = [s.fabric.psn g.1.owner] ∧
          t.fabric.psn g.1.owner = (s.fabric.psn g.1.owner + 1) % 2 ^ 32) ∧
        ∀ q, (∀ g ∈ peer, (devPlace (s.fabric.pairb.toNat + 64 * g.1.owner)).apart q 64) → t.mem.get q = s.mem.get q) ∧
    (e.homes.all (fun h => decide (h.1 ≠ .peer)) = true → s.laneRoom = true →
      ∃ t r, exec (.storePerform n 4) s = .next t ∧ t.core.storeQ = s.core.storeQ.eraseIdx n ∧ t.mem = s.mem ∧
        t.core.ctx = s.core.ctx ∧ t.core.lanesUnposted = s.core.lanesUnposted ++ [r] ∧ r.laneP = false ∧
        r.bytes.take 2 = toBytes 2 0x32)

/-! ### The copy slot -/

/-- The effective address that an address register gives a copy-slot command (R100). -/
def eaOf (c : Ctx) (n : BitVec 5) : Word := ((c.ra n).sum.extractLsb' 0 57).setWidth 64

/-- The first of a copy-slot operation's issue checks that fails is the cause of its trap, at its address; where none fails
the operation does what `ok` says (R221). -/
def FirstCheck (s : State) (i : Instr) (checks : List (Bool × Nat × Word)) (ok : Prop) : Prop :=
  (∀ q, checks.find? (·.1) = some q → Traps s i { cause := q.2.1, addr := q.2.2, pc := s.core.pc, aux := 7 }) ∧
  (checks.find? (·.1) = none → ok)

/-- No QC entry is free for a reservation. -/
def noQcEntry (s : State) : Bool := decide (64 < s.core.ctx.qc.length + s.core.ctx.qcRes + 1)

/-- A command as its bundle sends it (R74, R218, R224). -/
def CommandOf (s : State) (i : Instr) (a : CArgs) (sa da : Word) (e : Nat) (c : Cmd) : Prop :=
  c.op = i ∧ c.addr = s.core.pc ∧ c.id = s.runOf.id ∧ c.sa = sa ∧ c.da = da ∧ c.xl = s.core.ctx.rx a.xl ∧
    c.tok = a.tok.toNat ∧ c.engine = e ∧ c.seq = s.core.cmdSeq ∧ c.arith = s.core.ctx.arith ∧
    c.seed = s.core.ctx.kept.seedtop ∧ c.started = false ∧ c.ended = false ∧ c.stopped = none

/-- The copy engine of the rotation holds the new command last, its QC entry reserved where its token is not zero; nothing
else changes beside what `s1` changes (R218, R223). -/
def JoinsEngine (s s1 : State) (i : Instr) (a : CArgs) (sa da : Word) : Prop :=
  let e := s.core.ctx.engN % 4
  ∃ t c, exec i s = .next t ∧ t.core.pc = s.nextPc ∧ CommandOf s i a sa da e c ∧
    (∀ n < 4, t.core.engines.toList.getD n [] = s.core.engines.toList.getD n [] ++ if n = e then [c] else []) ∧
    t.core.ctx.engN = s.core.ctx.engN + 1 ∧
    t.core.ctx.qcRes = s.core.ctx.qcRes + (if a.tok = 0 then 0 else 1) ∧ t.core.ctx.qmRes = s1.core.ctx.qmRes ∧
    OnlyRegs (s1.onCore (fun k => { k with engines := t.core.engines })) t { ctl := [0x012] }

/-- The checks of a CPY or CPYF in their order (R221, R225 to R227, R271, R287). -/
def copyChecks (s : State) (a : CArgs) : List (Bool × Nat × Word) :=
  let c := s.core.ctx
  let r := s.runOf
  let xl := c.rx a.xl
  let sa := eaOf c a.sa
  let da := eaOf c a.da
  let full := decide (a.tok ≠ 0) && noQcEntry s
  let x := lengthXfer (a.f 0 4) xl sa da
  [(!canonical (c.ra a.sa).sum, 0x03, (c.ra a.sa).sum), (!canonical (c.ra a.da).sum, 0x03, (c.ra a.da).sum)] ++
  (if a.f 4 1 = 1 then
    [(!canonical xl || decide (xl.toNat % 128 ≠ 0), 0x14, xl), (r.ss, 0x16, xl), (full, 0x1F, 0)]
  else
    [(lengthBad x xl, 0x14, xl), ((x.spmOut r.bank0 r.banks).isSome, 0x0F, BitVec.ofNat 64 ((x.spmOut r.bank0 r.banks).getD 0)),
     (r.ss && !(x.ssp && x.dsp), 0x16, if x.ssp then da else sa),
     (!x.dsp && (viewMeets s r.ctx x.db x.dstSpan).isSome, 0x18, (viewMeets s r.ctx x.db x.dstSpan).getD 0), (full, 0x1F, 0)])

/-- What the matrix slot of a CPYF's bundle sees (R231). -/
def followEnv (s : State) (i : Instr) : Env :=
  let b := aloneBundle i
  envOf s b (liveOps s.core.ctx b) (meetPops s.core.ctx [] (popsOf b)) 4

/-- R218 to R221, R225 to R227, R230 to R232 and R234: CPY, CPYF and GLOG join the copy engine of the rotation once their
checks pass, a CPYF with the effect of its matrix slot, whose job waits for it; RCINV joins the record-cache fences; PFH
never faults and changes no register and no byte. The order of the checks is the model's (log 16): R221 names them without
one. So are SSVIOL at issue for a record CPY and the size by which a GLOG's SPMRNG is judged (log 25). -/
def Obligations.CopyCommands : Prop :=
  (∀ (s : State) (a : CArgs), s.runs (.cpy a) = true →
    FirstCheck s (.cpy a) (copyChecks s a) (JoinsEngine s s (.cpy a) a (eaOf s.core.ctx a.sa) (eaOf s.core.ctx a.da))) ∧
  (∀ (s : State) (a : CArgs) (m : BitVec 80) (j : Instr) (f : State → State), s.runs (.cpyf a m) = true →
    decodeMatrix m = .op j → guardTrue s.core.ctx j = true → slotOut j (followEnv s (.cpyf a m)) = .ok f →
    FirstCheck s (.cpyf a m) (copyChecks s a)
      (JoinsEngine s (f s) (.cpyf a m) a (eaOf s.core.ctx a.sa) (eaOf s.core.ctx a.da))) ∧
  (∀ (s : State) (a : CArgs) (m : BitVec 80) (z : MArgs), s.runs (.cpyf a m) = true → decodeMatrix m = .op (.mzero z) →
    guardTrue s.core.ctx (.mzero z) = true → (postOf s.core.ctx.mcfgr && noQmEntry s) = false →
    ∃ f w, slotOut (.mzero z) (followEnv s (.cpyf a m)) = .ok f ∧ (f s).core.ctx.follow = s.core.ctx.follow ++ [w] ∧
      w.job.op = .mzero z ∧ w.copySeq = s.core.cmdSeq) ∧
  (∀ (s : State) (a : CArgs), s.runs (.glog a) = true →
    let c := s.core.ctx
    let xl := c.rx a.xl
    let sa := eaOf c a.sa
    let da := eaOf c a.da
    FirstCheck s (.glog a)
      [(!canonical (c.ra a.sa).sum, 0x03, (c.ra a.sa).sum), (!canonical (c.ra a.da).sum, 0x03, (c.ra a.da).sum),
       (decide (bits xl.toNat 24 38 ≠ 0 ∨ bits xl.toNat 63 1 ≠ 0), 0x14, xl), (decide (sa.toNat % 128 ≠ 0), 0x14, sa),
       (decide (da.toNat % 128 ≠ 0), 0x14, da),
       (xl.getLsbD 62 && !spmIn s.runOf.bank0 s.runOf.banks sa.toNat (glogSize s s.runOf.ctx da), 0x0F, sa),
       (s.runOf.ss, 0x16, da), (decide (a.tok ≠ 0) && noQcEntry s, 0x1F, 0)]
      (JoinsEngine s s (.glog a) a sa da)) ∧
  (∀ (s : State) (a : CArgs), s.runs (.pfh a) = true →
    ∃ t, exec (.pfh a) s = .next t ∧ t.core.pc = s.nextPc ∧ t.core.ctx.engN = s.core.ctx.engN ∧
      OnlyRegs { s with mem := { s.mem with l2 := t.mem.l2, copies := t.mem.copies, copyVas := t.mem.copyVas } } t {} ∧
      (a.f 0 2 = 2 → t.mem = s.mem) ∧
      ((canonical (s.core.ctx.ra a.sa).sum = false ∨ ∀ q ∈ s.core.engines.toList, 16 ≤ q.length) →
        t.mem = s.mem ∧ t.core.tb = s.core.tb)) ∧
  (∀ (s : State) (a : CArgs), s.runs (.rcinv a) = true →
    ∃ t f, exec (.rcinv a) s = .next t ∧ t.core.pc = s.nextPc ∧ t.core.rcinv = s.core.rcinv ++ [f] ∧
      f.id = s.runOf.id ∧ f.ctx = s.runOf.ctx ∧ f.seq = s.core.cmdSeq ∧
      f.addr = (if a.f 0 1 = 1 then none else some (s.core.ctx.rx a.xl)) ∧ t.core.records = s.core.records ∧
      OnlyRegs (s.onCore (fun k => { k with rcinv := t.core.rcinv })) t {})

/-- R221, R236, R287, R309 to R312, R315 and R318: RSTO, RFAA, RFEN and COLL join the fabric queue and GMRG the Valley engine's,
each with the reservation of its queue, once their checks pass; RFAA is
releasing, so that RSIG clears (R246). A COLL without a free QX entry waits. The order of the checks is the model's (log 16), and
so is SSVIOL for the commands of this statement in a compute phase (log 25). -/
def Obligations.QueuedCommands : Prop :=
  (∀ (s : State) (a : CArgs),
    let c := s.core.ctx
    let r := s.runOf
    let xl := c.rx a.xl
    let sa := eaOf c a.sa
    let da := eaOf c a.da
    let badSa := (!canonical (c.ra a.sa).sum, 0x03, (c.ra a.sa).sum)
    let badDa := (!canonical (c.ra a.da).sum, 0x03, (c.ra a.da).sum)
    let last : List (Bool × Nat × Word) := [(r.ss, 0x16, da), (decide (a.tok ≠ 0) && noQcEntry s, 0x1F, 0)]
    let joins (i : Instr) (sa : Word) (s1 : State) : Prop :=
      ∃ t q, exec i s = .next t ∧ t.core.pc = s.nextPc ∧ CommandOf s i a sa da 0 q ∧ t.core.fabric = s.core.fabric ++ [q] ∧
        t.core.ctx.qcRes = c.qcRes + (if a.tok = 0 then 0 else 1) ∧
        OnlyRegs (s1.onCore (fun k => { k with fabric := t.core.fabric })) t {}
    (s.runs (.rsto a) = true → FirstCheck s (.rsto a)
      ([badSa, badDa, (decide (bits xl.toNat 0 32 = 0 ∨ bits xl.toNat 32 30 ≠ 0 ∨ xl.getLsbD 63 = true), 0x14, xl),
        (xl.getLsbD 62 && !spmIn r.bank0 r.banks sa.toNat (bits xl.toNat 0 32), 0x0F, sa)] ++ last) (joins (.rsto a) sa s)) ∧
    (s.runs (.rfaa a) = true → FirstCheck s (.rfaa a)
      ([badSa, badDa, (decide (sa.toNat % 8 ≠ 0), 0x14, sa), (decide (da.toNat % 8 ≠ 0), 0x14, da),
        (decide (a.f 0 1 = 1) && !spmIn r.bank0 r.banks sa.toNat 8, 0x0F, sa)] ++ last) (joins (.rfaa a) sa
          (s.onCtx (fun c => { c with kept := { c.kept with rsig := 0, rsigNew := false } })))) ∧
    (s.runs (.rfen a) = true → FirstCheck s (.rfen a)
      ([badDa, (decide (da.toNat % 8 ≠ 0), 0x14, da)] ++ last) (joins (.rfen a) 0 s)) ∧
    (∀ i ∈ [Instr.collAr a, .collAg a, .collRs a, .collA2a a], s.runs i = true →
      FirstCheck s i [badSa, badDa, (!canonical xl || decide (xl.toNat % 128 ≠ 0), 0x14, xl), (r.ss, 0x16, xl)]
        (if a.tok ≠ 0 ∧ 32 < c.qx.length + c.qxRes + 1 then
          ∃ t, exec i s = .next t ∧ t.core.pc = s.core.pc ∧ t.core.cmdSeq = s.core.cmdSeq ∧ OnlyRegs s t {}
        else
          ∃ t q, exec i s = .next t ∧ t.core.pc = s.nextPc ∧ CommandOf s i a sa da 0 q ∧
            t.core.fabric = s.core.fabric ++ [q] ∧ t.core.ctx.qxRes = c.qxRes + (if a.tok = 0 then 0 else 1) ∧
            OnlyRegs (s.onCore (fun k => { k with fabric := t.core.fabric })) t {})) ∧
    (s.runs (.gmrg a) = true → FirstCheck s (.gmrg a)
      [badDa, (decide (da.toNat % 128 ≠ 0), 0x14, da), (r.ss, 0x16, da), (decide (16 < c.qg.length + c.qgRes + 1), 0x21, 0)]
      (∃ t q, exec (.gmrg a) s = .next t ∧ t.core.pc = s.nextPc ∧ CommandOf s (.gmrg a) a 0 da 0 q ∧
        t.core.gmrg = s.core.gmrg ++ [q] ∧ t.core.ctx.qgRes = c.qgRes + 1 ∧
        OnlyRegs (s.onCore (fun k => { k with gmrg := t.core.gmrg })) t {})))

/-- A unit of a reduction in rank order: its bytes, its flags and the tiles corrected; a thatched one is made of the verified
tiles and has new checksums (R163 to R165, R316, R317). -/
def reducedUnit (d : Desc) (blocks : List (List Byte)) (u : Nat) : List Byte × Flags × Nat :=
  let parts := blocks.map (fun b => (b.drop (u * d.unit)).take d.unit)
  if d.th then
    let tiles := parts.filterMap (collTile d)
    let els := (List.range d.trows).map (fun i => (List.range d.tcols).map (fun j =>
      reduceEl d (tiles.map (fun t => (t.1.codes.getD i []).getD j 0))))
    let codes := els.map (fun r => r.map (·.1))
    (flashed d.f.bits d.trows d.tcols codes (codes.map (decodeRow d.f 0 noScale)),
      els.flatten.foldl (fun f q => f.join q.2) Flags.none, (tiles.filter (·.2)).length)
  else
    let r := reduceEl d (parts.map ofBytes)
    (toBytes (d.f.bits / 8) r.1, r.2, 0)

/-- The units of a block. -/
def unitsOf (d : Desc) (b : List Byte) : List (List Byte) :=
  (List.range (b.length / d.unit)).map (fun u => (b.drop (u * d.unit)).take d.unit)

/-- A block that is carried through: its bytes, corrected where it is thatched, and the tiles corrected (R165, R317). -/
def carriedBlock (d : Desc) (b : List Byte) : List Byte × Nat :=
  if d.th then
    let tiles := (unitsOf d b).filterMap (collTile d)
    (tiles.flatMap (fun t => thBuild d.f.bits d.trows d.tcols t.1), (tiles.filter (·.2)).length)
  else (b, 0)

/-- Every tile of a block can be verified or corrected (R164). -/
def blockSound (d : Desc) (b : List Byte) : Prop := d.th = true → ∀ p ∈ unitsOf d b, (collTile d p).isSome = true

/-- R218, R222 to R224, R229, R230, R235, R236, R306, R314 and R315 to R318: how the commands go on. A command starts at the head of
its engine, a record command with its captured record, once no RCINV before it is open; a unit of a carrying copy is read, and
the writes that are due are made together; a finished command leaves with its QC entry and its token, or for token 0 with a
notice of its failure; the Valley engine verifies and folds a record (R164, R165); an outstanding transaction leaves on a link
that is up; a collective ends with its members' blocks, reduced (R316, R317) or carried (R315), or with status 13. The model's
choices: a collective that times out leaves memory as it was (log 31); token 0 is marked in the completion set (log 27); a tile
that cannot be corrected is folded as it was read and reported by its key's next GMRG (log 20); the framing of a flit's payload
(log 12). -/
def Obligations.CopyEvents : Prop :=
  (∀ (s : State) (e : Nat) (c : Cmd), s.headCmd e = some c → c.started = false → c.ended = false → c.stopped = none →
    let u := s.onCore Core.settleRcinv
    let open_ := u.core.rcinv.any (fun f => decide (f.seq < c.seq))
    let hit := u.core.records.find? (fun r => decide (r.1 = c.ctx ∧ r.2.1 = c.xl))
    let starts (bs : List Byte) : Cmd :=
      let x := tsrXfer c.code bs c.sa c.da
      let bad := (x.spmOut c.bank0 c.banks).isSome || (decide (c.code ≠ 0) && x.overlaps) || x.cmpBad
      if tsrOk c.code bs = true then { c with tsr := some bs, started := true, ended := bad, status := if bad then 7 else 0 }
      else { c with started := true, ended := true, status := 6 }
    (c.isTsr = false → ∃ t, exec (.copyStart e) s = .next t ∧ t.headCmd e = some { c with started := true } ∧
      t.core.ctx = s.core.ctx ∧ t.core.pc = s.core.pc ∧ t.mem = s.mem) ∧
    (c.isTsr = true → open_ = true → exec (.copyStart e) s = .next s) ∧
    (∀ r, c.isTsr = true → open_ = false → hit = some r →
      ∃ t, exec (.copyStart e) s = .next t ∧ t.core.ctx = s.core.ctx ∧ t.core.pc = s.core.pc ∧ t.mem = s.mem ∧
        t.headCmd e = some (starts r.2.2)) ∧
    (c.isTsr = true → open_ = false → hit = none → engineFree u = false → exec (.copyStart e) s = .next s) ∧
    (∀ bs, c.isTsr = true → open_ = false → hit = none → engineFree u = true → ioRead u c.ctx (some false) c.xl 128 = .ok bs →
      ∃ t, exec (.copyStart e) s = .next t ∧ t.core.ctx = s.core.ctx ∧ t.core.pc = s.core.pc ∧
        t.headCmd e = some (starts bs) ∧ (∀ p, t.mem.get p = s.mem.get p) ∧
        (tsrOk c.code bs = true → t.core.records = installRecord u.core.records c bs))) ∧
  (∀ (s : State) (e : Nat) (c c1 : Cmd) (bs : List Byte), s.headCmd e = some c → c.started = true → c.ended = false →
    c.stopped = none → (∀ a, c.op ≠ .glog a) → c.worked = false →
    let x := c.xfer
    let next := c.pos + bs.length
    x.tiled = false → x.code ≠ 3 → x.carries = true → c.due x = none → engineFree s = true → s.core.runs c.id = true →
    c.readSrc s x.wantSrc x.ssp (x.sb + c.done * x.srs + c.pos) (x.unitAt c).2 = .ok (c1, bs) →
    ∃ t q, exec (.copySector e) s = .next t ∧ t.core.pc = s.core.pc ∧ t.headCmd e = some q ∧
      q.out = c.out ++ [(BitVec.ofNat 64 (x.unitAt c).1, bs)] ∧ q.wrote = c.wrote ∧
      q.done = (if x.dstRow ≤ next then c.done + 1 else c.done) ∧ q.pos = (if x.dstRow ≤ next then 0 else next) ∧
      (∀ p, t.mem.get p = s.mem.get p) ∧ (∀ r, t.core.ctx.rx r = s.core.ctx.rx r) ∧
      (∀ n, t.core.ctx.rt n = s.core.ctx.rt n)) ∧
  (∀ (s u : State) (e : Nat) (c : Cmd) (ws : List (Word × List Byte)), s.headCmd e = some c → c.started = true →
    (c.ended = false ∨ c.atWrite = false) → c.stopped = none → (∀ a, c.op ≠ .glog a) →
    let x := c.xfer
    c.due x = some (false, ws) → engineFree s = true →
    s.storesClear c (ws.flatMap (fun w => s.dstHomes c x.wantDst x.dsp w.1 w.2.length)) = true →
    s.putAll c x.wantDst x.dsp ws = .ok u →
    ∃ t q, exec (.copySector e) s = .next t ∧ t.mem = u.mem ∧ t.core.pc = s.core.pc ∧ t.headCmd e = some q ∧
      q.out = c.out.drop ws.length ∧ q.wrote = c.wrote + (ws.map (fun w => w.2.length)).sum ∧
      (∀ a bs, ws = [(a, bs)] → x.dsp = true → s.mem.wf = true →
        PutBytes s t { space := .spm, owner := c.lcore, addr := a.toNat } bs)) ∧
  (∀ (s : State) (e : Nat) (c : Cmd) (cs : List Cmd), s.core.engines.toList.getD e [] = c :: cs →
    ((c.ended = true ∧ (c.atWrite = true ∨ (c.out = [] ∧ c.scl = []))) ∨ ((∀ a, c.op ≠ .glog a) ∧ c.copied = true) ∨
      ∃ a, c.op = .glog a ∧ c.done = 1) →
    s.core.runs c.id = true → (∀ w ∈ s.sched.waiting, w.id ≠ c.id) →
    let marked : Kept := { s.core.ctx.kept with cset := s.core.ctx.kept.cset ||| BitVec.ofNat 256 (2 ^ c.tok) }
    (c.status = 0 → c.tok ≠ 0 →
      ∃ t, exec (.copyComplete e) s = .next t ∧ t.core.engines.toList.getD e [] = cs ∧
        t.core.ctx.qc = s.core.ctx.qc ++ [qcEntry c] ∧
        t.core.ctx.qcRes = (if c.push then s.core.ctx.qcRes - 1 else s.core.ctx.qcRes) ∧ t.core.ctx.kept = marked ∧
        t.core.pc = s.core.pc ∧ t.mem = s.mem ∧ (∀ r, t.core.ctx.rx r = s.core.ctx.rx r)) ∧
    (c.status ≠ 0 → c.tok = 0 → s.laneRoom = true →
      ∃ t r, exec (.copyComplete e) s = .next t ∧ t.core.engines.toList.getD e [] = cs ∧
        t.core.ctx.qc = s.core.ctx.qc ∧ t.core.ctx.kept = marked ∧ t.core.lanesUnposted = s.core.lanesUnposted ++ [r] ∧
        r.laneP = false ∧ r.id = some c.id ∧ r.bytes.take 2 = toBytes 2 0x30 ∧ t.core.pc = s.core.pc ∧ t.mem = s.mem)) ∧
  (∀ (s s1 : State) (d : Served) (ds : List Served) (k : Nat) (ks : List Nat) (b r : List Byte), s.core.gmrg = [] →
    s.valley.served = d :: ds → s.valley.keys.getD d.key [] = k :: ks → ioRead s d.ctx (some false) d.va 128 = .ok b →
    let g := gutterOf b
    let log := g.logPieces g.tail g.rec_
    let read := log.foldl (fun u q => u.noteIo d.ctx (some false) q.1 q.2) (s.noteIo d.ctx (some false) d.va 128)
    readLog s d.ctx log = .ok r →
    let tile := thParse 32 g.tr g.tc (r.drop 64)
    let fixed := tile.verified .fp32 0 (fun _ => noScale) g.tc
    let els := ((fixed.map (·.1)).getD tile).codes.flatten
    ioWrite read d.ctx (some false) (d.va + 24) (toBytes 8 ((g.tail + g.rec_) % g.len)) = .ok s1 →
    ∃ t, exec .valleyFold s = .next t ∧ t.mem = s1.mem ∧
      t.core = { s1.core with thcnt := bumpField s1.core.thcnt 0 ((fixed.map (fun q => q.2.toNat)).getD 0) } ∧
      (fixed = none → k ∈ t.valley.bad.getD d.key []) ∧
      (fixed.isSome = true → t.valley.bad.getD d.key [] = s.valley.bad.getD d.key []) ∧
      t.valley.wide.getD d.key [] = els.zipIdx.foldl (fun w q => Tbl.put w (k * 256 + q.2)
        ((Tbl.getD w (k * 256 + q.2) (.zero false)).add (Fmt.fp32.value 0 q.1))) (s.valley.wide.getD d.key []) ∧
      t.valley.keys.getD d.key [] = ks ∧
      t.valley.folded.getD d.key 0 = s.valley.folded.getD d.key 0 + 1 ∧
      t.valley.since.getD d.key 0 = s.valley.since.getD d.key 0 + 1 ∧
      (∀ q, q ≠ d.key → t.valley.wide.getD q [] = s.valley.wide.getD q []) ∧
      t.valley.served = (if ks = [] then s.valley.served.filter (fun q => decide (q.key ≠ d.key)) else s.valley.served)) ∧
  (∀ (s : State) (n l : Nat) (o : OutTxn), s.nextFabric = none → s.fabric.transit = [] → s.fabric.ackOut = [] → s.fabric.out[n]? = some o →
    o.sent = false → (∀ q ∈ s.fabric.out.take n, q.dst = o.dst → q.sent = true) →
    (routeLinks (s.route o.dst)).find? (fun l => decide (s.linkState l = 2)) = some l → l < 12 → s.linkFull l = false →
    ∃ t fl, exec (.routeSend n) s = .next t ∧ t.fabric.out = s.fabric.out.set n { o with sent := true } ∧
      (∀ m, t.fabric.links.toList[m]? = (s.fabric.links.toList[m]?).map (fun k => if m = l then
        { k with nextSeq := k.nextSeq + 1, buffer := k.buffer ++ [fl], outbound := k.outbound ++ [fl] } else k)) ∧
      flitSound fl = true ∧ t.core = s.core ∧ (∀ p, t.mem.get p = s.mem.get p)) ∧
  (∀ (s : State) (c : Cmd) (d : Desc) (own : List Byte), s.openColl = some (c, d, own) → c.tok ≠ 0 →
    s.core.runs c.id = true → (∀ w ∈ s.sched.waiting, w.id ≠ c.id) →
    (∀ rank, ∃ t, exec (.collPeerTimeout rank) s = .next t ∧
      t.core.ctx.qx = s.core.ctx.qx ++ [qxEntry { c with status := 13 } 0 rank] ∧
      t.core.fabric = s.core.fabric.filter (fun q => decide (¬(q.seq = c.seq ∧ q.id = c.id))) ∧ t.mem = s.mem ∧
      t.core.pc = s.core.pc ∧ (∀ r, t.core.ctx.rx r = s.core.ctx.rx r)) ∧
    (∀ got rank, s.collClear c d = true → engineFree s = true → got.bad = some rank → ∃ t, exec (.collComplete got) s = .next t ∧
      t.core.ctx.qx = s.core.ctx.qx ++ [qxEntry { c with status := 11 } 0 rank] ∧ t.mem = s.mem ∧
      t.core.pc = s.core.pc) ∧
    (∀ got, s.collClear c d = true → engineFree s = true → s.laneRoom = true → got.bad = none → d.ok c.variant = true →
      d.dsp = true → got.blocks.length = d.n → s.mem.wf = true →
      let blocks := got.blocks.set d.rank own
      let spm (a : Nat) : Place := { space := .spm, owner := c.lcore, addr := a }
      let ends (t : State) (status : Nat) (fl : Flags) (wrote fixed : Nat) : Prop :=
        t.core.pc = s.core.pc ∧ t.core.ctx.astat = (s.raise fl).core.ctx.astat ∧ t.core.thcnt = bumpField s.core.thcnt 0 fixed ∧
          t.core.ctx.qx = s.core.ctx.qx ++ [qxEntry { c with status := status, sats := fl.sats, wrote := wrote } fixed 0xFFFF]
      (c.variant = 0 ∨ c.variant = 2 → (∀ b ∈ blocks, b.length = d.block ∧ blockSound d b) →
        let us := (List.range d.count).map (reducedUnit d blocks)
        let data := us.flatMap (·.1)
        spmIn c.bank0 c.banks c.da.toNat data.length = true →
        ∃ t, exec (.collComplete got) s = .next t ∧ PutBytes s t (spm c.da.toNat) data ∧
          ends t 0 (us.foldl (fun f u => f.join u.2.1) Flags.none) data.length (us.map (·.2.2)).sum) ∧
      (c.variant = 0 ∨ c.variant = 2 → (∀ b ∈ blocks, b.length = d.block) → (∃ b ∈ blocks, ¬blockSound d b) →
        spmIn c.bank0 c.banks c.da.toNat d.block = true →
        ∃ t fl wrote fixed, exec (.collComplete got) s = .next t ∧ ends t 1 fl wrote fixed ∧
          ∀ q, (spm c.da.toNat).apart q d.block → t.mem.get q = s.mem.get q) ∧
      (c.variant = 1 → (∀ b ∈ blocks, b.length = d.block ∧ blockSound d b) →
        let data := blocks.flatMap (fun b => (carriedBlock d b).1)
        spmIn c.bank0 c.banks c.da.toNat data.length = true →
        ∃ t, exec (.collComplete got) s = .next t ∧ PutBytes s t (spm c.da.toNat) data ∧
          ends t 0 Flags.none data.length (blocks.map (fun b => (carriedBlock d b).2)).sum) ∧
      (∀ roff : Nat → Nat, c.variant = 3 → (∀ b ∈ blocks, b.length % d.unit = 0 ∧ blockSound d b) →
        (∀ r b, blocks[r]? = some b → descWord s c (d.arrays.getD 2 0) r = .ok b.length ∧
          descWord s c (d.arrays.getD 3 0) r = .ok (roff r) ∧ spmIn c.bank0 c.banks (c.da.toNat + roff r) b.length = true) →
        (∀ r q b e, r ≠ q → blocks[r]? = some b → blocks[q]? = some e →
          roff r + b.length ≤ roff q ∨ roff q + e.length ≤ roff r) →
        ∃ t, exec (.collComplete got) s = .next t ∧
          (∀ r b n x, blocks[r]? = some b → (carriedBlock d b).1[n]? = some x → t.mem.get (spm (c.da.toNat + roff r + n)) = x) ∧
          (∀ q, (∀ r b, blocks[r]? = some b → (spm (c.da.toNat + roff r)).apart q b.length) → t.mem.get q = s.mem.get q) ∧
          ends t 0 Flags.none (blocks.map (·.length)).sum (blocks.map (fun b => (carriedBlock d b).2)).sum)))

/-! ### The sync slot -/

/-- A held bundle: nothing of it happens but time passing (R41, R243). -/
def Holds (s : State) (i : Instr) : Prop :=
  ∃ t, exec i s = .next t ∧ t.core.pc = s.core.pc ∧ t.core.cmdSeq = s.core.cmdSeq ∧ OnlyRegs s t {}

/-- The state with other values kept for the running spar. -/
def withKept (s : State) (k : Kept) : State := s.onCtx (fun c => { c with kept := k })

/-- The store queue once the earlier stores that `p` admits have left it, and with them those before them to their homes (R237,
R239). -/
def leavingOf (s : State) (p : StoreEnt → Bool) : List StoreEnt :=
  (leaveTogether (s.core.storeQ.map (fun q => { q with left := q.left || (decide (q.seq < s.core.cmdSeq) && p q) }))).1

/-- The store queue after a FENCE or REL: at CORE scope the stores of its spaces have left the queue (R237, R245). -/
def leaving (s : State) (a : YArgs) : List StoreEnt :=
  if a.scope = 0 then leavingOf s (fun q => q.homes.any (fun h => inMask a.smask h.1)) else s.core.storeQ

/-- R237, R244 to R250, R284 and R288: MARK waits for the spar's engine reads, spills, fills and scratchpad stores and then lets
its stores leave;
FENCE waits for the stores of its spaces to be performed at its scope and, with ENG, for the engines; REL does and publishes
WSIG; ACQ drops the tag entries and read copies that its signature may cover; SSTEP names the superstep wait, only in a superstep launch; WAITA waits for a firing
or its time-out; WAITK waits for an entry, and faults where none can come. A fired
monitor or a due time makes the spar that waits on it ready, in its queue and no longer waiting (R282, R283). The model's
choices: with ENG, FENCE and REL wait for fabric and GMRG commands too (log 28); a read copy is matched by the virtual sectors
that it was read through (log 18). -/
def Obligations.SyncSlot : Prop :=
  (∀ (s : State) (a : YArgs), s.runs (.mark a) = true →
    let met := s.ownCmds.all (·.sourceRead) && !s.core.ctx.loading && !s.spillDue && !s.fillDue
      && !queuedIn s (fun q => decide (q = .spm))
    (met = false → Holds s (.mark a)) ∧
    (met = true → ∃ t, exec (.mark a) s = .next t ∧ t.core.pc = s.nextPc ∧
      t.core.storeQ = leavingOf s (fun _ => true) ∧ OnlyRegs (s.onCore (fun k => { k with storeQ := t.core.storeQ })) t {})) ∧
  (∀ (s : State) (a : YArgs), s.runs (.fence a) = true →
    let loads := decide (a.sarg.toNat % 4 = 2)
    let stores := loads || fenceMet s a.smask a.scope.toNat
    let engines := decide (a.sarg.toNat / 4 = 0) || s.enginesDone
    ((stores && engines) = false → Holds s (.fence a)) ∧
    ((stores && engines) = true → ∃ t, exec (.fence a) s = .next t ∧ t.core.pc = s.nextPc ∧
      t.core.storeQ = (if loads then s.core.storeQ else leaving s a) ∧
      OnlyRegs (s.onCore (fun k => { k with storeQ := t.core.storeQ })) t {})) ∧
  (∀ (s : State) (a : YArgs), s.runs (.rel a) = true →
    let engines := decide (a.sarg.toNat / 4 = 0) || s.enginesDone
    let met := fenceMet s a.smask a.scope.toNat && engines
    let k := s.core.ctx.kept
    (met = false → Holds s (.rel a)) ∧
    (met = true → ∃ t, exec (.rel a) s = .next t ∧ t.core.pc = s.nextPc ∧
      t.core.ctx.kept = { k with rsig := k.rsig ||| k.wsig, wsig := 0, rsigNew := k.rsigNew || decide (a.sarg.toNat % 2 = 1) } ∧
      t.core.storeQ = leaving s a ∧
      OnlyRegs ((withKept s t.core.ctx.kept).onCore (fun k => { k with storeQ := t.core.storeQ })) t {})) ∧
  (∀ (s : State) (a : YArgs), s.runs (.acq a) = true → s.mem.tags.rising = true →
    let k := s.core.ctx.kept
    let lc := s.runOf.lcore
    let all := decide (a.sarg.toNat % 2 = 1)
    let goes (v : BitVec 64) : Bool := v.getLsbD 0 && !v.getLsbD 1 && (all || blockMatches k.asig v)
    ∃ t, exec (.acq a) s = .next t ∧ t.core.pc = s.nextPc ∧ t.core.ctx.kept = { k with asig := 0 } ∧
      (∀ p, t.mem.get p = s.mem.get p) ∧
      (∀ q ∈ s.slots, inMask a.smask .spm = true → (t.mem.tag lc q).getLsbD 0 =
        (if goes (s.mem.tag lc q) = true then false else (s.mem.tag lc q).getLsbD 0)) ∧
      (inMask a.smask .spm = false → t.mem.tags = s.mem.tags) ∧
      (∀ c, t.mem.copies.get? c =
        if (if c < 2 ^ 80 then inMask a.smask .host else inMask a.smask .peer) && (all || s.mem.copyMatches k.asig c) then none
        else s.mem.copies.get? c) ∧
      OnlyRegs (withKept { s with mem := t.mem } t.core.ctx.kept) t {}) ∧
  (∀ (s : State) (a : YArgs) (l : Launch), s.runs (.sstep a) = true → s.launchOf s.runOf.id.launch = some l →
    (l.ss = false → Traps s (.sstep a) { cause := 0x15, pc := s.core.pc, aux := 8 }) ∧
    (l.ss = true → Retires s (.sstep a) (fun t => t.setWait 4) ∧
      ∃ t, exec (.sstep a) s = .next t ∧ t.core.phase = .yielding ∧ t.runOf.wait = 4 ∧ t.core.pc = s.nextPc)) ∧
  (∀ (s : State) (a : YArgs), s.runs (.waita a) = true →
    (s.monitorFired = true → ∃ t, exec (.waita a) s = .next t ∧ t.core.pc = s.nextPc ∧
      (∀ m ∈ t.sched.monitors, m.id = s.runOf.id → m.fired = false) ∧
      t.sched.monitors.map (fun m => (m.id, m.space, m.owner, m.sector)) =
        s.sched.monitors.map (fun m => (m.id, m.space, m.owner, m.sector)) ∧
      OnlyRegs { s with sched := { s.sched with monitors := t.sched.monitors } } t {}) ∧
    (∀ n, s.monitorFired = false → s.core.waita = some n → n ≤ s.cycle → GoesTo s (.waita a) s.nextPc {}) ∧
    (s.monitorFired = false → s.core.waita = none →
      Holds s (.waita a) ∧ ∀ t, exec (.waita a) s = .next t → t.core.waita = some (s.cycle + 2 ^ (8 + 2 * a.sarg.toNat))) ∧
    (∀ n, s.monitorFired = false → s.core.waita = some n → s.cycle < n → Holds s (.waita a))) ∧
  (∀ (s : State) (a : YArgs), s.runs (.waitk a) = true →
    let q := s.core.ctx.queue a.sarg.toNat
    (q.1 ≠ [] → GoesTo s (.waitk a) s.nextPc {}) ∧
    (q.1 = [] → q.2 = 0 → Traps s (.waitk a) { cause := 0x17, pc := s.core.pc, aux := 8 }) ∧
    (q.1 = [] → q.2 ≠ 0 → Holds s (.waitk a))) ∧
  (∀ (s : State) (n : Nat), s.core.waita = some n →
    exec .waitaTimeout s = .next { s with cycle := max s.cycle n }) ∧
  (∀ (s : State) (n : Nat) (m : Monitor) (w : Waiting), s.sched.monitors[n]? = some m → m.fired = true →
    s.sched.waiting.find? (fun w => decide (w.id = m.id ∧ waitKind w.wait = 1)) = some w →
    ∃ t, exec (.monitorFire n) s = .next t ∧ (∃ q ∈ t.sched.ready, q.id = w.id ∧ q.cls = w.cls) ∧
      (∀ v ∈ t.sched.waiting, v.id ≠ w.id) ∧ (∀ v ∈ t.sched.monitors, v.id = m.id → v.fired = false) ∧
      t.core.ctx = s.core.ctx ∧ t.core.pc = s.core.pc) ∧
  (∀ (s : State) (n : Nat) (w : Waiting), s.sched.waiting[n]? = some w → waitKind w.wait = 5 →
    16 * bits w.wait.toNat 4 60 ≤ s.cycle →
    ∃ t, exec (.waitTimeDue n) s = .next t ∧ (∃ q ∈ t.sched.ready, q.id = w.id ∧ q.cls = w.cls) ∧
      (∀ v ∈ t.sched.waiting, v.id ≠ w.id) ∧ t.core.ctx = s.core.ctx ∧ t.core.pc = s.core.pc)

/-! ### Events of the arbiter and of a spar's run -/

/-- The numbers of the cores are distinct. -/
def coresDistinct (s : State) : Prop := (s.allCoresList.map (·.num)).Nodup

/-- SSOVR of a launch's header counted up: its four bytes hold the old value and one, and no other byte changes (R288). -/
def SsovrCounted (s t : State) (l : Launch) : Prop :=
  ∀ (old : List Byte) (p : Place), deviceRead s l.ctx (l.hdr + 116) 4 = .ok old →
    deviceDest (s.noteDevice l.ctx (l.hdr + 116) 4) l.ctx (l.hdr + 116) 4 = .ok [(p, 4)] → portAt p 4 = none →
    s.mem.wf = true → PutBytes s t p (toBytes 4 (ofBytes old + 1))

/-- R85, R196, R274, R276, R280, R282, R285, R286, R288, R291 to R294, R297, R300 and R352: the arbiter picks a head of the
highest rank, creating it where it is a spar of a virtual tail; a picked spar enters with the spar-entry state or is restored
as it was saved, and stops there where its segment or a projection cannot be brought back; a yield writes its spar back and it
waits or is ready, and an exited spar ends; a checkpointed spar is queued again and a killed one starts over; a stop saves the
context, and its record waits to be posted; a superstep's exchange is performed, and one that outlasts its budget is counted in
the launch's header. The model's choices: a record's class is written after the debit of the same write-back (log 5); the
conventions of a save and of a resume, the projections' reload and the order of what a resume meets among them (log 9, 33);
which kernel's exchange list a launch runs, and that cores without that kernel take no part (`State.exchangeKernel`, log 25). -/
def Obligations.SchedulerEvents : Prop :=
  (∀ (s : State) (ch : Choice) (l : Launch), s.core.num < s.pcores → s.core.phase = .idle → s.plat.pst ≠ 2 →
    (∀ n, s.core.preempt ≠ some (.drain n)) → s.choice = some ch → s.launchOf ch.r.id.launch = some l →
    let r0 : Int := if s.core.slice ≤ 0 then 65536 else s.core.slice
    let age (c : Nat) : Nat := s.core.ages.toList.getD c 0
    let id := ch.r.id
    (l.generated.contains id.idx = true →
      ∃ t, exec .arbiterChoose s = .next t ∧ t.core.phase = .picked ch.r ∧ t.core.slice = ch.slice ∧ t.core.ages = ch.ages ∧
        (∀ q ∈ t.sched.ready, q.id ≠ id) ∧ t.mem = s.mem ∧
        (∀ c < 8, ∀ h, s.headOf s.core c = some h → (h.srun : Int) ≤ r0 → rankOf (age c) c ≤ rankOf (age ch.r.cls) ch.r.cls)) ∧
    (∀ s1, l.generated.contains id.idx = false → id.idx < l.total →
      deviceWrite s l.ctx (l.recVa id.idx) (l.firstRecord ch.r) = .ok s1 →
      let seed := childSeed l.seed (l.widOf id.idx)
      ∃ t, exec .arbiterChoose s = .next t ∧ t.core.phase = .picked ch.r ∧ t.mem = s1.mem ∧
        t.launchOf id.launch = some { l with generated := l.generated ++ [id.idx] } ∧
        t.sched.kept.get? id.key = some { seedtop := seed, seed0 := seed, first := l.firstRecord ch.r })) ∧
  (∀ (s : State) (r : Ready) (l : Launch) (bs : List Byte), s.core.phase = .picked r → s.launchOf r.id.launch = some l →
    deviceRead s l.ctx (l.recVa r.id.idx) 64 = .ok bs → (recordOf bs).ckpt = false → s.core.storeQ = [] →
    let rc := recordOf bs
    ∃ t, exec .sparEntry s = .next t ∧ t.core.pc = rc.pc ∧ t.runOf.id = r.id ∧ t.runOf.wid = rc.wid ∧ t.runOf.sys = rc.sys ∧
      (∀ n, t.core.ctx.rx n = if 1 ≤ n.toNat ∧ n.toNat ≤ 4 then rc.xs.getD (n.toNat - 1) 0 else 0) ∧
      (∀ k, t.core.ctx.rp k = decide (k = 0)) ∧ (∀ n, t.core.ctx.ra n = {}) ∧ (∀ k, t.core.ctx.rm k = 0) ∧
      (∀ n, t.core.ctx.rt n = 0) ∧ (∀ n, t.core.ctx.rz n = 0) ∧ t.core.ctx.astat = 0 ∧ t.core.ctx.arith = 0 ∧
      t.core.ctx.shape = ((t.runOf.kernel.bind (fun k => s.kernels.get? k)).map (·.shape)).getD 0x3F0F &&& 0x3F0F ∧
      (t.core.ctx.rskb, t.core.ctx.rskl) = l.segment r.id.idx ∧
      t.core.ctx.srctr = 0 ∧ t.core.ctx.qm = [] ∧ t.core.ctx.qc = [] ∧ t.core.ctx.qs = [] ∧ t.core.ctx.qx = [] ∧
      t.core.ctx.qg = [] ∧ (∀ q ∈ t.core.ctx.engTraps, q.cause = 0x45) ∧
      t.core.phase = (match t.core.ctx.engTraps with
        | [] => .running
        | q :: _ => .stopping { q with pc := rc.pc })) ∧
  (∀ (s : State) (r : Ready) (l : Launch) (old c : Ctx) (bs : List Byte) (h : Head), s.core.phase = .picked r →
    s.launchOf r.id.launch = some l → s.sched.saved.get? r.id.key = some old → s.sched.saved.rising = true →
    deviceRead s l.ctx (l.recVa r.id.idx) 64 = .ok bs → (recordOf bs).ckpt = true →
    s.core.storeQ = [] → restoreCtx s l.ctx (s.saveArea r.id) old = .ok (h, c) →
    c.rskb = (s.sched.kept.getD r.id.key {}).rskb → c.rskl = old.rskl →
    ∃ t, exec .sparResume s = .next t ∧ t.core.pc = h.pc ∧ t.runOf.id = r.id ∧ (∀ n, t.core.ctx.rx n = c.rx n) ∧
      (∀ k, t.core.ctx.rp k = c.rp k) ∧ (∀ n, t.core.ctx.ra n = c.ra n) ∧ (∀ k, t.core.ctx.rm k = c.rm k) ∧
      (∀ n, t.core.ctx.rt n = c.rt n) ∧ (∀ n, t.core.ctx.rz n = c.rz n) ∧ t.core.ctx.qc = c.qc ∧
      t.sched.saved.get? r.id.key = none ∧
      t.core.phase = (match t.core.ctx.engTraps, h.swpend with
        | [], none => .running
        | [], some q => .stopping { cause := 0x46, pc := h.pc, addr := q.2, aux := q.1.toNat }
        | e :: _, _ => .stopping { e with pc := h.pc })) ∧
  (∀ (s s1 : State) (l : Launch) (old : List Byte), s.core.phase = .yielding → s.runEnded = false →
    s.backReady = true → s.launchOf s.runOf.id.launch = some l → s.core.run.isSome = true → s.laneRoom = true →
    let q := (s.homeSegment l s.runOf).debitEnergy
    let r := q.rebound q.runOf
    let cls := ((q.launchOf r.id.launch).getD l).cls
    deviceRead q r.ctx r.recVa 64 = .ok old →
    deviceWrite (q.noteDevice r.ctx r.recVa 64) r.ctx r.recVa (q.backRecord r cls (q.cycle - r.started) (recordOf old)) = .ok s1 →
    (s.runOf.exits = true →
      ∃ t, exec .yieldWriteback s = .next t ∧ t.core.phase = .idle ∧ t.core.run = none ∧ t.core.ctx = {} ∧
        (∃ k, t.launchOf r.id.launch = some k ∧ k.exited = l.exited ++ [r.id.idx]) ∧
        (∀ m ∈ t.sched.monitors, m.id ≠ r.id)) ∧
    (∀ s3 s4, s.runOf.exits = false → s.core.ctx.engTraps = [] →
      let s2 := s1.onCore (fun k => k.spend s1.cycle)
      rskFail s2.core.ctx.rskb (ioWrite s2 r.ctx none s2.core.ctx.rskb s2.core.ctx.descriptor) = .ok s3 →
      (∀ ch, (((s3.keepSpar r).leaveRun).parkSpar r cls).choice = some ch → ch.r.id ≠ r.id) → s3.spillAll = (s4, none) →
      ∃ t, exec .yieldWriteback s = .next t ∧ t.core.phase = .idle ∧ t.core.run = none ∧ t.core.ctx = {} ∧ t.mem = s4.mem ∧
        (if (s4.keepSpar r).waitMet r then ∃ e ∈ t.sched.ready, e.id = r.id ∧ e.cls = cls
          else ∃ w ∈ t.sched.waiting, w.id = r.id ∧ w.wait = r.wait))) ∧
  (∀ (s s1 : State), s.core.phase = .running → s.core.preempt = some .checkpoint → s.pendingCause = false →
    s.saveReady = true → s.laneRoom = true →
    (s.landDue.onCore (fun k => k.spend s.cycle)).saveCtx true s.runOf s.core.pc ((s.core.ctx.running.map (·.addr)).getD 0) 0 0
      = (s1, .area) →
    ∃ t, exec .checkpoint s = .next t ∧ t.core.phase = .idle ∧ t.core.run = none ∧ t.mem = s1.mem ∧
      (∃ q ∈ t.sched.ready, q.id = s.runOf.id) ∧ (t.sched.saved.get? s.runOf.id.key).isSome = true) ∧
  (∀ (s s1 : State), s.core.phase = .running → s.core.preempt = some .kill → s.pendingCause = false → s.runEnded = false →
    s.core.storeQ = [] → ((∀ k ∈ s.allCoresList, k.lanesUnposted = []) ∨ (s.laneRoom = true ∧ ∀ c ∈ s.cmdsOf s.runOf.id, c.tok ≠ 0)) →
    coresDistinct s → deviceWrite s s.runOf.ctx s.runOf.recVa s.core.ctx.kept.first = .ok s1 →
    let r := s.runOf
    ∃ t, exec .kill s = .next t ∧ t.core.phase = .idle ∧ t.core.run = none ∧ t.mem = s1.mem ∧
      (∃ q ∈ t.sched.ready, q.id = r.id ∧ q.cls = (recordOf s.core.ctx.kept.first).prio) ∧ t.cmdsOf r.id = [] ∧
      (∀ m ∈ t.sched.monitors, m.id ≠ r.id) ∧
      (∃ k, t.sched.kept.get? r.id.key = some k ∧ k.seedtop = s.core.ctx.kept.seed0 ∧ k.cset = 0)) ∧
  (∀ (s s1 : State) (q0 : TrapInfo), s.core.phase = .stopping q0 → s.runEnded = false → s.saveReady = true →
    s.laneRoom = true →
    let q := if q0.ipc = 0 then { q0 with ipc := ((s.core.ctx.running.map (·.addr)).getD 0) } else q0
    (s.onCore (fun k => k.spend s.cycle)).saveCtx true s.runOf q.pc q.ipc 6 q.cause = (s1, .area) →
    ∃ t r, exec .faultStop s = .next t ∧ t.core.phase = .idle ∧ t.core.run = none ∧ t.mem = s1.mem ∧
      t.core.lanesUnposted = s1.core.lanesUnposted ++ [r] ∧ r.laneP = decide (0x40 ≤ q.cause) ∧ r.open_ = true ∧
      r.id = some s.runOf.id ∧ r.bytes.take 2 = toBytes 2 q.cause ∧ (∃ w ∈ t.sched.waiting, w.id = s.runOf.id ∧ w.wait = 6)) ∧
  (∀ (s : State) (p : Bool) (r : LaneRec), s.core.nextRecord p = some r → s.lanes.ctl.getLsbD 0 = true → s.mem.wf = true →
    let dev (a : Nat) : Place := { space := .dev, owner := 0, addr := a }
    let base := s.laneBase p
    let head := s.laneField p 0 8
    let tail := s.laneField p 8 8
    let n := s.laneField p 16 4
    n ≠ 0 → (head + 2 ^ 64 - tail) % 2 ^ 64 < n → r.bytes.length = 56 → base + 128 + 64 * n ≤ portBase →
    ∃ t, exec (.lanePost p) s = .next t ∧
      (∀ i b, (toBytes 8 head ++ r.bytes)[i]? = some b → t.mem.get (dev (base + 128 + 64 * (head % n) + i)) = b) ∧
      (∀ i b, (toBytes 8 (head + 1))[i]? = some b → t.mem.get (dev (base + i)) = b) ∧
      t.core.lanesUnposted.length + 1 = s.core.lanesUnposted.length ∧
      t.lanes.msix = s.lanes.msix ++ (if s.lanes.ctl.getLsbD 1 = true ∧ head = tail then [p.toNat] else []) ∧
      t.core.ctx = s.core.ctx ∧ t.core.pc = s.core.pc) ∧
  (∀ (s : State) (n : Nat) (l : Launch), s.launchOf n = some l →
    (l.ss = true → l.exchange = none → l.ended = false → (s.atBarrier n) ≠ [] →
      (s.atBarrier n).length + l.exited.length = l.total + l.children.length →
      ∃ t, exec (.exchangeBegin n) s = .next t ∧ (∃ k, t.launchOf n = some k ∧ k.exchange = some s.cycle) ∧ t.mem = s.mem ∧
        t.core = s.core) ∧
    (∀ c, l.exchange = some c →
      let kern := s.exchangeKernel l
      let list := (kern.map (·.exch)).getD []
      let cores := l.participants.filter (fun c => ((kern.map (·.lcores)).getD []).contains c)
      let s1 := list.foldl (fun q e => q.exchangeEntry cores e) s
      ∃ t, exec (.exchangeEnd n) s = .next t ∧ (∃ k, t.launchOf n = some k ∧ k.exchange = none) ∧
        (s.cycle ≤ c + l.exbud ∨ l.exOver = true → t.mem = s1.mem) ∧ (c + l.exbud < s.cycle → l.exOver = false → SsovrCounted s1 t l) ∧
        (∀ w ∈ s.atBarrier n, ∃ q ∈ t.sched.ready, q.id = w.id) ∧ t.atBarrier n = []) ∧
    (∀ c, l.exchange = some c → c + l.exbud < s.cycle → l.exOver = false →
      ∃ t k, exec (.exbudExpire n) s = .next t ∧ t.launchOf n = some k ∧ k.exOver = true ∧
        k = { l with exOver := true } ∧ SsovrCounted s t l ∧ t.core.ctx = s.core.ctx))

/-! ### Events of memory, of the host interface, of the fabric and of the platform -/

/-- R13, R256, R258 to R260 and R263 to R265: a walk installs its translation; a DEV read that misses fills its sector and
opens or joins its window, which expires; FLUSH drops the lines and HOST read copies of its range and SHOOT its translations
and the record caches, no byte changing; a maintenance command ends with DONE, a SHOOT once no access that used a removed
translation is left; HBM4 events record their channel, one of the partition's. That a read under channel code 10 opens
and joins no window is the model's reading (log 32), and so is that minimal mode keeps a maintenance command back (log 36). -/
def Obligations.MemoryEvents : Prop :=
  (∀ (s : State) (ctx : BitVec 16) (va : BitVec 57) (acc : Access), aprOf (s.ctxOf ctx.toNat) (va.setWidth 64) = none →
    tbHit s.core.tb ctx.toNat (va.setWidth 64) = none →
    let w := walk s.mem (s.ctxOf ctx.toNat).troot (va.setWidth 64)
    (∀ x, w = .ok x → x.allows acc = true → ∃ t, exec (.pageWalk ctx va acc) s = .next t ∧
      { ctx := ctx.toNat, base := x.base, size := x.size, pte := x.pte } ∈ t.core.tb ∧ t.core.tb.length ≤ max 2048 s.core.tb.length ∧
      (∀ p, t.mem.get p = s.mem.get p) ∧ t.core.ctx = s.core.ctx ∧ t.core.pc = s.core.pc) ∧
    ((∀ x, w = .ok x → x.allows acc = false) → ∃ t, exec (.pageWalk ctx va acc) s = .next t ∧
      (∀ p, t.mem.get p = s.mem.get p) ∧ t.core = s.core)) ∧
  (∀ (s : State) (pa : BitVec 48) (ch : BitVec 2) (cmp : Bool),
    let w := s.mem.windows.get? (pa.toNat / 128)
    let there := s.mem.present (devPlace pa.toNat)
    ((there = false ∨ w.isSome = true) →
      ∃ t, exec (.l2ReadMiss pa ch cmp) s = .next t ∧ t.mem.present (devPlace pa.toNat) = true ∧
        (∀ p, t.mem.get p = s.mem.get p) ∧
        t.mem.windows.get? (pa.toNat / 128) = (if ch = 2 then w else some (if w.getD 0 < 128 then w.getD 0 + 1 else w.getD 0)) ∧
        t.core = s.core) ∧
    (there = true → w = none → exec (.l2ReadMiss pa ch cmp) s = .next s)) ∧
  (∀ (s : State) (n : Nat), (s.mem.windows.get? n).isSome = true → s.mem.windows.rising = true →
    ∃ t, exec (.mcWindowExpire n) s = .next t ∧ t.mem.windows.get? n = none ∧
      (∀ m, m ≠ n → t.mem.windows.get? m = s.mem.windows.get? m) ∧ (∀ p, t.mem.get p = s.mem.get p) ∧ t.core = s.core) ∧
  (∀ (s : State) (n : Nat), s.ownsChan n = true → ∃ t, exec (.hbmHalfWidth n) s = .next t ∧
    (∀ m, m ∈ t.plat.halfChans ↔ m = n ∨ m ∈ s.plat.halfChans) ∧ t.mem = s.mem ∧ t.core = s.core) ∧
  (∀ (s : State) (n errs row : Nat) (bad : List Nat), s.ownsChan n = true → ∃ t, exec (.hbmRefreshScrub n errs row bad) s = .next t ∧
    t.plat.scrubs.getD n (0, 0) = ((s.plat.scrubs.getD n (0, 0)).1 + errs, row) ∧ t.mem.badAtoms = bad ∧
    (∀ p, t.mem.get p = s.mem.get p) ∧ t.core = s.core) ∧
  (∀ (s : State) (n errs row : Nat) (bad : List Nat), s.ownsChan n = false →
    exec (.hbmHalfWidth n) s = .next s ∧ exec (.hbmRefreshScrub n errs row bad) s = .next s) ∧
  (∀ (s : State), s.hostUp = true → s.plat.min = true → ∀ i ∈ [Instr.mntFlush, .mntShoot], exec i s = .next s.wake) ∧
  (∀ (s : State), s.hostUp = true → s.plat.min = false → s.maint.stat.getLsbD 0 = false →
    let aligned := s.maint.addr.toNat % 512 = 0 ∧ s.maint.len.toNat % 512 = 0
    (aligned → ∃ t, exec .mntFlush s = .next t ∧ t.maint.stat.getLsbD 0 = true ∧
      (∀ l ∈ t.mem.l2, l.line < copyLines → inMaint s.maint (512 * l.line) 512 = false) ∧
      (∀ k, t.mem.copies.get? k =
        if k < 2 ^ 80 ∧ inMaint s.maint (128 * (k % 2 ^ 57)) 128 = true then none else s.mem.copies.get? k) ∧
      (∀ p, t.mem.get p = s.mem.get p) ∧ t.core = s.core) ∧
    (aligned → ∃ t, exec .mntShoot s = .next t ∧ t.maint.stat.getLsbD 0 = true ∧ t.mem = s.mem ∧
      (∀ k ∈ t.core :: t.others, k.records = [] ∧
        ∀ e ∈ k.tb, ¬(e.ctx = s.maint.ctx.toNat % 2 ^ 16 ∧ inMaint s.maint e.base e.size = true))) ∧
    (¬aligned → ∀ i ∈ [Instr.mntFlush, .mntShoot], ∃ t, exec i s = .next t ∧ t.maint.stat = s.maint.stat ||| 4 ∧
      t.mem = s.mem ∧ t.core = s.core)) ∧
  (∀ (s : State), s.maint.stat.getLsbD 0 = true → (s.maint.cmd = 2 → s.fabric.out = [] ∧ ∀ k ∈ s.core :: s.others, k.storeQ = []) →
    ∃ t, exec .mntDone s = .next t ∧ t.maint.stat.getLsbD 0 = false ∧ t.maint.stat.getLsbD 1 = true ∧ t.mem = s.mem ∧
      t.core = s.core)

/-- The 64 bytes of a completion-log entry (R324). -/
def entryBytes (s : State) (p : BitVec 512) (status : Nat) (hdr : Word) : List Byte :=
  bvBytes 8 s.host.head ++ toBytes 8 (pkt p 0 8) ++ toBytes 1 0 ++ toBytes 1 (pktType p) ++ toBytes 1 status
    ++ toBytes 1 (s.seedDepth (pktCtx p)) ++ toBytes 2 (pktCtx p) ++ toBytes 2 0 ++ bvBytes 8 hdr ++ toBytes 4 0 ++ toBytes 28 0

/-- A packet is answered: its ACCEPT entry is the next of the completion log, in a state that is otherwise `q` (R324). -/
def Answers (s : State) (i : Instr) (q : State) (p : BitVec 512) (status : Nat) (hdr : Word) : Prop :=
  ∃ t, exec i s = .next t ∧ t = q.ackPacket p status hdr ∧ t.host = { q.host with head := q.host.head + 1 } ∧
    t.core = q.core ∧ t.ctxs = q.ctxs ∧ t.sched.launches = q.sched.launches ∧
    (q.mem.wf = true → PutBytes q t
      { space := .host, owner := 0, addr := q.host.cplb.toNat + 64 * (q.host.head.toNat % q.host.cpln.toNat) }
      (entryBytes q p status hdr))

/-- R232, R257, R275, R289, R293, R322 to R326: the port accepts a packet in sequence; each packet acts or is refused with
its status, and is answered by an entry of the completion log; a fence is answered once its launches have finished. The model's
choices: a packet of no type is answered with status 1 (log 35), and a schedule of no entry, of more than 256, or at an address
of more than 48 bits with status 7 (log 40). -/
def Obligations.PacketEvents : Prop :=
  (∀ (s : State), s.plat.min = true → exec .portAccept s = .next s) ∧
  (∀ (s : State), s.plat.min = false → s.host.portWrite = true → s.host.accepted = [] →
    let h := s.host
    let next : State := { s with host := { h with portWrite := false, next := h.next + 1 } }
    (h.ctl.getLsbD 0 = false → exec .portAccept s = .next { s with host := { h with portWrite := false } }) ∧
    (h.ctl.getLsbD 0 = true → BitVec.ofNat 64 (pkt h.latch 0 8) = h.next → s.logRoom = true →
      (pktType h.latch = 0 ∨ 8 < pktType h.latch) → Answers s .portAccept next h.latch 1 0)) ∧
  (∀ (s : State), s.plat.min = false → s.host.portWrite = true → s.host.accepted = [] → s.host.ctl.getLsbD 0 = true →
    let h := s.host
    (BitVec.ofNat 64 (pkt h.latch 0 8) ≠ h.next → ∃ t, exec .portAccept s = .next t ∧ t.host.ctl = h.ctl ||| 8 ∧
      t.host.next = h.next ∧ t.host.accepted = [] ∧ t.mem = s.mem ∧ t.core = s.core) ∧
    (BitVec.ofNat 64 (pkt h.latch 0 8) = h.next → s.logRoom = true → 1 ≤ pktType h.latch → pktType h.latch ≤ 8 →
      ∃ t, exec .portAccept s = .next t ∧ t.host.accepted = [h.latch] ∧ t.host.next = h.next + 1 ∧
        t.host.portWrite = false ∧ t.mem = s.mem ∧ t.core = s.core)) ∧
  (∀ (s s1 : State) (p : BitVec 512), s.takePacket 1 = some (p, s1) →
    let hdr := BitVec.ofNat 64 (pkt p 16 8)
    (∀ st, s1.launchFrom p = .error st → Answers s .launchPacket s1 p st hdr) ∧
    (∀ l s2, s1.launchFrom p = .ok l → (s1.noteDevice l.ctx hdr 192).createLaunch l = some s2 → pkt p 40 4 = 0 → s2.barred l = true →
      Answers s .launchPacket s2 p 0 hdr ∧ s2.launchOf s1.sched.nextLaunch = some l) ∧
    (∀ l s2, s1.launchFrom p = .ok l → (s1.noteDevice l.ctx hdr 192).createLaunch l = some s2 → ∃ t, exec .launchPacket s = .next t ∧
      t.host.head = s.host.head + 1 ∧ t.launchOf s1.sched.nextLaunch = some l)) ∧
  (∀ (s s1 : State) (p : BitVec 512), s.takePacket 2 = some (p, s1) →
    let ctx := pktCtx p
    (pktPlain p 0 32 = false → Answers s .seedPush s1 p 1 0) ∧
    (pktPlain p 0 32 = true → 16 ≤ s1.seedDepth ctx → Answers s .seedPush s1 p 5 0) ∧
    (pktPlain p 0 32 = true → s1.seedDepth ctx < 16 →
      Answers s .seedPush (s1.onContext ctx (fun c => { c with seeds := BitVec.ofNat 128 (pkt p 16 16) :: c.seeds })) p 0 0)) ∧
  (∀ (s s1 : State) (p : BitVec 512), s.takePacket 3 = some (p, s1) →
    let ctx := pktCtx p
    (pktPlain p 0 16 = false → Answers s .seedPop s1 p 1 0) ∧
    (pktPlain p 0 16 = true → s1.seedDepth ctx = 0 → Answers s .seedPop s1 p 6 0) ∧
    (pktPlain p 0 16 = true → s1.seedDepth ctx ≠ 0 →
      Answers s .seedPop (s1.onContext ctx (fun c => { c with seeds := c.seeds.drop 1 })) p 0 0)) ∧
  (∀ (s s1 : State) (p : BitVec 512), s.takePacket 4 = some (p, s1) →
    let ctx := pktCtx p
    let top := ((s1.ctxOf ctx).seeds.head?).getD 0
    let i := BitVec.ofNat 64 (pkt p 16 8)
    (pktPlain p 0 24 = false → Answers s .seedFork s1 p 1 0) ∧
    (pktPlain p 0 24 = true → 16 ≤ s1.seedDepth ctx → Answers s .seedFork s1 p 5 0) ∧
    (pktPlain p 0 24 = true → s1.seedDepth ctx < 16 →
      Answers s .seedFork (s1.onContext ctx (fun c => { c with seeds := (arxh top (~~~i) ++ arxh top i) :: c.seeds })) p 0 0)) ∧
  (∀ (s s1 : State) (p : BitVec 512), s.takePacket 5 = some (p, s1) →
    ((pktPlain p 0 29 = false ∨ 2 < pkt p 28 1) → Answers s .prefetchHint s1 p 1 0) ∧
    (pktPlain p 0 29 = true → pkt p 28 1 ≤ 2 → ∃ q, Answers s .prefetchHint q p 0 0 ∧ (∀ a, q.mem.get a = s.mem.get a) ∧
      q.core.ctx = s.core.ctx ∧ q.core.pc = s.core.pc)) ∧
  (∀ (s s1 : State) (p : BitVec 512), s.takePacket 6 = some (p, s1) →
    let hdr := BitVec.ofNat 64 (pkt p 16 8)
    let mj := pkt p 24 4
    ((pktPlain p 0 28 = false ∨ mj = 0) → Answers s .energyBudget s1 p 1 hdr) ∧
    (pktPlain p 0 28 = true → mj ≠ 0 → s1.launchNamed (pktCtx p) hdr = none → Answers s .energyBudget s1 p 9 hdr) ∧
    (∀ n, pktPlain p 0 28 = true → mj ≠ 0 → s1.launchNamed (pktCtx p) hdr = some n →
      Answers s .energyBudget (s1.onLaunch n (fun l => { l with budget := l.used + mj, armed := true })) p 0 hdr)) ∧
  (∀ (s s1 : State) (p : BitVec 512), s.takePacket 7 = some (p, s1) →
    let n := pkt p 24 2
    let at_ := pkt p 16 8
    (pktPlain p 0 26 = false → Answers s .evictionScheduleLoad s1 p 1 0) ∧
    (pktPlain p 0 26 = true → (n = 0 ∨ 256 < n ∨ 2 ^ 48 ≤ at_ ∨ evictTable s1.mem at_ n = none) →
      Answers s .evictionScheduleLoad s1 p 7 0) ∧
    (∀ es, pktPlain p 0 26 = true → 1 ≤ n → n ≤ 256 → at_ < 2 ^ 48 → evictTable s1.mem at_ n = some es →
      let s2 := s1.noteDev at_ (16 * n)
      Answers s .evictionScheduleLoad { s2 with mem := { s2.mem with evict := es } } p 0 0)) ∧
  (∀ (s s1 : State) (p : BitVec 512), s.takePacket 8 = some (p, s1) →
    (pktPlain p 1 16 = false → Answers s .fencePacket s1 p 1 0) ∧
    (pktPlain p 1 16 = true → ∃ t f, exec .fencePacket s = .next t ∧ t.host.fences = s.host.fences ++ [f] ∧
      f.ctx = pktCtx p ∧ f.bar = decide (pkt p 9 1 = 1) ∧ f.cseq = BitVec.ofNat 64 (pkt p 0 8) ∧ t.mem = s.mem ∧
      t.core = s.core ∧ ∀ e ∈ s.sched.launches, (e.1 ∈ f.launches ↔ ∃ l : Launch, (e.1, l) ∈ s.sched.launches ∧
        l.packet = true ∧ l.finished = false ∧ l.ctx = pktCtx p))) ∧
  (∀ (s : State) (n : Nat) (f : Fence), s.host.fences[n]? = some f → f.launches = [] → s.effectsDone f.ctx = true →
    ∃ t, exec (.fencePost n) s = .next t ∧ t.host.fences = s.host.fences.eraseIdx n ∧ t.host.head = s.host.head + 1 ∧
      t.core = s.core) ∧
  (∀ (s : State) (p : BitVec 512), s.plat.min = true → s.host.ctl.getLsbD 0 = true → s.host.clogn ≠ 0 → s.logRoom = true →
    p = BitVec.ofNat 512 (ofBytes ((List.range 64).map (fun i => s.mem.get ⟨.host, 0,
      s.host.clogb.toNat + 64 * (s.host.next.toNat % s.host.clogn.toNat) + i⟩))) →
    BitVec.ofNat 64 (pkt p 0 8) = s.host.next →
    let at_ : Place := ⟨.host, 0, s.host.clogb.toNat + 64 * (s.host.next.toNat % s.host.clogn.toNat)⟩
    Answers s .minimalModePacket { s.readDone 0 0 [(.place at_ false, 64)] with host := { s.host with next := s.host.next + 1 } } p 2
      (if pktType p = 1 ∨ pktType p = 6 then BitVec.ofNat 64 (pkt p 16 8) else 0))

/-- R15, R20, R283, R293, R302 to R308, R311 to R313 and R319 to R321: the lanes and the port open and close; the host reads and
writes DEV through its window and its own memory; a link takes a flit in sequence, passes on what is for another device,
retrains and comes up; a pair performs each transaction once, in order, and only inside the inbound windows, and its
acknowledgements count for the older transactions too. The model's choices: EN = 1 while EN is 1 starts nothing (log 35), and
in minimal mode the port opens on a sound header without a launch (log 36); what a host write in the area of an absent core's
scratchpad changes (log 32); acknowledgements count for older transactions but not past an RFAA, when sectors of later RSTO
land, a lost word of an RFAA, and where the pair area keeps a device's state (log 27); LFAULT takes the lanes of either end
(log 38). -/
def Obligations.HostAndFabricEvents : Prop :=
  (∀ (s : State) (v : Word), s.hostUp = true → s.plat.min = true →
    ∀ i ∈ [Instr.laneEnable v, .linkEnable v, .attRequest v, .thinjWrite v], exec i s = .next s.wake) ∧
  (∀ (s : State) (v : Word), s.hostUp = true → s.plat.min = false → ∃ t, exec (.laneEnable v) s = .next t ∧ t.mem = s.mem ∧
    t.core = s.core ∧ t.lanes.ctl.getLsbD 1 = v.getLsbD 1 ∧
    (v.getLsbD 0 = false → t.lanes.ctl.getLsbD 0 = false) ∧
    (v.getLsbD 0 = true → t.lanes.ctl.getLsbD 2 = !(s.laneOk false && s.laneOk true) ∧
      t.lanes.ctl.getLsbD 0 = ((s.laneOk false && s.laneOk true) || s.lanes.ctl.getLsbD 0))) ∧
  (∀ (s : State) (v : Word), s.hostUp = true → s.host.ctl.getLsbD 0 = false →
    let dctx := bits v.toNat 16 16
    let h := s.host
    let ok := logSizeOk h.clogn && logSizeOk h.cpln && decide (h.clogb.toNat % 4096 = 0 ∧ h.cplb.toNat % 4096 = 0 ∧ h.disphdr ≠ 0)
    (ok = false ∨ s.wake.readHeader dctx h.disphdr = none → ∃ t, exec (.hostEnable v) s = .next t ∧ t.host.ctl.getLsbD 0 = false ∧ t.host.ctl.getLsbD 1 = true ∧
      t.mem = s.mem ∧ t.core = s.core) ∧
    (∀ bs, ok = true → s.wake.readHeader dctx h.disphdr = some bs → s.plat.min = true → ∃ t, exec (.hostEnable v) s = .next t ∧
      t.host.ctl.getLsbD 0 = true ∧ t.host.ctl.getLsbD 1 = false ∧ t.sched = s.sched ∧ t.mem = s.mem ∧ t.core = s.core) ∧
    (∀ bs, ok = true → s.wake.readHeader dctx h.disphdr = some bs → s.plat.min = false → ∃ t, exec (.hostEnable v) s = .next t ∧
      ((t.host.ctl.getLsbD 0 = true ∧ t.host.ctl.getLsbD 1 = false ∧ t.sched.nextLaunch = s.sched.nextLaunch + 1) ∨
       (t.host.ctl.getLsbD 0 = false ∧ t.host.ctl.getLsbD 1 = true ∧ t.sched = s.sched)))) ∧
  (∀ (s : State) (v : Word), s.hostUp = true → s.host.ctl.getLsbD 0 = true → ∃ t, exec (.hostEnable v) s = .next t ∧
    t.host.ctl.getLsbD 0 = true ∧ t.sched = s.sched ∧ t.mem = s.mem ∧ t.core = s.core) ∧
  (∀ (s : State) (v : Word), s.hostUp = true → ∃ t, exec (.hostDisable v) s = .next t ∧ t.host.ctl.getLsbD 0 = false ∧
    (∀ c ∈ t.ctxs, c.2.seeds = []) ∧ (∀ n l, t.launchOf n = some l → l.ended = true ∨ l.finished = true)) ∧
  (∀ (s : State) (hpa : Nat) (bs : List Byte), s.mem.wf = true → s.serves = true →
    let pinned (lc b : Nat) : Prop := lc < 96 ∧ s.imageIn lc = false ∧ Config.pinnedAt lc ≤ b ∧ b < Config.pinnedAt lc + 0x410000
    (∀ a, s.windowAddr hpa bs.length = some a → a + bs.length ≤ portBase →
      ∃ t, exec (.hostWindowAccess hpa true bs) s = .next t ∧ a / 64 ∈ t.host.hostHeld ∧ a / 64 ∈ t.host.hostDirty ∧
        t.core = s.core ∧ (∀ i b, bs[i]? = some b → t.mem.get ⟨.dev, 0, a + i⟩ = b) ∧
        (∀ q : Place, q.space ≠ .spm → Place.apart ⟨.dev, 0, a⟩ q bs.length → t.mem.get q = s.mem.get q) ∧
        ((∀ lc i, i < bs.length → ¬pinned lc (a + i)) → PutBytes s t ⟨.dev, 0, a⟩ bs) ∧
        (∀ lc i b, bs[i]? = some b → pinned lc (a + i) → (∀ k < lc, ¬pinned k (a + i)) → a + i < Config.pinnedAt lc + 0x400000 →
          t.mem.get ⟨.spm, lc, a + i - Config.pinnedAt lc⟩ = b)) ∧
    (∀ a, s.windowAddr hpa bs.length = some a →
      ∃ t, exec (.hostWindowAccess hpa false bs) s = .next t ∧ t.mem = s.mem ∧ a / 64 ∈ t.host.hostHeld ∧
        t.host.hostDirty = s.host.hostDirty ∧ t.core = s.core)) ∧
  (∀ (s : State) (hpa : Nat) (w : Bool) (bs : List Byte), s.serves = false ∨ s.windowAddr hpa bs.length = none →
    exec (.hostWindowAccess hpa w bs) s = .next s) ∧
  (∀ (s : State), s.hostUp = true → ∃ t, exec .hostWindowClose s = .next t ∧ t.host.hwlen = 0 ∧ t.host.hostHeld = [] ∧
    t.host.hostDirty = [] ∧ t.mem = s.mem ∧ t.core = s.core) ∧
  (∀ (s : State) (a : Nat) (bs : List Byte), s.mem.wf = true →
    ∃ t, exec (.hostSnoop a bs) s = .next t ∧ PutBytes s t ⟨.host, 0, a⟩ bs ∧
      t.sched.monitors = fireAt s.sched.monitors ⟨.host, 0, a⟩ bs.length ∧
      (∀ k, k < 2 ^ 80 → a / 128 ≤ k → k ≤ (a + bs.length - 1) / 128 → t.mem.copies.get? k = none) ∧ t.core = s.core) ∧
  (∀ (s : State) (n : Fin 12) (fl : BitVec 2048), s.fabric.links[n].state = 2 →
    let l := s.fabric.links[n]
    let d := seqDiff (flitField fl 0 3) l.expect.toNat
    let mine (p : BitVec 1920) : Bool := decide (payloadDst p = s.fabric.devnum.toNat)
    let got := l.inbound ++ [fl.extractLsb' 64 1920]
    ∃ t, exec (.flitReceive n.val fl) s = .next t ∧ t.mem = s.mem ∧ t.core = s.core ∧
      (∀ m : Fin 12, m ≠ n → t.fabric.links[m] = s.fabric.links[m]) ∧
      (flitSound fl = true → flitField fl 3 1 = 0 → d = 0 →
        t.fabric.links[n].inbound = got.filter mine ∧ t.fabric.links[n].expect = l.expect + 1 ∧
        t.fabric.transit = s.fabric.transit ++ got.filter (fun p => !mine p)) ∧
      ((flitSound fl = false ∨ 3 < flitField fl 3 1 ∨ (flitField fl 3 1 = 0 ∧ d ≠ 0)) →
        t.fabric.links[n].inbound = l.inbound.filter mine ∧ t.fabric.links[n].expect = l.expect) ∧
      (flitSound fl = false → t.fabric.links[n].outbound = l.outbound ++ [linkFlit l 2 l.expect.toNat]) ∧
      (flitSound fl = true → flitField fl 3 1 = 3 → t.fabric.links[n].state = 3 ∧
        t.fabric.links[n].outbound = l.outbound ++ [linkFlit l 3 l.nextSeq.toNat])) ∧
  (∀ (s : State) (n : Fin 12) (lane : Nat), lane < 16 → s.fabric.links[n].state ≠ 0 →
    let l := s.fabric.links[n]
    ∃ t, exec (.laneFault n.val lane) s = .next t ∧ t.fabric.links[n].lfault.getLsbD lane = true ∧
      t.fabric.links[n].state = (if l.state = 2 then 3 else l.state) ∧ t.fabric.links[n].retraining = true ∧
      t.fabric.links[n].outbound = l.outbound ++ (if l.retraining then [] else [linkFlit l 3 l.nextSeq.toNat]) ∧
      t.mem = s.mem ∧ t.core = s.core) ∧
  (∀ (s : State) (n : Fin 12) (faults : BitVec 16) (ack : BitVec 24), s.fabric.links[n].retraining = true →
    let all := s.fabric.links[n].lfault ||| faults
    let w := widthOf all
    ∃ t, exec (.retrainDone n.val faults ack) s = .next t ∧ t.fabric.links[n].width = w ∧ t.fabric.links[n].lfault = all ∧
      t.fabric.links[n].state = (if w = 3 then 0 else if s.fabric.ctl.getLsbD 0 then 2 else 1) ∧
      t.fabric.links[n].trained = decide (w ≠ 3) ∧ t.mem = s.mem ∧ t.core = s.core) ∧
  (∀ (s : State) (v : Word), s.hostUp = true → s.plat.min = false → ∃ t, exec (.linkEnable v) s = .next t ∧ t.mem = s.mem ∧ t.core = s.core ∧
    (v.getLsbD 0 = true → t.fabric.ctl = 1 ∧ ∀ n : Fin 12, t.fabric.links[n].state =
      if s.fabric.links[n].state = 1 ∧ s.fabric.links[n].trained = true then 2
      else if s.fabric.links[n].retraining = true then 3 else s.fabric.links[n].state) ∧
    (v.getLsbD 0 = false → t.fabric = s.fabric)) ∧
  (∀ (s : State) (n : Nat), s.serves = false → exec (.linkManagementReset n) s = .next s) ∧
  (∀ (s : State) (n : Fin 12), s.ownsLink n.val = true → s.serves = true → ∃ t, exec (.linkManagementReset n.val) s = .next t ∧ t.fabric.links[n].width = 0 ∧
    t.fabric.links[n].lfault = 0 ∧ t.fabric.links[n].state = (if s.fabric.ctl.getLsbD 0 then 2 else 1) ∧ t.mem = s.mem ∧
    t.core = s.core) ∧
  (∀ (s : State) (src : BitVec 16) (psn : BitVec 32) (x : Txn), s.serves = false → exec (.pairReceive src psn x) s = .next s) ∧
  (∀ (s : State) (src : BitVec 16) (psn : BitVec 32) (a : BitVec 48) (bs : List Byte), s.serves = true →
    let want := s.fabric.expect.getD src.toNat 0
    let pair : Place := ⟨.dev, 0, s.fabric.pairb.toNat + 64 * src.toNat⟩
    ∃ t, exec (.pairReceive src psn (.store a bs)) s = .next t ∧ t.core = s.core ∧ t.plat = s.wake.plat ∧
      (psn.toNat = want → s.inWindow a.toNat bs.length = true → a.toNat + bs.length ≤ portBase → s.mem.wf = true →
        (∀ i b, bs[i]? = some b → t.mem.get ⟨.dev, 0, a.toNat + i⟩ = b) ∧
        (∀ q : Place, Place.apart ⟨.dev, 0, a.toNat⟩ q bs.length → pair.apart q 64 → t.mem.get q = s.mem.get q) ∧
        t.fabric.expect.getD src.toNat 0 = (psn.toNat + 1) % 2 ^ 32) ∧
      (psn.toNat = want → s.inWindow a.toNat bs.length = false → s.mem.wf = true →
        (∀ q : Place, pair.apart q 64 → t.mem.get q = s.mem.get q) ∧ t.fabric.expect.getD src.toNat 0 = (psn.toNat + 1) % 2 ^ 32) ∧
      (psn.toNat ≠ want → t.mem = s.mem ∧ t.fabric.expect = s.fabric.expect)) ∧
  (∀ (s : State) (src : BitVec 16) (psn : BitVec 32) (a : BitVec 48) (x : Word),
    psn.toNat = s.fabric.expect.getD src.toNat 0 → s.inWindow a.toNat 8 = true → a.toNat + 8 ≤ portBase → s.mem.wf = true →
    s.serves = true →
    let at_ : Place := ⟨.dev, 0, a.toNat⟩
    let pair : Place := ⟨.dev, 0, s.fabric.pairb.toNat + 64 * src.toNat⟩
    ((∀ i < 8, pair.apart (at_.off i) 64) → ∃ t old, exec (.pairReceive src psn (.faa a x)) s = .next t ∧ t.core = s.core ∧
      (s.mem.badAtoms = [] → old = BitVec.ofNat 64 (ofBytes (s.mem.dev.readN a.toNat 8))) ∧
      (∀ i b, (toBytes 8 (old + x).toNat)[i]? = some b → t.mem.get (at_.off i) = b) ∧
      (∀ q : Place, at_.apart q 8 → pair.apart q 64 → t.mem.get q = s.mem.get q) ∧
      (src.toNat, psn.toNat, 0, old) ∈ t.fabric.acks ++ t.fabric.unacked) ∧
    (∃ t, exec (.pairReceive src psn (.flag a x)) s = .next t ∧ t.core = s.core ∧
      (∀ q : Place, pair.apart q 64 → t.mem.get q = s.mem.get q) ∧
      t.fabric.flags = s.fabric.flags ++ [(src.toNat, psn.toNat, a.toNat, x)])) ∧
  (∀ (s : State) (dst : BitVec 16) (psn : BitVec 32) (st : Byte) (old : Word), (st = 0 ∨ st = 10) →
    let pair := s.fabric.out.filter (fun o => decide (o.dst = dst.toNat))
    ((∀ o ∈ pair, o.psn ≠ psn.toNat) → exec (.pairAck dst psn st old) s = .next s) ∧
    (∀ o older rest, pair = older ++ o :: rest → o.psn = psn.toNat → (pair.map (·.psn)).Nodup →
      (∀ q ∈ older, q.isFaa = false) → (st = 10 → o.landed = false) → (∀ k ∈ s.allCoresList, k.lanesUnposted = []) →
      ∃ t, exec (.pairAck dst psn st old) s = .next t ∧
        t.fabric.out.length + older.length + 1 = s.fabric.out.length ∧
        (older = [] → (∀ q ∈ rest, q.isRsto = false) →
          (st ≠ 0 → t.mem = s.mem) ∧
          (∀ a bs, st = 0 → o.txn = .store a bs → o.store = none → o.landed = false → s.mem.wf = true →
            PutBytes s t ⟨.peer, o.dst, a.toNat⟩ bs) ∧
          (∀ seq k e p bs, st = 0 → o.store = some seq → coresDistinct s → k ∈ s.allCoresList → k.num = o.core →
            k.storeQ.find? (fun q => decide (q.seq = seq ∧ q.id = o.id)) = some e → e.sent = 1 → e.failed = false →
            e.segs = [(p, bs)] → p.space = .peer → s.mem.wf = true → PutBytes s t p bs)))) ∧
  (∀ (s : State) (dst : BitVec 16) (o : OutTxn),
    s.fabric.out.find? (fun o => decide (o.dst = dst.toNat ∧ o.sent)) = some o →
    (o.resends < 8 → ∃ t, exec (.pairResendTimeout dst) s = .next t ∧ t.mem = s.mem ∧ t.core = s.core ∧
      t.fabric.out = s.fabric.out.map (fun q =>
        if q.dst = dst.toNat then { q with sent := false, resends := q.resends + 1 } else q)) ∧
    (8 ≤ o.resends → (∀ k ∈ s.allCoresList, k.lanesUnposted = []) → ∃ t, exec (.pairResendTimeout dst) s = .next t ∧
      t.mem = s.mem ∧ t.fabric.out = s.fabric.out.filter (fun q => decide (q.dst ≠ dst.toNat)))) ∧
  (∀ (s : State) (src : BitVec 16) (q : Nat × Nat × Nat × Word),
    s.fabric.flags.find? (fun q => decide (q.1 = src.toNat)) = some q → q.2.2.1 + 8 ≤ portBase → s.mem.wf = true →
    ∃ t, exec (.rfenPerform src) s = .next t ∧ PutBytes s t ⟨.dev, 0, q.2.2.1⟩ (toBytes 8 q.2.2.2.toNat) ∧
      t.fabric.flags = s.fabric.flags.erase q ∧ t.core = s.core)

/-- The cores are as after reset, but for the FCST that firmware writes in minimal mode (R331). -/
def coresFresh (t : State) : Prop :=
  (∃ a, t.core = { State.reset.core with afr := a }) ∧
    (t.plat.min = false → t.core = State.reset.core ∧ t.others = State.reset.others)

/-- R5, R20, R59 to R63, R207, R323 and R329 to R338: a boot goes stage by stage or fails with its reason and resets the device;
attestation, power, temperature, debug and the fuses act as their registers say; images are finalised, loaded and unloaded; a
write of a register replaces its writable fields, and the registers answer once boot stage 5 is complete, and not in P3. The
model's choices: registers hold misaligned base values as they were written, and which of them minimal mode answers, and that
images are not finalised or loaded there (log 36); the layout codes 0 to 3 of PARTCFG (log 14); empty storage after P3 (log 2);
whose token sets the debug state (log 7). -/
def Obligations.PlatformEvents : Prop :=
  (∀ (s : State), ∃ t, exec .deviceReset s = .next t ∧ coresFresh t ∧
    t.sched = {} ∧ t.mem.dev = s.mem.dev ∧ t.mem.host = s.mem.host ∧ t.mem.spm = [] ∧ t.mem.tags = [] ∧ t.kernels = [] ∧
    t.plat.lc = s.plat.lc ∧ t.plat.fails = s.plat.fails ∧ t.plat.min = (decide (3 ≤ s.plat.fails) || decide (s.plat.reason = 6)) ∧
    t.plat.booting = !t.plat.min ∧ t.plat.dbg = 0 ∧ t.plat.partNext = s.plat.partNext ∧
    t.plat.partcfg = (if t.plat.min = true then 0 else s.plat.partNext) ∧
    t.mem.slices = 32 * partDies t.plat.partcfg (s.plat.part % 4)) ∧
  (∀ (s : State), s.plat.booting = true →
    (s.plat.stage = 0 → s.plat.lc = 3 → exec (.bootStage .done) s = .next s) ∧
    (s.plat.stage < 5 → ¬(s.plat.stage = 0 ∧ s.plat.lc = 3) → ∃ t, exec (.bootStage .done) s = .next t ∧
      t.plat.stage = s.plat.stage + 1 ∧ t.plat.booting = true ∧ t.mem = s.mem ∧ t.core.ctx = s.core.ctx ∧ t.core.pc = s.core.pc ∧
      (s.plat.stage ≠ 3 → t.core.retRows = s.core.retRows ∧ t.core.retCols = s.core.retCols ∧ t.core.errmap = s.core.errmap) ∧
      (∀ i : Fin 8, i.val ≠ s.plat.stage → t.plat.measures[i] = s.plat.measures[i])) ∧
    (s.plat.stage = 5 → ∃ t, exec (.bootStage .done) s = .next t ∧ t.plat.booting = false ∧ t.plat.fails = 0 ∧
      t.mem = s.mem ∧ t.core.ctx = s.core.ctx ∧ t.core.pc = s.core.pc) ∧
    (∀ r : Byte, r.toNat ∈ stageReasons s.plat.lc s.plat.stage → ∃ t, exec (.bootStage (.failed r)) s = .next t ∧
      t.plat.fails = min 3 (s.plat.fails + 1) ∧ t.plat.reason = r.toNat ∧ coresFresh t) ∧
    (∀ q ∈ [(Instr.watchdogExpire, 7), (.recoveryRequest, 8)], ∃ t, exec q.1 s = .next t ∧
      t.plat.fails = min 3 (s.plat.fails + 1) ∧ t.plat.reason = q.2 ∧ coresFresh t)) ∧
  (∀ (s : State) (img : List Byte), s.plat.min = true → s.plat.lc ≠ 3 →
    ((Config.signed s.plat.lc img && Config.versionOk img) = true → ∃ t, exec (.recoveryImage img) s = .next t ∧
      t.plat.fails = 0 ∧ t.plat.min = decide (s.plat.reason = 6) ∧ coresFresh t) ∧
    ((Config.signed s.plat.lc img && Config.versionOk img) = false → exec (.recoveryImage img) s = .next s)) ∧
  (∀ (s : State) (v : Word), s.hostUp = true → s.plat.min = false → ∃ t, exec (.attRequest v) s = .next t ∧ t.plat.att = 1 ∧
    t.plat.nonce[3] = v ∧ t.plat.report = [] ∧ t.plat.shown = none ∧ t.mem = s.mem ∧ t.core = s.core) ∧
  (∀ (s : State), s.plat.att.getLsbD 0 = true → s.serves = true → ∃ t r, exec .attDone s = .next t ∧ t.plat.att = 2 ∧
    t.plat.shown = some r ∧ r.lc = s.plat.lc ∧ r.dbg = s.plat.dbg ∧ r.partcfg = s.plat.partcfg ∧ r.measures = s.plat.measures ∧
    r.nonce = s.plat.nonce256 ∧ t.plat.report.length = 8192 ∧ t.mem = s.mem ∧ t.core = s.core ∧
    (∀ n < 1024, t.readReg (.attrep n) = BitVec.ofNat 64 (savedN t.plat.report (8 * n) 8))) ∧
  (∀ (s : State) (v : Word), s.hostUp = true → let cap := bits v.toNat 0 12
    (v.extractLsb' 12 2 = 3 → ∃ t, exec (.powerRequest v) s = .next t ∧ t.plat.pst = 3 ∧ t.mem.dev = [] ∧
      t.core = State.reset.core) ∧
    (v.extractLsb' 12 2 = 2 → s.plat.lc = 3 → exec (.powerRequest v) s = .next s.wake) ∧
    (v.extractLsb' 12 2 ≠ 3 → ¬(v.extractLsb' 12 2 = 2 ∧ s.plat.lc = 3) →
      ∃ t, exec (.powerRequest v) s = .next t ∧ t.mem = s.mem ∧ t.core = s.core ∧
      t.plat.cap = (if 600 ≤ cap ∧ cap ≤ 2200 then cap else s.plat.cap) ∧ t.plat.req = v.extractLsb' 12 2 ∧
      (v.extractLsb' 12 2 = 0 → t.plat.pst = 0) ∧ (v.extractLsb' 12 2 = 1 → t.plat.pst = 1) ∧
      (v.extractLsb' 12 2 = 2 → t.plat.pst = if s.quiet = true then 2 else s.wake.plat.pst))) ∧
  (∀ (s : State), s.plat.pst = 2 → ∃ t, exec .p2Wake s = .next t ∧ t.plat.pst = 0 ∧ t.mem = s.mem ∧ t.core = s.core) ∧
  (∀ (s : State) (d : Nat), s.plat.pst ≠ 3 → (105 ≤ d → d < 115 → ∃ t, exec (.thermalTrip d) s = .next t ∧ t.plat.pst = 1 ∧
      t.plat.cap = 1400 ∧ t.mem = s.mem ∧ t.core = s.core) ∧
    (115 ≤ d → ∃ t, exec (.thermalTrip d) s = .next t ∧ t.plat.pst = 3 ∧ t.plat.reason = 9 ∧ t.mem.dev = [])) ∧
  (∀ (s : State) (d : BitVec 2) (tok : List Byte), s.plat.pst ≠ 3 → ∃ t, exec (.debugToken d tok) s = .next t ∧ t.mem = s.mem ∧
    t.core = s.core ∧ t.plat.dbg = (if debugAllowed s.plat.lc d = true ∧ (d = 0 ∨ Config.signed (if s.plat.lc = 0 then 0 else 2) tok = true) then d
      else s.plat.dbg)) ∧
  (∀ (s : State) (v : Word), s.hostUp = true → s.plat.min = false → ∃ t, exec (.thinjWrite v) s = .next t ∧ t.mem = s.mem ∧ t.core = s.core ∧
    (v.getLsbD 33 = true → s.plat.thinj.getLsbD 33 = true → t.plat.thinj = s.plat.thinj) ∧
    (v.getLsbD 33 = true → s.plat.thinj.getLsbD 33 = false →
      2 ≤ s.plat.lc.toNat ∨ s.ownsCore (bits v.toNat 0 7) = false ∨ 95 < bits v.toNat 21 7 →
      t.plat.thinj = s.plat.thinj ||| 0x800000000) ∧
    (v.getLsbD 33 = true → s.plat.thinj.getLsbD 33 = false → s.plat.lc.toNat < 2 → s.ownsCore (bits v.toNat 0 7) = true →
      bits v.toNat 21 7 ≤ 95 → t.plat.thinj.getLsbD 33 = true ∧ t.plat.thinj.getLsbD 35 = false ∧
        t.plat.thinj &&& 0x1FFFFFF7F = v &&& 0x1FFFFFF7F) ∧
    (v.getLsbD 33 = false → t.plat.thinj.getLsbD 33 = false ∧ t.plat.thinj &&& 0x1FFFFFF7F = v &&& 0x1FFFFFF7F)) ∧
  (∀ (s : State) (img : List Byte) (p : LoadArgs), s.serves = false →
    exec (.farordFinalise img) s = .next s ∧ exec (.imageLoad img p) s = .next s) ∧
  (∀ (s : State) (img : List Byte) (i : Image), s.serves = true → parseImage img = some i → i.form = 1 → s.signedImage i img = true →
    i.arev ≤ arev → s.images.any (fun p => decide (p.1 = img)) = false →
    (∀ n, nativeForm s.plat.lc img i = some n → ∃ t, exec (.farordFinalise img) s = .next t ∧ t.images = s.images ++ [(img, n)] ∧
      t.plat.loadCode = 0 ∧ t.mem = s.mem ∧ t.core = s.core) ∧
    (nativeForm s.plat.lc img i = none → ∃ t, exec (.farordFinalise img) s = .next t ∧ t.images = s.images ∧ t.plat.loadCode = 6)) ∧
  (∀ (s : State) (img : List Byte) (p : LoadArgs),
    (∃ t, exec (.imageLoad img p) s = .next t ∧ t.core.ctx = s.core.ctx ∧ t.core.pc = s.core.pc ∧
      (t.plat.loadCode ≠ 0 → t.mem = s.mem ∧ t.kernels = s.kernels ∧ t.core = s.core)) ∧
    (∀ i ks cd, s.serves = true → parseImage img = some i → i.form = 2 → s.signedImage i img = true → i.arev ≤ arev →
      (∀ v ∈ [p.codeVa.toNat, p.dataVa.toNat, p.codePa.toNat, p.dataPa.toNat], v % 65536 = 0) →
      (Config.imageKernels img).all kernelOk = true →
      placeAll p (Config.imageKernels img) (s.kernels.map (·.2)) = some ks → relocateAll img p ks i = .ok cd →
      let first := ((s.kernels.getLast?).map (·.1 + 1)).getD 0
      ∃ t, exec (.imageLoad img p) s = .next t ∧ t.plat.loadCode = 0 ∧ (ks ≠ [] → t.core.records = []) ∧
        (∀ (n : Nat) (k : Kernel), ks[n]? = some k → t.kernels.get? (first + n) = some k ∧
          ∀ c ∈ k.lcores, ∀ a, k.bank0 * 0x40000 ≤ a → a < (k.bank0 + k.banks) * 0x40000 → a < 2 ^ 22 →
            t.mem.get ⟨.spm, c, a⟩ = 0))) ∧
  (∀ (s : State) (n : Nat) (k : Kernel), s.kernels.get? n = some k → s.kernels.rising = true →
    (s.kernelBusy n = true → ∃ t, exec (.kernelUnload n) s = .next t ∧ t.plat.loadCode = 7 ∧ t.mem = s.mem ∧
      t.kernels = s.kernels) ∧
    (s.kernelBusy n = false → ∃ t, exec (.kernelUnload n) s = .next t ∧ t.plat.loadCode = 0 ∧ t.kernels.get? n = none ∧
      (∀ c ∈ k.lcores, ∀ a, k.bank0 * 0x40000 ≤ a → a < (k.bank0 + k.banks) * 0x40000 → a < 2 ^ 22 →
        t.mem.get ⟨.spm, c, a⟩ = 0) ∧ t.core = { s.core with records := [] })) ∧
  (∀ (s : State) (r : CxlReg) (v : Word), ∃ t, exec (.registerWrite r v) s = .next t) ∧
  (∀ (s : State) (r : CxlReg) (v : Word), s.plat.booting = true ∨ s.plat.pst = 3 →
    ∀ i ∈ [Instr.registerWrite r v, .mntFlush, .mntShoot, .laneEnable v, .hostEnable v, .hostDisable v, .hostWindowClose,
      .linkEnable v, .attRequest v, .powerRequest v, .thinjWrite v], exec i s = .next s) ∧
  (∀ (s : State) (v : Word), s.hostUp = true → ∀ r ∈ [CxlReg.cplhead, .bootstat], exec (.registerWrite r v) s = .next s.wake) ∧
  (∀ (s : State) (n : Nat) (v : Word), s.hostUp = true → exec (.registerWrite (.attrep n) v) s = .next s.wake ∧
    exec (.registerWrite (.lnkstat n) v) s = .next s.wake) ∧
  (∀ (s : State) (r : CxlReg) (v : Word), s.hostUp = true → s.plat.min = true → inMinimal r = false →
    exec (.registerWrite r v) s = .next s.wake) ∧
  (∀ (s : State) (v : Word), s.hostUp = true → ∀ q ∈ [(CxlReg.mntaddr, v), (.mntlen, v), (.mntctx, v &&& 0xFFFF), (.mntstat, s.maint.stat &&& ~~~(v &&& 6)),
        (.cpltail, v), (.cplhead, s.host.head),
        (.lanefcb, if s.lanes.ctl.getLsbD 0 then s.lanes.fcb else v &&& 0xFFFFFFFFFFFF),
        (.lanepcb, if s.lanes.ctl.getLsbD 0 then s.lanes.pcb else v &&& 0xFFFFFFFFFFFF),
        (.embase, if s.lanes.ctl.getLsbD 0 then s.lanes.embase else v &&& 0xFFFFFFFFFFFF),
        (.devnum, if s.fabric.ctl.getLsbD 0 then s.fabric.devnum else v &&& 0xFFFF),
        (.rtbase, if s.fabric.ctl.getLsbD 0 then s.fabric.rtbase else v &&& 0xFFFFFFFFFFFF),
        (.inbtb, if s.fabric.ctl.getLsbD 0 then s.fabric.inbtb else v &&& 0xFFFFFFFFFFFF),
        (.pairb, if s.fabric.ctl.getLsbD 0 then s.fabric.pairb else v &&& 0xFFFFFFFFFFFF),
        (.clogb, if s.host.ctl.getLsbD 0 then s.host.clogb else v &&& 0xFFFFFFFFFFFF),
        (.clogn, if s.host.ctl.getLsbD 0 then s.host.clogn else v &&& 0x1FFFFF),
        (.clognext, if s.host.ctl.getLsbD 0 then s.host.next else v),
        (.cplb, if s.host.ctl.getLsbD 0 then s.host.cplb else v &&& 0xFFFFFFFFFFFF),
        (.cpln, if s.host.ctl.getLsbD 0 then s.host.cpln else v &&& 0x1FFFFF),
        (.disphdr, if s.host.ctl.getLsbD 0 then s.host.disphdr else v &&& 0x1FFFFFFFFFFFFFF),
        (.hwbase, if s.host.hwlen ≠ 0 then s.host.hwbase else v &&& 0xFFFFFFFFFFFF),
        (.hwhpa, if s.host.hwlen ≠ 0 then s.host.hwhpa else v &&& 0xFFFFFFFFFFFFF),
        (.hwlen, if v &&& 0xFFFFFFFFFFFF = 0 then 0 else if s.host.hwlen ≠ 0 then s.host.hwlen else v &&& 0xFFFFFFFFFFFF)],
    s.plat.min = false ∨ inMinimal q.1 = true →
    ∃ t, exec (.registerWrite q.1 v) s = .next t ∧ t.readReg q.1 = q.2 ∧ t.mem = s.mem ∧ t.core = s.core) ∧
  (∀ (s : State) (lc : BitVec 2), s.plat.lc.toNat < lc.toNat → ∃ t, exec (.lifecycleFuseAdvance lc) s = .next t ∧
    t.plat = { s.plat with lc := lc } ∧ t.mem = s.mem ∧ t.core = s.core) ∧
  (∀ (s : State) (v : Word), ∃ t, exec (.partcfgWrite v) s = .next t ∧ t.mem = s.mem ∧ t.core = s.core ∧
    t.plat.partNext = (if v.toNat < 4 then v.toNat else s.plat.partNext) ∧ t.plat.partcfg = s.plat.partcfg)

/-! ### Bundles, steps, encodings, reset and storage -/

/-- The faults of a bundle's operations, in slot order, with the slot number in AUX (R41, R295). -/
def slotFaults (s : State) (outs : List (Nat × SlotOut)) : List TrapInfo :=
  outs.filterMap (fun o => match o.2 with
    | .trap t => some { t with pc := s.core.pc, aux := o.1 }
    | _ => none)

/-- R40 to R43, R45, R297 and R352: a bundle whose slots all succeed commits; the first fault of lane F in slot order, and
else of lane P, stops it with nothing of it done; an operation whose guard does not hold does nothing; a bundle that R40
rejects faults ILLEGAL. That a bundle with a waiting slot waits even where another slot faults is the model's reading (log
15). -/
def Obligations.BundleIssue : Prop :=
  (∀ (s : State) (w : BitVec 512), let b := decodeBundle w
    s.clear b = true →
    let ms := meetPops s.core.ctx [] (popsOf b)
    let outs := slotResults s b ms
    ((∀ o ∈ outs, o.2.succeeds = true) → exec (.bundleIssue w) s = .next (s.commit b ms outs)) ∧
    ((∃ o ∈ outs, o.2.waits = true) → ∃ t, exec (.bundleIssue w) s = .next t ∧ t.core.pc = s.core.pc ∧ OnlyRegs s t {}) ∧
    (∀ q, (∀ o ∈ outs, o.2.waits = false) → (slotFaults s outs).find? (fun t => decide (t.cause < 0x40)) = some q →
      exec (.bundleIssue w) s = .next (s.takeTrap q)) ∧
    (∀ q, (∀ o ∈ outs, o.2.waits = false) → (slotFaults s outs).find? (fun t => decide (t.cause < 0x40)) = none →
      (slotFaults s outs).head? = some q → exec (.bundleIssue w) s = .next (s.takeTrap q))) ∧
  (∀ (s : State) (i : Instr), inBundle i = true → (∀ w, i ≠ .bundleIssue w) → (∀ a m, i ≠ .cpyf a m) →
    s.clear (aloneBundle i) = true → guardTrue s.core.ctx i = false →
    Retires s i id ∧ (needsYield i = false → ∃ t, exec i s = .next t ∧ t.core.pc = s.nextPc ∧ OnlyRegs (s.afterPops i) t {})) ∧
  (∀ (s : State) (w : BitVec 512) (det : Nat), s.canIssue = true → s.core.ctx.due = [] →
    illegal (decodeBundle w) s.core.ctx = some det →
    ∃ t, exec (.bundleIssue w) s = .next t ∧
      t.core.phase = .stopping { cause := 0x01, det := det, pc := s.core.pc, aux := det / 16 } ∧ t.core.ctx = s.core.ctx ∧
      t.core.pc = s.core.pc ∧ t.mem = s.mem) ∧
  (∀ (s : State) (q : BitVec 16 × Word), s.canIssue = true → s.core.ctx.due = [] → s.core.ctx.engTraps = [] →
    s.core.ctx.kept.swpend = some q → ∀ w, let b := decodeBundle w
    illegal b s.core.ctx = none → popsMet s.core.ctx b = true →
    (∀ o ∈ slotResults s b (meetPops s.core.ctx [] (popsOf b)), o.2.succeeds = true ∨ o.2.waits = true) →
    s.yieldFaults b = [] →
    ∃ t, exec (.bundleIssue w) s = .next t ∧ t.core.phase = .stopping { cause := 0x46, pc := s.core.pc, addr := q.2, aux := q.1.toNat } ∧
      t.core.ctx.kept.swpend = none ∧ t.core.pc = s.core.pc ∧ t.mem = s.mem ∧ (∀ r, t.core.ctx.rx r = s.core.ctx.rx r))

/-- R41, R42, R94 and R264: where the core's next bundle is what moves and its bytes decode, a step is the meaning of what they
decode to on that core, after the fetch's read of its sector; a bundle that cannot be fetched stops the spar with the fault's cause. An event that moves is its meaning;
where nothing can move, time passes. (Which agent moves is the model's choice, log 1.) -/
def Obligations.StepRunsDecoded : Prop :=
  (∀ (s : State) (n : Nat) (bs rest : List Byte) (i : Instr), s.chosen = some (.bundle n) → (s.swapTo n).fetchBytes = .ok bs →
    decode bs = .ok (i, rest) → step s = exec i (s.swapTo n).fetchDone) ∧
  (∀ (s : State) (n : Nat) (q : TrapInfo), s.chosen = some (.bundle n) → (s.swapTo n).fetchBytes = .error q →
    (q.cause < 0x40 ∨ (s.swapTo n).core.ctx.engTraps = []) →
    step s = .next ((s.swapTo n).landDue.takeTrap { q with pc := (s.swapTo n).core.pc })) ∧
  (∀ (s : State) (i : Instr), s.chosen = some (.input i) → isEvent i = true →
    step s = exec i ({ s with inputs := s.inputs.drop 1 } : State).ticked) ∧
  (∀ (s : State) (n : Nat) (i : Instr), s.chosen = some (.event n i) → step s = exec i (s.swapTo n).ticked) ∧
  (∀ (s : State), s.chosen = none → step s = .next (s.elapse 1))

/-- Words of the spec's worked encodings decode to what they stand for (R26 to R32, and the examples of R95, R125, R153, R220
and R245's chapters). -/
def Obligations.DecodeWords : Prop :=
  decodeWord (BitVec.ofNat 512 (0x17024001FC48 * 2 ^ 440)) = .ldi { g := 0, rd := 9, imm := 0x1FC48 } ∧
  decodeWord (BitVec.ofNat 512 (0x2100C0FFFFFE * 2 ^ 440)) = .brc { g := 0, rd := 3, ra := 0, imm := 0xFFFFFE } ∧
  decodeWord (BitVec.ofNat 512 (0x0100C00800000030805F * 2 ^ 136)) =
    .mmaBf16 { g := 0, zd := 3, oa := ⟨0, 0, false, false, 0x40⟩, ob := ⟨0, 0, false, false, 0⟩, mctl := 0x30805F } ∧
  decodeWord (BitVec.ofNat 512 (0x4004000480 * 2 ^ 96)) =
    .aset { inStore := false, g := 0, ar := 4, dat := ⟨0, 0, false, false, 9⟩, ch := 0, mode := 0 } ∧
  decodeWord (BitVec.ofNat 512 (0x02011020B6 * 2 ^ 16)) = .cpy { g := 0, sa := 1, da := 2, xl := 1, tok := 5, xfm := 0x16 } ∧
  decodeWord (BitVec.ofNat 512 0x0910) = .fence { scope := 2, smask := 2, sarg := 0 }

/-- R16, R34, R145, R179, R247, R305, R307, R320, R326, R329 and R335: what reset leaves, where the spec gives it; storage is in its canonical form. That no byte is
listed, and the rest of the state, is the model's choice (log 2, 3). -/
def Obligations.ResetState : Prop :=
  let s := State.reset
  s.mem.wf = true ∧ s.core.ctx.wf = true ∧ s.core.num = 0 ∧ s.others.map (·.num) = (List.range 95).map (· + 1) ∧
    (∀ k ∈ s.core :: s.others, k.phase = .idle ∧ k.thcnt = 0 ∧ k.errmap = 0xFFFF ∧ k.satcnt = 0) ∧
    (∀ r, s.core.ctx.rx 0 = 0 ∧ s.core.ctx.rp 0 = true ∧ s.core.ctx.rz r = 0) ∧ s.cycle = 0 ∧
    s.lanes.ctl = 0 ∧ s.host.ctl = 0 ∧ s.maint.stat = 0 ∧ s.fabric.ctl = 0 ∧ s.fabric.out = [] ∧
    (∀ n : Fin 12, s.fabric.links[n].state = 0) ∧ s.mem.osig = [] ∧ s.mem.psig = [] ∧ (∀ n, (s.ctxOf n).seeds = []) ∧
    s.sched.launches = [] ∧ s.plat.booting = true ∧ s.plat.stage = 0 ∧ s.plat.dbg = 0 ∧ s.plat.cap = 2200 ∧
    s.plat.thinj.getLsbD 33 = false

/-- R21 to R33: every well-formed operation decodes from its own encoding, alone in its bundle, with every operand (the
model's encoder is written from the same tables). -/
def Obligations.RoundTrip : Prop :=
  ∀ i : Instr, inBundle i = true → WellFormed i → decodeWord (encode i) = i

/-- The tables of storage keep their canonical form over every step, and the cores' numbers stay distinct (the form is the
model's own, log 2): equal storage is equal data. -/
def Obligations.StorageStaysCanonical : Prop :=
  (∀ s t : State, s.mem.wf = true → step s = .next t → t.mem.wf = true) ∧
  (∀ s t : State, coresDistinct s → step s = .next t → coresDistinct t)
end

