-- ==== Sys2Proof/Laws/State.lean ====
section
/-! SUPPORT. The fields of an updated state, and reading a register after a write. -/

namespace Sys2Proof.Machine

/-! ### The core and its context in a state -/

@[simp] theorem State.onCore_core (s : State) (f : Core → Core) : (s.onCore f).core = f s.core := rfl
@[simp] theorem State.onCore_others (s : State) (f : Core → Core) : (s.onCore f).others = s.others := rfl
@[simp] theorem State.onCore_mem (s : State) (f : Core → Core) : (s.onCore f).mem = s.mem := rfl
@[simp] theorem State.onCore_sched (s : State) (f : Core → Core) : (s.onCore f).sched = s.sched := rfl
@[simp] theorem State.onCore_lanes (s : State) (f : Core → Core) : (s.onCore f).lanes = s.lanes := rfl
@[simp] theorem State.onCore_host (s : State) (f : Core → Core) : (s.onCore f).host = s.host := rfl
@[simp] theorem State.onCore_maint (s : State) (f : Core → Core) : (s.onCore f).maint = s.maint := rfl
@[simp] theorem State.onCore_fabric (s : State) (f : Core → Core) : (s.onCore f).fabric = s.fabric := rfl
@[simp] theorem State.onCore_valley (s : State) (f : Core → Core) : (s.onCore f).valley = s.valley := rfl
@[simp] theorem State.onCore_ctxs (s : State) (f : Core → Core) : (s.onCore f).ctxs = s.ctxs := rfl
@[simp] theorem State.onCore_kernels (s : State) (f : Core → Core) : (s.onCore f).kernels = s.kernels := rfl
@[simp] theorem State.onCore_images (s : State) (f : Core → Core) : (s.onCore f).images = s.images := rfl
@[simp] theorem State.onCore_plat (s : State) (f : Core → Core) : (s.onCore f).plat = s.plat := rfl
@[simp] theorem State.onCore_cycle (s : State) (f : Core → Core) : (s.onCore f).cycle = s.cycle := rfl
@[simp] theorem State.onCore_inputs (s : State) (f : Core → Core) : (s.onCore f).inputs = s.inputs := rfl
@[simp] theorem State.onCore_tick (s : State) (f : Core → Core) : (s.onCore f).tick = s.tick := rfl
@[simp] theorem State.onCtx_others (s : State) (f : Ctx → Ctx) : (s.onCtx f).others = s.others := rfl
@[simp] theorem State.onCtx_mem (s : State) (f : Ctx → Ctx) : (s.onCtx f).mem = s.mem := rfl
@[simp] theorem State.onCtx_sched (s : State) (f : Ctx → Ctx) : (s.onCtx f).sched = s.sched := rfl
@[simp] theorem State.onCtx_lanes (s : State) (f : Ctx → Ctx) : (s.onCtx f).lanes = s.lanes := rfl
@[simp] theorem State.onCtx_host (s : State) (f : Ctx → Ctx) : (s.onCtx f).host = s.host := rfl
@[simp] theorem State.onCtx_maint (s : State) (f : Ctx → Ctx) : (s.onCtx f).maint = s.maint := rfl
@[simp] theorem State.onCtx_fabric (s : State) (f : Ctx → Ctx) : (s.onCtx f).fabric = s.fabric := rfl
@[simp] theorem State.onCtx_valley (s : State) (f : Ctx → Ctx) : (s.onCtx f).valley = s.valley := rfl
@[simp] theorem State.onCtx_ctxs (s : State) (f : Ctx → Ctx) : (s.onCtx f).ctxs = s.ctxs := rfl
@[simp] theorem State.onCtx_kernels (s : State) (f : Ctx → Ctx) : (s.onCtx f).kernels = s.kernels := rfl
@[simp] theorem State.onCtx_images (s : State) (f : Ctx → Ctx) : (s.onCtx f).images = s.images := rfl
@[simp] theorem State.onCtx_plat (s : State) (f : Ctx → Ctx) : (s.onCtx f).plat = s.plat := rfl
@[simp] theorem State.onCtx_cycle (s : State) (f : Ctx → Ctx) : (s.onCtx f).cycle = s.cycle := rfl
@[simp] theorem State.onCtx_inputs (s : State) (f : Ctx → Ctx) : (s.onCtx f).inputs = s.inputs := rfl
@[simp] theorem State.onCtx_tick (s : State) (f : Ctx → Ctx) : (s.onCtx f).tick = s.tick := rfl
@[simp] theorem State.onCtx_core_num (s : State) (f : Ctx → Ctx) : (s.onCtx f).core.num = s.core.num := rfl
@[simp] theorem State.onCtx_core_ctx (s : State) (f : Ctx → Ctx) : (s.onCtx f).core.ctx = f s.core.ctx := rfl
@[simp] theorem State.onCtx_core_pc (s : State) (f : Ctx → Ctx) : (s.onCtx f).core.pc = s.core.pc := rfl
@[simp] theorem State.onCtx_core_phase (s : State) (f : Ctx → Ctx) : (s.onCtx f).core.phase = s.core.phase := rfl
@[simp] theorem State.onCtx_core_run (s : State) (f : Ctx → Ctx) : (s.onCtx f).core.run = s.core.run := rfl
@[simp] theorem State.onCtx_core_satcnt (s : State) (f : Ctx → Ctx) : (s.onCtx f).core.satcnt = s.core.satcnt := rfl
@[simp] theorem State.onCtx_core_satthr (s : State) (f : Ctx → Ctx) : (s.onCtx f).core.satthr = s.core.satthr := rfl
@[simp] theorem State.onCtx_core_calArmed (s : State) (f : Ctx → Ctx) : (s.onCtx f).core.calArmed = s.core.calArmed := rfl
@[simp] theorem State.onCtx_core_thcnt (s : State) (f : Ctx → Ctx) : (s.onCtx f).core.thcnt = s.core.thcnt := rfl
@[simp] theorem State.onCtx_core_errmap (s : State) (f : Ctx → Ctx) : (s.onCtx f).core.errmap = s.core.errmap := rfl
@[simp] theorem State.onCtx_core_retRows (s : State) (f : Ctx → Ctx) : (s.onCtx f).core.retRows = s.core.retRows := rfl
@[simp] theorem State.onCtx_core_retCols (s : State) (f : Ctx → Ctx) : (s.onCtx f).core.retCols = s.core.retCols := rfl
@[simp] theorem State.onCtx_core_pendRows (s : State) (f : Ctx → Ctx) : (s.onCtx f).core.pendRows = s.core.pendRows := rfl
@[simp] theorem State.onCtx_core_pendCols (s : State) (f : Ctx → Ctx) : (s.onCtx f).core.pendCols = s.core.pendCols := rfl
@[simp] theorem State.onCtx_core_hitRows (s : State) (f : Ctx → Ctx) : (s.onCtx f).core.hitRows = s.core.hitRows := rfl
@[simp] theorem State.onCtx_core_hitCols (s : State) (f : Ctx → Ctx) : (s.onCtx f).core.hitCols = s.core.hitCols := rfl
@[simp] theorem State.onCtx_core_afr (s : State) (f : Ctx → Ctx) : (s.onCtx f).core.afr = s.core.afr := rfl
@[simp] theorem State.onCtx_core_engines (s : State) (f : Ctx → Ctx) : (s.onCtx f).core.engines = s.core.engines := rfl
@[simp] theorem State.onCtx_core_fabric (s : State) (f : Ctx → Ctx) : (s.onCtx f).core.fabric = s.core.fabric := rfl
@[simp] theorem State.onCtx_core_gmrg (s : State) (f : Ctx → Ctx) : (s.onCtx f).core.gmrg = s.core.gmrg := rfl
@[simp] theorem State.onCtx_core_rcinv (s : State) (f : Ctx → Ctx) : (s.onCtx f).core.rcinv = s.core.rcinv := rfl
@[simp] theorem State.onCtx_core_storeQ (s : State) (f : Ctx → Ctx) : (s.onCtx f).core.storeQ = s.core.storeQ := rfl
@[simp] theorem State.onCtx_core_tb (s : State) (f : Ctx → Ctx) : (s.onCtx f).core.tb = s.core.tb := rfl
@[simp] theorem State.onCtx_core_records (s : State) (f : Ctx → Ctx) : (s.onCtx f).core.records = s.core.records := rfl
@[simp] theorem State.onCtx_core_lanesUnposted (s : State) (f : Ctx → Ctx) : (s.onCtx f).core.lanesUnposted = s.core.lanesUnposted := rfl
@[simp] theorem State.onCtx_core_emergency (s : State) (f : Ctx → Ctx) : (s.onCtx f).core.emergency = s.core.emergency := rfl
@[simp] theorem State.onCtx_core_rskHeld (s : State) (f : Ctx → Ctx) : (s.onCtx f).core.rskHeld = s.core.rskHeld := rfl
@[simp] theorem State.onCtx_core_rskOwner (s : State) (f : Ctx → Ctx) : (s.onCtx f).core.rskOwner = s.core.rskOwner := rfl
@[simp] theorem State.onCtx_core_slice (s : State) (f : Ctx → Ctx) : (s.onCtx f).core.slice = s.core.slice := rfl
@[simp] theorem State.onCtx_core_ages (s : State) (f : Ctx → Ctx) : (s.onCtx f).core.ages = s.core.ages := rfl
@[simp] theorem State.onCtx_core_preempt (s : State) (f : Ctx → Ctx) : (s.onCtx f).core.preempt = s.core.preempt := rfl
@[simp] theorem State.onCtx_core_waita (s : State) (f : Ctx → Ctx) : (s.onCtx f).core.waita = s.core.waita := rfl
@[simp] theorem State.onCtx_core_cmdSeq (s : State) (f : Ctx → Ctx) : (s.onCtx f).core.cmdSeq = s.core.cmdSeq := rfl
@[simp] theorem State.ticked_core (s : State) : s.ticked.core = s.core := rfl
@[simp] theorem State.ticked_others (s : State) : s.ticked.others = s.others := rfl
@[simp] theorem State.ticked_mem (s : State) : s.ticked.mem = s.mem := rfl
@[simp] theorem State.ticked_sched (s : State) : s.ticked.sched = s.sched := rfl
@[simp] theorem State.ticked_lanes (s : State) : s.ticked.lanes = s.lanes := rfl
@[simp] theorem State.ticked_host (s : State) : s.ticked.host = s.host := rfl
@[simp] theorem State.ticked_maint (s : State) : s.ticked.maint = s.maint := rfl
@[simp] theorem State.ticked_fabric (s : State) : s.ticked.fabric = s.fabric := rfl
@[simp] theorem State.ticked_valley (s : State) : s.ticked.valley = s.valley := rfl
@[simp] theorem State.ticked_ctxs (s : State) : s.ticked.ctxs = s.ctxs := rfl
@[simp] theorem State.ticked_kernels (s : State) : s.ticked.kernels = s.kernels := rfl
@[simp] theorem State.ticked_images (s : State) : s.ticked.images = s.images := rfl
@[simp] theorem State.ticked_plat (s : State) : s.ticked.plat = s.plat := rfl
@[simp] theorem State.ticked_cycle (s : State) : s.ticked.cycle = s.cycle := rfl
@[simp] theorem State.ticked_inputs (s : State) : s.ticked.inputs = s.inputs := rfl
@[simp] theorem State.elapse_core (s : State) (n : Nat) : (s.elapse n).core = s.core := rfl
@[simp] theorem State.elapse_others (s : State) (n : Nat) : (s.elapse n).others = s.others := rfl
@[simp] theorem State.elapse_mem (s : State) (n : Nat) : (s.elapse n).mem = s.mem := rfl
@[simp] theorem State.elapse_sched (s : State) (n : Nat) : (s.elapse n).sched = s.sched := rfl
@[simp] theorem State.elapse_lanes (s : State) (n : Nat) : (s.elapse n).lanes = s.lanes := rfl
@[simp] theorem State.elapse_host (s : State) (n : Nat) : (s.elapse n).host = s.host := rfl
@[simp] theorem State.elapse_maint (s : State) (n : Nat) : (s.elapse n).maint = s.maint := rfl
@[simp] theorem State.elapse_fabric (s : State) (n : Nat) : (s.elapse n).fabric = s.fabric := rfl
@[simp] theorem State.elapse_valley (s : State) (n : Nat) : (s.elapse n).valley = s.valley := rfl
@[simp] theorem State.elapse_ctxs (s : State) (n : Nat) : (s.elapse n).ctxs = s.ctxs := rfl
@[simp] theorem State.elapse_kernels (s : State) (n : Nat) : (s.elapse n).kernels = s.kernels := rfl
@[simp] theorem State.elapse_images (s : State) (n : Nat) : (s.elapse n).images = s.images := rfl
@[simp] theorem State.elapse_plat (s : State) (n : Nat) : (s.elapse n).plat = s.plat := rfl
@[simp] theorem State.elapse_inputs (s : State) (n : Nat) : (s.elapse n).inputs = s.inputs := rfl

/-! ### The context after a register write -/

@[simp] theorem Ctx.wx_p (c : Ctx) (r : BitVec 6) (v : Word) : (c.wx r v).p = c.p := by
  unfold Ctx.wx; split <;> rfl
@[simp] theorem Ctx.wx_a (c : Ctx) (r : BitVec 6) (v : Word) : (c.wx r v).a = c.a := by
  unfold Ctx.wx; split <;> rfl
@[simp] theorem Ctx.wx_m (c : Ctx) (r : BitVec 6) (v : Word) : (c.wx r v).m = c.m := by
  unfold Ctx.wx; split <;> rfl
@[simp] theorem Ctx.wx_t (c : Ctx) (r : BitVec 6) (v : Word) : (c.wx r v).t = c.t := by
  unfold Ctx.wx; split <;> rfl
@[simp] theorem Ctx.wx_w (c : Ctx) (r : BitVec 6) (v : Word) : (c.wx r v).w = c.w := by
  unfold Ctx.wx; split <;> rfl
@[simp] theorem Ctx.wx_l (c : Ctx) (r : BitVec 6) (v : Word) : (c.wx r v).l = c.l := by
  unfold Ctx.wx; split <;> rfl
@[simp] theorem Ctx.wx_z (c : Ctx) (r : BitVec 6) (v : Word) : (c.wx r v).z = c.z := by
  unfold Ctx.wx; split <;> rfl
@[simp] theorem Ctx.wx_zt (c : Ctx) (r : BitVec 6) (v : Word) : (c.wx r v).zt = c.zt := by
  unfold Ctx.wx; split <;> rfl
@[simp] theorem Ctx.wx_wb0 (c : Ctx) (r : BitVec 6) (v : Word) : (c.wx r v).wb0 = c.wb0 := by
  unfold Ctx.wx; split <;> rfl
@[simp] theorem Ctx.wx_wb1 (c : Ctx) (r : BitVec 6) (v : Word) : (c.wx r v).wb1 = c.wb1 := by
  unfold Ctx.wx; split <;> rfl
@[simp] theorem Ctx.wx_segs (c : Ctx) (r : BitVec 6) (v : Word) : (c.wx r v).segs = c.segs := by
  unfold Ctx.wx; split <;> rfl
@[simp] theorem Ctx.wx_sfu (c : Ctx) (r : BitVec 6) (v : Word) : (c.wx r v).sfu = c.sfu := by
  unfold Ctx.wx; split <;> rfl
@[simp] theorem Ctx.wx_shadow (c : Ctx) (r : BitVec 6) (v : Word) : (c.wx r v).shadow = c.shadow := by
  unfold Ctx.wx; split <;> rfl
@[simp] theorem Ctx.wx_arith (c : Ctx) (r : BitVec 6) (v : Word) : (c.wx r v).arith = c.arith := by
  unfold Ctx.wx; split <;> rfl
@[simp] theorem Ctx.wx_astat (c : Ctx) (r : BitVec 6) (v : Word) : (c.wx r v).astat = c.astat := by
  unfold Ctx.wx; split <;> rfl
@[simp] theorem Ctx.wx_srctr (c : Ctx) (r : BitVec 6) (v : Word) : (c.wx r v).srctr = c.srctr := by
  unfold Ctx.wx; split <;> rfl
@[simp] theorem Ctx.wx_shape (c : Ctx) (r : BitVec 6) (v : Word) : (c.wx r v).shape = c.shape := by
  unfold Ctx.wx; split <;> rfl
@[simp] theorem Ctx.wx_mprog (c : Ctx) (r : BitVec 6) (v : Word) : (c.wx r v).mprog = c.mprog := by
  unfold Ctx.wx; split <;> rfl
@[simp] theorem Ctx.wx_mcfgr (c : Ctx) (r : BitVec 6) (v : Word) : (c.wx r v).mcfgr = c.mcfgr := by
  unfold Ctx.wx; split <;> rfl
@[simp] theorem Ctx.wx_rskb (c : Ctx) (r : BitVec 6) (v : Word) : (c.wx r v).rskb = c.rskb := by
  unfold Ctx.wx; split <;> rfl
@[simp] theorem Ctx.wx_rskl (c : Ctx) (r : BitVec 6) (v : Word) : (c.wx r v).rskl = c.rskl := by
  unfold Ctx.wx; split <;> rfl
@[simp] theorem Ctx.wx_rskp (c : Ctx) (r : BitVec 6) (v : Word) : (c.wx r v).rskp = c.rskp := by
  unfold Ctx.wx; split <;> rfl
@[simp] theorem Ctx.wx_nseq (c : Ctx) (r : BitVec 6) (v : Word) : (c.wx r v).nseq = c.nseq := by
  unfold Ctx.wx; split <;> rfl
@[simp] theorem Ctx.wx_rsks (c : Ctx) (r : BitVec 6) (v : Word) : (c.wx r v).rsks = c.rsks := by
  unfold Ctx.wx; split <;> rfl
@[simp] theorem Ctx.wx_rskCore (c : Ctx) (r : BitVec 6) (v : Word) : (c.wx r v).rskCore = c.rskCore := by
  unfold Ctx.wx; split <;> rfl
@[simp] theorem Ctx.wx_qm (c : Ctx) (r : BitVec 6) (v : Word) : (c.wx r v).qm = c.qm := by
  unfold Ctx.wx; split <;> rfl
@[simp] theorem Ctx.wx_qc (c : Ctx) (r : BitVec 6) (v : Word) : (c.wx r v).qc = c.qc := by
  unfold Ctx.wx; split <;> rfl
@[simp] theorem Ctx.wx_qs (c : Ctx) (r : BitVec 6) (v : Word) : (c.wx r v).qs = c.qs := by
  unfold Ctx.wx; split <;> rfl
@[simp] theorem Ctx.wx_qx (c : Ctx) (r : BitVec 6) (v : Word) : (c.wx r v).qx = c.qx := by
  unfold Ctx.wx; split <;> rfl
@[simp] theorem Ctx.wx_qg (c : Ctx) (r : BitVec 6) (v : Word) : (c.wx r v).qg = c.qg := by
  unfold Ctx.wx; split <;> rfl
@[simp] theorem Ctx.wx_qmRes (c : Ctx) (r : BitVec 6) (v : Word) : (c.wx r v).qmRes = c.qmRes := by
  unfold Ctx.wx; split <;> rfl
@[simp] theorem Ctx.wx_qcRes (c : Ctx) (r : BitVec 6) (v : Word) : (c.wx r v).qcRes = c.qcRes := by
  unfold Ctx.wx; split <;> rfl
@[simp] theorem Ctx.wx_qxRes (c : Ctx) (r : BitVec 6) (v : Word) : (c.wx r v).qxRes = c.qxRes := by
  unfold Ctx.wx; split <;> rfl
@[simp] theorem Ctx.wx_qgRes (c : Ctx) (r : BitVec 6) (v : Word) : (c.wx r v).qgRes = c.qgRes := by
  unfold Ctx.wx; split <;> rfl
@[simp] theorem Ctx.wx_half (c : Ctx) (r : BitVec 6) (v : Word) : (c.wx r v).half = c.half := by
  unfold Ctx.wx; split <;> rfl
@[simp] theorem Ctx.wx_tau (c : Ctx) (r : BitVec 6) (v : Word) : (c.wx r v).tau = c.tau := by
  unfold Ctx.wx; split <;> rfl
@[simp] theorem Ctx.wx_running (c : Ctx) (r : BitVec 6) (v : Word) : (c.wx r v).running = c.running := by
  unfold Ctx.wx; split <;> rfl
@[simp] theorem Ctx.wx_waiting (c : Ctx) (r : BitVec 6) (v : Word) : (c.wx r v).waiting = c.waiting := by
  unfold Ctx.wx; split <;> rfl
@[simp] theorem Ctx.wx_ws0 (c : Ctx) (r : BitVec 6) (v : Word) : (c.wx r v).ws0 = c.ws0 := by
  unfold Ctx.wx; split <;> rfl
@[simp] theorem Ctx.wx_ws1 (c : Ctx) (r : BitVec 6) (v : Word) : (c.wx r v).ws1 = c.ws1 := by
  unfold Ctx.wx; split <;> rfl
@[simp] theorem Ctx.wx_part (c : Ctx) (r : BitVec 6) (v : Word) : (c.wx r v).part = c.part := by
  unfold Ctx.wx; split <;> rfl
@[simp] theorem Ctx.wx_follow (c : Ctx) (r : BitVec 6) (v : Word) : (c.wx r v).follow = c.follow := by
  unfold Ctx.wx; split <;> rfl
@[simp] theorem Ctx.wx_engN (c : Ctx) (r : BitVec 6) (v : Word) : (c.wx r v).engN = c.engN := by
  unfold Ctx.wx; split <;> rfl
@[simp] theorem Ctx.wx_writes (c : Ctx) (r : BitVec 6) (v : Word) : (c.wx r v).writes = c.writes := by
  unfold Ctx.wx; split <;> rfl
@[simp] theorem Ctx.wx_seq (c : Ctx) (r : BitVec 6) (v : Word) : (c.wx r v).seq = c.seq := by
  unfold Ctx.wx; split <;> rfl
@[simp] theorem Ctx.wx_engTraps (c : Ctx) (r : BitVec 6) (v : Word) : (c.wx r v).engTraps = c.engTraps := by
  unfold Ctx.wx; split <;> rfl
@[simp] theorem Ctx.wx_mBound (c : Ctx) (r : BitVec 6) (v : Word) : (c.wx r v).mBound = c.mBound := by
  unfold Ctx.wx; split <;> rfl
@[simp] theorem Ctx.wx_kept (c : Ctx) (r : BitVec 6) (v : Word) : (c.wx r v).kept = c.kept := by
  unfold Ctx.wx; split <;> rfl
@[simp] theorem Ctx.wp_x (c : Ctx) (k : BitVec 4) (v : Bool) : (c.wp k v).x = c.x := by
  unfold Ctx.wp; split <;> rfl
@[simp] theorem Ctx.wp_a (c : Ctx) (k : BitVec 4) (v : Bool) : (c.wp k v).a = c.a := by
  unfold Ctx.wp; split <;> rfl
@[simp] theorem Ctx.wp_m (c : Ctx) (k : BitVec 4) (v : Bool) : (c.wp k v).m = c.m := by
  unfold Ctx.wp; split <;> rfl
@[simp] theorem Ctx.wp_t (c : Ctx) (k : BitVec 4) (v : Bool) : (c.wp k v).t = c.t := by
  unfold Ctx.wp; split <;> rfl
@[simp] theorem Ctx.wp_w (c : Ctx) (k : BitVec 4) (v : Bool) : (c.wp k v).w = c.w := by
  unfold Ctx.wp; split <;> rfl
@[simp] theorem Ctx.wp_l (c : Ctx) (k : BitVec 4) (v : Bool) : (c.wp k v).l = c.l := by
  unfold Ctx.wp; split <;> rfl
@[simp] theorem Ctx.wp_z (c : Ctx) (k : BitVec 4) (v : Bool) : (c.wp k v).z = c.z := by
  unfold Ctx.wp; split <;> rfl
@[simp] theorem Ctx.wp_zt (c : Ctx) (k : BitVec 4) (v : Bool) : (c.wp k v).zt = c.zt := by
  unfold Ctx.wp; split <;> rfl
@[simp] theorem Ctx.wp_wb0 (c : Ctx) (k : BitVec 4) (v : Bool) : (c.wp k v).wb0 = c.wb0 := by
  unfold Ctx.wp; split <;> rfl
@[simp] theorem Ctx.wp_wb1 (c : Ctx) (k : BitVec 4) (v : Bool) : (c.wp k v).wb1 = c.wb1 := by
  unfold Ctx.wp; split <;> rfl
@[simp] theorem Ctx.wp_segs (c : Ctx) (k : BitVec 4) (v : Bool) : (c.wp k v).segs = c.segs := by
  unfold Ctx.wp; split <;> rfl
@[simp] theorem Ctx.wp_sfu (c : Ctx) (k : BitVec 4) (v : Bool) : (c.wp k v).sfu = c.sfu := by
  unfold Ctx.wp; split <;> rfl
@[simp] theorem Ctx.wp_shadow (c : Ctx) (k : BitVec 4) (v : Bool) : (c.wp k v).shadow = c.shadow := by
  unfold Ctx.wp; split <;> rfl
@[simp] theorem Ctx.wp_arith (c : Ctx) (k : BitVec 4) (v : Bool) : (c.wp k v).arith = c.arith := by
  unfold Ctx.wp; split <;> rfl
@[simp] theorem Ctx.wp_astat (c : Ctx) (k : BitVec 4) (v : Bool) : (c.wp k v).astat = c.astat := by
  unfold Ctx.wp; split <;> rfl
@[simp] theorem Ctx.wp_srctr (c : Ctx) (k : BitVec 4) (v : Bool) : (c.wp k v).srctr = c.srctr := by
  unfold Ctx.wp; split <;> rfl
@[simp] theorem Ctx.wp_shape (c : Ctx) (k : BitVec 4) (v : Bool) : (c.wp k v).shape = c.shape := by
  unfold Ctx.wp; split <;> rfl
@[simp] theorem Ctx.wp_mprog (c : Ctx) (k : BitVec 4) (v : Bool) : (c.wp k v).mprog = c.mprog := by
  unfold Ctx.wp; split <;> rfl
@[simp] theorem Ctx.wp_mcfgr (c : Ctx) (k : BitVec 4) (v : Bool) : (c.wp k v).mcfgr = c.mcfgr := by
  unfold Ctx.wp; split <;> rfl
@[simp] theorem Ctx.wp_rskb (c : Ctx) (k : BitVec 4) (v : Bool) : (c.wp k v).rskb = c.rskb := by
  unfold Ctx.wp; split <;> rfl
@[simp] theorem Ctx.wp_rskl (c : Ctx) (k : BitVec 4) (v : Bool) : (c.wp k v).rskl = c.rskl := by
  unfold Ctx.wp; split <;> rfl
@[simp] theorem Ctx.wp_rskp (c : Ctx) (k : BitVec 4) (v : Bool) : (c.wp k v).rskp = c.rskp := by
  unfold Ctx.wp; split <;> rfl
@[simp] theorem Ctx.wp_nseq (c : Ctx) (k : BitVec 4) (v : Bool) : (c.wp k v).nseq = c.nseq := by
  unfold Ctx.wp; split <;> rfl
@[simp] theorem Ctx.wp_rsks (c : Ctx) (k : BitVec 4) (v : Bool) : (c.wp k v).rsks = c.rsks := by
  unfold Ctx.wp; split <;> rfl
@[simp] theorem Ctx.wp_rskCore (c : Ctx) (k : BitVec 4) (v : Bool) : (c.wp k v).rskCore = c.rskCore := by
  unfold Ctx.wp; split <;> rfl
@[simp] theorem Ctx.wp_qm (c : Ctx) (k : BitVec 4) (v : Bool) : (c.wp k v).qm = c.qm := by
  unfold Ctx.wp; split <;> rfl
@[simp] theorem Ctx.wp_qc (c : Ctx) (k : BitVec 4) (v : Bool) : (c.wp k v).qc = c.qc := by
  unfold Ctx.wp; split <;> rfl
@[simp] theorem Ctx.wp_qs (c : Ctx) (k : BitVec 4) (v : Bool) : (c.wp k v).qs = c.qs := by
  unfold Ctx.wp; split <;> rfl
@[simp] theorem Ctx.wp_qx (c : Ctx) (k : BitVec 4) (v : Bool) : (c.wp k v).qx = c.qx := by
  unfold Ctx.wp; split <;> rfl
@[simp] theorem Ctx.wp_qg (c : Ctx) (k : BitVec 4) (v : Bool) : (c.wp k v).qg = c.qg := by
  unfold Ctx.wp; split <;> rfl
@[simp] theorem Ctx.wp_qmRes (c : Ctx) (k : BitVec 4) (v : Bool) : (c.wp k v).qmRes = c.qmRes := by
  unfold Ctx.wp; split <;> rfl
@[simp] theorem Ctx.wp_qcRes (c : Ctx) (k : BitVec 4) (v : Bool) : (c.wp k v).qcRes = c.qcRes := by
  unfold Ctx.wp; split <;> rfl
@[simp] theorem Ctx.wp_qxRes (c : Ctx) (k : BitVec 4) (v : Bool) : (c.wp k v).qxRes = c.qxRes := by
  unfold Ctx.wp; split <;> rfl
@[simp] theorem Ctx.wp_qgRes (c : Ctx) (k : BitVec 4) (v : Bool) : (c.wp k v).qgRes = c.qgRes := by
  unfold Ctx.wp; split <;> rfl
@[simp] theorem Ctx.wp_half (c : Ctx) (k : BitVec 4) (v : Bool) : (c.wp k v).half = c.half := by
  unfold Ctx.wp; split <;> rfl
@[simp] theorem Ctx.wp_tau (c : Ctx) (k : BitVec 4) (v : Bool) : (c.wp k v).tau = c.tau := by
  unfold Ctx.wp; split <;> rfl
@[simp] theorem Ctx.wp_running (c : Ctx) (k : BitVec 4) (v : Bool) : (c.wp k v).running = c.running := by
  unfold Ctx.wp; split <;> rfl
@[simp] theorem Ctx.wp_waiting (c : Ctx) (k : BitVec 4) (v : Bool) : (c.wp k v).waiting = c.waiting := by
  unfold Ctx.wp; split <;> rfl
@[simp] theorem Ctx.wp_ws0 (c : Ctx) (k : BitVec 4) (v : Bool) : (c.wp k v).ws0 = c.ws0 := by
  unfold Ctx.wp; split <;> rfl
@[simp] theorem Ctx.wp_ws1 (c : Ctx) (k : BitVec 4) (v : Bool) : (c.wp k v).ws1 = c.ws1 := by
  unfold Ctx.wp; split <;> rfl
@[simp] theorem Ctx.wp_part (c : Ctx) (k : BitVec 4) (v : Bool) : (c.wp k v).part = c.part := by
  unfold Ctx.wp; split <;> rfl
@[simp] theorem Ctx.wp_follow (c : Ctx) (k : BitVec 4) (v : Bool) : (c.wp k v).follow = c.follow := by
  unfold Ctx.wp; split <;> rfl
@[simp] theorem Ctx.wp_engN (c : Ctx) (k : BitVec 4) (v : Bool) : (c.wp k v).engN = c.engN := by
  unfold Ctx.wp; split <;> rfl
@[simp] theorem Ctx.wp_writes (c : Ctx) (k : BitVec 4) (v : Bool) : (c.wp k v).writes = c.writes := by
  unfold Ctx.wp; split <;> rfl
@[simp] theorem Ctx.wp_seq (c : Ctx) (k : BitVec 4) (v : Bool) : (c.wp k v).seq = c.seq := by
  unfold Ctx.wp; split <;> rfl
@[simp] theorem Ctx.wp_engTraps (c : Ctx) (k : BitVec 4) (v : Bool) : (c.wp k v).engTraps = c.engTraps := by
  unfold Ctx.wp; split <;> rfl
@[simp] theorem Ctx.wp_mBound (c : Ctx) (k : BitVec 4) (v : Bool) : (c.wp k v).mBound = c.mBound := by
  unfold Ctx.wp; split <;> rfl
@[simp] theorem Ctx.wp_kept (c : Ctx) (k : BitVec 4) (v : Bool) : (c.wp k v).kept = c.kept := by
  unfold Ctx.wp; split <;> rfl
@[simp] theorem Ctx.wa_x (c : Ctx) (n : BitVec 5) (v : AReg) : (c.wa n v).x = c.x := rfl
@[simp] theorem Ctx.wa_p (c : Ctx) (n : BitVec 5) (v : AReg) : (c.wa n v).p = c.p := rfl
@[simp] theorem Ctx.wa_m (c : Ctx) (n : BitVec 5) (v : AReg) : (c.wa n v).m = c.m := rfl
@[simp] theorem Ctx.wa_t (c : Ctx) (n : BitVec 5) (v : AReg) : (c.wa n v).t = c.t := rfl
@[simp] theorem Ctx.wa_w (c : Ctx) (n : BitVec 5) (v : AReg) : (c.wa n v).w = c.w := rfl
@[simp] theorem Ctx.wa_l (c : Ctx) (n : BitVec 5) (v : AReg) : (c.wa n v).l = c.l := rfl
@[simp] theorem Ctx.wa_z (c : Ctx) (n : BitVec 5) (v : AReg) : (c.wa n v).z = c.z := rfl
@[simp] theorem Ctx.wa_zt (c : Ctx) (n : BitVec 5) (v : AReg) : (c.wa n v).zt = c.zt := rfl
@[simp] theorem Ctx.wa_wb0 (c : Ctx) (n : BitVec 5) (v : AReg) : (c.wa n v).wb0 = c.wb0 := rfl
@[simp] theorem Ctx.wa_wb1 (c : Ctx) (n : BitVec 5) (v : AReg) : (c.wa n v).wb1 = c.wb1 := rfl
@[simp] theorem Ctx.wa_segs (c : Ctx) (n : BitVec 5) (v : AReg) : (c.wa n v).segs = c.segs := rfl
@[simp] theorem Ctx.wa_sfu (c : Ctx) (n : BitVec 5) (v : AReg) : (c.wa n v).sfu = c.sfu := rfl
@[simp] theorem Ctx.wa_shadow (c : Ctx) (n : BitVec 5) (v : AReg) : (c.wa n v).shadow = c.shadow := rfl
@[simp] theorem Ctx.wa_arith (c : Ctx) (n : BitVec 5) (v : AReg) : (c.wa n v).arith = c.arith := rfl
@[simp] theorem Ctx.wa_astat (c : Ctx) (n : BitVec 5) (v : AReg) : (c.wa n v).astat = c.astat := rfl
@[simp] theorem Ctx.wa_srctr (c : Ctx) (n : BitVec 5) (v : AReg) : (c.wa n v).srctr = c.srctr := rfl
@[simp] theorem Ctx.wa_shape (c : Ctx) (n : BitVec 5) (v : AReg) : (c.wa n v).shape = c.shape := rfl
@[simp] theorem Ctx.wa_mprog (c : Ctx) (n : BitVec 5) (v : AReg) : (c.wa n v).mprog = c.mprog := rfl
@[simp] theorem Ctx.wa_mcfgr (c : Ctx) (n : BitVec 5) (v : AReg) : (c.wa n v).mcfgr = c.mcfgr := rfl
@[simp] theorem Ctx.wa_rskb (c : Ctx) (n : BitVec 5) (v : AReg) : (c.wa n v).rskb = c.rskb := rfl
@[simp] theorem Ctx.wa_rskl (c : Ctx) (n : BitVec 5) (v : AReg) : (c.wa n v).rskl = c.rskl := rfl
@[simp] theorem Ctx.wa_rskp (c : Ctx) (n : BitVec 5) (v : AReg) : (c.wa n v).rskp = c.rskp := rfl
@[simp] theorem Ctx.wa_nseq (c : Ctx) (n : BitVec 5) (v : AReg) : (c.wa n v).nseq = c.nseq := rfl
@[simp] theorem Ctx.wa_rsks (c : Ctx) (n : BitVec 5) (v : AReg) : (c.wa n v).rsks = c.rsks := rfl
@[simp] theorem Ctx.wa_rskCore (c : Ctx) (n : BitVec 5) (v : AReg) : (c.wa n v).rskCore = c.rskCore := rfl
@[simp] theorem Ctx.wa_qm (c : Ctx) (n : BitVec 5) (v : AReg) : (c.wa n v).qm = c.qm := rfl
@[simp] theorem Ctx.wa_qc (c : Ctx) (n : BitVec 5) (v : AReg) : (c.wa n v).qc = c.qc := rfl
@[simp] theorem Ctx.wa_qs (c : Ctx) (n : BitVec 5) (v : AReg) : (c.wa n v).qs = c.qs := rfl
@[simp] theorem Ctx.wa_qx (c : Ctx) (n : BitVec 5) (v : AReg) : (c.wa n v).qx = c.qx := rfl
@[simp] theorem Ctx.wa_qg (c : Ctx) (n : BitVec 5) (v : AReg) : (c.wa n v).qg = c.qg := rfl
@[simp] theorem Ctx.wa_qmRes (c : Ctx) (n : BitVec 5) (v : AReg) : (c.wa n v).qmRes = c.qmRes := rfl
@[simp] theorem Ctx.wa_qcRes (c : Ctx) (n : BitVec 5) (v : AReg) : (c.wa n v).qcRes = c.qcRes := rfl
@[simp] theorem Ctx.wa_qxRes (c : Ctx) (n : BitVec 5) (v : AReg) : (c.wa n v).qxRes = c.qxRes := rfl
@[simp] theorem Ctx.wa_qgRes (c : Ctx) (n : BitVec 5) (v : AReg) : (c.wa n v).qgRes = c.qgRes := rfl
@[simp] theorem Ctx.wa_half (c : Ctx) (n : BitVec 5) (v : AReg) : (c.wa n v).half = c.half := rfl
@[simp] theorem Ctx.wa_tau (c : Ctx) (n : BitVec 5) (v : AReg) : (c.wa n v).tau = c.tau := rfl
@[simp] theorem Ctx.wa_running (c : Ctx) (n : BitVec 5) (v : AReg) : (c.wa n v).running = c.running := rfl
@[simp] theorem Ctx.wa_waiting (c : Ctx) (n : BitVec 5) (v : AReg) : (c.wa n v).waiting = c.waiting := rfl
@[simp] theorem Ctx.wa_ws0 (c : Ctx) (n : BitVec 5) (v : AReg) : (c.wa n v).ws0 = c.ws0 := rfl
@[simp] theorem Ctx.wa_ws1 (c : Ctx) (n : BitVec 5) (v : AReg) : (c.wa n v).ws1 = c.ws1 := rfl
@[simp] theorem Ctx.wa_part (c : Ctx) (n : BitVec 5) (v : AReg) : (c.wa n v).part = c.part := rfl
@[simp] theorem Ctx.wa_follow (c : Ctx) (n : BitVec 5) (v : AReg) : (c.wa n v).follow = c.follow := rfl
@[simp] theorem Ctx.wa_engN (c : Ctx) (n : BitVec 5) (v : AReg) : (c.wa n v).engN = c.engN := rfl
@[simp] theorem Ctx.wa_writes (c : Ctx) (n : BitVec 5) (v : AReg) : (c.wa n v).writes = c.writes := rfl
@[simp] theorem Ctx.wa_seq (c : Ctx) (n : BitVec 5) (v : AReg) : (c.wa n v).seq = c.seq := rfl
@[simp] theorem Ctx.wa_engTraps (c : Ctx) (n : BitVec 5) (v : AReg) : (c.wa n v).engTraps = c.engTraps := rfl
@[simp] theorem Ctx.wa_mBound (c : Ctx) (n : BitVec 5) (v : AReg) : (c.wa n v).mBound = c.mBound := rfl
@[simp] theorem Ctx.wa_kept (c : Ctx) (n : BitVec 5) (v : AReg) : (c.wa n v).kept = c.kept := rfl
@[simp] theorem Ctx.wm_x (c : Ctx) (k : BitVec 3) (v : BitVec 512) : (c.wm k v).x = c.x := rfl
@[simp] theorem Ctx.wm_p (c : Ctx) (k : BitVec 3) (v : BitVec 512) : (c.wm k v).p = c.p := rfl
@[simp] theorem Ctx.wm_a (c : Ctx) (k : BitVec 3) (v : BitVec 512) : (c.wm k v).a = c.a := rfl
@[simp] theorem Ctx.wm_t (c : Ctx) (k : BitVec 3) (v : BitVec 512) : (c.wm k v).t = c.t := rfl
@[simp] theorem Ctx.wm_w (c : Ctx) (k : BitVec 3) (v : BitVec 512) : (c.wm k v).w = c.w := rfl
@[simp] theorem Ctx.wm_l (c : Ctx) (k : BitVec 3) (v : BitVec 512) : (c.wm k v).l = c.l := rfl
@[simp] theorem Ctx.wm_z (c : Ctx) (k : BitVec 3) (v : BitVec 512) : (c.wm k v).z = c.z := rfl
@[simp] theorem Ctx.wm_zt (c : Ctx) (k : BitVec 3) (v : BitVec 512) : (c.wm k v).zt = c.zt := rfl
@[simp] theorem Ctx.wm_wb0 (c : Ctx) (k : BitVec 3) (v : BitVec 512) : (c.wm k v).wb0 = c.wb0 := rfl
@[simp] theorem Ctx.wm_wb1 (c : Ctx) (k : BitVec 3) (v : BitVec 512) : (c.wm k v).wb1 = c.wb1 := rfl
@[simp] theorem Ctx.wm_segs (c : Ctx) (k : BitVec 3) (v : BitVec 512) : (c.wm k v).segs = c.segs := rfl
@[simp] theorem Ctx.wm_sfu (c : Ctx) (k : BitVec 3) (v : BitVec 512) : (c.wm k v).sfu = c.sfu := rfl
@[simp] theorem Ctx.wm_shadow (c : Ctx) (k : BitVec 3) (v : BitVec 512) : (c.wm k v).shadow = c.shadow := rfl
@[simp] theorem Ctx.wm_arith (c : Ctx) (k : BitVec 3) (v : BitVec 512) : (c.wm k v).arith = c.arith := rfl
@[simp] theorem Ctx.wm_astat (c : Ctx) (k : BitVec 3) (v : BitVec 512) : (c.wm k v).astat = c.astat := rfl
@[simp] theorem Ctx.wm_srctr (c : Ctx) (k : BitVec 3) (v : BitVec 512) : (c.wm k v).srctr = c.srctr := rfl
@[simp] theorem Ctx.wm_shape (c : Ctx) (k : BitVec 3) (v : BitVec 512) : (c.wm k v).shape = c.shape := rfl
@[simp] theorem Ctx.wm_mprog (c : Ctx) (k : BitVec 3) (v : BitVec 512) : (c.wm k v).mprog = c.mprog := rfl
@[simp] theorem Ctx.wm_mcfgr (c : Ctx) (k : BitVec 3) (v : BitVec 512) : (c.wm k v).mcfgr = c.mcfgr := rfl
@[simp] theorem Ctx.wm_rskb (c : Ctx) (k : BitVec 3) (v : BitVec 512) : (c.wm k v).rskb = c.rskb := rfl
@[simp] theorem Ctx.wm_rskl (c : Ctx) (k : BitVec 3) (v : BitVec 512) : (c.wm k v).rskl = c.rskl := rfl
@[simp] theorem Ctx.wm_rskp (c : Ctx) (k : BitVec 3) (v : BitVec 512) : (c.wm k v).rskp = c.rskp := rfl
@[simp] theorem Ctx.wm_nseq (c : Ctx) (k : BitVec 3) (v : BitVec 512) : (c.wm k v).nseq = c.nseq := rfl
@[simp] theorem Ctx.wm_rsks (c : Ctx) (k : BitVec 3) (v : BitVec 512) : (c.wm k v).rsks = c.rsks := rfl
@[simp] theorem Ctx.wm_rskCore (c : Ctx) (k : BitVec 3) (v : BitVec 512) : (c.wm k v).rskCore = c.rskCore := rfl
@[simp] theorem Ctx.wm_qm (c : Ctx) (k : BitVec 3) (v : BitVec 512) : (c.wm k v).qm = c.qm := rfl
@[simp] theorem Ctx.wm_qc (c : Ctx) (k : BitVec 3) (v : BitVec 512) : (c.wm k v).qc = c.qc := rfl
@[simp] theorem Ctx.wm_qs (c : Ctx) (k : BitVec 3) (v : BitVec 512) : (c.wm k v).qs = c.qs := rfl
@[simp] theorem Ctx.wm_qx (c : Ctx) (k : BitVec 3) (v : BitVec 512) : (c.wm k v).qx = c.qx := rfl
@[simp] theorem Ctx.wm_qg (c : Ctx) (k : BitVec 3) (v : BitVec 512) : (c.wm k v).qg = c.qg := rfl
@[simp] theorem Ctx.wm_qmRes (c : Ctx) (k : BitVec 3) (v : BitVec 512) : (c.wm k v).qmRes = c.qmRes := rfl
@[simp] theorem Ctx.wm_qcRes (c : Ctx) (k : BitVec 3) (v : BitVec 512) : (c.wm k v).qcRes = c.qcRes := rfl
@[simp] theorem Ctx.wm_qxRes (c : Ctx) (k : BitVec 3) (v : BitVec 512) : (c.wm k v).qxRes = c.qxRes := rfl
@[simp] theorem Ctx.wm_qgRes (c : Ctx) (k : BitVec 3) (v : BitVec 512) : (c.wm k v).qgRes = c.qgRes := rfl
@[simp] theorem Ctx.wm_half (c : Ctx) (k : BitVec 3) (v : BitVec 512) : (c.wm k v).half = c.half := rfl
@[simp] theorem Ctx.wm_tau (c : Ctx) (k : BitVec 3) (v : BitVec 512) : (c.wm k v).tau = c.tau := rfl
@[simp] theorem Ctx.wm_running (c : Ctx) (k : BitVec 3) (v : BitVec 512) : (c.wm k v).running = c.running := rfl
@[simp] theorem Ctx.wm_waiting (c : Ctx) (k : BitVec 3) (v : BitVec 512) : (c.wm k v).waiting = c.waiting := rfl
@[simp] theorem Ctx.wm_ws0 (c : Ctx) (k : BitVec 3) (v : BitVec 512) : (c.wm k v).ws0 = c.ws0 := rfl
@[simp] theorem Ctx.wm_ws1 (c : Ctx) (k : BitVec 3) (v : BitVec 512) : (c.wm k v).ws1 = c.ws1 := rfl
@[simp] theorem Ctx.wm_part (c : Ctx) (k : BitVec 3) (v : BitVec 512) : (c.wm k v).part = c.part := rfl
@[simp] theorem Ctx.wm_follow (c : Ctx) (k : BitVec 3) (v : BitVec 512) : (c.wm k v).follow = c.follow := rfl
@[simp] theorem Ctx.wm_engN (c : Ctx) (k : BitVec 3) (v : BitVec 512) : (c.wm k v).engN = c.engN := rfl
@[simp] theorem Ctx.wm_writes (c : Ctx) (k : BitVec 3) (v : BitVec 512) : (c.wm k v).writes = c.writes := rfl
@[simp] theorem Ctx.wm_seq (c : Ctx) (k : BitVec 3) (v : BitVec 512) : (c.wm k v).seq = c.seq := rfl
@[simp] theorem Ctx.wm_engTraps (c : Ctx) (k : BitVec 3) (v : BitVec 512) : (c.wm k v).engTraps = c.engTraps := rfl
@[simp] theorem Ctx.wm_mBound (c : Ctx) (k : BitVec 3) (v : BitVec 512) : (c.wm k v).mBound = c.mBound := rfl
@[simp] theorem Ctx.wm_kept (c : Ctx) (k : BitVec 3) (v : BitVec 512) : (c.wm k v).kept = c.kept := rfl
@[simp] theorem Ctx.wz_x (c : Ctx) (n : Nat) (v : BitVec 393216) : (c.wz n v).x = c.x := rfl
@[simp] theorem Ctx.wz_p (c : Ctx) (n : Nat) (v : BitVec 393216) : (c.wz n v).p = c.p := rfl
@[simp] theorem Ctx.wz_a (c : Ctx) (n : Nat) (v : BitVec 393216) : (c.wz n v).a = c.a := rfl
@[simp] theorem Ctx.wz_m (c : Ctx) (n : Nat) (v : BitVec 393216) : (c.wz n v).m = c.m := rfl
@[simp] theorem Ctx.wz_t (c : Ctx) (n : Nat) (v : BitVec 393216) : (c.wz n v).t = c.t := rfl
@[simp] theorem Ctx.wz_w (c : Ctx) (n : Nat) (v : BitVec 393216) : (c.wz n v).w = c.w := rfl
@[simp] theorem Ctx.wz_l (c : Ctx) (n : Nat) (v : BitVec 393216) : (c.wz n v).l = c.l := rfl
@[simp] theorem Ctx.wz_zt (c : Ctx) (n : Nat) (v : BitVec 393216) : (c.wz n v).zt = c.zt := rfl
@[simp] theorem Ctx.wz_wb0 (c : Ctx) (n : Nat) (v : BitVec 393216) : (c.wz n v).wb0 = c.wb0 := rfl
@[simp] theorem Ctx.wz_wb1 (c : Ctx) (n : Nat) (v : BitVec 393216) : (c.wz n v).wb1 = c.wb1 := rfl
@[simp] theorem Ctx.wz_segs (c : Ctx) (n : Nat) (v : BitVec 393216) : (c.wz n v).segs = c.segs := rfl
@[simp] theorem Ctx.wz_sfu (c : Ctx) (n : Nat) (v : BitVec 393216) : (c.wz n v).sfu = c.sfu := rfl
@[simp] theorem Ctx.wz_shadow (c : Ctx) (n : Nat) (v : BitVec 393216) : (c.wz n v).shadow = c.shadow := rfl
@[simp] theorem Ctx.wz_arith (c : Ctx) (n : Nat) (v : BitVec 393216) : (c.wz n v).arith = c.arith := rfl
@[simp] theorem Ctx.wz_astat (c : Ctx) (n : Nat) (v : BitVec 393216) : (c.wz n v).astat = c.astat := rfl
@[simp] theorem Ctx.wz_srctr (c : Ctx) (n : Nat) (v : BitVec 393216) : (c.wz n v).srctr = c.srctr := rfl
@[simp] theorem Ctx.wz_shape (c : Ctx) (n : Nat) (v : BitVec 393216) : (c.wz n v).shape = c.shape := rfl
@[simp] theorem Ctx.wz_mprog (c : Ctx) (n : Nat) (v : BitVec 393216) : (c.wz n v).mprog = c.mprog := rfl
@[simp] theorem Ctx.wz_mcfgr (c : Ctx) (n : Nat) (v : BitVec 393216) : (c.wz n v).mcfgr = c.mcfgr := rfl
@[simp] theorem Ctx.wz_rskb (c : Ctx) (n : Nat) (v : BitVec 393216) : (c.wz n v).rskb = c.rskb := rfl
@[simp] theorem Ctx.wz_rskl (c : Ctx) (n : Nat) (v : BitVec 393216) : (c.wz n v).rskl = c.rskl := rfl
@[simp] theorem Ctx.wz_rskp (c : Ctx) (n : Nat) (v : BitVec 393216) : (c.wz n v).rskp = c.rskp := rfl
@[simp] theorem Ctx.wz_nseq (c : Ctx) (n : Nat) (v : BitVec 393216) : (c.wz n v).nseq = c.nseq := rfl
@[simp] theorem Ctx.wz_rsks (c : Ctx) (n : Nat) (v : BitVec 393216) : (c.wz n v).rsks = c.rsks := rfl
@[simp] theorem Ctx.wz_rskCore (c : Ctx) (n : Nat) (v : BitVec 393216) : (c.wz n v).rskCore = c.rskCore := rfl
@[simp] theorem Ctx.wz_qm (c : Ctx) (n : Nat) (v : BitVec 393216) : (c.wz n v).qm = c.qm := rfl
@[simp] theorem Ctx.wz_qc (c : Ctx) (n : Nat) (v : BitVec 393216) : (c.wz n v).qc = c.qc := rfl
@[simp] theorem Ctx.wz_qs (c : Ctx) (n : Nat) (v : BitVec 393216) : (c.wz n v).qs = c.qs := rfl
@[simp] theorem Ctx.wz_qx (c : Ctx) (n : Nat) (v : BitVec 393216) : (c.wz n v).qx = c.qx := rfl
@[simp] theorem Ctx.wz_qg (c : Ctx) (n : Nat) (v : BitVec 393216) : (c.wz n v).qg = c.qg := rfl
@[simp] theorem Ctx.wz_qmRes (c : Ctx) (n : Nat) (v : BitVec 393216) : (c.wz n v).qmRes = c.qmRes := rfl
@[simp] theorem Ctx.wz_qcRes (c : Ctx) (n : Nat) (v : BitVec 393216) : (c.wz n v).qcRes = c.qcRes := rfl
@[simp] theorem Ctx.wz_qxRes (c : Ctx) (n : Nat) (v : BitVec 393216) : (c.wz n v).qxRes = c.qxRes := rfl
@[simp] theorem Ctx.wz_qgRes (c : Ctx) (n : Nat) (v : BitVec 393216) : (c.wz n v).qgRes = c.qgRes := rfl
@[simp] theorem Ctx.wz_half (c : Ctx) (n : Nat) (v : BitVec 393216) : (c.wz n v).half = c.half := rfl
@[simp] theorem Ctx.wz_tau (c : Ctx) (n : Nat) (v : BitVec 393216) : (c.wz n v).tau = c.tau := rfl
@[simp] theorem Ctx.wz_running (c : Ctx) (n : Nat) (v : BitVec 393216) : (c.wz n v).running = c.running := rfl
@[simp] theorem Ctx.wz_waiting (c : Ctx) (n : Nat) (v : BitVec 393216) : (c.wz n v).waiting = c.waiting := rfl
@[simp] theorem Ctx.wz_ws0 (c : Ctx) (n : Nat) (v : BitVec 393216) : (c.wz n v).ws0 = c.ws0 := rfl
@[simp] theorem Ctx.wz_ws1 (c : Ctx) (n : Nat) (v : BitVec 393216) : (c.wz n v).ws1 = c.ws1 := rfl
@[simp] theorem Ctx.wz_part (c : Ctx) (n : Nat) (v : BitVec 393216) : (c.wz n v).part = c.part := rfl
@[simp] theorem Ctx.wz_follow (c : Ctx) (n : Nat) (v : BitVec 393216) : (c.wz n v).follow = c.follow := rfl
@[simp] theorem Ctx.wz_engN (c : Ctx) (n : Nat) (v : BitVec 393216) : (c.wz n v).engN = c.engN := rfl
@[simp] theorem Ctx.wz_seq (c : Ctx) (n : Nat) (v : BitVec 393216) : (c.wz n v).seq = c.seq := rfl
@[simp] theorem Ctx.wz_engTraps (c : Ctx) (n : Nat) (v : BitVec 393216) : (c.wz n v).engTraps = c.engTraps := rfl
@[simp] theorem Ctx.wz_mBound (c : Ctx) (n : Nat) (v : BitVec 393216) : (c.wz n v).mBound = c.mBound := rfl
@[simp] theorem Ctx.wz_kept (c : Ctx) (n : Nat) (v : BitVec 393216) : (c.wz n v).kept = c.kept := rfl
@[simp] theorem Ctx.setZth_x (c : Ctx) (n : Nat) (v : ZThatch) : (c.setZth n v).x = c.x := rfl
@[simp] theorem Ctx.setZth_p (c : Ctx) (n : Nat) (v : ZThatch) : (c.setZth n v).p = c.p := rfl
@[simp] theorem Ctx.setZth_a (c : Ctx) (n : Nat) (v : ZThatch) : (c.setZth n v).a = c.a := rfl
@[simp] theorem Ctx.setZth_m (c : Ctx) (n : Nat) (v : ZThatch) : (c.setZth n v).m = c.m := rfl
@[simp] theorem Ctx.setZth_t (c : Ctx) (n : Nat) (v : ZThatch) : (c.setZth n v).t = c.t := rfl
@[simp] theorem Ctx.setZth_w (c : Ctx) (n : Nat) (v : ZThatch) : (c.setZth n v).w = c.w := rfl
@[simp] theorem Ctx.setZth_l (c : Ctx) (n : Nat) (v : ZThatch) : (c.setZth n v).l = c.l := rfl
@[simp] theorem Ctx.setZth_z (c : Ctx) (n : Nat) (v : ZThatch) : (c.setZth n v).z = c.z := rfl
@[simp] theorem Ctx.setZth_wb0 (c : Ctx) (n : Nat) (v : ZThatch) : (c.setZth n v).wb0 = c.wb0 := rfl
@[simp] theorem Ctx.setZth_wb1 (c : Ctx) (n : Nat) (v : ZThatch) : (c.setZth n v).wb1 = c.wb1 := rfl
@[simp] theorem Ctx.setZth_segs (c : Ctx) (n : Nat) (v : ZThatch) : (c.setZth n v).segs = c.segs := rfl
@[simp] theorem Ctx.setZth_sfu (c : Ctx) (n : Nat) (v : ZThatch) : (c.setZth n v).sfu = c.sfu := rfl
@[simp] theorem Ctx.setZth_shadow (c : Ctx) (n : Nat) (v : ZThatch) : (c.setZth n v).shadow = c.shadow := rfl
@[simp] theorem Ctx.setZth_arith (c : Ctx) (n : Nat) (v : ZThatch) : (c.setZth n v).arith = c.arith := rfl
@[simp] theorem Ctx.setZth_astat (c : Ctx) (n : Nat) (v : ZThatch) : (c.setZth n v).astat = c.astat := rfl
@[simp] theorem Ctx.setZth_srctr (c : Ctx) (n : Nat) (v : ZThatch) : (c.setZth n v).srctr = c.srctr := rfl
@[simp] theorem Ctx.setZth_shape (c : Ctx) (n : Nat) (v : ZThatch) : (c.setZth n v).shape = c.shape := rfl
@[simp] theorem Ctx.setZth_mprog (c : Ctx) (n : Nat) (v : ZThatch) : (c.setZth n v).mprog = c.mprog := rfl
@[simp] theorem Ctx.setZth_mcfgr (c : Ctx) (n : Nat) (v : ZThatch) : (c.setZth n v).mcfgr = c.mcfgr := rfl
@[simp] theorem Ctx.setZth_rskb (c : Ctx) (n : Nat) (v : ZThatch) : (c.setZth n v).rskb = c.rskb := rfl
@[simp] theorem Ctx.setZth_rskl (c : Ctx) (n : Nat) (v : ZThatch) : (c.setZth n v).rskl = c.rskl := rfl
@[simp] theorem Ctx.setZth_rskp (c : Ctx) (n : Nat) (v : ZThatch) : (c.setZth n v).rskp = c.rskp := rfl
@[simp] theorem Ctx.setZth_nseq (c : Ctx) (n : Nat) (v : ZThatch) : (c.setZth n v).nseq = c.nseq := rfl
@[simp] theorem Ctx.setZth_rsks (c : Ctx) (n : Nat) (v : ZThatch) : (c.setZth n v).rsks = c.rsks := rfl
@[simp] theorem Ctx.setZth_rskCore (c : Ctx) (n : Nat) (v : ZThatch) : (c.setZth n v).rskCore = c.rskCore := rfl
@[simp] theorem Ctx.setZth_qm (c : Ctx) (n : Nat) (v : ZThatch) : (c.setZth n v).qm = c.qm := rfl
@[simp] theorem Ctx.setZth_qc (c : Ctx) (n : Nat) (v : ZThatch) : (c.setZth n v).qc = c.qc := rfl
@[simp] theorem Ctx.setZth_qs (c : Ctx) (n : Nat) (v : ZThatch) : (c.setZth n v).qs = c.qs := rfl
@[simp] theorem Ctx.setZth_qx (c : Ctx) (n : Nat) (v : ZThatch) : (c.setZth n v).qx = c.qx := rfl
@[simp] theorem Ctx.setZth_qg (c : Ctx) (n : Nat) (v : ZThatch) : (c.setZth n v).qg = c.qg := rfl
@[simp] theorem Ctx.setZth_qmRes (c : Ctx) (n : Nat) (v : ZThatch) : (c.setZth n v).qmRes = c.qmRes := rfl
@[simp] theorem Ctx.setZth_qcRes (c : Ctx) (n : Nat) (v : ZThatch) : (c.setZth n v).qcRes = c.qcRes := rfl
@[simp] theorem Ctx.setZth_qxRes (c : Ctx) (n : Nat) (v : ZThatch) : (c.setZth n v).qxRes = c.qxRes := rfl
@[simp] theorem Ctx.setZth_qgRes (c : Ctx) (n : Nat) (v : ZThatch) : (c.setZth n v).qgRes = c.qgRes := rfl
@[simp] theorem Ctx.setZth_half (c : Ctx) (n : Nat) (v : ZThatch) : (c.setZth n v).half = c.half := rfl
@[simp] theorem Ctx.setZth_tau (c : Ctx) (n : Nat) (v : ZThatch) : (c.setZth n v).tau = c.tau := rfl
@[simp] theorem Ctx.setZth_running (c : Ctx) (n : Nat) (v : ZThatch) : (c.setZth n v).running = c.running := rfl
@[simp] theorem Ctx.setZth_waiting (c : Ctx) (n : Nat) (v : ZThatch) : (c.setZth n v).waiting = c.waiting := rfl
@[simp] theorem Ctx.setZth_ws0 (c : Ctx) (n : Nat) (v : ZThatch) : (c.setZth n v).ws0 = c.ws0 := rfl
@[simp] theorem Ctx.setZth_ws1 (c : Ctx) (n : Nat) (v : ZThatch) : (c.setZth n v).ws1 = c.ws1 := rfl
@[simp] theorem Ctx.setZth_part (c : Ctx) (n : Nat) (v : ZThatch) : (c.setZth n v).part = c.part := rfl
@[simp] theorem Ctx.setZth_follow (c : Ctx) (n : Nat) (v : ZThatch) : (c.setZth n v).follow = c.follow := rfl
@[simp] theorem Ctx.setZth_engN (c : Ctx) (n : Nat) (v : ZThatch) : (c.setZth n v).engN = c.engN := rfl
@[simp] theorem Ctx.setZth_writes (c : Ctx) (n : Nat) (v : ZThatch) : (c.setZth n v).writes = c.writes := rfl
@[simp] theorem Ctx.setZth_seq (c : Ctx) (n : Nat) (v : ZThatch) : (c.setZth n v).seq = c.seq := rfl
@[simp] theorem Ctx.setZth_engTraps (c : Ctx) (n : Nat) (v : ZThatch) : (c.setZth n v).engTraps = c.engTraps := rfl
@[simp] theorem Ctx.setZth_mBound (c : Ctx) (n : Nat) (v : ZThatch) : (c.setZth n v).mBound = c.mBound := rfl
@[simp] theorem Ctx.setZth_kept (c : Ctx) (n : Nat) (v : ZThatch) : (c.setZth n v).kept = c.kept := rfl

/-! ### Reading after a write -/

/-- An X register after a write of one; X0 reads zero. -/
@[simp] theorem Ctx.rx_wx (c : Ctx) (r r' : BitVec 6) (v : Word) :
    (c.wx r v).rx r' = if r' = r then (if r = 0 then 0 else v) else c.rx r' := by
  unfold Ctx.rx Ctx.wx
  by_cases h0 : r = 0
  · by_cases h : r' = 0 <;> simp only [h0, h, if_true, if_false]
  · by_cases h : r' = r
    · subst h
      simp only [h0, if_false, if_true, Vector.getElem_set_self]
    · have hn : r.toNat ≠ r'.toNat := fun e => h (BitVec.eq_of_toNat_eq e.symm)
      simp only [h0, h, if_false, Vector.getElem_set_ne _ _ hn]

/-- An address register after a write of one. -/
@[simp] theorem Ctx.ra_wa (c : Ctx) (n n' : BitVec 5) (v : AReg) :
    (c.wa n v).ra n' = if n' = n then v else c.ra n' := by
  unfold Ctx.ra Ctx.wa
  by_cases h : n' = n
  · subst h
    simp only [if_true, Vector.getElem_set_self]
  · have hn : n.toNat ≠ n'.toNat := fun e => h (BitVec.eq_of_toNat_eq e.symm)
    simp only [h, if_false, Vector.getElem_set_ne _ _ hn]

/-- An element mask after a write of one. -/
@[simp] theorem Ctx.rm_wm (c : Ctx) (k k' : BitVec 3) (v : BitVec 512) :
    (c.wm k v).rm k' = if k' = k then v else c.rm k' := by
  unfold Ctx.rm Ctx.wm
  by_cases h : k' = k
  · subst h
    simp only [if_true, Vector.getElem_set_self]
  · have hn : k.toNat ≠ k'.toNat := fun e => h (BitVec.eq_of_toNat_eq e.symm)
    simp only [h, if_false, Vector.getElem_set_ne _ _ hn]

/-- A predicate word after a write of one of its 16 bits. -/
theorem setField_bit (p : BitVec 16) (k k' : BitVec 4) (v : Bool) :
    (setField p k.toNat 1 v.toNat).getLsbD k'.toNat = if k' = k then v else p.getLsbD k'.toNat := by
  have : ∀ (p : BitVec 16) (k k' : BitVec 4) (v : Bool), (setField p k.toNat 1 v.toNat).getLsbD k'.toNat
      = if k' = k then v else p.getLsbD k'.toNat := by
    intro p k k' v
    have hk : k' = k ↔ k'.toNat = k.toNat := ⟨fun h => by rw [h], fun h => BitVec.eq_of_toNat_eq h⟩
    have h1 := k'.isLt
    have h2 := k.isLt
    simp only [hk, setField, BitVec.getLsbD_or, BitVec.getLsbD_and, BitVec.getLsbD_not, BitVec.getLsbD_ofNat]
    have e1 : ((2 ^ 1 - 1) * 2 ^ k.toNat).testBit k'.toNat = decide (k'.toNat = k.toNat) := by
      rw [show (2 ^ 1 - 1) * 2 ^ k.toNat = 2 ^ k.toNat from by omega, Nat.testBit_two_pow]
      simp only [eq_comm]
    have e2 : (v.toNat % 2 ^ 1 * 2 ^ k.toNat).testBit k'.toNat = (v && decide (k'.toNat = k.toNat)) := by
      cases v
      · simp
      · rw [show Bool.toNat true % 2 ^ 1 * 2 ^ k.toNat = 2 ^ k.toNat from by simp, Nat.testBit_two_pow]
        simp [eq_comm]
    have h16 : k'.toNat < 16 := h1
    by_cases h : k'.toNat = k.toNat <;> simp [h, h16] <;> simp_all
  exact this p k k' v

/-- A predicate after a write of one; P0 reads true. -/
@[simp] theorem Ctx.rp_wp (c : Ctx) (k k' : BitVec 4) (v : Bool) :
    (c.wp k v).rp k' = if k' = k then (if k = 0 then true else v) else c.rp k' := by
  unfold Ctx.rp Ctx.wp
  by_cases h0 : k = 0
  · by_cases h : k' = 0 <;> simp only [h0, h, if_true, if_false]
  · by_cases h : k' = k
    · subst h
      simp only [h0, if_false, if_true, setField_bit]
    · simp only [h0, h, if_false, setField_bit]

/-! ### Accesses of the host to the register block (R329, R333) -/

@[simp] theorem State.ifHost_of_up {s : State} (h : s.hostUp = true) (t : State) : s.ifHost t = t := if_pos h

@[simp] theorem State.ifHost_of_down {s : State} (h : s.hostUp = false) (t : State) : s.ifHost t = s := by
  simp [State.ifHost, h]

/-- An access does what it does where the block answers, or nothing. -/
theorem State.ifHost_cases (s t : State) : s.ifHost t = t ∨ s.ifHost t = s := by
  unfold State.ifHost; split <;> simp

end Sys2Proof.Machine
end

