-- ==== Sys2Proof/Laws/Issue.lean ====
section
/-! SUPPORT. What the issue of one operation alone does: a clear bundle whose slot succeeds retires with the slot's
effect, and what an operation that changes the context only leaves unchanged. -/

namespace Sys2Proof.Machine

theorem landDue_of_none (s : State) (h : s.core.ctx.due.isEmpty = true) : s.landDue = s := by
  have hd : s.core.ctx.due = [] := by simpa using h
  have hf : s.core.ctx.shadow.filter (fun l => decide (s.core.ctx.tau < l.at_)) = s.core.ctx.shadow := by
    rw [List.filter_eq_self]
    intro l hl
    have := List.filter_eq_nil_iff.1 hd l hl
    simp at this ⊢
    exact this
  simp [State.landDue, hd, State.onCtx, State.onCore, Core.onCtx, hf]

theorem reachQs_of_met (s : State) (b : Bundle) (n : Nat) (h : popsMet s.core.ctx b = true) :
    s.reachQs (popsOf b) n = s := by
  cases n with
  | zero => rfl
  | succ n =>
    have : ¬ (meetPops s.core.ctx [] (popsOf b)).any (fun p => decide (p.1.q = 2 ∧ p.2 = .later)) = true := by
      simp only [popsMet, List.all_eq_true, decide_eq_true_eq] at h
      simp only [List.any_eq_true, decide_eq_true_eq, not_exists, not_and]
      intro p hp _
      exact (h p hp).1
    simp only [State.reachQs]
    rw [if_neg this]

theorem boundary_none (s : State) (h : s.pendingCause = false) : s.boundary [] = none := by
  simp only [State.pendingCause, Bool.or_eq_false_iff, Bool.not_eq_false', List.isEmpty_iff, Option.isSome_eq_false_iff, Option.isNone_iff_eq_none] at h
  simp [State.boundary, chooseCause, h.1, h.2]

theorem effectOrder_one (b : Bundle) (n : Nat) (o : SlotOut) : effectOrder b [(n, o)] = [(n, o)] := by
  unfold effectOrder
  by_cases h : n = 8 <;> simp [h]

/-- A yield bundle with no landing left commits on the state as it is. -/
theorem landedFor_of_landed (s : State) (b : Bundle) (h : (!b.hdr.y || s.core.ctx.shadow.isEmpty) = true) : s.landedFor b = s := by
  unfold State.landedFor
  split
  · next hy =>
    have he : s.core.ctx.shadow = [] := by simpa [hy] using h
    have hc : ({ s.core.ctx with shadow := [] } : Ctx) = s.core.ctx := by rw [← he]
    simp [State.landAll, he, State.onCtx, State.onCore, Core.onCtx, hc]
  · rfl

/-- What a clear bundle finds, condition by condition. -/
theorem clear_iff (s : State) (b : Bundle) : s.clear b = true ↔ s.canIssue = true ∧ s.pendingCause = false ∧
    s.core.ctx.due.isEmpty = true ∧ illegal b s.core.ctx = none ∧ popsMet s.core.ctx b = true ∧
    s.heldBy b (liveOps s.core.ctx b) = false ∧ (!b.hdr.y || s.core.ctx.shadow.isEmpty) = true ∧ s.yieldFaults b = [] := by
  unfold State.clear
  generalize (!b.hdr.y || s.core.ctx.shadow.isEmpty) = q
  simp [and_assoc]

/-- The outcomes of a clear bundle of one operation whose guard holds: its slot's answer, and nothing that holds it. -/
theorem clear_one {s : State} {b : Bundle} {n : Nat} {i : Instr} {o : SlotOut} (hb : b.ops = [(n, i)])
    (hc : s.clear b = true) (hg : guardTrue s.core.ctx i = true)
    (hf : slotOut i (envOf s b (liveOps s.core.ctx b) (meetPops s.core.ctx [] (popsOf b)) n) = o) :
    s.issueBundle b = if o.waits then s.waitOrStop b
      else (s.boundary (bundleFaults s b [(n, o)])).getD
        (s.commit b (meetPops s.core.ctx [] (popsOf b)) [(n, o)]) := by
  obtain ⟨-, hp, hd, hi, hm, hh, hq, hy⟩ := (clear_iff s b).1 hc
  have hm' := hm
  simp only [popsMet, List.all_eq_true, decide_eq_true_eq] at hm'
  have hnl : (meetPops s.core.ctx [] (popsOf b)).any (fun p => decide (p.2 = .later)) = false := by
    simp only [List.any_eq_false, decide_eq_true_eq]
    exact fun p hp => (hm' p hp).1
  have hnf : (meetPops s.core.ctx [] (popsOf b)).find? (fun p => decide (p.1.slot = n ∧ p.2 = .never)) = none := by
    simp only [List.find?_eq_none, decide_eq_true_eq, not_and]
    exact fun p hp _ => (hm' p hp).2
  have ho : slotResults s b (meetPops s.core.ctx [] (popsOf b)) = [(n, o)] := by
    simp only [slotResults, hb, List.map_cons, List.map_nil, slotResult, hnf, hg, if_true, hf]
  simp only [State.issueBundle, landDue_of_none s hd, hi, reachQs_of_met s b _ hm, State.issueAt, landedFor_of_landed s b hq, hnl,
    hh, ho]
  simp only [List.any_cons, List.any_nil, Bool.or_false, Bool.false_or]
  cases o.waits
  · simp only [Bool.false_eq_true, if_false]
    split <;> simp_all
  · simp

/-- A clear bundle of one operation whose guard holds and whose slot succeeds commits. -/
theorem issueBundle_one {s : State} {b : Bundle} {n : Nat} {i : Instr} {f : State → State} (hb : b.ops = [(n, i)])
    (hc : s.clear b = true) (hg : guardTrue s.core.ctx i = true)
    (hf : slotOut i (envOf s b (liveOps s.core.ctx b) (meetPops s.core.ctx [] (popsOf b)) n) = .ok f) :
    s.issueBundle b = s.retired b f := by
  rw [clear_one hb hc hg hf]
  obtain ⟨-, hp, -, -, -, -, -, hy⟩ := (clear_iff s b).1 hc
  simp only [SlotOut.waits, Bool.false_eq_true, if_false, bundleFaults, hy, List.filterMap_cons, List.filterMap_nil,
    List.append_nil, boundary_none s hp, Option.getD_none]
  simp only [State.commit, effectOrder_one, List.foldl_cons, List.foldl_nil, SlotOut.effect, State.retired]

/-- A clear bundle of one operation whose guard holds and whose slot faults takes the trap of that fault. -/
theorem issueBundle_trap {s : State} {b : Bundle} {n : Nat} {i : Instr} {t : TrapInfo} (hb : b.ops = [(n, i)])
    (hc : s.clear b = true) (hg : guardTrue s.core.ctx i = true)
    (hf : slotOut i (envOf s b (liveOps s.core.ctx b) (meetPops s.core.ctx [] (popsOf b)) n) = .trap t) :
    s.issueBundle b = s.takeTrap { t with pc := s.core.pc, aux := n } := by
  rw [clear_one hb hc hg hf]
  obtain ⟨-, hp, -, -, -, -, -, hy⟩ := (clear_iff s b).1 hc
  have he : s.core.ctx.engTraps = [] := by
    simp only [State.pendingCause, Bool.or_eq_false_iff, Bool.not_eq_false', List.isEmpty_iff] at hp
    exact hp.1
  simp only [SlotOut.waits, Bool.false_eq_true, if_false, bundleFaults, hy, List.filterMap_cons, List.filterMap_nil,
    List.nil_append, State.boundary, he, List.map_nil, chooseCause, List.find?_cons, List.find?_nil]
  cases h : onLaneP t.cause <;> simp

/-- A clear bundle of one operation whose guard holds and whose slot waits is held. -/
theorem issueBundle_wait {s : State} {b : Bundle} {n : Nat} {i : Instr} (hb : b.ops = [(n, i)])
    (hc : s.clear b = true) (hg : guardTrue s.core.ctx i = true)
    (hf : slotOut i (envOf s b (liveOps s.core.ctx b) (meetPops s.core.ctx [] (popsOf b)) n) = .wait) :
    s.issueBundle b = s.waitBundle b := by
  rw [clear_one hb hc hg hf]
  simp only [SlotOut.waits, if_true, State.waitOrStop, boundary_none s ((clear_iff s b).1 hc).2.1]

/-- The one slot of a bundle that issues. -/
theorem issue_eq {s : State} {b : Bundle} (hc : s.clear b = true) : s.issue b = .next (s.issueBundle b) := by
  rw [State.issue, if_pos ((clear_iff s b).1 hc).1]

theorem runs_iff (s : State) (i : Instr) :
    s.runs i = true ↔ s.clear (aloneBundle i) = true ∧ guardTrue s.core.ctx i = true := by
  simp [State.runs]

theorem envFor_eq {s : State} {n : Nat} {i : Instr} (hb : (aloneBundle i).ops = [(n, i)]) :
    s.envFor i = envOf s (aloneBundle i) (liveOps s.core.ctx (aloneBundle i))
      (meetPops s.core.ctx [] (popsOf (aloneBundle i))) n := by
  simp [State.envFor, hb]

/-- A slot sees the state before its bundle. -/
@[simp] theorem envFor_s (s : State) (i : Instr) : (s.envFor i).s = s := rfl

/-- A slot reads its operands from the context before its bundle (R41). -/
@[simp] theorem envFor_c (s : State) (i : Instr) : (s.envFor i).c = s.core.ctx := rfl

/-- Does a bundle of an operation hold just that operation: any slot operation but CPYF, whose bundle holds its
follow-on too. -/
def aloneOp (i : Instr) : Bool :=
  match i with
  | .cpyf _ _ | .bundleIssue _ => false
  | i => inBundle i

theorem alone_ops (i : Instr) (h : aloneOp i = true) : ∃ n, (aloneBundle i).ops = [(n, i)] := by
  cases i <;> first
    | (exact Bool.noConfusion (show false = true from h))
    | (exact ⟨_, rfl⟩)
    | (rename_i a; rcases a with ⟨_ | _⟩ <;> exact ⟨_, rfl⟩)

theorem exec_alone (i : Instr) (s : State) (h : aloneOp i = true) :
    exec i s = s.issue (aloneBundle i) := by
  cases i <;> first
    | rfl
    | exact Bool.noConfusion (show false = true from h)

/-- An operation alone whose slot succeeds retires with the slot's effect. -/
theorem exec_one {s : State} {i : Instr} {f : State → State} (h : aloneOp i = true) (hr : s.runs i = true)
    (hf : slotOut i (s.envFor i) = .ok f) : Retires s i f := by
  obtain ⟨n, hb⟩ := alone_ops i h
  have he := exec_alone i s h
  obtain ⟨hc, hg⟩ := (runs_iff s i).1 hr
  exact he.trans ((issue_eq hc).trans (congrArg _ (issueBundle_one hb hc hg (envFor_eq hb ▸ hf))))

/-- An operation alone whose slot faults takes that trap, with its slot number in AUX. -/
theorem exec_trap {s : State} {i : Instr} {n : Nat} {t : TrapInfo} (hb : (aloneBundle i).ops = [(n, i)])
    (h : aloneOp i = true) (hr : s.runs i = true) (hf : slotOut i (s.envFor i) = .trap t) :
    Traps s i { t with pc := s.core.pc, aux := n } := by
  have he := exec_alone i s h
  obtain ⟨hc, hg⟩ := (runs_iff s i).1 hr
  exact he.trans ((issue_eq hc).trans (congrArg _ (issueBundle_trap hb hc hg (envFor_eq hb ▸ hf))))

/-- An operation alone whose slot waits is held. -/
theorem exec_wait {s : State} {i : Instr} (h : aloneOp i = true) (hr : s.runs i = true)
    (hf : slotOut i (s.envFor i) = .wait) : exec i s = .next (s.waitBundle (aloneBundle i)) := by
  obtain ⟨n, hb⟩ := alone_ops i h
  have he := exec_alone i s h
  obtain ⟨hc, hg⟩ := (runs_iff s i).1 hr
  exact he.trans ((issue_eq hc).trans (congrArg _ (issueBundle_wait hb hc hg (envFor_eq hb ▸ hf))))

/-- The state after the commit of a plain bundle of one operation that leaves the PC at `pc` and the context `c`. -/
def State.afterAt (s : State) (b : Bundle) (pc : Word) (c : Ctx) : State :=
  { s with
    core := { s.core with
      pc := pc, waita := none, ctx := { c with tau := c.tau + issueCycles b, seq := c.seq + 1 },
      run := s.core.run.map (fun r => { r with runField := b.hdr.run.toNat }), cmdSeq := s.core.cmdSeq + 1 },
    cycle := s.cycle + issueCycles b + Config.stallCycles s.tick, tick := s.tick + 1 }

/-- The state with another context on the core that moves. -/
def State.withCtx (s : State) (c : Ctx) : State := { s with core := { s.core with ctx := c } }

/-- An operation that pops nothing, is allotted no counters and needs no yield. -/
def plainOp (c : Ctx) (i : Instr) : Bool :=
  (popsOf (aloneBundle i)).isEmpty && !(aloneBundle i).hdr.y && decide (srCount c i = 0)

/-- The commit of a plain operation whose effect is on the PC and the context. -/
theorem retired_at {s : State} {i : Instr} {F : State → State} {pc : Word} {c : Ctx} (ha : aloneOp i = true)
    (hp : plainOp s.core.ctx i = true)
    (hF : F (s.onCore (fun k => { k with pc := sext57 (k.pc + 64), waita := none })) =
      { s with core := { s.core with pc := pc, waita := none, ctx := c } }) :
    s.retired (aloneBundle i) F = s.afterAt (aloneBundle i) pc c := by
  obtain ⟨n, hb⟩ := alone_ops i ha
  simp only [plainOp, Bool.and_eq_true, List.isEmpty_iff, Bool.not_eq_true', decide_eq_true_eq] at hp
  obtain ⟨⟨hp, hy⟩, hs⟩ := hp
  have hl : (liveOps s.core.ctx (aloneBundle i)).any (fun d => decide (srCount s.core.ctx d.2 ≠ 0)) = false := by
    simp only [liveOps, hb, List.any_eq_false, List.mem_filter, List.mem_singleton]
    rintro x ⟨rfl, -⟩
    simp [hs]
  simp only [State.retired, hF]
  simp only [hp, hy, hl, meetPops, State.onCore, State.retireBundle, State.elapse, Ctx.dropPops,
    Ctx.popFlags, State.afterAt, Bool.false_eq_true, if_false, List.filter_nil, List.length_nil, List.drop_zero,
    List.foldl_nil]

/-- A plain operation whose slot changes the PC and the context runs to that commit. -/
theorem exec_at {s : State} {i : Instr} {F : State → State} {pc : Word} {c : Ctx} (ha : aloneOp i = true)
    (hr : s.runs i = true) (hp : plainOp s.core.ctx i = true) (hf : slotOut i (s.envFor i) = .ok F)
    (hF : F (s.onCore (fun k => { k with pc := sext57 (k.pc + 64), waita := none })) =
      { s with core := { s.core with pc := pc, waita := none, ctx := c } }) :
    exec i s = .next (s.afterAt (aloneBundle i) pc c) :=
  (exec_one ha hr hf).trans (congrArg _ (retired_at ha hp hF))

@[simp] theorem afterAt_pc (s : State) (b : Bundle) (pc : Word) (c : Ctx) : (s.afterAt b pc c).core.pc = pc := rfl

@[simp] theorem afterAt_rx (s : State) (b : Bundle) (pc : Word) (c : Ctx) (r : BitVec 6) :
    (s.afterAt b pc c).core.ctx.rx r = c.rx r := rfl

@[simp] theorem afterAt_rp (s : State) (b : Bundle) (pc : Word) (c : Ctx) (k : BitVec 4) :
    (s.afterAt b pc c).core.ctx.rp k = c.rp k := rfl

@[simp] theorem afterAt_ra (s : State) (b : Bundle) (pc : Word) (c : Ctx) (n : BitVec 5) :
    (s.afterAt b pc c).core.ctx.ra n = c.ra n := rfl

@[simp] theorem afterAt_rm (s : State) (b : Bundle) (pc : Word) (c : Ctx) (n : BitVec 3) :
    (s.afterAt b pc c).core.ctx.rm n = c.rm n := rfl

@[simp] theorem afterAt_rt (s : State) (b : Bundle) (pc : Word) (c : Ctx) (n : TileName) :
    (s.afterAt b pc c).core.ctx.rt n = c.rt n := rfl

theorem runOf_afterAt (s : State) (b : Bundle) (pc : Word) (c : Ctx) :
    (s.afterAt b pc c).runOf.lcore = s.runOf.lcore ∧ (s.afterAt b pc c).runOf.ebud = s.runOf.ebud := by
  cases h : s.core.run <;> simp [State.runOf, State.afterAt, h]

/-- A control register but CYCLE reads after a commit as the new context has it. -/
theorem readCtl_afterAt (s : State) (b : Bundle) (pc : Word) (c : Ctx) (i : Nat) (hi : i ≠ 2) :
    readCtl (s.afterAt b pc c) i = readCtl (s.withCtx c) i := by
  have hr := runOf_afterAt s b pc c
  have hw : (s.withCtx c).runOf = s.runOf := rfl
  unfold readCtl
  split <;> first
    | rfl
    | exact absurd rfl hi
    | (simp only [State.corenum, hr, hw]; done)
    | (simp only [State.corenum, hr, hw]; rfl)

/-- What a commit leaves unchanged beside the registers of its context. -/
theorem onlyRegs_afterAt {s : State} {b : Bundle} {pc : Word} {c : Ctx} {ch : Changes}
    (hr : RegsKept s (s.withCtx c) ch) (hq : QueuesKept s (s.withCtx c)) (he : EnginesKept s (s.withCtx c))
    (hk : c.kept = s.core.ctx.kept) : OnlyRegs s (s.afterAt b pc c) ch where
  regs := ⟨hr.x, hr.p, hr.a, hr.m, hr.tile, hr.z, fun i h hi => (readCtl_afterAt s b pc c i hi).trans (hr.ctl i h hi)⟩
  queues := ⟨hq.qm, hq.qc, hq.qs, hq.qx, hq.qg, hq.rsk, hq.half, hq.shadow⟩
  engines := ⟨he.mcfgr, he.wb0, he.wb1, he.segs, he.sfu, he.zt, he.running, he.waiting, he.ws0, he.ws1, he.follow, rfl, rfl,
    rfl, rfl⟩
  kept := hk
  memory := ⟨fun _ => rfl, fun _ => rfl, rfl, rfl⟩
  device := ⟨rfl, rfl, rfl, rfl, rfl, rfl, rfl, rfl, rfl, rfl, rfl⟩

theorem readCtl_wx (s : State) (r : BitVec 6) (v : Word) (i : Nat) :
    readCtl (s.withCtx (s.core.ctx.wx r v)) i = readCtl s i := by
  unfold readCtl
  split <;> first | rfl | simp [State.withCtx]

theorem readCtl_wp (s : State) (k : BitVec 4) (v : Bool) (i : Nat) :
    readCtl (s.withCtx (s.core.ctx.wp k v)) i = readCtl s i := by
  unfold readCtl
  split <;> first | rfl | simp [State.withCtx]

/-- A write of an X register leaves every other register, and all else, unchanged. -/
theorem onlyRegs_wx (s : State) (b : Bundle) (pc : Word) (r : BitVec 6) (v : Word) :
    OnlyRegs s (s.afterAt b pc (s.core.ctx.wx r v)) { xs := [r] } := by
  refine onlyRegs_afterAt ⟨?_, ?_, ?_, ?_, ?_, ?_, fun i _ _ => readCtl_wx s r v i⟩ ?_ ?_ ?_
  · intro q hq
    simp only [List.mem_singleton] at hq
    simp [State.withCtx, hq]
  all_goals first
    | (constructor <;> simp [State.withCtx]; done)
    | (intro q _; simp [State.withCtx, Ctx.rp, Ctx.ra, Ctx.rm, Ctx.rt, Ctx.tileReg?, Ctx.rz]; done)
    | simp

/-- A write of a predicate leaves every other register, and all else, unchanged. -/
theorem onlyRegs_wp (s : State) (b : Bundle) (pc : Word) (k : BitVec 4) (v : Bool) :
    OnlyRegs s (s.afterAt b pc (s.core.ctx.wp k v)) { ps := [k] } := by
  refine onlyRegs_afterAt ⟨?_, ?_, ?_, ?_, ?_, ?_, fun i _ _ => readCtl_wp s k v i⟩ ?_ ?_ ?_
  · intro q _
    simp [State.withCtx, Ctx.rx]
  · intro q hq
    simp only [List.mem_singleton] at hq
    simp [State.withCtx, hq]
  all_goals first
    | (constructor <;> simp [State.withCtx]; done)
    | (intro q _; simp [State.withCtx, Ctx.ra, Ctx.rm, Ctx.rt, Ctx.tileReg?, Ctx.rz]; done)
    | simp

/-- A write of an address register leaves every other register, and all else, unchanged. -/
theorem onlyRegs_wa (s : State) (b : Bundle) (pc : Word) (n : BitVec 5) (v : AReg) :
    OnlyRegs s (s.afterAt b pc (s.core.ctx.wa n v)) { as_ := [n] } := by
  refine onlyRegs_afterAt ⟨fun _ _ => rfl, fun _ _ => rfl, ?_, fun _ _ => rfl, fun _ _ _ => rfl, fun _ _ => rfl,
    fun _ _ _ => rfl⟩ ⟨rfl, rfl, rfl, rfl, rfl, rfl, rfl, rfl⟩
    ⟨rfl, rfl, rfl, rfl, rfl, rfl, rfl, rfl, rfl, rfl, rfl, rfl, rfl, rfl, rfl⟩ rfl
  intro q hq
  simp only [List.mem_singleton] at hq
  simp [State.withCtx, hq]

/-- An operation that changes the PC alone leaves all else unchanged. -/
theorem onlyRegs_pc (s : State) (b : Bundle) (pc : Word) : OnlyRegs s (s.afterAt b pc s.core.ctx) {} :=
  onlyRegs_afterAt ⟨fun _ _ => rfl, fun _ _ => rfl, fun _ _ => rfl, fun _ _ => rfl, fun _ _ _ => rfl, fun _ _ => rfl,
    fun _ _ _ => rfl⟩ ⟨rfl, rfl, rfl, rfl, rfl, rfl, rfl, rfl⟩
    ⟨rfl, rfl, rfl, rfl, rfl, rfl, rfl, rfl, rfl, rfl, rfl, rfl, rfl, rfl, rfl⟩ rfl

/-- A plain operation whose slot answers a write of an X register. -/
theorem writesX_of {s : State} {i : Instr} {rd : BitVec 6} {v : Word} (ha : aloneOp i = true) (hr : s.runs i = true)
    (hp : plainOp s.core.ctx i = true) (hf : slotOut i (s.envFor i) = setX rd v) : WritesX s i rd v :=
  ⟨_, exec_at ha hr hp hf rfl, rfl, (Ctx.rx_wx s.core.ctx rd rd v).trans (if_pos rfl), onlyRegs_wx s _ _ rd v⟩

/-- A plain operation whose slot answers a write of a predicate. -/
theorem writesP_of {s : State} {i : Instr} {rd : BitVec 6} {v : Bool} (ha : aloneOp i = true) (hr : s.runs i = true)
    (hp : plainOp s.core.ctx i = true) (hf : slotOut i (s.envFor i) = setP rd v) :
    WritesP s i (rd.extractLsb' 0 4) v :=
  ⟨_, exec_at ha hr hp hf rfl, rfl, (Ctx.rp_wp s.core.ctx _ _ v).trans (if_pos rfl), onlyRegs_wp s _ _ _ v⟩

/-- A plain operation whose slot answers a write of an address register. -/
theorem writesA_of {s : State} {i : Instr} {n : BitVec 5} {v : AReg} (ha : aloneOp i = true) (hr : s.runs i = true)
    (hp : plainOp s.core.ctx i = true) (hf : slotOut i (s.envFor i) = .ctx (fun c => c.wa n v)) : WritesA s i n v :=
  ⟨_, exec_at ha hr hp hf rfl, rfl, (Ctx.ra_wa s.core.ctx n n v).trans (if_pos rfl), onlyRegs_wa s _ _ n v⟩

/-- A plain operation whose slot answers a branch. -/
theorem goesTo_of {s : State} {i : Instr} {target : Word} (ha : aloneOp i = true) (hr : s.runs i = true)
    (hp : plainOp s.core.ctx i = true) (hf : slotOut i (s.envFor i) = goTo target) : GoesTo s i target {} :=
  ⟨_, exec_at ha hr hp hf rfl, rfl, onlyRegs_pc s _ _⟩

/-- The commit of a plain operation whose effect, beside the PC, is a state of its own. -/
theorem retired_eff {s G : State} {i : Instr} {F : State → State} {pc : Word} (ha : aloneOp i = true)
    (hp : plainOp s.core.ctx i = true)
    (hF : F (s.onCore (fun k => { k with pc := sext57 (k.pc + 64), waita := none })) =
      { G with core := { G.core with pc := pc, waita := none } }) :
    s.retired (aloneBundle i) F = G.afterAt (aloneBundle i) pc G.core.ctx := by
  obtain ⟨n, hb⟩ := alone_ops i ha
  simp only [plainOp, Bool.and_eq_true, List.isEmpty_iff, Bool.not_eq_true', decide_eq_true_eq] at hp
  obtain ⟨⟨hp, hy⟩, hs⟩ := hp
  have hl : (liveOps s.core.ctx (aloneBundle i)).any (fun d => decide (srCount s.core.ctx d.2 ≠ 0)) = false := by
    simp only [liveOps, hb, List.any_eq_false, List.mem_filter, List.mem_singleton]
    rintro x ⟨rfl, -⟩
    simp [hs]
  simp only [State.retired, hF]
  simp only [hp, hy, hl, meetPops, State.onCore, State.retireBundle, State.elapse, Ctx.dropPops,
    Ctx.popFlags, State.afterAt, Bool.false_eq_true, if_false, List.filter_nil, List.length_nil, List.drop_zero,
    List.foldl_nil]

/-- A plain operation whose effect, beside the PC, is a state of its own runs to the commit at that state. -/
theorem exec_eff {s G : State} {i : Instr} {F : State → State} {pc : Word} (ha : aloneOp i = true)
    (hr : s.runs i = true) (hp : plainOp s.core.ctx i = true) (hf : slotOut i (s.envFor i) = .ok F)
    (hF : F (s.onCore (fun k => { k with pc := sext57 (k.pc + 64), waita := none })) =
      { G with core := { G.core with pc := pc, waita := none } }) :
    exec i s = .next (G.afterAt (aloneBundle i) pc G.core.ctx) :=
  (exec_one ha hr hf).trans (congrArg _ (retired_eff ha hp hF))

end Sys2Proof.Machine
end

