-- ==== Sys2Proof/Laws/Legal.lean ====
section
/-! SUPPORT. What a well-formed bundle's operations satisfy: none of the conditions of R40 holds of them. -/

namespace Sys2Proof.Machine

theorem lowest_none (cs : List Cond) : lowest cs = none ↔ ∀ c ∈ cs, c.1 = false := by
  have aux : ∀ (cs : List Cond) (m : Option Nat), cs.foldl (fun m c =>
      if c.1 then (match m with | some r => some (min r c.2) | none => some c.2) else m) m = none ↔
      m = none ∧ ∀ c ∈ cs, c.1 = false := by
    intro cs
    induction cs with
    | nil => simp
    | cons c cs ih =>
      intro m
      rw [List.foldl_cons, ih]
      cases hc : c.1 <;> cases m <;> simp [hc]
  exact (aux cs none).trans (by simp)

theorem lowestSlot_none {b : Bundle} {cfg : Instr → Bool} (ss : List (Nat × SlotDec)) (before : List Dest)
    (h : lowestSlot b cfg before ss = none) (n : Nat) (i : Instr) (hi : (n, SlotDec.op i) ∈ ss) :
    (∀ q ∈ opConds i, q.1 = false) ∧ (∀ q ∈ jointConds b i, q.1 = false) ∧ cfg i = false ∧ twice (destsOf i) = false := by
  induction ss generalizing before with
  | nil => cases hi
  | cons d ds ih =>
    unfold lowestSlot at h
    split at h
    · cases h
    · rename_i hl
      rcases List.mem_cons.1 hi with rfl | hi
      · rw [lowest_none] at hl
        simp only [slotConds, List.mem_append, List.mem_cons, List.not_mem_nil, or_false] at hl
        refine ⟨fun q hq => hl q (.inl (.inl hq)), fun q hq => hl q (.inl (.inr hq)), hl _ (.inr (.inl rfl)), ?_⟩
        have := hl _ (.inr (.inr rfl))
        simp only [Bool.or_eq_false_iff] at this
        exact this.1
      · exact ih _ h hi

/-- The slot of a bundle that holds one operation. -/
theorem alone_slot (i : Instr) (h : aloneOp i = true) : ∃ n, (n, SlotDec.op i) ∈ (aloneBundle i).slots := by
  obtain ⟨n, hb⟩ := alone_ops i h
  have hm : (n, i) ∈ (aloneBundle i).ops := by simp [hb]
  simp only [Bundle.ops, List.mem_filterMap, Option.map_eq_some_iff] at hm
  obtain ⟨d, hd, j, hj, he⟩ := hm
  have h2 : d.2 = .op j := by
    cases hd2 : d.2 <;> simp_all [SlotDec.op?]
  refine ⟨d.1, ?_⟩
  have : j = i := by simpa using congrArg Prod.snd he
  have he2 : (d.1, SlotDec.op i) = d := Prod.ext rfl (by rw [h2, this])
  rw [he2]
  exact hd

/-- No condition of R40 holds of an operation that runs. -/
theorem runs_legal {s : State} {i : Instr} (ha : aloneOp i = true) (hr : s.runs i = true) :
    (∀ q ∈ opConds i, q.1 = false) ∧ (∀ q ∈ jointConds (aloneBundle i) i, q.1 = false) ∧
      matrixCfgBad s.core.ctx i = false ∧ twice (destsOf i) = false := by
  have hc := ((runs_iff s i).1 hr).1
  simp only [State.clear, Bool.and_eq_true] at hc
  have hi : illegal (aloneBundle i) s.core.ctx = none := by simpa using hc.1.1.1.1.2
  obtain ⟨n, hb⟩ := alone_slot i ha
  unfold illegal illegalWith at hi
  split at hi
  · cases hi
  · exact lowestSlot_none _ _ hi n i hb

end Sys2Proof.Machine
end

