-- ==== Sys2Proof/Laws/Tbl.lean ====
section
/-! SUPPORT. Sparse tables and byte memories: reading after a write, and the canonical form that every write keeps. -/

namespace Sys2Proof.Machine

variable {β : Type}

namespace Tbl

/-- A table read after a put. -/
theorem get?_put (t : Tbl β) (a b : Nat) (v : β) : (t.put a v).get? b = if b = a then some v else t.get? b := by
  induction t with
  | nil =>
    by_cases h : b = a
    · simp [put, get?, h]
    · simp [put, get?, h]
  | cons e t ih =>
    obtain ⟨k, w⟩ := e
    unfold put
    by_cases h1 : a < k
    · simp only [h1, if_true, get?]
      by_cases hb : b = a
      · simp [hb]
      · simp only [hb, if_false]
        by_cases hba : b < a
        · simp only [hba, if_true, show ¬ b = k from by omega, if_false, show b < k from by omega]
        · simp [hba]
    · simp only [h1, if_false]
      by_cases h2 : a = k
      · subst h2
        by_cases hb : b = a <;> simp [get?, hb]
      · simp only [h2, if_false, get?, ih]
        by_cases hb : b = a
        · subst hb
          simp [h2, h1]
        · simp [hb]

theorem risesAbove_mono {t : Tbl β} {a b : Nat} (h : a ≤ b) (ht : risesAbove b t = true) : risesAbove a t = true := by
  cases t with
  | nil => rfl
  | cons e t =>
    simp only [risesAbove, Bool.and_eq_true, decide_eq_true_eq] at ht ⊢
    exact ⟨by omega, ht.2⟩

theorem rising_of_risesAbove {t : Tbl β} {a : Nat} (ht : risesAbove a t = true) : rising t = true := by
  cases t with
  | nil => rfl
  | cons e t =>
    simp only [risesAbove, Bool.and_eq_true] at ht
    exact ht.2

theorem rising_cons {e : Nat × β} {t : Tbl β} : rising (e :: t) = risesAbove e.1 t := rfl

theorem risesAbove_put {t : Tbl β} {l a : Nat} (v : β) (hl : l < a) (ht : risesAbove l t = true) :
    risesAbove l (t.put a v) = true := by
  induction t generalizing l with
  | nil => simp [put, risesAbove, hl]
  | cons e t ih =>
    obtain ⟨k, w⟩ := e
    simp only [risesAbove, Bool.and_eq_true, decide_eq_true_eq] at ht
    unfold put
    by_cases h1 : a < k
    · simp [h1, risesAbove, hl, ht.2]
    · by_cases h2 : a = k
      · subst h2
        simp [risesAbove, hl, ht.2]
      · simp only [h1, h2, if_false, risesAbove, ht.1, decide_true, Bool.true_and]
        exact ih (by omega) ht.2

/-- A put keeps the canonical form. -/
theorem rising_put {t : Tbl β} (a : Nat) (v : β) (ht : t.rising = true) : (t.put a v).rising = true := by
  cases t with
  | nil => rfl
  | cons e t =>
    obtain ⟨k, w⟩ := e
    unfold put
    by_cases h1 : a < k
    · simp only [h1, if_true, rising, risesAbove, decide_true, Bool.true_and]
      exact ht
    · by_cases h2 : a = k
      · subst h2
        simpa [rising] using ht
      · simp only [h1, h2, if_false]
        exact risesAbove_put v (by omega) ht

theorem risesAbove_del {t : Tbl β} {l : Nat} (a : Nat) (ht : risesAbove l t = true) : risesAbove l (t.del a) = true := by
  induction t generalizing l with
  | nil => rfl
  | cons e t ih =>
    obtain ⟨k, w⟩ := e
    have ht' := ht
    simp only [risesAbove, Bool.and_eq_true, decide_eq_true_eq] at ht
    unfold del
    by_cases h1 : a < k
    · simpa [h1] using ht'
    · by_cases h2 : a = k
      · simp only [h2, Nat.lt_irrefl, if_false, if_true]
        exact risesAbove_mono (by omega) ht.2
      · simp only [h1, h2, if_false, risesAbove, ht.1, decide_true, Bool.true_and]
        exact ih ht.2

/-- A deletion keeps the canonical form. -/
theorem rising_del {t : Tbl β} (a : Nat) (ht : t.rising = true) : (t.del a).rising = true := by
  cases t with
  | nil => rfl
  | cons e t =>
    obtain ⟨k, w⟩ := e
    unfold del
    by_cases h1 : a < k
    · simpa [h1] using ht
    · by_cases h2 : a = k
      · simp only [h2, Nat.lt_irrefl, if_false, if_true]
        exact rising_of_risesAbove ht
      · simp only [h1, h2, if_false]
        exact risesAbove_del a ht

theorem risesAbove_filter {t : Tbl β} {l : Nat} (p : Nat × β → Bool) (ht : risesAbove l t = true) :
    risesAbove l (t.filter p) = true := by
  induction t generalizing l with
  | nil => rfl
  | cons e t ih =>
    simp only [risesAbove, Bool.and_eq_true, decide_eq_true_eq] at ht
    rw [List.filter_cons]
    split
    · simp only [risesAbove, Bool.and_eq_true, decide_eq_true_eq]
      exact ⟨ht.1, ih ht.2⟩
    · exact ih (risesAbove_mono (by omega) ht.2)

/-- A filter keeps the canonical form. -/
theorem rising_filter {t : Tbl β} (p : Nat × β → Bool) (ht : t.rising = true) : rising (t.filter p) = true := by
  cases t with
  | nil => rfl
  | cons e t =>
    rw [List.filter_cons]
    split
    · exact risesAbove_filter p ht
    · exact rising_of_risesAbove (risesAbove_filter p ht)

/-- Keys dropped from a table keep its canonical form. -/
theorem rising_drop {t : Tbl β} (p : Nat → Bool) (ht : t.rising = true) : (t.drop p).rising = true := rising_filter _ ht

theorem get?_of_risesAbove {t : Tbl β} {l a : Nat} (h : a ≤ l) (ht : risesAbove l t = true) : t.get? a = none := by
  cases t with
  | nil => rfl
  | cons e t =>
    simp only [risesAbove, Bool.and_eq_true, decide_eq_true_eq] at ht
    simp [get?, show ¬ a = e.1 from by omega, show a < e.1 from by omega]

/-- A canonical table read after a deletion. -/
theorem get?_del {t : Tbl β} (ht : t.rising = true) (a b : Nat) : (t.del a).get? b = if b = a then none else t.get? b := by
  induction t with
  | nil => simp [del, get?]
  | cons e t ih =>
    obtain ⟨k, w⟩ := e
    have hr : rising t = true := rising_of_risesAbove ht
    unfold del
    by_cases h1 : a < k
    · simp only [h1, if_true, get?]
      by_cases hb : b = a
      · simp [hb, h1, show ¬ a = k from by omega]
      · simp [hb]
    · by_cases h2 : a = k
      · subst h2
        simp only [Nat.lt_irrefl, if_false, if_true, get?]
        by_cases hb : b = a
        · simp [hb, get?_of_risesAbove (Nat.le_refl a) ht]
        · by_cases hlt : b < a
          · simp [hb, hlt, get?_of_risesAbove (show b ≤ a by omega) ht]
          · simp [hb, hlt]
      · simp only [h1, h2, if_false, get?, ih hr]
        by_cases hb : b = a
        · subst hb
          simp [h2, h1]
        · simp [hb]

theorem all_put {t : Tbl β} {p : Nat × β → Bool} (a : Nat) (v : β) (hv : p (a, v) = true) (ht : t.all p = true) :
    (t.put a v).all p = true := by
  induction t with
  | nil => simpa [put] using hv
  | cons e t ih =>
    obtain ⟨k, w⟩ := e
    simp only [List.all_cons, Bool.and_eq_true] at ht
    unfold put
    split
    · simp [hv, ht.1, ht.2]
    · split
      · simp only [List.all_cons, hv, ht.2, Bool.and_self]
      · simp only [List.all_cons, ht.1, ih ht.2, Bool.and_self]

theorem all_del {t : Tbl β} {p : Nat × β → Bool} (a : Nat) (ht : t.all p = true) : (t.del a).all p = true := by
  induction t with
  | nil => rfl
  | cons e t ih =>
    obtain ⟨k, w⟩ := e
    have h0 := ht
    simp only [List.all_cons, Bool.and_eq_true] at ht
    unfold del
    split
    · exact h0
    · split
      · exact ht.2
      · simp only [List.all_cons, ht.1, ih ht.2, Bool.and_self]

end Tbl

namespace Bytes

theorem wf_iff (m : Bytes) : m.wf = true ↔ Tbl.rising m = true ∧ m.all (fun e => decide (e.2 ≠ blank)) = true := by
  simp [wf]

/-- A byte write keeps the canonical form. -/
theorem wf_write {m : Bytes} (h : m.wf = true) (a : Nat) (v : Byte) : (m.write a v).wf = true := by
  rw [wf_iff] at h ⊢
  unfold write Tbl.putD
  split
  · exact ⟨Tbl.rising_del a h.1, Tbl.all_del a h.2⟩
  · rename_i hv
    exact ⟨Tbl.rising_put a v h.1, Tbl.all_put a v (by simpa using hv) h.2⟩

theorem wf_writeN {m : Bytes} (h : m.wf = true) (a : Nat) (bs : List Byte) : (m.writeN a bs).wf = true := by
  induction bs generalizing m a with
  | nil => exact h
  | cons v vs ih => exact ih (wf_write h a v) (a + 1)

theorem wf_drop {m : Bytes} (h : m.wf = true) (p : Nat → Bool) : Bytes.wf (Tbl.drop m p) = true := by
  rw [wf_iff] at h ⊢
  refine ⟨Tbl.rising_drop p h.1, ?_⟩
  simp only [List.all_eq_true] at h ⊢
  exact fun e he => h.2 e (List.mem_filter.1 he).1

/-- A byte of a canonical memory after a write. -/
theorem read_write {m : Bytes} (h : m.wf = true) (a b : Nat) (v : Byte) :
    (m.write a v).read b = if b = a then v else m.read b := by
  unfold read write Tbl.putD Tbl.getD
  split
  · rename_i hv
    rw [Tbl.get?_del ((wf_iff m).1 h).1]
    by_cases hb : b = a <;> simp [hb, hv]
  · rw [Tbl.get?_put]
    by_cases hb : b = a <;> simp [hb]

/-- A byte of a canonical memory after bytes are written from an address on. -/
theorem read_writeN {m : Bytes} (h : m.wf = true) (a b : Nat) (bs : List Byte) :
    (m.writeN a bs).read b = if h : a ≤ b ∧ b < a + bs.length then bs[b - a] else m.read b := by
  induction bs generalizing m a with
  | nil => rw [dif_neg (by simp), writeN]
  | cons v vs ih =>
    rw [writeN, ih (wf_write h a v), read_write h]
    by_cases hb : b = a
    · subst hb
      rw [dif_neg (by omega), dif_pos (by simp), if_pos rfl]
      simp
    · by_cases hr : a + 1 ≤ b ∧ b < a + 1 + vs.length
      · rw [dif_pos hr, dif_pos (by simp; omega)]
        have : b - a = (b - (a + 1)) + 1 := by omega
        simp [this]
      · rw [dif_neg hr, dif_neg (by simp; omega), if_neg hb]

end Bytes

end Sys2Proof.Machine
end

