-- ==== Sys2Proof/Laws/Tiles.lean ====
section
/-! SUPPORT. Tiles after field writes: a written field reads its value, a field apart from every write is unchanged. -/

namespace Sys2Proof.Machine

/-- A bit of a word with a field replaced. -/
theorem getLsbD_setField {n : Nat} (t : BitVec n) (lo w v k : Nat) (hk : k < n) :
    (setField t lo w v).getLsbD k = if lo ≤ k ∧ k < lo + w then v.testBit (k - lo) else t.getLsbD k := by
  have e1 : ((2 ^ w - 1) * 2 ^ lo).testBit k = decide (lo ≤ k ∧ k < lo + w) := by
    rw [Nat.testBit_mul_two_pow, Nat.testBit_two_pow_sub_one]
    by_cases h : lo ≤ k <;> simp [h] <;> omega
  have e2 : (v % 2 ^ w * 2 ^ lo).testBit k = (decide (lo ≤ k ∧ k < lo + w) && v.testBit (k - lo)) := by
    rw [Nat.testBit_mul_two_pow, Nat.testBit_mod_two_pow]
    by_cases h : lo ≤ k <;> by_cases h2 : k < lo + w <;> simp [h, h2] <;> omega
  simp only [setField, BitVec.getLsbD_or, BitVec.getLsbD_and, BitVec.getLsbD_not, BitVec.getLsbD_ofNat, e1, e2, hk]
  by_cases h : lo ≤ k ∧ k < lo + w <;> simp [h]

/-- A tile's field where it was written. -/
theorem tileField_setField_self (t : Tile) (off w v : Nat) (h : off + w ≤ 8192) :
    tileField (setField t off w v) off w = v % 2 ^ w := by
  apply Nat.eq_of_testBit_eq
  intro i
  rw [tileField, Nat.testBit_mod_two_pow, BitVec.testBit_toNat, BitVec.getLsbD_extractLsb']
  by_cases hi : i < w
  · rw [getLsbD_setField _ _ _ _ _ (by omega)]
    simp [hi]
  · simp [hi]

/-- A tile's field apart from the one written. -/
theorem tileField_setField_ne (t : Tile) (off w off' w' v : Nat) (hd : off + w ≤ off' ∨ off' + w' ≤ off) :
    tileField (setField t off' w' v) off w = tileField t off w := by
  apply Nat.eq_of_testBit_eq
  intro i
  rw [tileField, tileField, BitVec.testBit_toNat, BitVec.testBit_toNat, BitVec.getLsbD_extractLsb',
    BitVec.getLsbD_extractLsb']
  by_cases hi : i < w
  · by_cases hk : off + i < 8192
    · rw [getLsbD_setField _ _ _ _ _ hk, if_neg (by omega)]
    · simp [BitVec.getLsbD_of_ge _ _ (Nat.le_of_not_lt hk)]
  · simp [hi]

/-- Two fields of a tile that share no bit. -/
def apart (off w off' w' : Nat) : Prop := off + w ≤ off' ∨ off' + w' ≤ off

/-- A field apart from every write is unchanged. -/
theorem tileField_applyWrites_ne (t : Tile) (ws : List FieldWr) (off w : Nat) (h : ∀ x ∈ ws, apart off w x.off x.w) :
    tileField (applyWrites t ws) off w = tileField t off w := by
  induction ws generalizing t with
  | nil => rfl
  | cons x xs ih =>
    show tileField (applyWrites (setField t x.off x.w x.v) xs) off w = _
    rw [ih _ (fun y hy => h y (List.mem_cons_of_mem _ hy)),
      tileField_setField_ne _ _ _ _ _ _ (h x List.mem_cons_self)]

/-- A written field reads its value, where every write that meets it writes the same. -/
theorem tileField_applyWrites_mem (t : Tile) (ws : List FieldWr) (off w v : Nat) (hb : off + w ≤ 8192)
    (hm : ∃ x ∈ ws, x.off = off ∧ x.w = w ∧ x.v % 2 ^ w = v % 2 ^ w)
    (h : ∀ x ∈ ws, (x.off = off ∧ x.w = w ∧ x.v % 2 ^ w = v % 2 ^ w) ∨ apart off w x.off x.w) :
    tileField (applyWrites t ws) off w = v % 2 ^ w := by
  have key : ∀ (xs : List FieldWr) (t : Tile), tileField t off w = v % 2 ^ w →
      (∀ x ∈ xs, (x.off = off ∧ x.w = w ∧ x.v % 2 ^ w = v % 2 ^ w) ∨ apart off w x.off x.w) →
      tileField (applyWrites t xs) off w = v % 2 ^ w := by
    intro xs
    induction xs with
    | nil => exact fun t ht _ => ht
    | cons x xs ih =>
      intro t ht hx
      refine ih _ ?_ (fun y hy => hx y (List.mem_cons_of_mem _ hy))
      show tileField (setField t x.off x.w x.v) off w = _
      rcases hx x List.mem_cons_self with ⟨h1, h2, h3⟩ | hd
      · rw [h1, h2, tileField_setField_self _ _ _ _ hb, h3]
      · rw [tileField_setField_ne _ _ _ _ _ _ hd, ht]
  induction ws generalizing t with
  | nil => obtain ⟨x, hx, -⟩ := hm; cases hx
  | cons y ys ih =>
    show tileField (applyWrites (setField t y.off y.w y.v) ys) off w = _
    have hys : ∀ x ∈ ys, (x.off = off ∧ x.w = w ∧ x.v % 2 ^ w = v % 2 ^ w) ∨ apart off w x.off x.w :=
      fun x hx => h x (List.mem_cons_of_mem _ hx)
    obtain ⟨x, hx, h1, h2, h3⟩ := hm
    rcases List.mem_cons.1 hx with rfl | hx
    · refine key ys _ ?_ hys
      rw [h1, h2, tileField_setField_self _ _ _ _ hb, h3]
    · exact ih _ ⟨x, hx, h1, h2, h3⟩ hys

/-- A tile register after field writes on one. -/
theorem Ctx.rt_wt (c : Ctx) (n m : TileName) (ws : List FieldWr) (hn : n.lvl < 3) (hm : m.lvl < 3) :
    (c.wt n ws).rt m = if m = n then applyWrites (c.rt n) ws else c.rt m := by
  cases ws with
  | nil => by_cases h : m = n <;> simp [Ctx.wt, applyWrites, h]
  | cons x xs =>
    obtain ⟨ln, kn⟩ := n
    obtain ⟨lm, km⟩ := m
    simp only at hn hm
    have h1 : ln = 0 ∨ ln = 1 ∨ ln = 2 := by omega
    have h2 : lm = 0 ∨ lm = 1 ∨ lm = 2 := by omega
    rcases h1 with rfl | rfl | rfl <;> rcases h2 with rfl | rfl | rfl <;>
      simp only [Ctx.wt, Ctx.rt, Ctx.tileReg?, Ctx.putTile, Tbl.get?_put, TileName.mk.injEq] <;>
      by_cases h : km = kn <;> simp [h]

/-- A tile register after the same field writes on several. -/
theorem Ctx.rt_wts_ne (c : Ctx) (ds : List TileName) (m : TileName) (ws : List FieldWr) (hd : ∀ d ∈ ds, d.lvl < 3)
    (hm : m.lvl < 3) (h : m ∉ ds) : (c.wts ds ws).rt m = c.rt m := by
  induction ds generalizing c with
  | nil => rfl
  | cons d ds ih =>
    simp only [List.mem_cons, not_or] at h
    show ((c.wt d ws).wts ds ws).rt m = _
    rw [ih _ (fun q hq => hd q (List.mem_cons_of_mem _ hq)) h.2, Ctx.rt_wt _ _ _ _ (hd d List.mem_cons_self) hm, if_neg h.1]

/-- A field of a written tile apart from every write is unchanged. -/
theorem Ctx.field_wts_ne (c : Ctx) (ds : List TileName) (m : TileName) (ws : List FieldWr) (hd : ∀ d ∈ ds, d.lvl < 3)
    (hm : m.lvl < 3) (off w : Nat) (h : ∀ x ∈ ws, apart off w x.off x.w) :
    tileField ((c.wts ds ws).rt m) off w = tileField (c.rt m) off w := by
  induction ds generalizing c with
  | nil => rfl
  | cons d ds ih =>
    show tileField (((c.wt d ws).wts ds ws).rt m) off w = _
    rw [ih _ (fun q hq => hd q (List.mem_cons_of_mem _ hq)), Ctx.rt_wt _ _ _ _ (hd d List.mem_cons_self) hm]
    split
    · rename_i he
      rw [tileField_applyWrites_ne _ _ _ _ h, he]
    · rfl

/-- A written field of each of several tiles reads its value. -/
theorem Ctx.field_wts_mem (c : Ctx) (ds : List TileName) (m : TileName) (ws : List FieldWr) (hd : ∀ d ∈ ds, d.lvl < 3)
    (hmem : m ∈ ds) (off w v : Nat) (hb : off + w ≤ 8192)
    (hx : ∃ x ∈ ws, x.off = off ∧ x.w = w ∧ x.v % 2 ^ w = v % 2 ^ w)
    (h : ∀ x ∈ ws, (x.off = off ∧ x.w = w ∧ x.v % 2 ^ w = v % 2 ^ w) ∨ apart off w x.off x.w) :
    tileField ((c.wts ds ws).rt m) off w = v % 2 ^ w := by
  have hm : m.lvl < 3 := hd m hmem
  have step : ∀ (c : Ctx) (d : TileName), d.lvl < 3 → (d = m ∨ tileField (c.rt m) off w = v % 2 ^ w) →
      tileField ((c.wt d ws).rt m) off w = v % 2 ^ w := by
    intro c d hd hor
    rw [Ctx.rt_wt _ _ _ _ hd hm]
    split
    · exact tileField_applyWrites_mem _ _ _ _ _ hb hx h
    · rename_i hne
      rcases hor with rfl | h'
      · exact absurd rfl hne
      · exact h'
  have keep : ∀ (ds : List TileName) (c : Ctx), (∀ d ∈ ds, d.lvl < 3) → tileField (c.rt m) off w = v % 2 ^ w →
      tileField ((c.wts ds ws).rt m) off w = v % 2 ^ w := by
    intro ds
    induction ds with
    | nil => exact fun c _ hc => hc
    | cons d ds ih =>
      intro c hd hc
      exact ih _ (fun q hq => hd q (List.mem_cons_of_mem _ hq)) (step c d (hd d List.mem_cons_self) (.inr hc))
  induction ds generalizing c with
  | nil => cases hmem
  | cons d ds ih =>
    show tileField (((c.wt d ws).wts ds ws).rt m) off w = _
    rcases List.mem_cons.1 hmem with rfl | hmem
    · exact keep ds _ (fun q hq => hd q (List.mem_cons_of_mem _ hq)) (step c _ hm (.inl rfl))
    · exact ih _ (fun q hq => hd q (List.mem_cons_of_mem _ hq)) hmem

end Sys2Proof.Machine
end

