-- ==== Sys2Proof/Laws/Vector.lean ====
section
/-! SUPPORT. What a vector operation alone does: the commit of an effect on tiles, masks, predicates and SHAPE with its
flags, and what it leaves unchanged. -/

namespace Sys2Proof.Machine

/-- The predicate word after the flags of pops. -/
def popWord (p : BitVec 16) (ms : List (Pop × Met)) : BitVec 16 := (({ p := p } : Ctx).popFlags ms).p

theorem popFlags_eq (c : Ctx) (ms : List (Pop × Met)) : c.popFlags ms = { c with p := popWord c.p ms } := by
  unfold popWord Ctx.popFlags
  have key : ∀ (ms : List (Pop × Met)) (c d : Ctx), c.p = d.p →
      ms.foldl (fun c p => match p.1.flag with
        | some k => c.wp (BitVec.ofNat 4 k) (decide (p.2 ≠ .missed))
        | none => c) c =
      { c with p := (ms.foldl (fun c p => match p.1.flag with
        | some k => c.wp (BitVec.ofNat 4 k) (decide (p.2 ≠ .missed))
        | none => c) d).p } := by
    intro ms
    induction ms with
    | nil => intro c d h; simp [← h]
    | cons m ms ih =>
      intro c d h
      simp only [List.foldl_cons]
      cases hf : m.1.flag with
      | none => exact ih c d h
      | some k =>
        simp only
        rw [ih _ (d.wp (BitVec.ofNat 4 k) (decide (m.2 ≠ .missed))) (by unfold Ctx.wp; split <;> simp [h])]
        unfold Ctx.wp
        split <;> rfl
  exact key ms c _ rfl

theorem popWord_bit (p q : BitVec 16) (k : BitVec 4) (h : p.getLsbD k.toNat = q.getLsbD k.toNat) (ms : List (Pop × Met)) :
    (popWord p ms).getLsbD k.toNat = (popWord q ms).getLsbD k.toNat := by
  unfold popWord Ctx.popFlags
  have key : ∀ (ms : List (Pop × Met)) (c d : Ctx), c.p.getLsbD k.toNat = d.p.getLsbD k.toNat →
      (ms.foldl (fun c p => match p.1.flag with
        | some k => c.wp (BitVec.ofNat 4 k) (decide (p.2 ≠ .missed))
        | none => c) c).p.getLsbD k.toNat =
      (ms.foldl (fun c p => match p.1.flag with
        | some k => c.wp (BitVec.ofNat 4 k) (decide (p.2 ≠ .missed))
        | none => c) d).p.getLsbD k.toNat := by
    intro ms
    induction ms with
    | nil => exact fun c d h => h
    | cons m ms ih =>
      intro c d h
      simp only [List.foldl_cons]
      cases hf : m.1.flag with
      | none => exact ih c d h
      | some k' =>
        refine ih _ _ ?_
        by_cases h0 : BitVec.ofNat 4 k' = 0
        · simp only [Ctx.wp, h0, if_true, h]
        · simp only [Ctx.wp, h0, if_false, setField_bit, h]
  exact key ms _ _ h

/-- Saturation events change SATCNT, the calibration arm and flag, and the unposted records only. -/
theorem saturate_shape (s : State) (n : Nat) : ∃ sc ca lu as_, s.saturate n =
    { s with core := { s.core with satcnt := sc, calArmed := ca, lanesUnposted := lu,
                                   ctx := { s.core.ctx with astat := as_ } } } := by
  unfold State.saturate
  generalize hc : s.countSat n = r
  obtain ⟨s1, b⟩ := r
  simp only [State.countSat] at hc
  cases hc
  cases (s.core.calArmed && decide (n ≠ 0 ∧ s.core.satthr.toNat ≠ 0 ∧ s.core.satcnt.toNat < s.core.satthr.toNat ∧
    s.core.satthr.toNat ≤ Min.min count32 (s.core.satcnt.toNat + n)))
  · exact ⟨_, _, _, _, rfl⟩
  · exact ⟨_, _, _, _, rfl⟩

/-- No saturation event changes nothing. -/
theorem saturate_zero (s : State) : s.saturate 0 = s := by
  unfold State.saturate
  simp [State.countSat, State.onCore]

/-- What recording flags changes. -/
theorem raise_shape (s : State) (f : Flags) : ∃ sc ca lu as_, s.raise f =
    { s with core := { s.core with satcnt := sc, calArmed := ca, lanesUnposted := lu,
                                   ctx := { s.core.ctx with astat := as_ } } } := by
  obtain ⟨sc, ca, lu, as_, h⟩ := saturate_shape (s.onCtx (fun c => c.raise f)) f.sats
  exact ⟨sc, ca, lu, as_, h⟩

/-- ASTAT after saturation events: the calibration flag at the crossing (R75). -/
theorem saturate_astat (s : State) (n : Nat) : (s.saturate n).core.ctx.astat =
    if n ≠ 0 ∧ s.core.calArmed = true ∧ s.core.satthr.toNat ≠ 0 ∧ s.core.satcnt.toNat < s.core.satthr.toNat ∧
      s.core.satthr.toNat ≤ Min.min count32 (s.core.satcnt.toNat + n) then s.core.ctx.astat ||| 128
    else s.core.ctx.astat := by
  unfold State.saturate
  generalize hc : s.countSat n = r
  obtain ⟨s1, b⟩ := r
  simp only [State.countSat] at hc
  obtain ⟨rfl, rfl⟩ := hc
  by_cases hb : n ≠ 0 ∧ s.core.calArmed = true ∧ s.core.satthr.toNat ≠ 0 ∧
    s.core.satcnt.toNat < s.core.satthr.toNat ∧ s.core.satthr.toNat ≤ Min.min count32 (s.core.satcnt.toNat + n)
  · simp only [if_pos hb]
    rw [show (s.core.calArmed && decide (n ≠ 0 ∧ s.core.satthr.toNat ≠ 0 ∧ s.core.satcnt.toNat < s.core.satthr.toNat ∧
      s.core.satthr.toNat ≤ Min.min count32 (s.core.satcnt.toNat + n))) = true by
        rw [hb.2.1, decide_eq_true ⟨hb.1, hb.2.2⟩]; rfl]
    rfl
  · simp only [if_neg hb]
    rw [show (s.core.calArmed && decide (n ≠ 0 ∧ s.core.satthr.toNat ≠ 0 ∧ s.core.satcnt.toNat < s.core.satthr.toNat ∧
      s.core.satthr.toNat ≤ Min.min count32 (s.core.satcnt.toNat + n))) = false by
        cases hca : s.core.calArmed
        · rfl
        · rw [Bool.true_and, decide_eq_false_iff_not]; exact fun h => hb ⟨h.1, hca, h.2⟩]
    rfl

/-- SATCNT after saturation events (R75). -/
theorem saturate_satcnt (s : State) (n : Nat) : (s.saturate n).core.satcnt =
    if n = 0 then s.core.satcnt else BitVec.ofNat 64 (Min.min count32 (s.core.satcnt.toNat + n)) := by
  unfold State.saturate
  generalize hc : s.countSat n = r
  obtain ⟨s1, b⟩ := r
  simp only [State.countSat] at hc
  obtain ⟨rfl, rfl⟩ := hc
  cases (s.core.calArmed && decide (n ≠ 0 ∧ s.core.satthr.toNat ≠ 0 ∧ s.core.satcnt.toNat < s.core.satthr.toNat ∧
    s.core.satthr.toNat ≤ Min.min count32 (s.core.satcnt.toNat + n)))
  · rfl
  · rfl

/-- The status that flags leave depends on the status before alone. -/
theorem raise_status (s t : State) (f : Flags) (h1 : t.core.ctx.astat = s.core.ctx.astat) (h2 : t.core.satcnt = s.core.satcnt)
    (h3 : t.core.satthr = s.core.satthr) (h4 : t.core.calArmed = s.core.calArmed) :
    (t.raise f).core.ctx.astat = (s.raise f).core.ctx.astat ∧ (t.raise f).core.satcnt = (s.raise f).core.satcnt := by
  simp only [State.raise, saturate_astat, saturate_satcnt, State.onCtx_core_satcnt, State.onCtx_core_satthr,
    State.onCtx_core_calArmed, State.onCtx_core_ctx, Ctx.raise, h1, h2, h3, h4, and_true]
  congr

/-- An update of tiles, masks, predicates and SHAPE that keeps what `ch` does not list. -/
structure VecUpd (g : Ctx → Ctx) (c : Ctx) (ch : Changes) : Prop where
  shape : ∃ t w l m p sh wr, g c = { c with t := t, w := w, l := l, m := m, p := p, shape := sh, writes := wr }
  tile : ∀ n, n.lvl < 3 → n ∉ ch.tiles → (g c).rt n = c.rt n
  mask : ∀ k, k ∉ ch.ms → (g c).rm k = c.rm k
  pred : ∀ k, k ∉ ch.ps → (g c).rp k = c.rp k
  view : 0x020 ∉ ch.ctl → (g c).shape = c.shape

theorem wt_shape (c : Ctx) (d : TileName) (ws : List FieldWr) :
    ∃ t w l wr, c.wt d ws = { c with t := t, w := w, l := l, writes := wr } := by
  unfold Ctx.wt
  split
  · exact ⟨_, _, _, _, rfl⟩
  · unfold Ctx.putTile
    split <;> exact ⟨_, _, _, _, rfl⟩

theorem wts_shape (c : Ctx) (ds : List TileName) (ws : List FieldWr) :
    ∃ t w l wr, c.wts ds ws = { c with t := t, w := w, l := l, writes := wr } := by
  induction ds generalizing c with
  | nil => exact ⟨_, _, _, _, rfl⟩
  | cons d ds ih =>
    obtain ⟨t, w, l, wr, h⟩ := wt_shape c d ws
    obtain ⟨t', w', l', wr', h'⟩ := ih (c.wt d ws)
    refine ⟨t', w', l', wr', ?_⟩
    show (c.wt d ws).wts ds ws = _
    rw [h', h]

/-- Writes of tiles keep all else. -/
theorem vecUpd_wts (c : Ctx) (ds : List TileName) (ws : List FieldWr) (hd : ∀ d ∈ ds, d.lvl < 3) :
    VecUpd (fun c => c.wts ds ws) c { tiles := ds } := by
  obtain ⟨t, w, l, wr, h⟩ := wts_shape c ds ws
  refine ⟨⟨t, w, l, c.m, c.p, c.shape, wr, h⟩, fun n hn hm => Ctx.rt_wts_ne c ds n ws hd hn hm, ?_, ?_, ?_⟩
  · intro k _; simp only [h]; rfl
  · intro k _; simp only [h]; rfl
  · intro _; simp only [h]

/-- The commit of a bundle that needs no yield, from the state that its slot leaves. -/
theorem retired_eq {s s2 : State} {b : Bundle} {F : State → State} (hy : b.hdr.y = false)
    (hF : F (s.onCore (fun k => { k with pc := sext57 (k.pc + 64), waita := none })) = s2) (ms : List (Pop × Met))
    (hms : meetPops s.core.ctx [] (popsOf b) = ms) (sr : Word)
    (hsr : (if (liveOps s.core.ctx b).any (fun d => decide (srCount s.core.ctx d.2 ≠ 0)) then
      srBaseOf s.core.ctx (liveOps s.core.ctx b) 9 else s2.core.ctx.srctr) = sr) :
    s.retired b F = { s2 with
      core := { s2.core with
        ctx := { s2.core.ctx.dropPops ms with
          p := popWord s2.core.ctx.p ms, srctr := sr, tau := s2.core.ctx.tau + issueCycles b, seq := s2.core.ctx.seq + 1 },
        run := s2.core.run.map (fun r => { r with runField := b.hdr.run.toNat }), cmdSeq := s2.core.cmdSeq + 1 },
      cycle := s2.cycle + issueCycles b + Config.stallCycles s2.tick, tick := s2.tick + 1 } := by
  subst hF hms hsr
  simp only [State.retired, hy, State.retireBundle, popFlags_eq]
  rfl

/-- The counters that a bundle of one operation is allotted (R74). -/
theorem srBase_one {s : State} {i : Instr} (ha : aloneOp i = true) (hg : guardTrue s.core.ctx i = true)
    (hcrw : ∀ a, i ≠ .crw a) :
    (if (liveOps s.core.ctx (aloneBundle i)).any (fun d => decide (srCount s.core.ctx d.2 ≠ 0)) then
      srBaseOf s.core.ctx (liveOps s.core.ctx (aloneBundle i)) 9 else s.core.ctx.srctr) =
    s.core.ctx.srctr + BitVec.ofNat 64 (srCount s.core.ctx i) := by
  obtain ⟨n, hb⟩ := alone_ops i ha
  have hn : n < 9 := by
    obtain ⟨m, hm⟩ := alone_slot i ha
    have : (n, i) ∈ (aloneBundle i).ops := by simp [hb]
    simp only [Bundle.ops, List.mem_filterMap, Option.map_eq_some_iff, Bundle.slots] at this
    obtain ⟨d, hd, j, hj, he⟩ := this
    have h1 : d.1 = n := congrArg Prod.fst he
    rw [← h1]
    simp only [List.mem_cons, List.not_mem_nil, or_false] at hd
    rcases hd with rfl | rfl | rfl | rfl | rfl | rfl | rfl | rfl <;> simp only <;> omega
  have hl : liveOps s.core.ctx (aloneBundle i) = [(n, i)] := by simp [liveOps, hb, hg]
  have hst : srStart s.core.ctx [(n, i)] = s.core.ctx.srctr := by
    simp only [srStart, List.foldl_cons, List.foldl_nil]
  rw [hl]
  by_cases hz : srCount s.core.ctx i = 0
  · simp [hz]
  · simp [hz, srBaseOf, hst, srBefore, hn]

/-- The context after a vector operation: what its update, its pops and its flags change. -/
structure VecCtx where
  t : Tbl TileReg
  w : Tbl TileReg
  l : Tbl TileReg
  m : Vector (BitVec 512) 8
  p : BitVec 16
  shape : Word
  writes : Nat
  astat : Word
  srctr : Word
  tau : Nat
  seq : Nat

/-- A context with those fields. -/
def Ctx.vec (c : Ctx) (v : VecCtx) : Ctx :=
  { c with t := v.t, w := v.w, l := v.l, m := v.m, p := v.p, shape := v.shape, writes := v.writes, astat := v.astat,
           srctr := v.srctr, tau := v.tau, seq := v.seq }

/-- The state after a vector operation. -/
def State.vec (s : State) (ms : List (Pop × Met)) (v : VecCtx) (sc : Word) (ca : Bool) (lu : List LaneRec) (run : Option Run)
    (cycle : Nat) : State :=
  { s with
    core := { s.core with
      pc := s.nextPc, waita := none, satcnt := sc, calArmed := ca, lanesUnposted := lu,
      ctx := (s.core.ctx.dropPops ms).vec v, run := run, cmdSeq := s.core.cmdSeq + 1 },
    cycle := cycle, tick := s.tick + 1 }

/-- The commit of a bundle of one operation whose effect is an update of the context and flags. -/
theorem retired_vec {s : State} {i : Instr} {g : Ctx → Ctx} {fl : Flags} {ch : Changes} (ha : aloneOp i = true)
    (hg : guardTrue s.core.ctx i = true) (hy : (aloneBundle i).hdr.y = false) (hcrw : ∀ a, i ≠ .crw a)
    (hu : VecUpd g s.core.ctx ch) : ∃ v ca lu run cycle,
    s.retired (aloneBundle i) (fun s => (s.onCtx g).raise fl) =
      s.vec (meetPops s.core.ctx [] (popsOf (aloneBundle i))) v (s.raise fl).core.satcnt ca lu run cycle ∧
    (run.map (·.ebud) = s.core.run.map (·.ebud) ∧ run.map (·.lcore) = s.core.run.map (·.lcore)) ∧
    v.astat = (s.raise fl).core.ctx.astat ∧ v.srctr = s.core.ctx.srctr + BitVec.ofNat 64 (srCount s.core.ctx i) ∧
    v.p = popWord (g s.core.ctx).p (meetPops s.core.ctx [] (popsOf (aloneBundle i))) ∧
    v.t = (g s.core.ctx).t ∧ v.w = (g s.core.ctx).w ∧ v.l = (g s.core.ctx).l ∧ v.m = (g s.core.ctx).m ∧
    v.shape = (g s.core.ctx).shape := by
  obtain ⟨t1, w1, l1, m1, p1, sh1, wr1, hs⟩ := hu.shape
  obtain ⟨sc, ca, lu, as_, hr⟩ := raise_shape
    ((s.onCore (fun k => { k with pc := sext57 (k.pc + 64), waita := none })).onCtx g) fl
  have hst := raise_status s ((s.onCore (fun k => { k with pc := sext57 (k.pc + 64), waita := none })).onCtx g) fl
    (by simp [hs]) rfl rfl rfl
  rw [hr] at hst
  have hr2 := hr.trans (b := _) (c := { s with core := { s.core with
      pc := s.nextPc, waita := none, satcnt := sc, calArmed := ca, lanesUnposted := lu,
      ctx := { s.core.ctx with t := t1, w := w1, l := l1, m := m1, p := p1, shape := sh1, writes := wr1, astat := as_ } } })
    (by simp only [State.onCtx, Core.onCtx, State.onCore, hs]; rfl)
  have ht := retired_eq (F := fun s => (s.onCtx g).raise fl) hy hr2 _ rfl _ (srBase_one ha hg hcrw)
  refine ⟨⟨t1, w1, l1, m1, popWord p1 (meetPops s.core.ctx [] (popsOf (aloneBundle i))), sh1, wr1, as_,
      s.core.ctx.srctr + BitVec.ofNat 64 (srCount s.core.ctx i), s.core.ctx.tau + issueCycles (aloneBundle i),
      s.core.ctx.seq + 1⟩, ca, lu, s.core.run.map (fun r => { r with runField := (aloneBundle i).hdr.run.toNat }),
    s.cycle + issueCycles (aloneBundle i) + Config.stallCycles s.tick, ?_, ⟨?_, ?_⟩, hst.1, rfl, ?_, ?_, ?_, ?_, ?_, ?_⟩
  · rw [ht, ← hst.2]
    rfl
  · cases s.core.run <;> rfl
  · cases s.core.run <;> rfl
  all_goals simp only [hs]

theorem runOf_vec (s : State) (ms : List (Pop × Met)) (v : VecCtx) (sc : Word) (ca : Bool) (lu : List LaneRec)
    (run : Option Run) (cycle : Nat)
    (hrun : run.map (·.ebud) = s.core.run.map (·.ebud) ∧ run.map (·.lcore) = s.core.run.map (·.lcore)) :
    (s.vec ms v sc ca lu run cycle).runOf.ebud = s.runOf.ebud ∧ (s.vec ms v sc ca lu run cycle).runOf.lcore = s.runOf.lcore := by
  cases hr : s.core.run <;> cases run <;> simp_all [State.runOf, State.vec]

/-- A control register that a vector operation does not write reads as before. -/
theorem readCtl_vec (s : State) (ms : List (Pop × Met)) (p : BitVec 16) (v : VecCtx) (sc : Word) (ca : Bool)
    (lu : List LaneRec) (run : Option Run) (cycle : Nat)
    (hrun : run.map (·.ebud) = s.core.run.map (·.ebud) ∧ run.map (·.lcore) = s.core.run.map (·.lcore))
    (idx : Nat) (h2 : idx ≠ 0x002) (h11 : idx ≠ 0x011) (h12 : idx ≠ 0x012) (h13 : idx ≠ 0x013)
    (hv : idx = 0x020 → v.shape = s.core.ctx.shape) :
    readCtl (s.vec ms v sc ca lu run cycle) idx = readCtl (s.withCtx { s.core.ctx.dropPops ms with p := p }) idx := by
  have hr := runOf_vec s ms v sc ca lu run cycle hrun
  have hw : (s.withCtx { s.core.ctx.dropPops ms with p := p }).runOf = s.runOf := rfl
  unfold readCtl
  split <;> first
    | rfl
    | exact absurd rfl h2
    | exact absurd rfl h11
    | exact absurd rfl h12
    | exact absurd rfl h13
    | exact hv rfl
    | (simp only [State.corenum, hr, hw]; done)
    | (simp only [State.corenum, hr, hw]; rfl)

/-- What a vector operation's commit leaves unchanged. -/
theorem onlyRegs_vec {s : State} {i : Instr} {g : Ctx → Ctx} {ch : Changes} (hu : VecUpd g s.core.ctx ch)
    (v : VecCtx) (sc : Word) (ca : Bool) (lu : List LaneRec) (run : Option Run) (cycle : Nat)
    (hrun : run.map (·.ebud) = s.core.run.map (·.ebud) ∧ run.map (·.lcore) = s.core.run.map (·.lcore))
    (hp : v.p = popWord (g s.core.ctx).p (meetPops s.core.ctx [] (popsOf (aloneBundle i))))
    (ht : v.t = (g s.core.ctx).t) (hw : v.w = (g s.core.ctx).w) (hl : v.l = (g s.core.ctx).l) (hm : v.m = (g s.core.ctx).m)
    (hs : v.shape = (g s.core.ctx).shape) :
    OnlyRegs (s.afterPops i) (s.vec (meetPops s.core.ctx [] (popsOf (aloneBundle i))) v sc ca lu run cycle)
      { ch with ctl := [0x011, 0x012, 0x013] ++ ch.ctl } := by
  have e : s.afterPops i = s.withCtx { s.core.ctx.dropPops (meetPops s.core.ctx [] (popsOf (aloneBundle i))) with
      p := popWord s.core.ctx.p (meetPops s.core.ctx [] (popsOf (aloneBundle i))) } := by
    simp only [State.afterPops, popFlags_eq]
    rfl
  rw [e]
  refine ⟨⟨fun _ _ => rfl, ?_, fun _ _ => rfl, ?_, ?_, fun _ _ => rfl, ?_⟩, ⟨rfl, rfl, rfl, rfl, rfl, rfl, rfl, rfl⟩,
    ⟨rfl, rfl, rfl, rfl, rfl, rfl, rfl, rfl, rfl, rfl, rfl, rfl, rfl, rfl, rfl⟩, rfl, ⟨fun _ => rfl, fun _ => rfl, rfl, rfl⟩,
    ⟨rfl, rfl, rfl, rfl, rfl, rfl, rfl, rfl, rfl, rfl, rfl⟩⟩
  · intro k hk
    by_cases h0 : k = 0
    · simp only [Ctx.rp, h0, if_true]
    · have := hu.pred k hk
      simp only [Ctx.rp, h0, if_false] at this ⊢
      show v.p.getLsbD _ = _
      rw [hp]
      exact popWord_bit _ _ _ this _
  · intro k hk
    have := hu.mask k hk
    simp only [Ctx.rm] at this ⊢
    show v.m[k.toNat] = _
    simp only [hm]
    exact this
  · intro n hn hk
    have := hu.tile n hn hk
    simp only [Ctx.rt, Ctx.tileReg?] at this ⊢
    simp only [State.vec, Ctx.vec, ht, hw, hl]
    exact this
  · intro idx hidx h2
    simp only [List.mem_append, List.mem_cons, List.not_mem_nil, or_false, not_or] at hidx
    exact readCtl_vec s _ _ v sc ca lu run cycle hrun idx h2 hidx.1.1 hidx.1.2.1 hidx.1.2.2
      (fun h => hs.trans (hu.view (h ▸ hidx.2)))

theorem raise_none (s : State) : s.raise Flags.none = s := by
  simp only [State.raise, Flags.none, saturate_zero, State.onCtx, State.onCore, Core.onCtx, Ctx.raise]
  simp [Flags.toAstat]

/-- An operation whose slot updates the context and records flags runs. -/
theorem vec_of {s : State} {i : Instr} {g : Ctx → Ctx} {fl : Flags} {ch : Changes} (ha : aloneOp i = true)
    (hr : s.runs i = true) (hy : (aloneBundle i).hdr.y = false) (hcrw : ∀ a, i ≠ .crw a) (hu : VecUpd g s.core.ctx ch)
    (hf : slotOut i (s.envFor i) = .ok (fun s => (s.onCtx g).raise fl)) : ∃ t, exec i s = .next t ∧ VectorDone s t i fl ch ∧
    (∀ n, t.core.ctx.rt n = (g s.core.ctx).rt n) ∧ (∀ k, t.core.ctx.rm k = (g s.core.ctx).rm k) ∧
      t.core.ctx.shape = (g s.core.ctx).shape ∧
      t.core.ctx.p = popWord (g s.core.ctx).p (meetPops s.core.ctx [] (popsOf (aloneBundle i))) := by
  obtain ⟨v, ca, lu, run, cycle, ht, hrun, h1, h2, h3, h4, h5, h6, h7, h8⟩ :=
    retired_vec (fl := fl) ha ((runs_iff s i).1 hr).2 hy hcrw hu
  refine ⟨_, exec_one ha hr hf, ?_⟩
  rw [ht]
  refine ⟨⟨rfl, h1, rfl, h2, onlyRegs_vec hu v _ ca lu run cycle hrun h3 h4 h5 h6 h7 h8⟩, ?_, ?_, h8, h3⟩
  · intro n
    simp only [Ctx.rt, Ctx.tileReg?, State.vec, Ctx.vec, h4, h5, h6]
  · intro k
    simp only [Ctx.rm, State.vec, Ctx.vec, h7]

/-- An operation whose slot updates the context alone runs. -/
theorem vec_of_ctx {s : State} {i : Instr} {g : Ctx → Ctx} {ch : Changes} (ha : aloneOp i = true)
    (hr : s.runs i = true) (hy : (aloneBundle i).hdr.y = false) (hcrw : ∀ a, i ≠ .crw a) (hu : VecUpd g s.core.ctx ch)
    (hf : slotOut i (s.envFor i) = .ctx g) : ∃ t, exec i s = .next t ∧ VectorDone s t i Flags.none ch ∧
    (∀ n, t.core.ctx.rt n = (g s.core.ctx).rt n) ∧ (∀ k, t.core.ctx.rm k = (g s.core.ctx).rm k) ∧
      t.core.ctx.shape = (g s.core.ctx).shape ∧
      t.core.ctx.p = popWord (g s.core.ctx).p (meetPops s.core.ctx [] (popsOf (aloneBundle i))) :=
  vec_of (fl := Flags.none) ha hr hy hcrw hu (by rw [hf]; simp only [raise_none]; rfl)

end Sys2Proof.Machine
end

