-- ==== Sys2Proof/Laws/Elements.lean ====
section
/-! SUPPORT. Element-wise operations: extents, masks, and the tiles that they leave. -/

namespace Sys2Proof.Machine

theorem nr_le (c : Ctx) : c.nr ≤ 16 := by
  unfold Ctx.nr bits
  have := Nat.mod_lt (c.shape.toNat / 2 ^ 0) (show 0 < 2 ^ 4 by decide)
  omega

theorem nc_le (c : Ctx) (w : Nat) : w * c.nc w ≤ 512 := by
  unfold Ctx.nc
  have h1 : c.nb ≤ 64 := by
    unfold Ctx.nb bits
    have := Nat.mod_lt (c.shape.toNat / 2 ^ 8) (show 0 < 2 ^ 6 by decide)
    omega
  have := Nat.mul_div_le (8 * c.nb) w
  omega

/-- The positions of a valid extent lie in the view. -/
theorem extent_lt {dir k nr nc : Nat} (hv : lineValid dir k nr nc = true) {q : Pos} (hq : q ∈ extent dir k nr nc) :
    q.i < nr ∧ q.j < nc := by
  unfold extent at hq
  split at hq
  · cases hq
  rename_i hnc
  simp only [lineValid, hnc, decide_false, Bool.false_or] at hv
  match dir, hv, hq with
  | 0, _, hq =>
    simp only [List.mem_flatMap, List.mem_map, List.mem_range] at hq
    obtain ⟨i, hi, j, hj, rfl⟩ := hq
    exact ⟨hi, hj⟩
  | 1, hv, hq =>
    simp only [List.mem_map, List.mem_range] at hq
    obtain ⟨p, hp, rfl⟩ := hq
    exact ⟨by simpa using hv, hp⟩
  | 2, hv, hq =>
    simp only [List.mem_map, List.mem_range] at hq
    obtain ⟨p, hp, rfl⟩ := hq
    exact ⟨hp, by simpa using hv⟩
  | n + 3, hv, hq =>
    simp only [List.mem_map, List.mem_range] at hq
    obtain ⟨p, hp, rfl⟩ := hq
    exact ⟨hp, Nat.mod_lt _ (by omega)⟩

/-- No position of an extent stands twice. -/
theorem extent_nodup (dir k nr nc : Nat) :
    (extent dir k nr nc).Pairwise (fun a b => ¬(a.i = b.i ∧ a.j = b.j)) := by
  unfold extent
  split
  · exact List.Pairwise.nil
  match dir with
  | 0 =>
    simp only
    rw [List.pairwise_flatMap]
    refine ⟨fun i _ => ?_, ?_⟩
    · rw [List.pairwise_map]
      exact List.Pairwise.imp (fun h => by simp; omega) (List.pairwise_lt_range (n := nc))
    · refine List.Pairwise.imp (fun {a b} h => ?_) (List.pairwise_lt_range (n := nr))
      simp only [List.mem_map]
      rintro x ⟨j, -, rfl⟩ y ⟨j', -, rfl⟩ ⟨h1, -⟩
      simp only at h1
      omega
  | 1 =>
    simp only
    rw [List.pairwise_map]
    exact List.Pairwise.imp (fun h => by simp; omega) (List.pairwise_lt_range (n := nc))
  | 2 =>
    simp only
    rw [List.pairwise_map]
    exact List.Pairwise.imp (fun h => by simp; omega) (List.pairwise_lt_range (n := nr))
  | n + 3 =>
    simp only
    rw [List.pairwise_map]
    exact List.Pairwise.imp (fun h => by simp; omega) (List.pairwise_lt_range (n := nr))

/-- Two elements of a list without repeated positions that share one are equal. -/
theorem pairwise_pos {β : Type} {ps : List (Pos × β)} (h : ps.Pairwise (fun a b => ¬(a.1.i = b.1.i ∧ a.1.j = b.1.j)))
    {p q : Pos × β} (hp : p ∈ ps) (hq : q ∈ ps) (he : p.1.i = q.1.i ∧ p.1.j = q.1.j) : p = q := by
  rw [List.pairwise_iff_getElem] at h
  obtain ⟨m, hm1, rfl⟩ := List.mem_iff_getElem.1 hp
  obtain ⟨n, hn1, rfl⟩ := List.mem_iff_getElem.1 hq
  rcases Nat.lt_trichotomy m n with hlt | rfl | hlt
  · exact absurd he (h m n hm1 hn1 hlt)
  · rfl
  · exact absurd ⟨he.1.symm, he.2.symm⟩ (h n m hn1 hm1 hlt)

/-- Positions with computed elements repeat no position where the positions do not. -/
theorem pairwise_els {β : Type} {ps : List Pos} (f : Nat → Pos → β) (h : ps.Pairwise (fun a b => ¬(a.i = b.i ∧ a.j = b.j))) :
    (ps.zipIdx.map (fun q => (q.1, f q.2 q.1))).Pairwise (fun a b => ¬(a.1.i = b.1.i ∧ a.1.j = b.1.j)) := by
  rw [List.pairwise_map]
  have h2 : ps = ps.zipIdx.map Prod.fst := (List.zipIdx_map_fst 0 ps).symm
  rw [h2, List.pairwise_map] at h
  simpa using h

/-- The writes that a mask leaves of computed elements. -/
theorem mem_maskedWrites (m : Option (BitVec 512)) (zer : Bool) (w : Nat) (els : List (Pos × Nat × Flags)) (x : FieldWr) :
    x ∈ (maskedWrites m zer w els).1 ↔ ∃ q ∈ els, (maskOn m q.1.i q.1.j = true ∧ x = ⟨512 * q.1.i + w * q.1.j, w, q.2.1⟩) ∨
      (maskOn m q.1.i q.1.j = false ∧ zer = true ∧ x = ⟨512 * q.1.i + w * q.1.j, w, 0⟩) := by
  unfold maskedWrites
  have key : ∀ (els : List (Pos × Nat × Flags)) (acc : List FieldWr × Flags), x ∈ (els.foldl (fun acc q =>
      let off := 512 * q.1.i + w * q.1.j
      if maskOn m q.1.i q.1.j then (acc.1 ++ [⟨off, w, q.2.1⟩], acc.2.join q.2.2)
      else if zer then (acc.1 ++ [⟨off, w, 0⟩], acc.2)
      else acc) acc).1 ↔ x ∈ acc.1 ∨ ∃ q ∈ els, (maskOn m q.1.i q.1.j = true ∧ x = ⟨512 * q.1.i + w * q.1.j, w, q.2.1⟩) ∨
      (maskOn m q.1.i q.1.j = false ∧ zer = true ∧ x = ⟨512 * q.1.i + w * q.1.j, w, 0⟩) := by
    intro els
    induction els with
    | nil => simp
    | cons q qs ih =>
      intro acc
      rw [List.foldl_cons, ih]
      simp only [List.mem_cons, exists_eq_or_imp]
      cases hm : maskOn m q.1.i q.1.j <;> cases zer <;> simp [or_assoc]
  simpa using key els ([], .none)

/-- The flags that a mask leaves of computed elements. -/
theorem maskedWrites_flags (m : Option (BitVec 512)) (zer : Bool) (w : Nat) (els : List (Pos × Nat × Flags)) :
    (maskedWrites m zer w els).2 =
      els.foldl (fun g q => if maskOn m q.1.i q.1.j then g.join q.2.2 else g) Flags.none := by
  unfold maskedWrites
  have key : ∀ (els : List (Pos × Nat × Flags)) (acc : List FieldWr × Flags), (els.foldl (fun acc q =>
      let off := 512 * q.1.i + w * q.1.j
      if maskOn m q.1.i q.1.j then (acc.1 ++ [⟨off, w, q.2.1⟩], acc.2.join q.2.2)
      else if zer then (acc.1 ++ [⟨off, w, 0⟩], acc.2)
      else acc) acc).2 = els.foldl (fun g q => if maskOn m q.1.i q.1.j then g.join q.2.2 else g) acc.2 := by
    intro els
    induction els with
    | nil => exact fun _ => rfl
    | cons q qs ih =>
      intro acc
      rw [List.foldl_cons, ih, List.foldl_cons]
      cases hm : maskOn m q.1.i q.1.j <;> cases zer <;> simp
  exact key els ([], .none)

theorem maskOn_congr {m : Option (BitVec 512)} {i j i' j' : Nat} (hi : i = i') (hj : j = j') : maskOn m i j = maskOn m i' j' := by
  rw [hi, hj]

/-- Distinct elements of a width share no bit. -/
theorem elem_apart {w i j i' j' : Nat} (hw : 0 < w) (hj : w * j + w ≤ 512) (hj' : w * j' + w ≤ 512)
    (hne : ¬(i = i' ∧ j = j')) : apart (512 * i + w * j) w (512 * i' + w * j') w := by
  unfold apart
  by_cases h : i = i'
  · subst h
    have hjj : j ≠ j' := fun e => hne ⟨rfl, e⟩
    rcases Nat.lt_or_gt_of_ne hjj with hlt | hlt
    · left
      have : w * (j + 1) ≤ w * j' := Nat.mul_le_mul_left w hlt
      rw [Nat.mul_add] at this
      omega
    · right
      have : w * (j' + 1) ≤ w * j := Nat.mul_le_mul_left w hlt
      rw [Nat.mul_add] at this
      omega
  · rcases Nat.lt_or_gt_of_ne h with hlt | hlt
    · left; omega
    · right; omega

/-- The tiles that the masked writes of elements at distinct positions leave. -/
theorem masked_elem (c : Ctx) (m : Option (BitVec 512)) (zer : Bool) (w : Nat) (hw : 0 < w) (els : List (Pos × Nat × Flags))
    (hps : els.Pairwise (fun a b => ¬(a.1.i = b.1.i ∧ a.1.j = b.1.j))) (hb : ∀ e ∈ els, e.1.i < 16 ∧ w * e.1.j + w ≤ 512)
    (ds : List TileName) (hd : ∀ d ∈ ds, d.lvl < 3) (d : TileName) (hdm : d ∈ ds) :
    let ws := (maskedWrites m zer w els).1
    (∀ e ∈ els, elem ((c.wts ds ws).rt d) w e.1.i e.1.j =
      if maskOn m e.1.i e.1.j then e.2.1 % 2 ^ w else if zer then 0 else elem (c.rt d) w e.1.i e.1.j) ∧
    (∀ i j, i < 16 → w * j + w ≤ 512 → (∀ e ∈ els, ¬(e.1.i = i ∧ e.1.j = j)) →
      elem ((c.wts ds ws).rt d) w i j = elem (c.rt d) w i j) := by
  intro ws
  have hbound : ∀ i j, i < 16 → w * j + w ≤ 512 → 512 * i + w * j + w ≤ 8192 := by intro i j hi hj; omega
  refine ⟨fun e he => ?_, fun i j hi hj hno => ?_⟩
  · obtain ⟨hqi, hqj⟩ := hb e he
    have hcase : ∀ v, ((maskOn m e.1.i e.1.j = true ∧ v = e.2.1) ∨ (maskOn m e.1.i e.1.j = false ∧ zer = true ∧ v = 0)) →
        elem ((c.wts ds ws).rt d) w e.1.i e.1.j = v % 2 ^ w := by
      intro v hv
      have hin : (⟨512 * e.1.i + w * e.1.j, w, v⟩ : FieldWr) ∈ ws := by
        rw [mem_maskedWrites]
        refine ⟨e, he, ?_⟩
        rcases hv with ⟨h1, rfl⟩ | ⟨h1, h2, rfl⟩
        · exact .inl ⟨h1, rfl⟩
        · exact .inr ⟨h1, h2, rfl⟩
      refine Ctx.field_wts_mem c ds d ws hd hdm _ _ _ (hbound _ _ hqi hqj) ⟨_, hin, rfl, rfl, rfl⟩ ?_
      intro x hx
      obtain ⟨e', he', h⟩ := (mem_maskedWrites m zer w els x).1 hx
      by_cases hs : e.1.i = e'.1.i ∧ e.1.j = e'.1.j
      · left
        have hee := pairwise_pos hps he he' hs
        subst hee
        rcases hv with ⟨e1, rfl⟩ | ⟨e1, e2, rfl⟩ <;> rcases h with ⟨g1, rfl⟩ | ⟨g1, g2, rfl⟩
        · exact ⟨rfl, rfl, rfl⟩
        · rw [e1] at g1; cases g1
        · rw [e1] at g1; cases g1
        · exact ⟨rfl, rfl, rfl⟩
      · right
        rcases h with ⟨-, rfl⟩ | ⟨-, -, rfl⟩ <;> exact elem_apart hw hqj (hb e' he').2 hs
    cases hm : maskOn m e.1.i e.1.j
    · cases hz : zer
      · simp only [Bool.false_eq_true, if_false]
        refine Ctx.field_wts_ne c ds d ws hd (hd d hdm) _ _ ?_
        intro x hx
        obtain ⟨e', he', h⟩ := (mem_maskedWrites m zer w els x).1 hx
        by_cases hs : e.1.i = e'.1.i ∧ e.1.j = e'.1.j
        · have hee := pairwise_pos hps he he' hs
          subst hee
          rcases h with ⟨g1, -⟩ | ⟨-, g2, -⟩
          · rw [hm] at g1; cases g1
          · rw [hz] at g2; cases g2
        · rcases h with ⟨-, rfl⟩ | ⟨-, -, rfl⟩ <;> exact elem_apart hw hqj (hb e' he').2 hs
      · simp only [Bool.false_eq_true, if_false, if_true]
        rw [hcase 0 (.inr ⟨hm, hz, rfl⟩), Nat.zero_mod]
    · simp only [if_true]
      exact hcase _ (.inl ⟨hm, rfl⟩)
  · refine Ctx.field_wts_ne c ds d ws hd (hd d hdm) _ _ ?_
    intro x hx
    obtain ⟨e', he', h⟩ := (mem_maskedWrites m zer w els x).1 hx
    have hne : ¬(i = e'.1.i ∧ j = e'.1.j) := fun h => hno e' he' ⟨h.1.symm, h.2.symm⟩
    rcases h with ⟨-, rfl⟩ | ⟨-, -, rfl⟩ <;> exact elem_apart hw hj (hb e' he').2 hne

theorem elem_in {w j : Nat} (hj : j < 512 / w) : w * j + w ≤ 512 := by
  have h1 : w * (j + 1) ≤ w * (512 / w) := Nat.mul_le_mul_left w hj
  have h2 := Nat.mul_div_le 512 w
  rw [Nat.mul_add] at h1
  omega

/-- The bundle of a vector operation alone. -/
theorem vector_alone {i : Instr} {a : VArgs} {f : VForm} (hv : vectorForm i = some (a, f)) :
    (aloneBundle i).ops = [(if a.inB then 3 else 2, i)] ∧ (aloneBundle i).hdr.y = false ∧ aloneOp i = true ∧
      ∀ b, i ≠ .crw b := by
  cases i <;> first
    | (cases (show (none : Option (VArgs × VForm)) = some (a, f) from hv); done)
    | (rename_i b
       have hb : b = a := congrArg Prod.fst (Option.some.inj hv)
       subst hb
       refine ⟨?_, ?_, rfl, fun _ h => Instr.noConfusion h⟩ <;> (rcases b with ⟨_ | _⟩ <;> rfl))

/-- A destination field of an operation that runs names a tile. -/
theorem dst_isTile {s : State} {i : Instr} {a : VArgs} {f : VForm} (ha : aloneOp i = true) (hr : s.runs i = true)
    (hv : vectorForm i = some (a, f)) {k : Nat} {l z : Bool} {o : Opnd} (ho : (k, Role.dst l z, o) ∈ f.fields a) :
    o.lvl.toNat < 3 := by
  have hc := (runs_legal ha hr).1 (Role.cond (.dst l z) (a.g2.getLsbD 3) o) (by
    simp only [opConds, hv, vectorConds, List.mem_append]
    exact .inl (.inl (.inl (.inl (.inr (.inl (.inr (List.mem_map.2 ⟨_, ho, rfl⟩))))))))
  simp only [Role.cond, Bool.or_eq_false_iff, Bool.not_eq_false'] at hc
  have h3 : o.lvl ≠ 3 := by simpa [Opnd.isTile] using hc.1.1.1
  have := o.lvl.isLt
  have h4 : o.lvl.toNat ≠ 3 := fun e => h3 (BitVec.eq_of_toNat_eq e)
  omega

theorem dest_lvl {a : VArgs} {o : Opnd} (ho : o.lvl.toNat < 3) : ∀ d ∈ a.dest o, d.lvl < 3 := by
  intro d hd
  unfold VArgs.dest at hd
  split at hd
  · cases hd
  · simp only [List.mem_singleton] at hd
    subst hd
    exact ho

theorem dests_lvl {a : VArgs} (ho : a.o0.lvl.toNat < 3) : ∀ d ∈ a.dests, d.lvl < 3 := by
  intro d hd
  simp only [VArgs.dests, List.mem_append] at hd
  rcases hd with hd | hd
  · exact dest_lvl ho d hd
  · split at hd
    · simp only [List.mem_singleton] at hd
      subst hd
      exact Nat.lt_succ_self 2
    · cases hd

theorem lvl_of_dst {s : State} {i : Instr} {a : VArgs} {f : VForm} {l z : Bool} (hr : s.runs i = true)
    (hv : vectorForm i = some (a, f)) (h : f.r0 = .dst l z) : ∀ d ∈ a.dests, d.lvl < 3 :=
  dests_lvl (dst_isTile (vector_alone hv).2.2.1 hr hv (k := 0) (l := l) (z := z) (by simp [VForm.fields, h]))

/-- A vector operation whose slot faults takes that trap. -/
theorem vector_trap {s : State} {i : Instr} {a : VArgs} {f : VForm} {t : TrapInfo} (hr : s.runs i = true)
    (hv : vectorForm i = some (a, f)) (hf : slotOut i (s.envFor i) = .trap t) :
    Traps s i { t with pc := s.core.pc, aux := if a.inB then 3 else 2 } :=
  exec_trap (vector_alone hv).1 (vector_alone hv).2.2.1 hr hf

theorem bits_pos (f : Fmt) : 0 < f.bits := by cases f <;> decide

theorem foldl_map_join (m : Option (BitVec 512)) (ps : List Pos) (f : Nat → Pos → Nat × Flags) :
    (ps.zipIdx.map (fun q => (q.1, f q.2 q.1))).foldl (fun g q => if maskOn m q.1.i q.1.j then g.join q.2.2 else g) Flags.none
      = joinedFlags m ps (fun n q => (f n q).2) := by
  rw [List.foldl_map]
  rfl

/-- An operation whose slot writes the masked elements of distinct positions, and records flags, runs to them. -/
theorem elements_of {s : State} {i : Instr} {a : VArgs} {w : Nat} {ps : List Pos} {f : Nat → Pos → Nat × Flags} {fl : Flags}
    (ha : aloneOp i = true) (hr : s.runs i = true) (hy : (aloneBundle i).hdr.y = false) (hcrw : ∀ a, i ≠ .crw a)
    (hd : ∀ d ∈ a.dests, d.lvl < 3) (hw : 0 < w) (hps : ps.Pairwise (fun a b => ¬(a.i = b.i ∧ a.j = b.j)))
    (hb : ∀ q ∈ ps, q.i < 16 ∧ w * q.j + w ≤ 512)
    (hf : slotOut i (s.envFor i) = .ok (fun t => (t.onCtx (fun c => c.wts a.dests
      (maskedWrites (a.mask s.core.ctx) a.o0.zer w (ps.zipIdx.map (fun q => (q.1, f q.2 q.1)))).1)).raise fl)) :
    ∃ t, exec i s = .next t ∧ Elements s t a.dests (a.mask s.core.ctx) a.o0.zer w ps (fun n q => (f n q).1) ∧
      VectorDone s t i fl { tiles := a.dests } := by
  obtain ⟨t, he, hdone, hrt, -, -, -⟩ := vec_of ha hr hy hcrw (vecUpd_wts s.core.ctx a.dests _ hd) hf
  have hb2 : ∀ e ∈ ps.zipIdx.map (fun q => (q.1, f q.2 q.1)), e.1.i < 16 ∧ w * e.1.j + w ≤ 512 := by
    intro e he
    obtain ⟨q, hq, rfl⟩ := List.mem_map.1 he
    exact hb q.1 (List.mem_of_getElem? (List.mem_zipIdx_iff_getElem?.1 hq))
  refine ⟨t, he, ?_, hdone⟩
  constructor
  · intro d hdm n q hq
    rw [hrt]
    exact (masked_elem s.core.ctx (a.mask s.core.ctx) a.o0.zer w hw _ (pairwise_els f hps) hb2 a.dests hd d hdm).1
      (q, f n q) (List.mem_map.2 ⟨(q, n), List.mem_zipIdx_iff_getElem?.2 hq, rfl⟩)
  · intro d hdm i j hi hj hno
    rw [hrt]
    refine (masked_elem s.core.ctx (a.mask s.core.ctx) a.o0.zer w hw _ (pairwise_els f hps) hb2 a.dests hd d hdm).2 i j
      hi (elem_in hj) ?_
    intro e he
    obtain ⟨q, hq, rfl⟩ := List.mem_map.1 he
    exact hno q.1 (List.mem_of_getElem? (List.mem_zipIdx_iff_getElem?.1 hq))

/-- The positions of a valid extent lie in a tile. -/
theorem extent_in {dir k nr nc w : Nat} (hv : lineValid dir k nr nc = true) (hr : nr ≤ 16) (hc : w * nc ≤ 512) :
    ∀ q ∈ extent dir k nr nc, q.i < 16 ∧ w * q.j + w ≤ 512 := by
  intro q hq
  obtain ⟨h1, h2⟩ := extent_lt hv hq
  refine ⟨Nat.lt_of_lt_of_le h1 hr, ?_⟩
  have : w * (q.j + 1) ≤ w * nc := Nat.mul_le_mul_left w h2
  rw [Nat.mul_add] at this
  omega

/-- An element-wise operation whose lines are valid runs to its elements. -/
theorem elementwise_of {s : State} {i : Instr} {a : VArgs} {vf : VForm} {l z : Bool} {w : Nat} {srcs : List Src}
    {f : Nat → Pos → Nat × Flags} (hvf : vectorForm i = some (a, vf)) (h0 : vf.r0 = .dst l z) (hr : s.runs i = true)
    (hw : 0 < w) (hl : linesOk s a w srcs = true)
    (hf : slotOut i (s.envFor i) = elementwise (s.envFor i) a w srcs f) : VectorWrites s i a w f := by
  obtain ⟨-, hy, ha, hcrw⟩ := vector_alone hvf
  have hv : lineValid a.o0.dir.toNat a.line.toNat s.core.ctx.nr (s.core.ctx.nc w) = true := by
    simp only [linesOk, Bool.and_eq_true] at hl; exact hl.1
  have hbad : (!lineValid a.o0.dir.toNat a.line.toNat s.core.ctx.nr (s.core.ctx.nc w) ||
      !(srcs.all (fun q => q.fits a.o0.dir.toNat a.line.toNat s.core.ctx.nr (s.core.ctx.nc w)))) = false := by
    simp only [linesOk, Bool.and_eq_true] at hl
    simp only [hl.1, hl.2, Bool.not_true, Bool.or_false]
  have hf2 : slotOut i (s.envFor i) = .ok (fun t => (t.onCtx (fun c => c.wts a.dests
      (maskedWrites (a.mask s.core.ctx) a.o0.zer w ((positions s a w).zipIdx.map (fun q => (q.1, f q.2 q.1)))).1)).raise
        (joinedFlags (a.mask s.core.ctx) (positions s a w) (fun n q => (f n q).2))) := by
    rw [hf, ← foldl_map_join, ← maskedWrites_flags (zer := a.o0.zer) (w := w)]
    exact if_neg (show ¬(!lineValid a.o0.dir.toNat a.line.toNat s.core.ctx.nr (s.core.ctx.nc w) ||
      !(srcs.all (fun q => q.fits a.o0.dir.toNat a.line.toNat s.core.ctx.nr (s.core.ctx.nc w)))) = true by
        rw [hbad]; exact Bool.false_ne_true)
  exact elements_of ha hr hy hcrw (lvl_of_dst hr hvf h0) hw (extent_nodup _ _ _ _) (extent_in hv (nr_le _) (nc_le _ _)) hf2

/-- An element-wise operation whose lines are not valid faults VLINE. -/
theorem elementwise_trap {s : State} {i : Instr} {a : VArgs} {vf : VForm} {w : Nat} {srcs : List Src}
    {f : Nat → Pos → Nat × Flags} (hvf : vectorForm i = some (a, vf)) (hr : s.runs i = true)
    (hl : linesOk s a w srcs = false) (hf : slotOut i (s.envFor i) = elementwise (s.envFor i) a w srcs f) :
    Traps s i { cause := 0x04, pc := s.core.pc, aux := if a.inB then 3 else 2 } := by
  refine vector_trap (t := { cause := 0x04 }) hr hvf (hf.trans (if_pos ?_))
  show (!lineValid a.o0.dir.toNat a.line.toNat s.core.ctx.nr (s.core.ctx.nc w) ||
      !(srcs.all (fun q => q.fits a.o0.dir.toNat a.line.toNat s.core.ctx.nr (s.core.ctx.nc w)))) = true
  rw [← Bool.not_and]
  unfold linesOk at hl
  rw [hl]
  rfl

end Sys2Proof.Machine
end

