-- ==== Sys2Proof/Laws/Memory.lean ====
section
/-! SUPPORT. Every operation on storage keeps its canonical form, and storage at reset has it; a byte read after a byte is
written. -/

namespace Sys2Proof.Machine

theorem Tbl.rising_putD {β : Type} [DecidableEq β] {t : Tbl β} (a : Nat) (d v : β) (ht : t.rising = true) :
    (t.putD a d v).rising = true := by
  unfold Tbl.putD
  split
  · exact Tbl.rising_del a ht
  · exact Tbl.rising_put a v ht

/-- The canonical form, table by table. -/
theorem Mem.wf_iff (m : Mem) : m.wf = true ↔ m.dev.wf = true ∧ m.host.wf = true ∧ m.spm.wf = true ∧ m.peer.wf = true ∧
    m.tags.rising = true ∧ m.codes.rising = true ∧ m.copies.rising = true ∧ m.copyVas.rising = true ∧ m.windows.rising = true ∧
    m.osig.rising = true ∧ m.spmVer.rising = true := by
  simp [Mem.wf, and_assoc]

/-- Storage that agrees in its tables has the same form. -/
theorem Mem.wf_congr {m k : Mem} (h : m.wf = true) (hd : k.dev = m.dev) (hh : k.host = m.host) (hs : k.spm = m.spm)
    (hp : k.peer = m.peer) (ht : k.tags = m.tags) (hc : k.codes = m.codes) (hy : k.copies = m.copies)
    (hx : k.copyVas = m.copyVas) (hw : k.windows = m.windows) (ho : k.osig = m.osig) (hv : k.spmVer = m.spmVer) : k.wf = true := by
  rw [Mem.wf_iff] at h ⊢
  rw [hd, hh, hs, hp, ht, hc, hy, hx, hw, ho, hv]
  exact h

theorem Mem.wf_reset : State.reset.mem.wf = true := by decide +kernel

theorem Mem.wf_set {m : Mem} (h : m.wf = true) (p : Place) (v : Byte) : (m.set p v).wf = true := by
  rw [Mem.wf_iff] at h ⊢
  obtain ⟨hd, hh, hs, hp, ht, hc, hy, hx, hw, ho, hv⟩ := h
  unfold Mem.set
  split
  · exact ⟨Bytes.wf_write hd _ _, hh, hs, hp, ht, hc, hy, hx, hw, ho, hv⟩
  · exact ⟨hd, Bytes.wf_write hh _ _, hs, hp, ht, hc, hy, hx, hw, ho, hv⟩
  · exact ⟨hd, hh, Bytes.wf_write hs _ _, hp, ht, hc, hy, hx, hw, ho, Tbl.rising_put _ _ hv⟩
  · exact ⟨hd, hh, hs, Bytes.wf_write hp _ _, ht, hc, hy, hx, hw, ho, hv⟩

theorem Mem.wf_setN {m : Mem} (h : m.wf = true) (p : Place) (bs : List Byte) : (m.setN p bs).wf = true := by
  induction bs generalizing m p with
  | nil => exact h
  | cons v vs ih => exact ih (Mem.wf_set h p v) _

/-- A table of read copies replaced by one in its form. -/
theorem Mem.wf_copies {m : Mem} (h : m.wf = true) {t : Tbl (BitVec 1024)} (ht : t.rising = true) :
    ({ m with copies := t } : Mem).wf = true := by
  rw [Mem.wf_iff] at h ⊢
  exact ⟨h.1, h.2.1, h.2.2.1, h.2.2.2.1, h.2.2.2.2.1, h.2.2.2.2.2.1, ht, h.2.2.2.2.2.2.2⟩

theorem Mem.rising_copies {m : Mem} (h : m.wf = true) : m.copies.rising = true := ((Mem.wf_iff m).1 h).2.2.2.2.2.2.1

theorem Mem.wf_updateCopy {m : Mem} (h : m.wf = true) (p : Place) (v : Byte) : (m.updateCopy p v).wf = true := by
  unfold Mem.updateCopy
  split
  · split
    · exact Mem.wf_copies h (Tbl.rising_put _ _ (Mem.rising_copies h))
    · exact h
  · split
    · exact Mem.wf_copies h (Tbl.rising_put _ _ (Mem.rising_copies h))
    · exact h
  · exact h

theorem Mem.wf_perform {m : Mem} (h : m.wf = true) (p : Place) (bs : List Byte) : (m.perform p bs).wf = true := by
  induction bs generalizing m p with
  | nil => exact h
  | cons v vs ih => exact ih (Mem.wf_updateCopy (Mem.wf_set h p v) p v) _

theorem Mem.wf_fillCopy {m : Mem} (h : m.wf = true) (p : Place) : (m.fillCopy p).wf = true := by
  unfold Mem.fillCopy
  split
  · split
    · exact h
    · exact Mem.wf_copies h (Tbl.rising_put _ _ (Mem.rising_copies h))
  · split
    · exact h
    · exact Mem.wf_copies h (Tbl.rising_put _ _ (Mem.rising_copies h))
  · exact h

/-- A table of the virtual sectors of read copies replaced by one in its form. -/
theorem Mem.wf_copyVas {m : Mem} (h : m.wf = true) {t : Tbl (List Nat)} (ht : t.rising = true) :
    ({ m with copyVas := t } : Mem).wf = true := by
  rw [Mem.wf_iff] at h ⊢
  exact ⟨h.1, h.2.1, h.2.2.1, h.2.2.2.1, h.2.2.2.2.1, h.2.2.2.2.2.1, h.2.2.2.2.2.2.1, ht, h.2.2.2.2.2.2.2.2⟩

theorem Mem.rising_copyVas {m : Mem} (h : m.wf = true) : m.copyVas.rising = true := ((Mem.wf_iff m).1 h).2.2.2.2.2.2.2.1

/-- The lines of the L2 have no part in the canonical form. -/
theorem Mem.wf_l2 {m : Mem} (h : m.wf = true) (ls : List L2Line) : ({ m with l2 := ls } : Mem).wf = true := h

/-- A fold of operations that keep the canonical form keeps it. -/
theorem Mem.wf_foldl {α : Type} {f : Mem → α → Mem} (hf : ∀ m a, m.wf = true → (f m a).wf = true) :
    ∀ (as : List α) {m : Mem}, m.wf = true → (as.foldl f m).wf = true
  | [], _, h => h
  | a :: as, _, h => Mem.wf_foldl hf as (hf _ a h)

theorem Mem.wf_dropCopies {m : Mem} (h : m.wf = true) (p : Nat → Bool) : (m.dropCopies p).wf = true :=
  Mem.wf_l2 (Mem.wf_copyVas (Mem.wf_copies h (Tbl.rising_drop p (Mem.rising_copies h)))
    (Tbl.rising_drop p (Mem.rising_copyVas h))) _

theorem Mem.wf_fillCopies {m : Mem} (h : m.wf = true) (va : Word) (p : Place) (n : Nat) : (m.fillCopies va p n).wf = true :=
  Mem.wf_foldl (fun m _ hm => by
    have hq := Mem.wf_fillCopy hm
    exact Mem.wf_copyVas (hq _) (Tbl.rising_put _ _ (Mem.rising_copyVas hm))) _ h

theorem Mem.wf_evictLine {m : Mem} (h : m.wf = true) (l : L2Line) : (m.evictLine l).wf = true := by
  unfold Mem.evictLine
  split
  · exact Mem.wf_l2 h _
  · exact Mem.wf_dropCopies h _

theorem Mem.wf_makeRoom {m : Mem} (h : m.wf = true) (key : Nat) : (m.makeRoom key).wf = true := by
  unfold Mem.makeRoom
  dsimp only
  repeat' split
  all_goals first | exact h | exact Mem.wf_evictLine h _

theorem Mem.wf_onLine {m : Mem} (h : m.wf = true) (key : Nat) (cmp : Bool) (f : L2Line → L2Line) :
    (m.onLine key cmp f).wf = true := by
  unfold Mem.onLine
  split
  · exact Mem.wf_l2 h _
  · exact Mem.wf_l2 (Mem.wf_makeRoom h key) _

theorem Mem.wf_onLines {m : Mem} (h : m.wf = true) (p : Place) (n : Nat) (cmp : Bool) (f : List Nat → L2Line → L2Line) :
    (m.onLines p n cmp f).wf = true := Mem.wf_foldl (fun _ _ hm => Mem.wf_onLine hm _ _ _) _ h

theorem Mem.wf_setTag {m : Mem} (h : m.wf = true) (lc slot : Nat) (v : BitVec 64) : (m.setTag lc slot v).wf = true := by
  rw [Mem.wf_iff] at h ⊢
  exact ⟨h.1, h.2.1, h.2.2.1, h.2.2.2.1, Tbl.rising_putD _ _ _ h.2.2.2.2.1, h.2.2.2.2.2⟩

theorem Mem.wf_untag {m : Mem} (h : m.wf = true) (lc slot : Nat) : (m.untag lc slot).wf = true := Mem.wf_setTag h _ _ _

theorem Mem.wf_release {m : Mem} (h : m.wf = true) (p : Place) (sig : BitVec 256) (new : Bool) :
    (m.release p sig new).wf = true := by
  unfold Mem.release
  split
  · exact h
  · dsimp only
    split
    · exact Mem.wf_congr h rfl rfl rfl rfl rfl rfl rfl rfl rfl rfl rfl
    · split
      · split
        · exact Mem.wf_congr h rfl rfl rfl rfl rfl rfl rfl rfl rfl rfl rfl
        · rw [Mem.wf_iff] at h ⊢
          obtain ⟨hd, hh, hs, hp, ht, hc, hy, hx, hw, ho, hv⟩ := h
          exact ⟨hd, hh, hs, hp, ht, hc, hy, hx, hw, Tbl.rising_putD _ _ _ ho, hv⟩
      · exact Mem.wf_congr h rfl rfl rfl rfl rfl rfl rfl rfl rfl rfl rfl

/-- A table of windows replaced by one in its form. -/
theorem Mem.wf_windows {m : Mem} (h : m.wf = true) {t : Tbl Nat} (ht : t.rising = true) :
    ({ m with windows := t } : Mem).wf = true := by
  rw [Mem.wf_iff] at h ⊢
  obtain ⟨hd, hh, hs, hp, hg, hc, hy, hx, hw, ho, hv⟩ := h
  exact ⟨hd, hh, hs, hp, hg, hc, hy, hx, ht, ho, hv⟩

theorem Mem.rising_windows {m : Mem} (h : m.wf = true) : m.windows.rising = true := ((Mem.wf_iff m).1 h).2.2.2.2.2.2.2.2.1

theorem Mem.wf_closeWindows {m : Mem} (h : m.wf = true) (p : Place) (n : Nat) : (m.closeWindows p n).wf = true := by
  unfold Mem.closeWindows
  split
  · exact Mem.wf_windows h (Tbl.rising_drop _ (Mem.rising_windows h))
  · exact h

theorem Mem.wf_joinWindow {m : Mem} (h : m.wf = true) (ch sec : Nat) : (m.joinWindow ch sec).wf = true := by
  unfold Mem.joinWindow
  repeat' split
  all_goals first | exact h | exact Mem.wf_windows h (Tbl.rising_put _ _ (Mem.rising_windows h))

theorem Mem.wf_readRange {m : Mem} (h : m.wf = true) (ch : Nat) (va : Word) (p : Place) (n : Nat) (cmp : Bool) :
    (m.readRange ch va p n cmp).wf = true := by
  unfold Mem.readRange
  split
  · exact h
  · exact Mem.wf_onLines (Mem.wf_foldl (fun _ _ hm => Mem.wf_joinWindow hm _ _) _ h) _ _ _ _
  · exact Mem.wf_fillCopies (Mem.wf_onLines h _ _ _ _) _ _ _

theorem Mem.wf_wroteRange {m : Mem} (h : m.wf = true) (p : Place) (n : Nat) (cmp ev : Bool) :
    (m.wroteRange p n cmp ev).wf = true := by
  unfold Mem.wroteRange
  split
  · exact Mem.wf_onLines (Mem.wf_closeWindows h p n) _ _ _ _
  · exact h

theorem Mem.wf_clearBanks {m : Mem} (h : m.wf = true) (lc b n : Nat) : (m.clearBanks lc b n).wf = true := by
  rw [Mem.wf_iff] at h ⊢
  obtain ⟨hd, hh, hs, hp, ht, hc, hy, hx, hw, ho, hv⟩ := h
  have hs' : (m.clearBanks lc b n).spm.wf = true := by
    unfold Mem.clearBanks
    dsimp only
    exact Bytes.wf_drop hs _
  have ht' : (m.clearBanks lc b n).tags.rising = true := by
    unfold Mem.clearBanks
    dsimp only
    exact Tbl.rising_drop _ ht
  exact ⟨hd, hh, hs', hp, ht', hc, hy, hx, hw, ho, hv⟩

theorem Mem.wf_storeLine {m : Mem} (h : m.wf = true) (line code : Nat) (bs : List Byte) : (m.storeLine line code bs).wf = true := by
  rw [Mem.wf_iff] at h ⊢
  obtain ⟨hd, hh, hs, hp, ht, hc, hy, hx, hw, ho, hv⟩ := h
  exact ⟨Bytes.wf_writeN hd _ _, hh, hs, hp, ht, Tbl.rising_put _ _ hc, hy, hx, hw, ho, hv⟩

theorem Mem.wf_writeCmp {m : Mem} (h : m.wf = true) (a : Nat) (bs : List Byte) : (m.writeCmp a bs).wf = true := by
  unfold Mem.writeCmp
  refine Mem.wf_foldl (fun k l hk => ?_) _ h
  exact Mem.wf_storeLine hk l _ _

/-! ### The same for a whole state's storage -/

theorem State.wf_shedCopies {s : State} (h : s.mem.wf = true) (p : Place) (n : Nat) : (s.shedCopies p n).mem.wf = true := by
  unfold State.shedCopies
  dsimp only
  split
  · exact Mem.wf_dropCopies h _
  · exact h

/-- Recalling window lines changes no storage. -/
theorem State.recall_mem (s : State) (w : Bool) (p : Place) (n : Nat) : (s.recall w p n).mem = s.mem := by
  unfold State.recall
  split <;> rfl

theorem State.wf_recall {s : State} (h : s.mem.wf = true) (w : Bool) (p : Place) (n : Nat) : (s.recall w p n).mem.wf = true := by
  rw [State.recall_mem]
  exact h

theorem Mem.wf_readOnce {m : Mem} (h : m.wf = true) (ch : Nat) (rs : List (Nat × Nat)) : (m.readOnce ch rs).wf = true := by
  unfold Mem.readOnce
  exact Mem.wf_foldl (fun _ _ hm => Mem.wf_onLine hm _ _ _) _ (Mem.wf_foldl (fun _ _ hm => Mem.wf_joinWindow hm _ _) _ h)

theorem State.wf_readView {s : State} (h : s.mem.wf = true) (ch : Nat) (a : Aperture) (o n : Nat) :
    (s.readView ch a o n).mem.wf = true := by
  simp only [State.readView, State.onCore]
  exact Mem.wf_readOnce h ch _

theorem State.wf_noteRead {s : State} (h : s.mem.wf = true) (ch : Nat) (va : Word) (ts : List (Target × Nat)) :
    (s.noteRead ch va ts).mem.wf = true := by
  induction ts generalizing s va with
  | nil => exact h
  | cons t ts ih =>
    obtain ⟨t, n⟩ := t
    cases t with
    | place p cmp => exact ih (s := { s with mem := s.mem.readRange ch va p n cmp }) (Mem.wf_readRange h ch va p n cmp) _
    | view a o => exact ih (State.wf_readView h ch a o n) _

theorem State.recallRead_mem (s : State) (ts : List (Target × Nat)) : (s.recallRead ts).mem = s.mem := by
  unfold State.recallRead
  induction ts generalizing s with
  | nil => rfl
  | cons t ts ih =>
    rw [List.foldl_cons, ih]
    split
    · exact State.recall_mem _ _ _ _
    · generalize viewSources _ _ _ = vs
      induction vs generalizing s with
      | nil => rfl
      | cons v vs iv => rw [List.foldl_cons, iv, State.recall_mem]

theorem State.wf_readDone {s : State} (h : s.mem.wf = true) (ch : Nat) (va : Word) (ts : List (Target × Nat)) :
    (s.readDone ch va ts).mem.wf = true :=
  State.wf_noteRead (by rw [State.recallRead_mem]; exact h) _ _ _

theorem State.wf_performAt {s : State} (h : s.mem.wf = true) (ev : Bool) (p : Place) (bs : List Byte) :
    (s.performAt ev p bs).mem.wf = true := by
  refine State.wf_shedCopies ?_ p bs.length
  rw [State.recall_mem]
  exact Mem.wf_wroteRange (Mem.wf_perform h p bs) p bs.length false ev

theorem State.wf_performCh {s : State} (h : s.mem.wf = true) (ev : Bool) (p : Place) (bs : List Byte) :
    (s.performCh ev p bs).mem.wf = true := by
  unfold State.performCh
  repeat' split
  all_goals first | exact h | exact State.wf_performAt h ev p _

theorem State.wf_performSeg {s : State} (h : s.mem.wf = true) (p : Place) (bs : List Byte) : (s.performSeg p bs).mem.wf = true :=
  State.wf_performCh h false p bs

theorem State.wf_performSegs {s : State} (h : s.mem.wf = true) (gs : List (Place × List Byte)) :
    (s.performSegs gs).mem.wf = true := by
  unfold State.performSegs
  induction gs generalizing s with
  | nil => exact h
  | cons g gs ih => exact ih (State.wf_performSeg h g.1 g.2)

theorem State.wf_deviceWrite {s t : State} {ctx : Nat} {va : Word} {bs : List Byte} (h : s.mem.wf = true)
    (hw : deviceWrite s ctx va bs = .ok t) : t.mem.wf = true := by
  unfold deviceWrite at hw
  cases hd : deviceDest s ctx va bs.length with
  | error q => simp [hd, bind, Except.bind] at hw
  | ok ps =>
    simp only [hd, bind, Except.bind, Except.ok.injEq] at hw
    exact hw ▸ State.wf_performSegs h _

theorem State.wf_clearKernel {s : State} (h : s.mem.wf = true) (k : Kernel) : (s.clearKernel k).mem.wf = true :=
  Mem.wf_foldl (fun _ _ hm => Mem.wf_clearBanks hm _ _ _) _ h

/-! ### A byte after a write -/

/-- A byte of storage after one byte is written: its own at that key, the old one everywhere else. -/
theorem Mem.get_set {m : Mem} (h : m.wf = true) (p q : Place) (v : Byte) :
    (m.set p v).get q = if q.space = p.space ∧ q.key = p.key then v else m.get q := by
  obtain ⟨hd, hh, hs, hp, -⟩ := (Mem.wf_iff m).1 h
  unfold Mem.set Mem.get
  rcases p with ⟨sp, po, pa⟩
  rcases q with ⟨sq, qo, qa⟩
  cases sp <;> cases sq <;> simp [Bytes.read_write, hd, hh, hs, hp]

theorem Mem.get_copies (m : Mem) (t : Tbl (BitVec 1024)) (q : Place) : ({ m with copies := t } : Mem).get q = m.get q := rfl

theorem Mem.get_updateCopy (m : Mem) (p q : Place) (v : Byte) : (m.updateCopy p v).get q = m.get q := by
  unfold Mem.updateCopy
  split <;> first | rfl | (split <;> rfl)

theorem Mem.get_fillCopy (m : Mem) (p q : Place) : (m.fillCopy p).get q = m.get q := by
  unfold Mem.fillCopy
  split <;> first | rfl | (split <;> rfl)

/-- A fold of operations that leave every byte leaves it. -/
theorem Mem.get_foldl {α : Type} {f : Mem → α → Mem} {q : Place} (hf : ∀ m a, (f m a).get q = m.get q) :
    ∀ (as : List α) (m : Mem), (as.foldl f m).get q = m.get q
  | [], _ => rfl
  | a :: as, m => (Mem.get_foldl hf as (f m a)).trans (hf m a)

theorem Mem.get_dropCopies (m : Mem) (p : Nat → Bool) (q : Place) : (m.dropCopies p).get q = m.get q := rfl

theorem Mem.get_fillCopies (m : Mem) (va : Word) (p : Place) (n : Nat) (q : Place) : (m.fillCopies va p n).get q = m.get q := by
  unfold Mem.fillCopies
  refine Mem.get_foldl (fun k sec => ?_) _ m
  exact Mem.get_fillCopy k _ q

theorem Mem.get_evictLine (m : Mem) (l : L2Line) (q : Place) : (m.evictLine l).get q = m.get q := by
  unfold Mem.evictLine
  split <;> rfl

theorem Mem.get_makeRoom (m : Mem) (key : Nat) (q : Place) : (m.makeRoom key).get q = m.get q := by
  unfold Mem.makeRoom
  dsimp only
  repeat' split
  all_goals first | rfl | exact Mem.get_evictLine _ _ q

theorem Mem.get_onLine (m : Mem) (key : Nat) (cmp : Bool) (f : L2Line → L2Line) (q : Place) :
    (m.onLine key cmp f).get q = m.get q := by
  unfold Mem.onLine
  split
  · rfl
  · exact Mem.get_makeRoom m key q

theorem Mem.get_onLines (m : Mem) (p : Place) (n : Nat) (cmp : Bool) (f : List Nat → L2Line → L2Line) (q : Place) :
    (m.onLines p n cmp f).get q = m.get q := Mem.get_foldl (fun m _ => Mem.get_onLine m _ _ _ q) _ m

theorem Mem.get_joinWindow (m : Mem) (ch sec : Nat) (q : Place) : (m.joinWindow ch sec).get q = m.get q := by
  unfold Mem.joinWindow
  repeat' split
  all_goals rfl

/-- Reading a range changes no byte. -/
theorem Mem.get_readRange (m : Mem) (ch : Nat) (va : Word) (p : Place) (n : Nat) (cmp : Bool) (q : Place) :
    (m.readRange ch va p n cmp).get q = m.get q := by
  unfold Mem.readRange
  split
  · rfl
  · exact (Mem.get_onLines _ _ _ _ _ q).trans (Mem.get_foldl (fun m _ => Mem.get_joinWindow m _ _ q) _ m)
  · exact (Mem.get_fillCopies _ _ _ _ q).trans (Mem.get_onLines _ _ _ _ _ q)

theorem Mem.get_readOnce (m : Mem) (ch : Nat) (rs : List (Nat × Nat)) (q : Place) : (m.readOnce ch rs).get q = m.get q := by
  unfold Mem.readOnce
  exact (Mem.get_foldl (fun m _ => Mem.get_onLine m _ _ _ q) _ _).trans (Mem.get_foldl (fun m _ => Mem.get_joinWindow m _ _ q) _ m)

theorem State.get_readView (s : State) (ch : Nat) (a : Aperture) (o n : Nat) (q : Place) :
    (s.readView ch a o n).mem.get q = s.mem.get q := by
  simp only [State.readView, State.onCore]
  exact Mem.get_readOnce s.mem ch _ q

theorem State.get_noteRead (s : State) (ch : Nat) (va : Word) (ts : List (Target × Nat)) (q : Place) :
    (s.noteRead ch va ts).mem.get q = s.mem.get q := by
  induction ts generalizing s va with
  | nil => rfl
  | cons t ts ih =>
    obtain ⟨t, n⟩ := t
    cases t with
    | place p cmp => exact (ih { s with mem := s.mem.readRange ch va p n cmp } _).trans (Mem.get_readRange _ _ _ _ _ _ q)
    | view a o => exact (ih _ _).trans (State.get_readView s ch a o n q)

/-- What a read does beside delivering its bytes changes none. -/
theorem State.get_readDone (s : State) (ch : Nat) (va : Word) (ts : List (Target × Nat)) (q : Place) :
    (s.readDone ch va ts).mem.get q = s.mem.get q := by
  rw [State.readDone, State.get_noteRead, State.recallRead_mem]

theorem Mem.get_closeWindows (m : Mem) (p q : Place) (n : Nat) : (m.closeWindows p n).get q = m.get q := by
  unfold Mem.closeWindows
  split <;> rfl

end Sys2Proof.Machine
end

