-- ==== Sys2Proof/Tests/Slice0.lean ====
section
/-! SUPPORT. Tests on the manual's worked examples, one ill-formed term for each check, and a witness for the hypotheses
of every statement. -/

namespace Sys2Proof.Tests.Slice0

open Sys2Proof Sys2Proof.Machine

set_option Elab.async false

/-! ### Words of the manual's worked lines -/

/-- A main-file tile operand. -/
def tl (n : BitVec 11) : Opnd := ⟨0, 0, false, false, n⟩

/-- A bundle with one slot's value at its place. -/
def slotAt (lo v : Nat) : BitVec 512 := BitVec.ofNat 512 (v * 2 ^ lo)

/-- The lines of R90, R95, and of the chapter on spars: `ldi x9`, `ldih x9`, `brc p3` two bundles back, `spawn x7, x2, x3,
lv=2`, `susp x5`, `exit`, `widr.lv x6, 1`, `(p6) trap 1, x0`. -/
theorem test_decode_scalar :
    decodeWord (slotAt 440 0x17024001FC48) = .ldi { g := 0, rd := 9, imm := 0x1FC48 } ∧
    decodeWord (slotAt 440 0x180274567840) = .ldih { g := 0, rd := 9, imm := 0x34567840 } ∧
    decodeWord (slotAt 440 0x2100C0FFFFFE) = .brc { g := 0, rd := 3, ra := 0, imm := 0xFFFFFE } ∧
    decodeWord (slotAt 440 0x3001C20C0080) = .spawn { g := 0, rd := 7, ra := 2, rb := 3, fn := 2, z := 0 } ∧
    decodeWord (2 ^ 511 ||| slotAt 440 0x310005000000) = .susp { g := 0, rd := 0, ra := 5, rb := 0, fn := 0, z := 0 } ∧
    decodeWord (2 ^ 511 ||| slotAt 440 0x320000000000) = .exit { g := 0, rd := 0, ra := 0, rb := 0, fn := 0, z := 0 } ∧
    decodeWord (slotAt 440 0x350180000001) = .widr { g := 0, rd := 6, ra := 0, imm := 1 } ∧
    decodeWord (slotAt 440 0x276000000001) = .trap { g := 6, rd := 0, ra := 0, imm := 1 } := by
  decide +kernel

/-- `(p1, m2) vfma.fp32 t20.zm, t4, w1.row(3), l0` in vector A; `sfev` of the chapter on special functions in vector B;
`raddc.bf16 t20, t10, t11`, `uaddc.bf16 t21, t20, t22`, `rskmk 1`, `rskck 1`. -/
theorem test_decode_vector :
    decodeWord (slotAt 328 0x1006806081400022800600000000) = .vfma
      { inB := false, et := 0, g1 := 1, g2 := 0xA, ch := 0, wbs := false, lat := false, line := 3,
        o0 := ⟨0, 0, false, true, 20⟩, o1 := tl 4, o2 := ⟨1, 1, false, false, 1⟩, o3 := ⟨2, 0, false, false, 0⟩, o4 := tl 0 } ∧
    decodeWord (slotAt 328 0xB040000001400050002C00000000) = .raddc
      { inB := false, et := 1, g1 := 0, g2 := 0, ch := 0, wbs := false, lat := false, line := 0,
        o0 := tl 20, o1 := tl 10, o2 := tl 11, o3 := tl 0, o4 := tl 0 } ∧
    decodeWord (slotAt 328 0xB4400000015000A0005800000000) = .uaddc
      { inB := false, et := 1, g1 := 0, g2 := 0, ch := 0, wbs := false, lat := false, line := 0,
        o0 := tl 21, o1 := tl 20, o2 := tl 22, o3 := tl 0, o4 := tl 0 } ∧
    decodeWord (slotAt 328 0xC8000000000C1008000000000000) = .rskmk
      { inB := false, et := 0, g1 := 0, g2 := 0, ch := 0, wbs := false, lat := false, line := 0,
        o0 := tl 0, o1 := ⟨3, 0, false, false, 0x201⟩, o2 := tl 0, o3 := tl 0, o4 := tl 0 } ∧
    decodeWord (slotAt 328 0xCC000000000C1008000000000000) = .rskck
      { inB := false, et := 0, g1 := 0, g2 := 0, ch := 0, wbs := false, lat := false, line := 0,
        o0 := tl 0, o1 := ⟨3, 0, false, false, 0x201⟩, o2 := tl 0, o3 := tl 0, o4 := tl 0 } := by
  decide +kernel

/-- `mcfg m=4, n=4, astr=1`, `mwld.bf16 wb0, x2, k=4`, `mma.bf16 z0, t0, wb0, k=4`, `mdrn.bf16 t8, z0`, `mlat.load x1, seg=0,
dc=64, dh=32`, `mlat.absorb.key.bf16 z5, t12, t11, dc=64`, `mlat.expand.key.bf16 z4, t10, t11, seg=0, dc=64`. -/
theorem test_decode_matrix :
    decodeWord (slotAt 136 0x16000000000000000183) = .mcfg { g := 0, zd := 0, oa := tl 0, ob := tl 0, mctl := 0x183 } ∧
    decodeWord (slotAt 136 0x15000000400000000060) = .mwld { g := 0, zd := 0, oa := tl 2, ob := tl 0, mctl := 0x60 } ∧
    decodeWord (slotAt 136 0x01000000000000000003) = .mmaBf16 { g := 0, zd := 0, oa := tl 0, ob := tl 0, mctl := 3 } ∧
    decodeWord (slotAt 136 0x13000001000000000001) = .mdrn { g := 0, zd := 0, oa := tl 8, ob := tl 0, mctl := 1 } ∧
    decodeWord (slotAt 136 0x12000000200000000202) = .mlatLoad { g := 0, zd := 0, oa := tl 1, ob := tl 0, mctl := 0x202 } ∧
    decodeWord (slotAt 136 0x120140018000B0000201) = .mlatAbsorb { g := 0, zd := 5, oa := tl 12, ob := tl 11, mctl := 0x201 } ∧
    decodeWord (slotAt 136 0x120100014000B0000200) = .mlatExpand { g := 0, zd := 4, oa := tl 10, ob := tl 11, mctl := 0x200 } := by
  decide +kernel

/-- `ld.acq.device x5, a2`, `aset a4, x9`, `tld.th.bf16 t0, a1`, `(p1) tld.sp t20, a3`; `st.rel.device x6, a3`, `st x9, a7`,
`tst.th.bf16 t8, a3`. -/
theorem test_decode_memory :
    decodeWord (slotAt 96 0x0202000294) = .ld { inStore := false, g := 0, ar := 2, dat := tl 5, ch := 0, mode := 0x14 } ∧
    decodeWord (slotAt 96 0x4004000480) = .aset { inStore := false, g := 0, ar := 4, dat := tl 9, ch := 0, mode := 0 } ∧
    decodeWord (slotAt 96 0x0401000006) = .tld { inStore := false, g := 0, ar := 1, dat := tl 0, ch := 0, mode := 6 } ∧
    decodeWord (slotAt 96 0x0423000A01) = .tld { inStore := false, g := 1, ar := 3, dat := tl 20, ch := 0, mode := 1 } ∧
    decodeWord (slotAt 56 0x0203000314) = .st { inStore := true, g := 0, ar := 3, dat := tl 6, ch := 0, mode := 0x14 } ∧
    decodeWord (slotAt 56 0x0207000480) = .st { inStore := true, g := 0, ar := 7, dat := tl 9, ch := 0, mode := 0 } ∧
    decodeWord (slotAt 56 0x0403000406) = .tst { inStore := true, g := 0, ar := 3, dat := tl 8, ch := 0, mode := 6 } := by
  decide +kernel

/-- `cpy.cvt.tsr a1, a2, x1, tok=1`, `(p4) cpy a6, a7, x22`, `rcinv x1`, the forms of R309. -/
theorem test_decode_copy :
    decodeWord (slotAt 16 0x0201102036) = .cpy { g := 0, sa := 1, da := 2, xl := 1, tok := 1, xfm := 0x16 } ∧
    decodeWord (slotAt 16 0x02863AC000) = .cpy { g := 4, sa := 6, da := 7, xl := 22, tok := 0, xfm := 0 } ∧
    decodeWord (slotAt 16 0x0800002000) = .rcinv { g := 0, sa := 0, da := 0, xl := 1, tok := 0, xfm := 0 } ∧
    decodeWord (slotAt 16 0x200320C120) = .rsto { g := 0, sa := 3, da := 4, xl := 6, tok := 9, xfm := 0 } ∧
    decodeWord (slotAt 16 0x220228E060) = .rfaa { g := 0, sa := 2, da := 5, xl := 7, tok := 3, xfm := 0 } ∧
    decodeWord (slotAt 16 0x2400290080) = .rfen { g := 0, sa := 0, da := 5, xl := 8, tok := 4, xfm := 0 } ∧
    decodeWord (slotAt 16 0x26011120E0) = .collAr { g := 0, sa := 1, da := 2, xl := 9, tok := 7, xfm := 0 } := by
  decide +kernel

/-- The sync-slot values of R243 and `waita 7`. -/
theorem test_decode_sync :
    decodeWord (slotAt 0 0x0400) = .mark { scope := 0, smask := 0, sarg := 0 } ∧
    decodeWord (slotAt 0 0x0819) = .fence { scope := 0, smask := 3, sarg := 1 } ∧
    decodeWord (slotAt 0 0x0A2C) = .fence { scope := 4, smask := 5, sarg := 4 } ∧
    decodeWord (slotAt 0 0x1110) = .rel { scope := 2, smask := 2, sarg := 0 } ∧
    decodeWord (slotAt 0 0x1235) = .rel { scope := 4, smask := 6, sarg := 5 } ∧
    decodeWord (slotAt 0 0x0D18) = .acq { scope := 2, smask := 3, sarg := 0 } ∧
    decodeWord (slotAt 0 0x0D09) = .acq { scope := 2, smask := 1, sarg := 1 } ∧
    decodeWord (slotAt 0 0x1807) = .waita { scope := 0, smask := 0, sarg := 7 } := by
  decide +kernel

/-- Words of the manual come back from the encoder. -/
theorem test_encode_words :
    encode (decodeWord (slotAt 440 0x17024001FC48)) = slotAt 440 0x17024001FC48 ∧
    encode (decodeWord (slotAt 328 0x1006806081400022800600000000)) = slotAt 328 0x1006806081400022800600000000 ∧
    encode (decodeWord (slotAt 136 0x120140018000B0000201)) = slotAt 136 0x120140018000B0000201 ∧
    encode (decodeWord (slotAt 96 0x0202000294)) = slotAt 96 0x0202000294 ∧
    encode (decodeWord (slotAt 56 0x0403000406)) = slotAt 56 0x0403000406 ∧
    encode (decodeWord (slotAt 16 0x26011120E0)) = slotAt 16 0x26011120E0 ∧
    encode (decodeWord (slotAt 0 0x1235)) = slotAt 0 0x1235 := by
  decide +kernel

/-! ### Ill-formed terms -/

/-- The fields of a vector slot on T1, T2 and T3 that an operation of one, two or three sources leaves as they are. -/
def va (et : BitVec 4) (o1 o2 o3 : Opnd) : VArgs :=
  { inB := false, et := et, g1 := 0, g2 := 0, ch := 0, wbs := false, lat := false, line := 0, o0 := tl 1, o1 := o1, o2 := o2,
    o3 := o3, o4 := tl 0 }

/-- A control operand. -/
def ctlOp (n : BitVec 11) : Opnd := ⟨3, 0, false, false, 0x200 ||| n⟩

def sr (rd ra rb : BitVec 6) (fn : BitVec 12) : SR := { g := 0, rd := rd, ra := ra, rb := rb, fn := fn, z := 0 }
def si (rd ra : BitVec 6) (imm : BitVec 24) : SI := { g := 0, rd := rd, ra := ra, imm := imm }
def sl (rd : BitVec 6) (imm : BitVec 30) : SL := { g := 0, rd := rd, imm := imm }
def ma (zd : BitVec 6) (oa ob : Opnd) (mctl : BitVec 28) : MArgs := { g := 0, zd := zd, oa := oa, ob := ob, mctl := mctl }
def la (st : Bool) (ar : BitVec 5) (dat : Opnd) (mode : BitVec 5) : LArgs :=
  { inStore := st, g := 0, ar := ar, dat := dat, ch := 0, mode := mode }
def ca (sa da : BitVec 5) (xl : BitVec 6) (tok : BitVec 8) (xfm : BitVec 5) : CArgs :=
  { g := 0, sa := sa, da := da, xl := xl, tok := tok, xfm := xfm }
def ya (scope : BitVec 3) (smask : BitVec 4) (sarg : BitVec 3) : YArgs := { scope := scope, smask := smask, sarg := sarg }

/-- Scalar slot: unused fields, reserved conditions, selectors and indices, a read-only register, a constructor that its own
fields contradict (R86, R91, R92, R97, R277, R281). -/
theorem test_illformed_scalar :
    wellFormed (.add (sr 1 2 3 1)) = false ∧ wellFormed (.add { sr 1 2 3 0 with z := 1 }) = false ∧
    wellFormed (.clz (sr 1 2 3 0)) = false ∧ wellFormed (.cmp (sr 1 2 3 0xB)) = false ∧
    wellFormed (.cmpi (si 1 2 0xB00000)) = false ∧ wellFormed (.shli (si 1 2 64)) = false ∧
    wellFormed (.crr (si 1 0 0x003)) = false ∧ wellFormed (.crw (si 0 1 0x000)) = false ∧
    wellFormed (.widr (si 1 0 7)) = false ∧ wellFormed (.spawn (sr 1 2 3 0)) = false ∧
    wellFormed (.movpToX (sr 1 0 0 1)) = false ∧ wellFormed (.br (sl 1 0)) = false ∧
    wellFormed (.exit (sr 1 0 0 0)) = false ∧ wellFormed (.add (sr 1 2 3 0)) = true := by
  decide +kernel

/-- Vector slots: an element type, a guard mask, a reserved special, an unused operand, a register written twice, a form in
the other slot (R33, R40, R110 to R126, R199). -/
theorem test_illformed_vector :
    wellFormed (.vadd (va 0xF (tl 2) (tl 3) (tl 0))) = false ∧
    wellFormed (.vmskNot { va 0 (tl 0) (tl 0) (ctlOp 3) with o0 := tl 0, g2 := 8 }) = false ∧
    wellFormed (.vadd (va 0 ⟨3, 3, false, false, 0⟩ (tl 3) (tl 0))) = false ∧
    wellFormed (.vadd (va 0 (tl 2) (tl 3) (tl 4))) = false ∧
    wellFormed (.dqnt { va 0 (tl 2) (tl 3) (ctlOp 3) with o4 := tl 1 }) = false ∧
    wellFormed (.rskmk { va 0 (ctlOp 1) (tl 0) (tl 0) with o0 := tl 0, inB := true }) = false ∧
    wellFormed (.vrsum { va 0 (tl 2) (tl 0) (tl 0) with o0 := ⟨0, 0, false, true, 1⟩ }) = false ∧
    wellFormed (.vadd (va 0 (tl 2) (tl 3) (tl 0))) = true := by
  decide +kernel

/-- Matrix slot: K past the format, an accumulator operand, MCTL bits without a meaning; load, store, copy and sync slots:
CH, MODE, data operands, XFM, scopes and masks; BUNDLE_ISSUE of a bundle that holds one operation (R40, R103, R153,
R210, R221, R243, R309). -/
theorem test_illformed_other :
    wellFormed (.mzero (ma 63 (tl 0) (tl 0) 1)) = false ∧ wellFormed (.mcfg (ma 1 (tl 0) (tl 0) 0)) = false ∧
    wellFormed (.mwld (ma 0 (tl 2) (tl 0) 0x8000000)) = false ∧
    wellFormed (.ld { la false 2 (tl 5) 0 with ch := 3 }) = false ∧ wellFormed (.ld (la false 2 (tl 64) 0)) = false ∧
    wellFormed (.ld (la true 2 (tl 5) 0)) = false ∧ wellFormed (.aset (la false 2 (tl 5) 1)) = false ∧
    wellFormed (.aget (la false 2 (tl 5) 6)) = false ∧ wellFormed (.rsto (ca 1 2 3 0 1)) = false ∧
    wellFormed (.rfen (ca 1 2 3 0 0)) = false ∧ wellFormed (.fence (ya 5 1 0)) = false ∧
    wellFormed (.fence (ya 1 0 0)) = false ∧ wellFormed (.fence (ya 1 1 3)) = false ∧
    wellFormed (.waitk (ya 0 0 5)) = false ∧ wellFormed (.mark (ya 1 0 0)) = false ∧
    wellFormed (.bundleIssue (encode (.mark (ya 0 0 0)))) = false ∧ wellFormed (.bundleIssue (2 ^ 488)) = false ∧
    wellFormed (.mark (ya 0 0 0)) = true := by
  decide +kernel

/-! ### Witnesses: states and operands that meet the hypotheses of the statements -/

/-- A device whose core 0 has just entered a spar; the other cores are left out. -/
def demo : State := { State.reset.withFetchWord 512 0 with others := [] }

/-- The same with other values in its context. -/
def demoC (f : Ctx → Ctx) : State := demo.onCtx f

/-- The same with an X register set. -/
def demoX (r : BitVec 6) (v : Word) : State := demoC (fun c => c.wx r v)

/-- The same in a privileged spar. -/
def demoSys (s : State) : State := s.onCore (fun k => { k with run := k.run.map (fun r => { r with sys := true }) })

/-- IntegerArithmetic, Division, Immediates, and the first clauses of Comparison, SelectAndPredicateMoves, PredicateLogic. -/
theorem witness_scalar :
    ((([.add, .sub, .mul, .and, .or, .xor, .shl, .shr, .sra, .mulh, .div, .rem, .min, .max, .cmp, .sel] : List (SR → Instr)).all
      (fun f => demo.runs (f (sr 1 2 3 0)))) &&
     (([.mulh, .div, .rem, .min, .max] : List (SR → Instr)).all (fun f => demo.runs (f (sr 1 2 3 1)))) &&
     (([.clz, .popc, .pnot, .movpToX] : List (SR → Instr)).all (fun f => demo.runs (f (sr 1 0 0 0)))) &&
     (([.pand, .por, .pxor] : List (SR → Instr)).all (fun f => demo.runs (f (sr 1 2 3 3)))) &&
     demo.runs (.movpToP (sr 0 2 0 1)) && demo.runs (.cmp (sr 1 2 3 10)) && demo.runs (.cmpi (si 1 2 0xA00000)) &&
     (([.addi, .andi, .ori, .xori] : List (SI → Instr)).all (fun f => demo.runs (f (si 1 2 0xFFFFFF)))) &&
     (([.shli, .shri, .srai] : List (SI → Instr)).all (fun f => demo.runs (f (si 1 2 63)))) &&
     demo.runs (.ldi (sl 1 0x3FFFFFFF)) && demo.runs (.ldih (sl 1 0x3FFFFFFF))) = true ∧
    (-7 : BitVec 64).toInt.tmod (2 : BitVec 64).toInt ≠ 0 ∧ 10 < (sr 1 2 3 11).fn.toNat ∧
    10 < bits (si 1 2 0xB00000).imm.toNat 20 4 ∧ 15 < (sr 1 2 3 16).fn.toNat ∧ 3 < (sr 1 2 3 4).fn.toNat ∧
    63 < (si 1 2 64).imm.toNat := by
  decide +kernel

/-- Branches (RET to a canonical address and to another), ControlReads, ControlWrites and ControlWriteFaults. -/
theorem witness_control :
    demo.runs (.br (sl 0 5)) = true ∧ demo.runs (.brc (si 3 0 5)) = true ∧ demo.runs (.call (sl 1 5)) = true ∧
    demo.runs (.ret (sr 0 2 0 0)) = true ∧ demo.runs (.loop (si 1 0 5)) = true ∧
    ((demo.core.ctx.rx 2).extractLsb' 0 57).signExtend 64 = demo.core.ctx.rx 2 ∧
    (demoX 2 (2 ^ 57)).runs (.ret (sr 0 2 0 0)) = true ∧
    (((demoX 2 (2 ^ 57)).core.ctx.rx 2).extractLsb' 0 57).signExtend 64 ≠ (demoX 2 (2 ^ 57)).core.ctx.rx 2 ∧
    ([0x000, 0x001, 0x002, 0x010, 0x011, 0x012, 0x013, 0x014, 0x020, 0x021, 0x030, 0x031, 0x032, 0x040, 0x041, 0x050, 0x051,
      0x060, 0x061].all (fun n => demo.runs (.crr (si 1 0 n)))) = true ∧
    ([0x010, 0x011, 0x012, 0x013, 0x020].all (fun n => demo.runs (.crw (si 0 1 n)))) = true ∧
    (demoSys demo).runOf.sys = true ∧ ([0x014, 0x050].all (fun n => (demoSys demo).runs (.crw (si 0 1 n)))) = true ∧
    demo.runOf.sys = false ∧ ([0x014, 0x031, 0x032, 0x050, 0x061].all (fun n => demo.runs (.crw (si 0 1 n)))) = true ∧
    (let s := demoSys (demoC (fun c => { c with rskp := 72, nseq := 1 }))
     s.runs (.crw (si 0 1 0x031)) = true ∧ s.runs (.crw (si 0 1 0x032)) = true ∧ s.core.ctx.rskp ≠ s.core.ctx.rskb + 64) := by
  decide +kernel

/-- A vector slot with OPD0 and OPD4 chosen. -/
def va5 (et : BitVec 4) (o0 o1 o2 o3 o4 : Opnd) : VArgs := { va et o1 o2 o3 with o0 := o0, o4 := o4 }

/-- VectorArithmetic and VectorBits: every form runs, on whole operands and on a line. -/
theorem witness_vector_elementwise :
    ((([.vadd, .vsub, .vmul, .vmin, .vmax, .vand, .vor, .vxor] : List (VArgs → Instr)).all (fun f =>
      let a := va 0 (tl 2) (tl 3) (tl 0)
      demo.runs (f a) && sourcesOk demo (f a) a a.fmt.bits 2 a.fmt)) &&
     (([.vfma, .vfms] : List (VArgs → Instr)).all (fun f =>
      let a := va 1 (tl 2) (tl 3) (tl 4)
      demo.runs (f a) && sourcesOk demo (f a) a a.fmt.bits 3 a.fmt)) &&
     (let a := va 1 (tl 2) (tl 0) (tl 0)
      demo.runs (.vabs a) && sourcesOk demo (.vabs a) a a.fmt.bits 1 a.fmt) &&
     (([.vshl, .vshr] : List (VArgs → Instr)).all (fun f =>
      let a := va 8 (tl 2) (tl 3) (tl 0)
      demo.runs (f a) && sourcesOk demo (f a) a a.fmt.bits 2 a.fmt)) &&
     (let a := { va5 0 ⟨0, 1, false, false, 1⟩ ⟨0, 1, false, false, 2⟩ (tl 3) (tl 0) (tl 0) with line := 15 }
      demo.runs (.vadd a) && linesOk demo a 32 [])) = true := by
  decide +kernel

/-- VectorSelectAndMove, and InvalidLines: column 16 of a view of 16 FP32 elements. -/
theorem witness_vector_move :
    (let a := va 0 (tl 2) (tl 3) (ctlOp 5)
     demo.runs (.vsel a) = true ∧ sourcesOk demo (.vsel a) a a.fmt.bits 2 a.fmt = true) ∧
    (let a := va 0 (tl 2) (tl 0) (tl 0)
     demo.runs (.vmov a) = true ∧ sourcesOk demo (.vmov a) a 8 1 .int8 = true ∧ demo.runs (.vbcast a) = true ∧
       sourcesOk demo (.vbcast a) a a.fmt.bits 1 a.fmt = true) ∧
    (([(.vadd, 2, 0), (.vsub, 2, 0), (.vmul, 2, 0), (.vmin, 2, 0), (.vmax, 2, 0), (.vfma, 3, 0), (.vfms, 3, 0), (.vabs, 1, 0),
       (.vand, 2, 0), (.vor, 2, 0), (.vxor, 2, 0), (.vshl, 2, 9), (.vshr, 2, 9)] :
        List ((VArgs → Instr) × Nat × BitVec 4)).all (fun p =>
      let a := { va5 p.2.2 ⟨0, 2, false, false, 1⟩ (tl 2) (if p.2.1 = 1 then tl 0 else tl 3)
        (if p.2.1 = 3 then tl 4 else tl 0) (tl 0) with line := 16 }
      demo.runs (p.1 a) && !sourcesOk demo (p.1 a) a a.fmt.bits p.2.1 a.fmt)) = true ∧
    (let a := { va5 0 ⟨0, 2, false, false, 1⟩ (tl 2) (tl 3) (ctlOp 5) (tl 0) with line := 16 }
     demo.runs (.vsel a) = true ∧ sourcesOk demo (.vsel a) a a.fmt.bits 2 a.fmt = false) ∧
    (let a := { va5 0 (tl 1) ⟨0, 2, false, false, 2⟩ (tl 0) (tl 0) (tl 0) with line := 16 }
     demo.runs (.vbcast a) = true ∧ sourcesOk demo (.vbcast a) a a.fmt.bits 1 a.fmt = false) := by
  decide +kernel

/-- VectorCompare with a mask and a predicate, MaskForms, TransposeAndPermute, PopTakesEntry in both modes, ShapeWrite. -/
theorem witness_vector_control :
    (let a := va5 0 (tl 0) (tl 2) (tl 3) (ctlOp 0xB7) (ctlOp 0x35)
     demo.runs (.vcmp a) = true ∧ 0 < demo.core.ctx.nc a.fmt.bits ∧
       lineValid 0 a.line.toNat demo.core.ctx.nr (demo.core.ctx.nc a.fmt.bits) = true ∧
       ((demo.envFor (.vcmp a)).src a.fmt 2 a.o2).fits 0 0 demo.core.ctx.nr (demo.core.ctx.nc a.fmt.bits) = true ∧
       bits a.o3.ctl 7 1 = 1 ∧ bits a.o4.ctl 5 1 = 1 ∧ BitVec.ofNat 4 (bits a.o4.ctl 0 4) ≠ 0) ∧
    ((demo.runs (.vmskNz (va5 0 (tl 0) (tl 2) (tl 0) (ctlOp 0x08) (tl 0))) &&
      demo.runs (.vmskLd (va5 0 (tl 0) (tl 2) (tl 0) (ctlOp 0x09) (tl 0))) &&
      demo.runs (.vmskSt (va5 0 (tl 1) (tl 0) (tl 0) (ctlOp 0x42) (tl 0))) &&
      demo.runs (.vmskNot (va5 0 (tl 0) (tl 0) (tl 0) (ctlOp 0x4B) (tl 0))) &&
      demo.runs (.vmskAnd (va5 0 (tl 0) (tl 0) (tl 0) (ctlOp 0x4C) (tl 0))) &&
      demo.runs (.vmskOr (va5 0 (tl 0) (tl 0) (tl 0) (ctlOp 0x4D) (tl 0))) &&
      demo.runs (.vmskAndn (va5 0 (tl 0) (tl 0) (tl 0) (ctlOp 0x4E) (tl 0))) &&
      demo.runs (.vmskAll (va5 0 (tl 0) (tl 0) (tl 0) (ctlOp 0x0F) (tl 0)))) &&
     (let z := { va5 0 (tl 0) ⟨0, 1, false, false, 2⟩ (tl 0) (ctlOp 0x09) (tl 0) with line := 16 }
      let n := { va5 0 (tl 0) ⟨0, 1, false, false, 2⟩ (tl 0) (ctlOp 0x08) (tl 0) with line := 16 }
      let d := { va5 0 ⟨0, 1, false, false, 1⟩ (tl 0) (tl 0) (ctlOp 0x42) (tl 0) with line := 16 }
      demo.runs (.vmskLd z) && demo.runs (.vmskSt d) && demo.runs (.vmskNz n) && !lineValid 1 16 demo.core.ctx.nr (demo.core.ctx.nc 8) &&
        !lineValid 1 16 demo.core.ctx.nr (demo.core.ctx.nc 32) && lineValid 0 0 demo.core.ctx.nr (demo.core.ctx.nc 8)) &&
     demo.runs (.vtrn (va 0 (tl 2) (tl 0) (tl 0))) && demo.runs (.vpermRow (va 0 (tl 2) (tl 3) (ctlOp 0))) &&
     demo.runs (.vpermCol (va 0 (tl 2) (tl 3) (ctlOp 1))) &&
     (demoC (fun c => { c with qm := [7] })).runs (.pop (va 0 ⟨3, 0, false, false, 0x400⟩ (tl 0) (tl 0))) &&
     demo.runs (.pop (va 0 ⟨3, 0, false, false, 0x438⟩ (tl 0) (tl 0))) &&
     (([1, 16] : List (BitVec 11)).all (fun r => ([1, 64] : List (BitVec 11)).all (fun b =>
       demo.runs (.vshp (va5 0 (tl 0) (ctlOp r) (ctlOp b) (tl 0) (tl 0))))))) = true := by
  decide +kernel

/-- Conversion, Quantise, Dequantise into FP32 and BF16, Reductions, ScaledExponential, RmsNormalise with SW, EmptyView. -/
theorem witness_vector_convert :
    (let a := va 1 (tl 2) (ctlOp 0) (tl 0)
     demo.runs (.vcvt a) = true ∧ linesOk demo a 32 [(demo.envFor (.vcvt a)).src (setFmt a.o2.ctl) 1 a.o1] = true) ∧
    (demo.runs (.qnt (va5 3 (tl 1) (tl 2) (tl 0) (tl 4) (ctlOp 4))) &&
     demo.runs (.dqnt (va5 0 (tl 1) (tl 2) (tl 3) (ctlOp 0xC) (tl 4))) &&
     demo.runs (.dqnt (va5 1 (tl 1) (tl 2) (tl 3) (ctlOp 0xC) (tl 0))) &&
     (([.vrsum, .vcsum, .vrmax, .vcmax, .vrmin, .vcmin] : List (VArgs → Instr)).all (fun f =>
       demo.runs (f (va 1 (tl 2) (tl 0) (tl 0))))) &&
     demo.runs (.vemax (va 1 (tl 2) (tl 3) (tl 0))) && demo.runs (.vexps (va 1 (tl 2) (tl 3) (tl 0))) &&
     demo.runs (.vresc (va 1 (tl 2) (tl 3) (tl 4))) && demo.runs (.vrms (va5 1 (tl 1) (tl 2) (tl 3) (ctlOp 0x5E) (tl 4)))) = true ∧
    0 < demo.core.ctx.nc (va 1 (tl 2) (tl 0) (tl 0)).fmt.bits ∧
    (let s := demoC (fun c => { c with shape := 0x0200 })
     s.core.ctx.nc 32 = 0 ∧
     ((([.vadd, .vsub, .vmul, .vmin, .vmax, .vand, .vor, .vxor] : List (VArgs → Instr)).all (fun f =>
         s.runs (f (va 0 (tl 2) (tl 3) (tl 0))))) &&
      (([.vfma, .vfms] : List (VArgs → Instr)).all (fun f => s.runs (f (va 0 (tl 2) (tl 3) (tl 4))))) &&
      (([.vabs, .vbcast, .vtrn, .vrsum, .vcsum, .vrmax, .vcmax, .vrmin, .vcmin] : List (VArgs → Instr)).all (fun f =>
         s.runs (f (va 0 (tl 2) (tl 0) (tl 0))))) &&
      s.runs (.vshl (va 8 (tl 2) (tl 3) (tl 0))) && s.runs (.vshr (va 8 (tl 2) (tl 3) (tl 0))) &&
      s.runs (.vsel (va 0 (tl 2) (tl 3) (ctlOp 5))) && s.runs (.vcmp (va5 0 (tl 0) (tl 2) (tl 3) (ctlOp 0xB7) (ctlOp 0x35))) &&
      s.runs (.vmskNz (va5 0 (tl 0) (tl 2) (tl 0) (ctlOp 0x08) (tl 0))) &&
      s.runs (.vpermRow (va 0 (tl 2) (tl 3) (ctlOp 0))) && s.runs (.vpermCol (va 0 (tl 2) (tl 3) (ctlOp 1))) &&
      s.runs (.vemax (va 0 (tl 2) (tl 3) (tl 0))) && s.runs (.vexps (va 0 (tl 2) (tl 3) (tl 0))) &&
      s.runs (.vresc (va 0 (tl 2) (tl 3) (tl 4))) && s.runs (.vrms (va5 0 (tl 1) (tl 2) (tl 3) (ctlOp 0x1E) (tl 0))) &&
      s.runs (.sfev { va 0 (tl 2) (ctlOp 0) (tl 0) with inB := true }) && s.runs (.vcvt (va 1 (tl 2) (ctlOp 0) (tl 0)))) = true) := by
  decide +kernel

/-! ### Traps, spars, special functions and the remainder stack -/

/-- The address of a page of DEV that `demoM` may read and write, virtual and physical. -/
def page : Nat := 0x20000

/-- The demo device with a writable page translated by a leaf's low bits. -/
def demoLeaf (pte : Word) : State :=
  demo.onCore (fun k => { k with tb := { ctx := 0, base := page, size := 65536, pte := pte } :: k.tb })

/-- The demo device with a page of DEV. -/
def demoM : State := demoLeaf (BitVec.ofNat 64 (page + 3))

/-- A check that answers, with what holds of its answer. -/
def answers {α : Type} (x : Chk α) (p : α → Bool) : Bool :=
  match x with
  | .ok a => p a
  | .error _ => false

/-- An open record of lane F, of a stopped spar or of a stopped command. -/
def openRec0 (cmd : Option Nat) : OpenRec :=
  { laneP := false, seq := 0, id := ⟨0, 0⟩, core := 0, cmd := cmd, held := false, emerg := false, cause := 2 }

/-- A queued store of a byte at a place. -/
def queued (sp : Space) : StoreEnt :=
  { segs := [({ space := sp, owner := if sp = .peer then 1 else 0, addr := page }, [7])], va := 0, addr := 0, id := ⟨0, 0⟩, seq := 0 }

/-- A launch of three spars whose records, save areas and segments lie in translated memory. -/
def demoLaunch : Launch :=
  { fetchLaunch with hdr := 0x20000, lw := [2], ext := [3], sparb := 0x21000, sparn := 3, saveb := 0x1000000, rskpb := 0x8000000,
                     generated := [0, 1, 2], armed := false }

/-- The demo device with that launch and one wide translation. -/
def demoD : State :=
  { demo.onCore (fun k => { k with tb := [{ ctx := 0, base := 0, size := 2 ^ 40, pte := 3 }],
                                   run := some { fetchRun with recVa := demoLaunch.recVa 0 } }) with
    sched := { demo.sched with launches := [(0, demoLaunch)] } }

/-- A fault with an instruction in the matrix engine. -/
def demoFault : TrapInfo := { cause := 0x02, pc := 0x10000, ipc := 64 }

/-- A command of the demo spar, as its engine holds it. -/
def cmdOf (i : Instr) : Cmd :=
  { op := i, addr := 0, id := demo.runOf.id, ctx := demo.runOf.ctx, lcore := demo.runOf.lcore, bank0 := 0, banks := 1, wid := 0,
    seq := 0, engine := 0, sa := BitVec.ofNat 64 page, da := 0, xl := 2 ^ 63 + 64, tok := 5 }

/-- With a command at the head of engine 0. -/
def heading (s : State) (c : Cmd) : State := s.onCore (fun k => { k with engines := k.engines.set 0 [c] })

/-- A spar that waits, with its wait word. -/
def waiter (w : Word) : Waiting :=
  { id := ⟨0, 7⟩, cls := 3, core := 0, lc := 0, srun := 0, bound := none, wait := w }

/-- A handler's state: X1 at a record of zeros but its answer `act` and its flags. -/
def handler (act flags : Byte) (cmd : Option Nat) : State :=
  let s := demoSys (demoM.onCtx (fun c => c.wx 1 (BitVec.ofNat 64 page)))
  { s with lanes := { s.lanes with open_ := [openRec0 cmd] }
           mem := { s.mem with dev := (s.mem.dev.write (page + 14) act).write (page + 15) flags } }

/-- Does a handler's state meet the hypotheses of an ERET clause: a notice or not, an open record or none, an answer that the
record takes or not. -/
def eretReady (s : State) (notice found takes : Bool) : Bool :=
  let x := s.core.ctx.rx 1
  s.runs (.eret (sr 0 0 0 0)) && s.runOf.sys && s.core.storeQ.isEmpty && decide ((x.extractLsb' 0 57).signExtend 64 = x) &&
    decide (x.toNat % 64 = 0) && answers (access s false .read ((x.extractLsb' 0 57).setWidth 64) 64) (fun ts =>
      let r := s.loadPieces ts
      let field (off n : Nat) : Nat := ofBytes ((r.drop off).take n)
      let act := field 14 1
      ((field 15 1).testBit 3 == notice) && ((s.openRec (decide (field 10 1 ≠ 0)) (field 0 8)).isSome == found) &&
        (decide (act = 0 ∨ act = 2 ∨ (act = 1 ∧ (field 15 1).testBit 2 = true)) == takes))

/-- SoftwareTrapAndReturn, its first parts: TRAP; ERET in user mode, behind a store, at an address that is not canonical, one
that is not aligned and one without a translation; a notice, a record that is not open, an answer not taken, and each answer.
-/
theorem witness_traps :
    (let h := handler 0 0 none
     let x (v : Word) : State := h.onCtx (fun c => c.wx 1 v)
     demo.runs (.trap (si 0 1 5)) && demo.runs (.eret (sr 0 0 0 0)) && !demo.runOf.sys &&
      (let s := h.onCore (fun k => { k with storeQ := [queued .dev] })
       s.runs (.eret (sr 0 0 0 0)) && s.runOf.sys && !s.core.storeQ.isEmpty) &&
      (x (2 ^ 57)).runs (.eret (sr 0 0 0 0)) && (x (BitVec.ofNat 64 (page + 1))).runs (.eret (sr 0 0 0 0)) &&
      !answers (access (x 0x8000000) false .read 0x8000000 64) (fun _ => true) && eretReady (handler 0 8 none) true true true &&
      eretReady { h with lanes := { h.lanes with open_ := [] } } false false true && eretReady (handler 1 0 none) false true false &&
      eretReady h false true true && eretReady (handler 2 0 none) false true true && eretReady (handler 1 4 (some 0)) false true true) =
      true := by
  decide +kernel

/-- SoftwareTrapAndReturn, its last part: an ended launch, an END, a stopped command at its engine's head, a spar that waits. -/
theorem witness_answers :
    (let l : Launch := { fetchLaunch with ended := true }
     let s := { demo with sched := { demo.sched with launches := [(0, l)] } }
     s.launchOf (openRec0 none).id.launch = some l ∧ (l.ended || l.finished) = true) ∧
    (demo.launchOf (openRec0 none).id.launch = some fetchLaunch ∧ (fetchLaunch.ended || fetchLaunch.finished) = false) ∧
    (let c := { cmdOf (.cpy (ca 1 2 3 5 0)) with stopped := some 7 }
     (heading demo c).headCmd 0 = some c ∧ c.id = (openRec0 (some c.seq)).id ∧ c.stopped.isSome = true) ∧
    (let s := { demo with sched := { demo.sched with waiting := [{ waiter 6 with id := ⟨0, 0⟩ }] } }
     s.sched.waiting.find? (fun w => decide (w.id = (openRec0 none).id)) = some { waiter 6 with id := ⟨0, 0⟩ }) := by
  decide +kernel

/-- SeedsAndIdentifiers, Spawn (level 2 of a launch of one level is bad; a full area and a free index) and SuspendAndExit in
each kind of wait, ready and not. -/
theorem witness_spars :
    (demo.runs (.sdrd (sr 1 2 0 0)) && demo.runs (.sdfk (sr 0 2 0 0)) &&
      ([1, 6, 8, 9, 16, 19, 24, 27].all (fun n => demo.runs (.widr (si 1 0 n)))) &&
      (demo.launchOf demo.runOf.id.launch).isSome && demo.runs (.spawn (sr 1 2 3 2)) && demoM.runs (.spawn (sr 1 2 3 1))) = true ∧
    fetchLaunch.lw.length < 2 ∧
    (let s := { demoM with sched := { demoM.sched with launches :=
        [(0, { fetchLaunch with hdr := BitVec.ofNat 64 page, sparb := BitVec.ofNat 64 (page + 0x1000), sparn := 2 })] } }
     let l := (s.launchOf 0).getD fetchLaunch
     (s.runs (.spawn (sr 1 2 3 1)) && decide ((s.core.ctx.rx 2).toNat < 2 ^ l.lw.getD 0 0) && canonical (s.core.ctx.rx 3) &&
       answers (deviceRead s 0 (l.hdr + 112) 4) (fun nx => decide (ofBytes nx < l.sparn)) &&
       answers (deviceDest s 0 (l.hdr + 112) 4) (fun _ => true) && answers (deviceDest s 0 (l.recVa 0) 64) (fun _ => true) &&
       (let q := { s with mem := { s.mem with dev := s.mem.dev.write (page + 112) 2 } }
        q.runs (.spawn (sr 1 2 3 1)) && answers (deviceRead q 0 (l.hdr + 112) 4) (fun nx => decide (l.sparn ≤ ofBytes nx)))) = true) ∧
    (demo.runs (.susp (sr 0 1 0 0)) && waitWordOk (demo.core.ctx.rx 1) && demo.runs (.exit (sr 0 0 0 0)) &&
      (demoX 1 4).runs (.susp (sr 0 1 0 0)) && !waitWordOk 4 &&
      (let w := BitVec.ofNat 64 (page / 128 * 16 + 1)
       let s := demoM.onCtx (fun c => c.wx 1 w)
       s.runs (.susp (sr 0 1 0 0)) && waitWordOk w && answers (resolve s s.runOf.ctx s.runOf.sys .read (waitSector w) 1)
         (fun ts => match ts with
          | (.place _ _, _) :: _ => true
          | _ => false))) = true := by
  decide +kernel

/-- A table header: domain 0 to 1 in one segment. -/
def sfuHead : Tile := BitVec.ofNat 8192 (0x3F800000 * 2 ^ 32 + 2 ^ 64)

/-- SpecialFunctions: SFLD with a valid header and with zeros, SFEV into a tile, into QS with room and without, in a view
without elements, and a landing that is due. -/
theorem witness_sfu :
    (let a := { va5 0 (tl 0) (tl 2) (tl 3) (ctlOp 1) (tl 0) with inB := true }
     let s := demoC (fun c => c.wt ⟨0, 3⟩ [⟨0, 256, sfuHead.toNat % 2 ^ 256⟩])
     (demo.runs (.sfld a) && s.runs (.sfld a) && !sfuHeaderOk ((0 : Tile) ++ (0 : Tile).extractLsb' 0 256) &&
       sfuHeaderOk ((0 : Tile) ++ (s.core.ctx.rt ⟨0, 3⟩).extractLsb' 0 256)) = true) ∧
    (let a := { va 0 (tl 2) (ctlOp 1) (tl 0) with inB := true }
     demo.runs (.sfev a) = true ∧ (a.o2.ctl / 16) % 2 = 0 ∧ 0 < demo.core.ctx.nc a.fmt.bits ∧
       linesOk demo a a.fmt.bits [(demo.envFor (.sfev a)).src a.fmt 1 a.o1] = true) ∧
    (let a := { va5 0 (tl 0) (tl 2) (ctlOp 17) (tl 0) (tl 0) with inB := true }
     let q := demoC (fun c => { c with qs := [0] })
     let z := demoC (fun c => { c with shape := 0 })
     (demo.runs (.sfev a) && q.runs (.sfev a) && z.runs (.sfev a)) = true ∧ (a.o2.ctl / 16) % 2 = 1 ∧
       0 < demo.core.ctx.nc a.fmt.bits ∧
       ((demo.envFor (.sfev a)).src a.fmt 1 a.o1).fits 0 a.line.toNat demo.core.ctx.nr (demo.core.ctx.nc a.fmt.bits) = true ∧
       demo.core.ctx.qs.length + demo.core.ctx.qsPending + demo.core.ctx.nr ≤ 16 ∧
       16 + ((q.envFor (.sfev a)).named.filter (fun n => decide (n = 2))).length <
         q.core.ctx.qs.length + q.core.ctx.qsPending + q.core.ctx.nr ∧
       z.core.ctx.nc a.fmt.bits = 0) ∧
    (let l : Landing := { at_ := 0, dests := [⟨0, 1⟩], writes := [⟨0, 32, 1⟩], qs := [], flags := Flags.none }
     let s := demoC (fun c => { c with shadow := [l] })
     s.laneRoom = true ∧ s.core.ctx.shadow = [l] ∧ l.at_ ≤ s.core.ctx.tau ∧ (∀ d ∈ l.dests, d.lvl < 3) ∧ l.dests.Nodup) := by
  decide +kernel

/-- The demo device with an entry on its remainder stack: a tag with no payload bits. -/
def demoTag (tag : Nat) (sz : Nat) : State :=
  demoC (fun c => { c with rskp := BitVec.ofNat 64 (64 + 8 * sz), nseq := 1, rskCore := c.rskCore.writeN (64 + 8 * (sz - 1)) (toBytes 8 tag) })

/-- Does the top tag agree with a pop up to one of its checks (the statement's `tagAgrees`). -/
def agreesTo (c : Ctx) (cls tid n : Nat) (param : Option Nat) (shaped : Bool) (upto : Nat) : Bool :=
  let tag := c.topTag
  let sz := bits tag 22 10
  (decide (upto < 1) || decide (bits tag 0 4 = cls ∧ param.getD (bits tag 42 6) = bits tag 42 6)) &&
    (decide (upto < 2) || decide (bits tag 4 13 = tid)) &&
    (decide (upto < 3) || !shaped || decide (bits tag 32 4 = c.nr - 1 ∧ bits tag 36 6 = c.nb - 1)) &&
    (decide (upto < 4) || decide (bits tag 48 16 = (c.nseq + 65535) % 65536 ∧ sz = 1 + (n * bits tag 17 5 + 63) / 64 ∧
      c.rskb.toNat + 64 + 8 * sz ≤ c.rskp.toNat))

/-- Where a pop's checks stop: 0 for a stack that holds nothing, 1 to 4 for the first that fails, 5 for an entry that is not
wholly on core, 6 where all agrees. -/
def popStop (c : Ctx) (cls tid n : Nat) (param : Option Nat) (shaped : Bool) : Nat :=
  if c.rskp = c.rskb + 64 then 0
  else if c.rskp.toNat < c.rsks.toNat + 8 then 5
  else match [1, 2, 3, 4].find? (fun d => !agreesTo c cls tid n param shaped d) with
    | some d => d
    | none => if c.rskp.toNat - 8 * bits c.topTag 22 10 < c.rsks.toNat then 5 else 6

/-- ReversibleForward: every form runs, with room for its entry and without. -/
theorem witness_forward :
    (let ops : List (Instr × Nat) :=
      [(.rnrw (va 1 (tl 2) (tl 0) (tl 0)), 1), (.rmulq (va 10 (tl 2) (tl 3) (ctlOp 16)), 1), (.raddc (va 1 (tl 2) (tl 3) (tl 0)), 1),
       (.raddc (va 8 (tl 2) (tl 3) (tl 0)), 1), (.rlrlu (va 10 (tl 2) (ctlOp 15) (tl 0)), 1), (.rscl (va 10 (tl 2) (ctlOp 17) (tl 0)), 1),
       (.rskmk (va5 0 (tl 0) (ctlOp 511) (tl 0) (tl 0) (tl 0)), 1)]
     (ops.all (fun p => demo.runs p.1) && ops.all (fun p => (demoC (fun c => { c with rskl := c.rskp })).runs p.1)) = true) ∧
    demo.core.ctx.rskp.toNat + 8 * (1 + (256 * 32 + 63) / 64) ≤ demo.core.ctx.rskl.toNat ∧
    (demo.core.ctx.rskp + 8 * 129 - demo.core.ctx.rsks).toNat ≤ 2 ^ 20 ∧
    (let s := demoC (fun c => { c with rskp := 2 ^ 20, rskl := 2 ^ 30 })
     (s.runs (.raddc (va 8 (tl 2) (tl 3) (tl 0))) && s.runs (.rnrw (va 1 (tl 2) (tl 0) (tl 0)))) = true ∧
       s.core.ctx.rskp.toNat + 8 * 129 ≤ s.core.ctx.rskl.toNat ∧ 2 ^ 20 < (s.core.ctx.rskp + 8 - s.core.ctx.rsks).toNat) := by
  decide +kernel

/-- ReversibleUndo: each pop on an empty stack, on an entry that another check refuses, on one that is not on core, and on its
own; a value that no forward form left. -/
theorem witness_undo :
    (let one (s : State) : State := s.onCtx (fun c => { c with shape := 0x0300 })
     let pops : List (Instr × Nat × Nat × Nat × Nat × Option Nat) :=
      [(.unrw (va 1 (tl 2) (tl 0) (tl 0)), 1, 17, 1, 0, some 0), (.umulq (va 10 (tl 2) (tl 3) (tl 0)), 2, 16, 2, 3, none),
       (.uaddc (va 1 (tl 2) (tl 3) (tl 0)), 3, 16, 2, 1, some 1), (.ulrlu (va 10 (tl 2) (tl 0) (tl 0)), 4, 3, 2, 3, none),
       (.uscl (va 10 (tl 2) (tl 0) (tl 0)), 5, 3, 2, 3, none)]
     pops.all (fun p => demo.runs p.1 && decide (popStop demo.core.ctx p.2.1 2 p.2.2.2.1 p.2.2.2.2.2 true = 0) &&
       ([(rskTag p.2.1 2 p.2.2.1 2 0 3 p.2.2.2.2.1 0, 6), (rskTag 9 2 p.2.2.1 2 0 3 p.2.2.2.2.1 0, 1),
         (rskTag p.2.1 3 p.2.2.1 2 0 3 p.2.2.2.2.1 0, 2), (rskTag p.2.1 2 p.2.2.1 2 1 3 p.2.2.2.2.1 0, 3),
         (rskTag p.2.1 2 p.2.2.1 2 0 3 p.2.2.2.2.1 7, 4)].all (fun g =>
          let s := one (demoTag g.1 2)
          s.runs p.1 && decide (popStop s.core.ctx p.2.1 2 p.2.2.2.1 p.2.2.2.2.2 true = g.2))) &&
       ([72, 80].all (fun b =>
          let s := (one (demoTag (rskTag p.2.1 2 p.2.2.1 2 0 3 p.2.2.2.2.1 0) 2)).onCtx (fun c => { c with rsks := b })
          s.runs p.1 && decide (popStop s.core.ctx p.2.1 2 p.2.2.2.1 p.2.2.2.2.2 true = 5)))) &&
     (let k : Instr := .rskck (va5 0 (tl 0) (ctlOp 5) (tl 0) (tl 0) (tl 0))
      demo.runs k && ([(rskTag 6 5 0 1 0 0 0 0, 6), (rskTag 1 5 0 1 0 0 0 0, 1), (rskTag 6 4 0 1 0 0 0 0, 2),
        (rskTag 6 5 0 1 0 0 0 3, 4)].all (fun g =>
          let s := demoTag g.1 1
          s.runs k && decide (popStop s.core.ctx 6 5 0 (some 0) false = g.2)))) &&
     (let s := (one (demoTag (rskTag 1 2 17 2 0 3 0 0) 2)).onCtx (fun c => { c with rskCore := c.rskCore.writeN 64 (toBytes 8 65536) })
      s.runs (.unrw (va 1 (tl 2) (tl 0) (tl 0))) && decide (popStop s.core.ctx 1 2 1 (some 0) true = 6) &&
        decide (unpackCodes 17 1 (ofBytes (s.core.ctx.rskBytes 64 8)) = [65536]))) = true ∧
    unrwEl 65536 0 = none := by
  decide +kernel

/-- Does a move of a chunk end, and does it end well. -/
def chunkMoves (x : Chk State) (ok : Bool) : Bool :=
  match x with
  | .ok _ => ok
  | .error _ => !ok

/-- StackTraffic: a stack in its form. -/
theorem witness_stack_ok : stackOk demo.core.ctx := by
  unfold stackOk
  decide +kernel

/-- StackTraffic: RSKSP, RSKFL, a stack that is above 7/8 of the on-core part, and one below 1/8 that a pop left with a chunk
to fill; a chunk that can be moved and one that cannot. -/
theorem witness_stack :
    (demo.runs (.rsksp (va5 0 (tl 0) (ctlOp 0) (tl 0) (tl 0) (tl 0))) && demo.runs (.rsksp (va5 0 (tl 0) (ctlOp 14) (tl 0) (tl 0) (tl 0))) &&
      demo.runs (.rskfl (va5 0 (tl 0) (ctlOp 14) (tl 0) (tl 0) (tl 0)))) = true ∧
    (let q := demoD.onCtx (fun c => { c with rskp := 917512 })
     let s := q.onCore (fun k => { k with tb := [] })
     s.core.run.isSome = true ∧ 917504 < (s.core.ctx.rskp - s.core.ctx.rsks).toNat ∧ s.core.ctx.engTraps = [] ∧
       chunkMoves q.spillChunk true = true ∧ chunkMoves s.spillChunk false = true) ∧
    (let q := demoD.onCtx (fun c => { c with rskp := 65544, rsks := 65536, rskFill := true })
     let s := q.onCore (fun k => { k with tb := [] })
     s.core.run.isSome = true ∧ s.core.ctx.rskFill = true ∧ (s.core.ctx.rskp - s.core.ctx.rsks).toNat < 131072 ∧
       s.core.ctx.rskb.toNat < s.core.ctx.rsks.toNat ∧ s.core.ctx.engTraps = [] ∧
       chunkMoves q.fillChunk true = true ∧ chunkMoves s.fillChunk false = true) := by
  decide +kernel

/-! ### The matrix slot -/

/-- No check fails. -/
def noneFails (l : List (Bool × Nat)) : Bool := (l.find? (·.1)).isNone

/-- The first check that fails has this cause. -/
def firstIs (l : List (Bool × Nat)) (n : Nat) : Bool := decide ((l.find? (·.1)).map (·.2) = some n)

/-- The demo device with a whole panel of a format in wb0. -/
def armed (f : Fmt) : State := demoC (fun c => { c with wb0 := { c.wb0 with tag := some f, kl := 1024 } })

/-- With QM full of reservations and POST set. -/
def fullQm (s : State) : State := s.onCtx (fun c => { c with qmRes := 16, mcfgr := c.mcfgr ||| BitVec.ofNat 64 (2 ^ 20) })

/-- With a footprint of one element in accumulator 0, where M is 128 and N is 96. -/
def tall (s : State) : State := s.onCtx (fun c => { c with zt := [(0, { fm := 1, fn := 1 })] })

/-- MatrixCommands: every form runs with no check failing, and with each check failing first. -/
theorem witness_matrix :
    ([(Instr.mmaBf16, Fmt.bf16, false), (Instr.mmaFp16, .fp16, false), (Instr.mmaE4m3, .e4m3, true),
      (Instr.mmaE5m2, .e5m2, true), (Instr.mmaE2m3, .e2m3, true), (Instr.mmaE3m2, .e3m2, true),
      (Instr.mmaE2m1, .e2m1, true), (Instr.mmaQ4x, .q4x, true)].all (fun p =>
        let a := ma 0 (tl 2) (tl 0) 31
        let g := ma 0 (tl 2) (tl 0) 0x10001F
        (armed p.2.1).runs (p.1 a) && noneFails (mmaChecks (armed p.2.1) a p.2.1 p.2.2) && demo.runs (p.1 a) &&
          firstIs (mmaChecks demo a p.2.1 p.2.2) 7 && (tall (armed p.2.1)).runs (p.1 g) &&
          firstIs (mmaChecks (tall (armed p.2.1)) g p.2.1 p.2.2) 9 && (fullQm (armed p.2.1)).runs (p.1 a) &&
          firstIs (mmaChecks (fullQm (armed p.2.1)) a p.2.1 p.2.2) 0x1B)) = true ∧
    (let a := ma 0 (tl 2) (tl 0) 0x41F
     (armed .e4m3).runs (.mmaE4m3 a) = true ∧ firstIs (mmaChecks (armed .e4m3) a .e4m3 true) 5 = true) ∧
    (let a := ma 0 (tl 2) (tl 0) 31
     (armed .bf16).runs (.mmag a) = true ∧ noneFails (mmagChecks (armed .bf16) a) = true) ∧
    (let s := demo
     (s.runs (.sacc (ma 0 (tl 2) (tl 3) 0x180)) && s.runs (.mdrn (ma 0 (tl 2) (tl 0) 1)) &&
       (tall demo).runs (.mdrn (ma 0 (tl 2) (tl 0) 1)) && (tall demo).runs (.sacc (ma 0 (tl 2) (tl 3) 0x180)) &&
       !smallFootprint s.core.ctx 0 && !noQmEntry s && smallFootprint (tall demo).core.ctx 0 && demo.runs (.mzero (ma 0 (tl 0) (tl 0) 63)) &&
       demo.runs (.mchk (ma 0 (tl 0) (tl 0) 1)) && demo.runs (.mrecomp (ma 0 (tl 0) (tl 0) 0)) &&
       (fullQm demo).runs (.mzero (ma 0 (tl 0) (tl 0) 0)) && noQmEntry (fullQm demo)) = true) := by
  decide +kernel

/-- MatrixLoads: MCFG; MWLD from an address and from tiles, each check, and the load that it sends; `mlat.load`; the
computing MLATs without a projection, with an index past the banks, and with none failing. -/
theorem witness_matrix_loads :
    (demo.runs (.mcfg (ma 0 (tl 0) (tl 0) 0x183)) && demo.runs (.mwld (ma 0 (tl 2) (tl 0) 0x60)) && demo.runs (.mwld (ma 0 (tl 2) (tl 0) 0x62)) &&
      demo.runs (.mlatLoad (ma 0 (tl 1) (tl 0) 0x202)) && !noQmEntry demo && !demo.runOf.ss &&
      (demoX 2 3).runs (.mwld (ma 0 (tl 2) (tl 0) 0x60)) && (demoX 2 (2 ^ 57)).runs (.mwld (ma 0 (tl 2) (tl 0) 0x60)) &&
      (demoX 1 3).runs (.mlatLoad (ma 0 (tl 1) (tl 0) 0x202)) && (demoX 1 (2 ^ 57)).runs (.mlatLoad (ma 0 (tl 1) (tl 0) 0x202)) &&
      (let s := demo.onCore (fun k => { k with run := k.run.map (fun r => { r with ss := true }) })
       s.runOf.ss && s.runs (.mwld (ma 0 (tl 2) (tl 0) 0x60)) && s.runs (.mlatLoad (ma 0 (tl 1) (tl 0) 0x202))) &&
      (let s := fullQm demo
       postOf s.core.ctx.mcfgr && noQmEntry s && s.runs (.mwld (ma 0 (tl 2) (tl 0) 0x60)) &&
         s.runs (.mlatLoad (ma 0 (tl 1) (tl 0) 0x202)))) = true ∧
    (demo.core.ctx.ws false).active = none ∧ (demo.core.ctx.ws false).queued = none ∧ demo.core.ctx.holdsLoad false = false ∧
    (let a := ma 5 (tl 12) (tl 11) 0x201
     let s := demoC (fun c => { c with segs := c.segs.set 0 { tag := .base 64 32 0 none } })
     let p := demoC (fun c => (c.wt ⟨0, 11⟩ [⟨0, 8192, 2 ^ 8192 - 1⟩]))
     let q := s.onCtx (fun c => (c.wt ⟨0, 11⟩ [⟨0, 8192, 2 ^ 8192 - 1⟩]))
     (demo.runs (.mlatExpand a) && firstIs (latChecks demo a true) 0x0B && s.runs (.mlatExpand a) &&
       firstIs (latChecks s a true) 0x0C && demo.runs (.mlatAbsorb a) && firstIs (latChecks demo a false) 0x0C &&
       q.runs (.mlatExpand a) && noneFails (latChecks q a true) && p.runs (.mlatAbsorb a) && noneFails (latChecks p a false)) = true) := by
  decide +kernel

/-- MatrixEngineEvents: a waiting job, a job of products before and after its k-steps, MZERO's job, a load from tiles and
one from DEV, and a follow-on whose copy has ended. -/
theorem witness_matrix_events :
    (let a := ma 0 (tl 2) (tl 0) 31
     let j : MJob := { op := .mmaBf16 a, addr := 0, cfg := demo.core.ctx.mcfgr }
     let z : MJob := { op := .mzero (ma 0 (tl 0) (tl 0) 1), addr := 0, cfg := demo.core.ctx.mcfgr }
     let p : Prod := { a := a, k := a.k, fa := .bf16, micro := Fmt.bf16.micro, acc := decide (a.f 20 1 = 1), tf := Fmt.bf16.tf }
     let w := demoC (fun c => { c with waiting := some j })
     let s := demoC (fun c => { c with running := some j })
     let e := demoC (fun c => { c with running := some { j with kstep := 1 } })
     w.core.matrixOn = true ∧ s.core.matrixOn = true ∧ s.laneRoom = true ∧
       (demo.onCore (fun k => { k with phase := .stopping demoFault })).core.phase = .stopping demoFault ∧
       w.core.ctx.running = none ∧ w.core.ctx.waiting = some j ∧ s.core.ctx.running = some j ∧ s.core.ctx.waiting = none ∧
       mmaFmt j.op = some (a, .bf16) ∧ j.stopped = false ∧ s.plat.dbg ≠ 2 ∧ j.kstep < (a.k + 31) / 32 ∧
       s.core.ctx.panelReady j p j.kstep = true ∧ e.core.ctx.running = some { j with kstep := 1 } ∧
       e.core.ctx.waiting = none ∧ (a.k + 31) / 32 ≤ 1 ∧ z.stopped = false ∧
       (demoC (fun c => { c with running := some z })).core.ctx.waiting = none) ∧
    (let l : WLoad := { fmt := .bf16, k := 4, fromTiles := true, src := page, addr := 0, seq := 0, push := false }
     let s (l : WLoad) := demoM.onCtx (fun c => { c with ws0 := { active := some l } })
     ((s l).core.ctx.ws false).active = some l ∧ l.stopped = false ∧ (s l).core.ctx.streamFree false l = true ∧
       (s { l with fromTiles := false }).core.ctx.streamFree false { l with fromTiles := false } = true ∧
       answers (ioRead (s { l with fromTiles := false }) demoM.runOf.ctx none (BitVec.ofNat 64 (l.src + 128 * l.landed)) 128)
         (fun _ => true) = true ∧
       answers (ioRead demo demo.runOf.ctx none 0x8000000 128) (fun _ => true) = false) ∧
    (let a := ma 0 (tl 2) (tl 0) 31
     let f : Follow := { job := { op := .mmaBf16 a, addr := 0, cfg := 0 }, copySeq := 0 }
     let s := demoC (fun c => { c with follow := [f] })
     s.core.ctx.follow = [f] ∧ s.core.ctx.running = none ∧ s.core.ctx.waiting = none ∧
       s.core.engines.toList.flatten.all (fun q => decide (q.id ≠ s.runOf.id ∨ q.seq ≠ f.copySeq)) = true ∧
       mmaFmt f.job.op = some (a, .bf16)) := by
  decide +kernel

/-! ### The load, store and copy slots -/

/-- With A2 at an address. -/
def at2 (s : State) (v : Word) : State := s.onCtx (fun c => c.wa 2 { c.ra 2 with base := v })

/-- With a scratchpad bank of its kernel. -/
def banked (s : State) : State := s.onCore (fun k => { k with run := k.run.map (fun r => { r with bank0 := 0, banks := 1 }) })

/-- The page of DEV, with A2 at its start. -/
def demoP : State := at2 demoM (BitVec.ofNat 64 page)

/-- A page of HOST and one of a peer's memory, with A2 at the start of each. -/
def demoHost : State := at2 (demoLeaf (BitVec.ofNat 64 (page + 0xB))) (BitVec.ofNat 64 page)
def demoPeer : State := at2 (demoLeaf (BitVec.ofNat 64 (2 ^ 48 + page + 0x13))) (BitVec.ofNat 64 page)

/-- Does an access lead to one place. -/
def onePlace (x : Chk (List (Target × Nat))) (sp : Space) (n : Nat) : Bool :=
  answers x (fun ts => match ts with
    | [(.place p _, m)] => decide (p.space = sp ∧ m = n) && !inPort p
    | _ => false)

/-- ScalarLoadsAndStores and Atomics: plain and strong forms in DEV and in the scratchpad; atomics in HOST and in a peer's
memory. -/
theorem witness_memory :
    ([(Instr.ld, Access.read), (.st, .write), (.aadd, .write), (.acas, .write), (.axch, .write), (.amax, .write), (.amin, .write)].all
      (fun p => ([0, 1, 16] : List (BitVec 5)).all (fun mode =>
        let a := { la false 2 (tl 5) mode with inStore := decide (p.2 = .write) }
        let s := if a.sp then banked demo else demoP
        s.runs (p.1 a) && s.eaOk a 8 && onePlace (access s a.sp p.2 (s.ea a) 8) (if a.sp then .spm else .dev) 8 &&
          requestsFree s 1 && atomicReady s (if a.sp then .spm else .dev) a.strong a.scope && s.mem.wf &&
          !hwBad s.mem { space := if a.sp then .spm else .dev, owner := 0, addr := page } 8))) = true ∧
    (let s := { demoP with mem := { demoP.mem with badAtoms := [page / 64] } }
     (s.runs (.aadd (la false 2 (tl 5) 0)) && s.eaOk (la false 2 (tl 5) 0) 8 && hwBad s.mem ⟨.dev, 0, page⟩ 8) = true) ∧
    ([Instr.aadd, .acas, .axch, .amax, .amin].all (fun f =>
      let a := la false 2 (tl 5) 0
      demoHost.runs (f a) && demoHost.eaOk a 8 && onePlace (access demoHost a.sp .write (demoHost.ea a) 8) .host 8 &&
        demoPeer.runs (f a) && demoPeer.eaOk a 8 && onePlace (access demoPeer a.sp .write (demoPeer.ea a) 8) .peer 8)) = true := by
  decide +kernel

/-- TileTransfers: TLD and TST of plain and thatched images, an image that cannot be corrected, GLD of every row and of none,
TSTS of one tile's images and of a wide stash, and one that is not well formed. -/
theorem witness_tiles :
    ([0, 2].all (fun mode =>
      let a := la false 2 (tl 5) mode
      let b := { a with inStore := true }
      let n := (demoP.envFor (.tld a)).tileBytes a
      demoP.runs (.tld a) && demoP.runs (.tst b) && demoP.eaOk a 128 && requestsFree demoP (sectorsOf (demoP.ea a) n) &&
        decide (demoP.core.ctx.nb % ((tileFmt a).bits / 8) = 0) &&
        answers (access demoP a.sp .read (demoP.ea a) n) (fun ts =>
          let f := tileFmt a
          let c := demoP.core.ctx
          decide ((demoP.loadPieces ts).length = n) &&
            (decide (mode = 0) || ((thParse f.bits c.nr (c.nc f.bits) (demoP.loadPieces ts)).verified f 0 (fun _ => noScale)
              (c.nc f.bits)).isSome)) &&
        answers (access demoP a.sp .write (demoP.ea a) n) (fun _ => true))) = true ∧
    (let a := la false 2 (tl 5) 2
     let s := { demoP with mem := demoP.mem.setN ⟨.dev, 0, page⟩ (List.replicate 16 3) }
     (s.runs (.tld a) && answers (access s a.sp .read (s.ea a) ((s.envFor (.tld a)).tileBytes a)) (fun ts =>
        ((thParse (tileFmt a).bits 16 16 (s.loadPieces ts)).verified (tileFmt a) 0 (fun _ => noScale) 16).isNone)) = true) ∧
    (let a := la false 2 (tl 5) 0
     let skip := demoP.onCtx (fun c => c.wt ⟨0, 5⟩ ((List.range 16).map (fun i => ⟨512 * i, 32, 2 ^ 31⟩)))
     ([demoP, skip].all (fun s => s.runs (.gld a) && requestsFree s s.core.ctx.nr &&
       (let rows := gldRows s (.gld a) a
        decide (rows.length = s.core.ctx.nr) && rows.all (fun q => q.2.isEmpty || decide ((s.loadPieces q.2).length = s.core.ctx.nb)))) &&
      (let bare := at2 demo 0x8000000
       bare.runs (.gld a) &&
         (lowestFault a.sp ((List.range bare.core.ctx.nr).map (gldRow (bare.envFor (.gld a)) a))).isSome)) = true) ∧
    ([0, 2, 10].all (fun mode =>
      let a := la true 2 (tl 5) mode
      demoP.runs (.tsts a) && demoP.eaOk a 2048 && !stashBad demoP.core.ctx a &&
        (stashImages demoP.core.ctx a).1.all (fun r => answers (access demoP a.sp .write (demoP.ea a + BitVec.ofNat 64 r.1) r.2.length)
          (fun _ => true)))) = true ∧
    (let a := la true 2 (tl 5) 24
     demoP.runs (.tsts a) = true ∧ stashBad demoP.core.ctx a = true) ∧
    (let a := la true 2 (tl 5) 0
     let s := demoP.onCtx (fun c => { c with shape := 0x0F })
     s.runs (.tsts a) = true ∧ s.eaOk a 2048 = true ∧ stashBad s.core.ctx a = false ∧ a.md 3 1 = 0 ∧ s.core.ctx.nc (stashFmt a).bits = 0) := by
  decide +kernel

/-- A device with a bank, whose slot 3 holds the block of `page`. -/
def demoTags : State :=
  let s := at2 (banked demo) (BitVec.ofNat 64 page)
  { s with mem := s.mem.setTag s.runOf.lcore 3 (BitVec.ofNat 64 (page + 1)) }

/-- Tags: hits and misses, a slot of the kernel, one that is not, and a block that another slot holds. -/
theorem witness_tags :
    (let a := la false 2 (tl 5) 0
     let b := la true 2 (tl 5) 0
     let g := la true 0 (tl 5) 0
     let h := la true 2 (tl 0) 1
     let x (v : Word) : State := demoTags.onCtx (fun c => c.wx 5 v)
     let far := at2 demoTags 0x80000
     (demoTags.runs (.tagl a) && demoTags.runs (.tagiA h) && canonical (demoTags.core.ctx.ra 2).sum && demoTags.eaOk b 512 &&
       demoTags.mem.tags.rising && decide (demoTags.tagFind (demoTags.ea a) = some 3) && decide (far.tagFind (far.ea a) = none) &&
       far.runs (.tagl a) && far.runs (.tagiA h) && (x 3).runs (.tags b) && (x 3).slotIn 3 && (x 3).runs (.tagi g) &&
       (x 4).runs (.tags b) && (x 4).slotIn 4 && tagHolds ((x 4).mem.tag (x 4).runOf.lcore 3) ((x 4).ea b) &&
       (x 512).runs (.tags b) && (x 512).runs (.tagi g) && !(x 512).slotIn 512) = true) := by
  decide +kernel

/-- AddressUnit and AddressFaults: every operation in every mode of its register; an address that is not canonical, one that
is not aligned, and one without a translation. -/
theorem witness_addresses :
    ([Instr.aset, .amod, .abrev, .astp, .alen].all (fun f => demoP.runs (f (la false 2 (tl 5) 0)))) = true ∧
    demoP.runs (.aclr (la false 2 (tl 0) 0)) = true ∧
    ([0, 1, 2, 3, 4, 5, 6, 7].all (fun m =>
      let s := demoP.onCtx (fun c => c.wa 2 { c.ra 2 with mode := m, len := 24 })
      s.runs (.ainc (la false 2 (tl 5) 0)) && decide ((s.core.ctx.ra 2).mode = m ∧ (s.core.ctx.ra 2).len ≠ 0))) = true ∧
    ([0, 1, 2, 3, 4, 5].all (fun m => demoP.runs (.aget (la false 2 (tl 5) m)))) = true ∧
    ([(Instr.ld, 8, Access.read), (Instr.st, 8, .write), (Instr.aadd, 8, .write), (Instr.acas, 8, .write),
      (Instr.axch, 8, .write), (Instr.amax, 8, .write), (Instr.amin, 8, .write), (Instr.tags, 512, .read),
      (Instr.tsts, 2048, .write)].all (fun p =>
        let a := { la false 2 (tl 5) 0 with inStore := decide (p.2.2 = .write ∨ p.2.1 = 512) }
        let far := at2 demo (2 ^ 57)
        let odd := at2 demo 0x1234567
        let bare := at2 demo 0x8000000
        far.runs (p.1 a) && !canonical (far.core.ctx.ra 2).sum && odd.runs (p.1 a) && canonical (odd.core.ctx.ra 2).sum &&
          decide ((odd.ea a).toNat % p.2.1 ≠ 0) && bare.runs (p.1 a) && bare.eaOk a p.2.1 &&
          !answers (access bare a.sp p.2.2 (bare.ea a) 8) (fun _ => true))) = true := by
  decide +kernel

/-- StorePerformed: a store in each space that its order admits, and the statuses of failed stores. -/
theorem witness_stores :
    ([Space.spm, .dev, .host, .peer].all (fun sp =>
      let s := demo.onCore (fun k => { k with storeQ := [queued sp] })
      decide (s.core.storeQ[0]? = some (queued sp)) && storeReady s 0 && s.mem.wf && s.laneRoom &&
        !inPort { space := sp, owner := 0, addr := page })) = true := by
  decide +kernel

/-- With A1 at a source, A2 at a destination and X3 as XL. -/
def copying (s : State) (sa da xl : Word) : State :=
  s.onCtx (fun c => ((c.wa 1 { c.ra 1 with base := sa }).wa 2 { c.ra 2 with base := da }).wx 3 xl)

/-- A superstep spar. -/
def superstep (s : State) : State := s.onCore (fun k => { k with run := k.run.map (fun r => { r with ss := true }) })

/-- With QC and QG full of reservations. -/
def fullQueues (s : State) : State := s.onCtx (fun c => { c with qcRes := 64, qgRes := 16, qxRes := 32 })

/-- The first of the checks that fails. -/
def failing (l : List (Bool × Nat × Word)) : Option Nat := (l.find? (·.1)).map (·.2.1)

/-- An MZERO as a CPYF's bundle holds it. -/
def demoZero : BitVec 80 := (encode (.mzero (ma 0 (tl 0) (tl 0) 1))).extractLsb' 136 80

/-- CopyCommands: lengths and records, every check of CPY and CPYF failing first and none, GLOG, PFH and RCINV. -/
theorem witness_copy :
    (let a := ca 1 2 3 5 0
     let r := { a with xfm := 16 }
     let p : Word := BitVec.ofNat 64 page
     let good := banked (copying demoM p 0 (2 ^ 63 + 64))
     let log := copying demo p 0x30000 7
     [good, copying demo (2 ^ 57) 0 64, copying demo 0 (2 ^ 57) 64, copying demo p 0 0, copying demo p 0 (2 ^ 63 + 64),
      superstep (copying demo p 0x30000 64), fullQueues good].all (fun s => s.runs (.cpy a) && s.runs (.cpyf a demoZero)) &&
     decide (([good, copying demo (2 ^ 57) 0 64, copying demo 0 (2 ^ 57) 64, copying demo p 0 0, copying demo p 0 (2 ^ 63 + 64),
      superstep (copying demo p 0x30000 64), fullQueues good].map (fun s => failing (copyChecks s a))) =
        [none, some 3, some 3, some 0x14, some 0x0F, some 0x16, some 0x1F]) &&
     (copying demo p 0x30000 0x80).runs (.cpy r) && decide (failing (copyChecks (copying demo p 0x30000 0x80) r) = none) &&
     (copying demo p 0x30000 1).runs (.cpy r) && decide (failing (copyChecks (copying demo p 0x30000 1) r) = some 0x14) &&
     ([log, copying demo (2 ^ 57) 0x30000 7, copying demo p (2 ^ 57) 7, copying demo p 0x30000 (2 ^ 24), copying demo p 0x30001 7,
      copying demo p 0x30000 (2 ^ 62 + 7), fullQueues log].all (fun s => s.runs (.glog (ca 1 2 3 5 0)))) && (copying demo 1 0x30000 7).runs (.glog (ca 1 2 3 5 0)) && (superstep log).runs (.glog (ca 1 2 3 5 0)) &&
     demo.runs (.pfh (ca 1 0 3 0 1)) && (copying demo (2 ^ 57) 0 0).runs (.pfh (ca 1 0 3 0 1)) &&
     demo.runs (.rcinv (ca 0 0 3 0 0)) && demo.runs (.rcinv (ca 0 0 0 0 1)) &&
     (slotOut (.mzero (ma 0 (tl 0) (tl 0) 1)) (followEnv good (.cpyf a demoZero))).succeeds &&
     guardTrue good.core.ctx (.mzero (ma 0 (tl 0) (tl 0) 1)) && !noQmEntry good) = true ∧
    decodeMatrix demoZero = .op (.mzero (ma 0 (tl 0) (tl 0) 1)) := by
  decide +kernel

/-- QueuedCommands: every form with no check failing and with each check failing; a COLL without a free QX entry. -/
theorem witness_queued :
    (let p : Word := BitVec.ofNat 64 page
     let good := copying demo p 0x30000 8
     let cmds (xl : BitVec 6) : List Instr :=
      [.rsto (ca 1 2 xl 5 0), .rfaa (ca 1 2 xl 5 0), .rfen (ca 0 2 xl 5 0), .gmrg (ca 0 2 0 5 0)]
     let colls := [Instr.collAr (ca 1 2 3 5 0), .collAg (ca 1 2 3 5 0), .collRs (ca 1 2 3 5 0), .collA2a (ca 1 2 3 5 0)]
     [good, copying demo (2 ^ 57) (2 ^ 57) 8, copying demo (p + 1) (p + 1) 0, superstep good, fullQueues good].all (fun s =>
       (cmds 3).all s.runs) &&
     [copying demo p 0x30000 0x80, copying demo (2 ^ 57) 0 0, copying demo 0 (2 ^ 57) 0, copying demo p p 1, superstep (copying demo p p 0),
       fullQueues (copying demo p p 0)].all (fun s => colls.all s.runs) &&
     (copying demo p 0x30000 (2 ^ 62 + 8)).runs (.rsto (ca 1 2 3 5 0)) && good.runs (.rfaa (ca 1 2 3 5 1)) &&
     decide (32 < (fullQueues good).core.ctx.qx.length + (fullQueues good).core.ctx.qxRes + 1) &&
     decide (¬32 < good.core.ctx.qx.length + good.core.ctx.qxRes + 1)) = true := by
  decide +kernel

/-- CopyEvents, commands: one before its start, a unit of a carrying copy, writes that are due, a finished command and a failed
one without a token. -/
theorem witness_copy_events :
    (let c := cmdOf (.cpy (ca 1 2 3 5 0))
     let d := { c with started := true }
     let o := { d with done := 1, out := [(0, [7])] }
     let e := { c with ended := true, started := true }
     let f := { e with tok := 0, status := 6 }
     let s := heading (banked demoM) d
     let u := heading (banked demoM) o
     let x := d.xfer
     (heading demo c).headCmd 0 = some c ∧ c.isTsr = false ∧ s.headCmd 0 = some d ∧ d.worked = false ∧ d.stopped = none ∧
       x.tiled = false ∧ x.code ≠ 3 ∧ x.carries = true ∧ d.due x = none ∧ engineFree s = true ∧ s.core.runs d.id = true ∧
       answers (d.readSrc s x.wantSrc x.ssp (x.sb + d.done * x.srs + d.pos) (x.unitAt d).2) (fun _ => true) = true ∧
       u.headCmd 0 = some o ∧ o.due o.xfer = some (false, [(0, [7])]) ∧ engineFree u = true ∧ o.xfer.dsp = true ∧ u.mem.wf = true ∧
       u.storesClear o (u.dstHomes o o.xfer.wantDst o.xfer.dsp 0 1) = true ∧
       answers (u.putAll o o.xfer.wantDst o.xfer.dsp [(0, [7])]) (fun _ => true) = true ∧
       (heading demo e).core.engines.toList.getD 0 [] = [e] ∧ e.ended = true ∧ e.out = [] ∧ e.scl = [] ∧ e.status = 0 ∧ e.tok ≠ 0 ∧
       (heading demo f).core.engines.toList.getD 0 [] = [f] ∧ f.status ≠ 0 ∧ f.tok = 0 ∧ (heading demo f).laneRoom = true ∧
       demo.core.runs e.id = true ∧ (∀ w ∈ demo.sched.waiting, w.id ≠ e.id)) := by
  decide +kernel

/-- CopyEvents: a record command with its record cached, with it read and with an RCINV open; a good and a bad record. -/
theorem witness_records :
    (let c := { cmdOf (.cpy (ca 1 2 3 5 16)) with xl := BitVec.ofNat 64 page }
     let s (b : List Byte) : State := (heading demo c).onCore (fun k => { k with records := [(c.ctx, c.xl, b)] })
     let r := List.replicate 24 0 ++ toBytes 4 1 ++ toBytes 4 64 ++ List.replicate 96 0
     let fence := (heading demo c).onCore (fun k => { k with storeQ := [queued .dev]
                                                             rcinv := [{ seq := 1, id := demo.runOf.id, ctx := 0, addr := none }] })
     let later := { c with seq := 2 }
     c.isTsr = true ∧ tsrOk c.code r = true ∧ tsrOk c.code (List.replicate 128 0) = false ∧
       ((s r).onCore Core.settleRcinv).core.rcinv = [] ∧
       ((s r).onCore Core.settleRcinv).core.records.find? (fun q => decide (q.1 = c.ctx ∧ q.2.1 = c.xl)) = some (c.ctx, c.xl, r) ∧
       ((heading demo c).onCore Core.settleRcinv).core.records = [] ∧
       answers (ioRead ((heading demoM c).onCore Core.settleRcinv) c.ctx (some false) c.xl 128) (fun _ => true) = true ∧
       ((heading fence later).onCore Core.settleRcinv).core.rcinv.any (fun f => decide (f.seq < later.seq)) = true) := by
  decide +kernel

/-- CopyEvents: a record folded. -/
theorem witness_folds :
    (let desc := toBytes 8 (page + 4096) ++ toBytes 8 (page + 8192) ++ toBytes 8 256 ++ toBytes 8 0 ++ toBytes 16 0 ++ toBytes 4 1 ++
       toBytes 1 4 ++ toBytes 1 4
     let s := { demoM with mem := demoM.mem.setN ⟨.dev, 0, page⟩ desc
                           valley := { demoM.valley with served := [⟨9, demoM.runOf.ctx, BitVec.ofNat 64 page⟩], keys := [(9, [0])] } }
     let d : Served := ⟨9, demoM.runOf.ctx, BitVec.ofNat 64 page⟩
     (s.core.gmrg.isEmpty && answers (ioRead s s.runOf.ctx (some false) (BitVec.ofNat 64 page) 128) (fun b =>
       let g := gutterOf b
       let log := g.logPieces g.tail g.rec_
       let read := log.foldl (fun u q => u.noteIo d.ctx (some false) q.1 q.2) (s.noteIo d.ctx (some false) d.va 128)
       answers (readLog s s.runOf.ctx log) (fun _ => true) &&
         answers (ioWrite read s.runOf.ctx (some false) (d.va + 24) (toBytes 8 ((g.tail + g.rec_) % g.len))) (fun _ => true))) = true) := by
  decide +kernel

/-- CopyEvents, its last two parts: a route whose link is up, and an all-reduce of one element between two members, whose inputs
are good or bad. -/
theorem witness_routes :
    (let o : OutTxn := { dst := 1, psn := 0, txn := .store 0 [7], core := 0, id := ⟨0, 0⟩, cmd := none }
     let l : Link := { state := 2, width := 0 }
     let s : State := { demo with fabric := { demo.fabric with rtbase := BitVec.ofNat 64 page, out := [o], links := demo.fabric.links.set 0 l },
                                  mem := demo.mem.setN ⟨.dev, 0, page + 4⟩ (toBytes 4 0x100) }
     s.nextFabric = none ∧ s.fabric.transit = [] ∧ s.fabric.out[0]? = some o ∧ o.sent = false ∧
       (routeLinks (s.route o.dst)).find? (fun n => decide (s.linkState n = 2)) = some 0 ∧ s.linkFull 0 = false) ∧
    (let c := { cmdOf (.collAr (ca 1 2 3 5 0)) with started := true
                                                    tsr := some (toBytes 8 0 ++ toBytes 4 2 ++ List.replicate 10 0 ++ toBytes 2 4 ++
                                                      List.replicate 8 0 ++ toBytes 8 1 ++ List.replicate 88 0)
                                                    out := [(0, [0, 0, 0x80, 0x3F])] }
     let d := descOf (c.tsr.getD [])
     let own : List Byte := [0, 0, 0x80, 0x3F]
     let got : CollInput := { blocks := [own, own], bad := none }
     let s := (banked demo).onCore (fun k => { k with fabric := [c] })
     s.openColl = some (c, d, own) ∧ c.tok ≠ 0 ∧ s.core.runs c.id = true ∧ (∀ w ∈ s.sched.waiting, w.id ≠ c.id) ∧
       s.collClear c d = true ∧ s.laneRoom = true ∧ c.variant = 0 ∧
       d.th = false ∧ d.dsp = true ∧ got.blocks.length = d.n ∧ (∀ b ∈ got.blocks.set d.rank own, b.length = d.block) ∧
       d.count = 1 ∧ spmIn c.bank0 c.banks c.da.toNat d.unit = true ∧ s.mem.wf = true) := by
  decide +kernel

/-! ### The sync slot -/

/-- SyncSlot: MARK, FENCE and REL with their conditions met and not met, ACQ, SSTEP in both kinds of launch, WAITA before and
after its time and with a fired monitor, WAITK with an entry, with one to come and with none, and the events. -/
theorem witness_sync :
    (let st := demo.onCore (fun k => { k with storeQ := [queued .spm] })
     let co := heading demo (cmdOf (.cpy (ca 1 2 3 5 0)))
     let mon (fired : Bool) : State := { demo with sched := { demo.sched with monitors := [⟨demo.runOf.id, .dev, 0, 0, fired⟩] } }
     let wt (n : Nat) : State := demo.onCore (fun k => { k with waita := some n })
     let met (s : State) : Bool := s.ownCmds.all (·.sourceRead) && !s.core.ctx.loading && !queuedIn s (fun q => decide (q = .spm))
     (demo.runs (.mark (ya 0 0 0)) && met demo && st.runs (.mark (ya 0 0 0)) && !met st && co.runs (.mark (ya 0 0 0)) && !met co &&
      demo.runs (.fence (ya 1 1 4)) && st.runs (.fence (ya 1 1 0)) && queuedIn st (inMask 1) && !queuedIn demo (inMask 1) &&
      demo.enginesDone && co.runs (.fence (ya 1 1 4)) && !co.enginesDone && demo.runs (.rel (ya 1 3 5)) && st.runs (.rel (ya 1 1 1)) &&
      demoTags.runs (.acq (ya 1 15 0)) && demoTags.runs (.acq (ya 1 15 1)) && demoTags.mem.tags.rising && demo.runs (.sstep (ya 0 0 0)) &&
      decide ((demo.launchOf demo.runOf.id.launch).map (·.ss) = some false) &&
      (mon true).runs (.waita (ya 0 0 2)) && (mon true).monitorFired && demo.runs (.waita (ya 0 0 2)) && !demo.monitorFired &&
      demo.core.waita.isNone && (wt 0).runs (.waita (ya 0 0 2)) && decide (0 ≤ (wt 0).cycle) && (wt 9).runs (.waita (ya 0 0 2)) &&
      decide ((wt 9).cycle < 9) && demo.runs (.waitk (ya 0 0 1)) && decide (demo.core.ctx.queue 1 = ([], 0)) &&
      (let s := demoC (fun c => { c with qc := [7] })
       s.runs (.waitk (ya 0 0 1)) && !(s.core.ctx.queue 1).1.isEmpty) &&
      (let s := demoC (fun c => { c with qcRes := 1 })
       s.runs (.waitk (ya 0 0 1)) && (s.core.ctx.queue 1).1.isEmpty && decide ((s.core.ctx.queue 1).2 ≠ 0))) = true) ∧
    (let s := { demo with sched := { demo.sched with launches := [(0, { fetchLaunch with ss := true })] } }
     s.runs (.sstep (ya 0 0 0)) = true ∧ (s.launchOf s.runOf.id.launch).map (·.ss) = some true) ∧
    (let m : Monitor := ⟨⟨0, 7⟩, .dev, 0, 0, true⟩
     let s := { demo with sched := { demo.sched with monitors := [m], waiting := [waiter 1] } }
     s.sched.monitors[0]? = some m ∧ s.sched.waiting.find? (fun w => decide (w.id = m.id ∧ waitKind w.wait = 1)) = some (waiter 1)) ∧
    waitKind (waiter 5).wait = 5 ∧ 16 * bits (waiter 5).wait.toNat 4 60 ≤ demo.cycle := by
  decide +kernel

/-! ### The scheduler -/

/-- A spar of that launch ready. -/
def readySpar (n : Nat) : Ready := { id := ⟨0, n⟩, cls := 2, core := 0, lc := 0, srun := 0, bound := none }

/-- Core 0 without a spar, in a phase. -/
def phased (p : Phase) : State := demoD.onCore (fun k => { k with phase := p, run := none })

/-- SchedulerEvents: a choice of a spar that is there and of one to be created, an entry, and a yield that exits and one that
does not. -/
theorem witness_scheduler :
    (let s := { phased .idle with sched := { demoD.sched with ready := [readySpar 1] } }
     let l : Launch := { demoLaunch with generated := [0] }
     let v : State := { s with sched := { s.sched with launches := [(0, l)] } }
     decide (s.core.num < s.pcores) && decide (s.core.phase = .idle) && decide (s.core.preempt = none) &&
       decide (s.choice.map (·.r.id) = some ⟨0, 1⟩) && demoLaunch.generated.contains 1 && decide (s.launchOf 0 = some demoLaunch) &&
       decide (v.choice.map (·.r.id) = some ⟨0, 1⟩) && decide (State.launchOf v 0 = some l) && !l.generated.contains 1 && decide (1 < Launch.total l) &&
       answers (deviceWrite v l.ctx (l.recVa 1) (l.firstRecord (readySpar 1))) (fun _ => true)) = true ∧
    (let s := phased (.picked (readySpar 1))
     decide (s.core.phase = .picked (readySpar 1)) && decide (s.launchOf 0 = some demoLaunch) &&
       answers (deviceRead s demoLaunch.ctx (demoLaunch.recVa 1) 64) (fun bs => !(recordOf bs).ckpt)) = true ∧
    ([true, false].all (fun exits =>
       let s := demoD.onCore (fun k => { k with phase := .yielding, run := k.run.map (fun r => { r with exits := exits, wait := 4 }) })
       let q := (s.homeSegment demoLaunch s.runOf).debitEnergy
       let r := q.rebound q.runOf
       let cls := ((q.launchOf r.id.launch).getD demoLaunch).cls
       !s.runEnded && (s.runOf.exits == exits) && s.backReady && s.core.run.isSome && s.laneRoom && s.core.ctx.engTraps.isEmpty &&
         answers (deviceRead q r.ctx r.recVa 64) (fun old => answers (deviceWrite q r.ctx r.recVa
           (q.backRecord r cls (q.cycle - r.started) (recordOf old))) (fun s1 =>
             let s2 := s1.onCore (fun k => k.spend s1.cycle)
             answers (rskFail s2.core.ctx.rskb (ioWrite s2 r.ctx none s2.core.ctx.rskb s2.core.ctx.descriptor)) (fun s3 =>
               ((((s3.keepSpar r).leaveRun).parkSpar r cls).choice).isNone && s3.spillAll.2.isNone))))) = true := by
  decide +kernel

/-- A cached translation of every address of context 0 into HOST. -/
def hostPage : TbEnt := { ctx := 0, base := 0, size := 2 ^ 57, pte := 0xB }

/-- The demo device with everything in HOST. -/
def demoH : State := demoD.onCore (fun k => { k with tb := [hostPage] })

/-- A device in which that is the only translation, and no aperture stands in the way. -/
def wide (s : State) : Prop := s.core.tb = [hostPage] ∧ s.ctxOf 0 = {}

theorem wide_piece {s : State} (h : wide s) (va : Word) (n : Nat) : ∃ q, piece s 0 true .write va n = .ok q := by
  have hz : ∀ a ∈ ({} : Context).apr.toList, a = 0 := by
    intro a hm
    simpa [Vector.mem_replicate] using Vector.mem_toList_iff.mp hm
  have ha : aprOf (s.ctxOf 0) va = none := by
    rw [h.2, aprOf, List.find?_eq_none]
    intro a hm
    have h0 : aprField 0#512 8 8 = 0 := by decide +kernel
    simp [hz a hm, h0]
  have hx : tbHit s.core.tb 0 va = some { pte := 0xB, base := 0, size := 2 ^ 57 } := by
    have hlt := Nat.mod_lt va.toNat (show 0 < 2 ^ 57 by decide)
    rw [h.1]
    simp only [tbHit, hostPage, List.find?_cons]
    simp only [Nat.zero_le, Nat.zero_add, hlt, and_self, decide_true, Option.map_some]
  have ht : translate s 0 va .write = .ok ((Xl.mk 0xB 0 (2 ^ 57)).target va) := by
    simp only [Sys2Proof.Machine.translate, ha, hx]
    rfl
  have hp : ∃ p, (Xl.mk 0xB 0 (2 ^ 57)).target va = .place p false ∧ p.space = .host := ⟨_, rfl, rfl⟩
  obtain ⟨p, hp, hs⟩ := hp
  rw [hp] at ht
  have he : aprEntered (s.ctxOf 0) va n = none := by
    rw [h.2, aprEntered, List.filterMap_eq_nil_iff.mpr]
    · rfl
    · intro a hm
      have h0 : aprField 0#512 8 8 = 0 := by decide +kernel
      simp [hz a hm, h0]
  have hf : s.pieceFault 0 .write va (.place p false) n = none := by
    simp [State.pieceFault, Mem.lineFault, Mem.cattrAt, hs, he, lowerOf]
  refine ⟨(.place p false, n), ?_⟩
  simp [piece, ht, hf, lowerOf, bind, Except.bind]

theorem wide_resolve {s : State} (h : wide s) (va : Word) (n : Nat) : ∃ ts, resolve s 0 true .write va n = .ok ts := by
  unfold resolve
  generalize pieces va n (n / 65536 + 2) = ps
  induction ps with
  | nil => exact ⟨[], rfl⟩
  | cons q ps ih =>
    obtain ⟨x, hx⟩ := wide_piece h q.1 q.2
    obtain ⟨ts, hts⟩ := ih
    exact ⟨x :: ts, by rw [List.mapM_cons, hx, hts]; rfl⟩

/-- Ranges performed leave the cores and the contexts alone. -/
theorem performSegs_cores (gs : List (Place × List Byte)) (s : State) :
    (s.performSegs gs).core = s.core ∧ (s.performSegs gs).ctxs = s.ctxs := by
  induction gs generalizing s with
  | nil => exact ⟨rfl, rfl⟩
  | cons g gs ih =>
    have h1 : (s.performSeg g.1 g.2).core = s.core ∧ (s.performSeg g.1 g.2).ctxs = s.ctxs := by
      have ha : ∀ (q : Place) (bs : List Byte), (s.performAt false q bs).core = s.core ∧ (s.performAt false q bs).ctxs = s.ctxs := by
        intro q bs
        simp only [State.performAt, State.recall, State.shedCopies]
        split <;> split <;> exact ⟨rfl, rfl⟩
      simp only [State.performSeg, State.performCh]
      split
      · exact ha _ _
      · split
        · exact ⟨rfl, rfl⟩
        · exact ha _ _
    have h2 := ih (s.performSeg g.1 g.2)
    exact ⟨h2.1.trans h1.1, h2.2.trans h1.2⟩

theorem wide_write {s : State} (h : wide s) (va : Word) (bs : List Byte) :
    ∃ t, deviceWrite s 0 va bs = .ok t ∧ wide t ∧ t.core = s.core := by
  obtain ⟨ts, hts⟩ := wide_resolve h va bs.length
  refine ⟨s.performSegs (dealBytes (placesOf ts) bs), by simp only [deviceWrite, deviceDest, hts]; rfl, ?_, (performSegs_cores _ s).1⟩
  have := performSegs_cores (dealBytes (placesOf ts) bs) s
  exact ⟨this.1 ▸ h.1, by rw [State.ctxOf, this.2]; exact h.2⟩

theorem wide_parts (base : Word) (ps : List (Nat × List Byte)) {s : State} (h : wide s) :
    (putParts 0 base ps s).2 = none ∧ wide (putParts 0 base ps s).1 := by
  induction ps generalizing s with
  | nil => exact ⟨rfl, h⟩
  | cons p ps ih =>
    obtain ⟨t, ht, hw, -⟩ := wide_write h (base + BitVec.ofNat 64 p.1) p.2
    simp only [putParts, ht]
    exact ih hw

/-- A save of a spar of context 0 ends in its save area there. -/
theorem wide_save {s : State} (h : wide s) (hd : ¬(s.core.ctx.kept.rskDue = 2 ∨ s.core.ctx.kept.rskDue = 4)) (em : Bool) (r : Run) (hr : r.ctx = 0) (pc ipc wait : Word)
    (n : Nat) : (s.saveCtx em r pc ipc wait n).2 = .area := by
  have hs : (s.onCtx (fun c => { c with mprog := c.progress })).spillForSave = (s.onCtx (fun c => { c with mprog := c.progress }), none) := by
    unfold State.spillForSave
    exact if_neg hd
  have hw : wide (s.onCtx (fun c => { c with mprog := c.progress })) := h
  have h1 := wide_parts ((s.onCtx (fun c => { c with mprog := c.progress })).saveArea r.id)
    ((0, ctxHeader (s.onCtx (fun c => { c with mprog := c.progress })).core.ctx pc ipc n 1) ::
      savedParts (s.onCtx (fun c => { c with mprog := c.progress })).core.ctx (s.onCtx (fun c => { c with mprog := c.progress })).tick) hw
  simp only [State.saveCtx, hs, hr]
  generalize hq : putParts 0 _ _ (s.onCtx (fun c => { c with mprog := c.progress })) = q at h1 ⊢
  obtain ⟨s2, b⟩ := q
  obtain ⟨rfl, hw2⟩ : b = none ∧ wide s2 := h1
  dsimp only
  have h2 := wide_parts r.recVa [(8, recordMark r pc wait)] hw2
  simp only [h2.1]

/-- A spar of the launch that a checkpoint or a stop finds. -/
def demoSave (k : Core → Core) : State := demoH.onCore k

/-- SchedulerEvents: a checkpoint and a stop, but for where their saves end (`wide_save`). -/
theorem witness_saves :
    (let s := demoSave (fun k => { k with preempt := some .checkpoint })
     decide (s.core.phase = .running) && decide (s.core.preempt = some .checkpoint) && !s.pendingCause && s.saveReady && s.laneRoom) = true ∧
    (let s := demoSave (fun k => { k with phase := .stopping demoFault })
     decide (s.core.phase = .stopping demoFault) && !s.runEnded && s.saveReady && s.laneRoom && decide (demoFault.ipc ≠ 0)) = true := by
  decide +kernel

/-- SchedulerEvents: the saves of that checkpoint and that stop end in the save area. -/
theorem witness_saves_end :
    (let s := demoSave (fun k => { k with preempt := some .checkpoint })
     ((s.landDue.onCore (fun k => k.spend s.cycle)).saveCtx true s.runOf s.core.pc ((s.core.ctx.running.map (·.addr)).getD 0) 0 0).2
       = .area) ∧
    (let s := demoSave (fun k => { k with phase := .stopping demoFault })
     ((s.onCore (fun k => k.spend s.cycle)).saveCtx true s.runOf demoFault.pc demoFault.ipc 6 demoFault.cause).2 = .area) :=
  ⟨wide_save ⟨by decide +kernel, by decide +kernel⟩ (by decide +kernel) _ _ (by decide +kernel) _ _ _ _,
   wide_save ⟨by decide +kernel, by decide +kernel⟩ (by decide +kernel) _ _ (by decide +kernel) _ _ _ _⟩

/-- SchedulerEvents: a kill, where nothing waits to be posted and where its commands have tokens. -/
theorem witness_kill :
    (let s := demoD.onCore (fun k => { k with preempt := some .kill })
     decide (s.core.phase = .running) && !s.pendingCause && !s.runEnded && s.laneRoom && (s.cmdsOf s.runOf.id).all (fun c => decide (c.tok ≠ 0)) &&
       decide ((s.allCoresList.map (·.num)).Nodup) && s.allCoresList.all (fun k => k.lanesUnposted.isEmpty) &&
       answers (deviceWrite s s.runOf.ctx s.runOf.recVa s.core.ctx.kept.first) (fun _ => true)) = true := by
  decide +kernel

/-- A spar of the launch picked whose save area holds a context with PC, P0 and RSKL alone. -/
def demoSaved : State :=
  let old := demoD.core.ctx
  let s := phased (.picked (readySpar 0))
  let put (m : Mem) (a : Nat) (bs : List Byte) : Mem := m.setN ⟨.dev, 0, a⟩ bs
  { s with mem := put (put (put (put (put s.mem 0x1000000 (toBytes 8 0x10000)) 0x1000018 [1, 1]) 0x1000240 [1]) 0x1000280
                        (toBytes 8 old.rskl.toNat)) 0x21008 (toBytes 8 0x10001),
           sched := { s.sched with saved := [((readySpar 0).id.key, old)],
                                   kept := [((readySpar 0).id.key, { old.kept with rskb := old.rskb })] } }

/-- SchedulerEvents: a resumption. -/
theorem witness_resume :
    ((demoSaved.sched.saved.get? (readySpar 0).id.key).isSome && demoSaved.sched.saved.rising &&
      answers (deviceRead demoSaved 0 (demoLaunch.recVa 0) 64) (fun bs => (recordOf bs).ckpt) &&
      answers (restoreCtx demoSaved 0 (demoSaved.saveArea (readySpar 0).id) demoD.core.ctx) (fun q =>
        decide (q.2.rskb = (demoSaved.sched.kept.getD (readySpar 0).id.key {}).rskb ∧ q.2.rskl = demoD.core.ctx.rskl))) = true := by
  decide +kernel

/-- The demo device with lane F of 4096 records at `page`, open, and a record to post. -/
def demoLane : State :=
  let r : LaneRec := { laneP := false, bytes := toBytes 56 0x32, id := none, open_ := false, cmd := none }
  { demo.onCore (fun k => { k with lanesUnposted := [r] }) with
    lanes := { demo.lanes with ctl := 1, fcb := BitVec.ofNat 64 page }
    mem := demo.mem.setN ⟨.dev, 0, page + 16⟩ (toBytes 4 4096) }

/-- SchedulerEvents: a record posted. -/
theorem witness_post :
    (demoLane.core.nextRecord false).isSome = true ∧ demoLane.lanes.ctl.getLsbD 0 = true ∧ demoLane.mem.wf = true ∧
      demoLane.laneField false 16 4 = 4096 ∧
      (demoLane.laneField false 0 8 + 2 ^ 64 - demoLane.laneField false 8 8) % 2 ^ 64 < demoLane.laneField false 16 4 ∧
      demoLane.laneBase false + 128 + 64 * demoLane.laneField false 16 4 ≤ portBase := by
  decide +kernel

/-- A superstep launch of one spar that waits at its barrier. -/
def demoBarrier (exchange : Option Nat) (exbud : Nat) : State :=
  let l : Launch := { fetchLaunch with ss := true, exchange := exchange, exbud := exbud }
  { demo with sched := { demo.sched with launches := [(0, l)], waiting := [{ waiter 4 with id := ⟨0, 0⟩ }] }, cycle := 9 }

/-- SchedulerEvents: an exchange begins, ends in its budget, and runs over it. -/
theorem witness_exchange :
    (let s := demoBarrier none 0
     (s.launchOf 0).map (fun l => (l.ss, l.exchange, l.ended, l.total, l.children.length, l.exited.length)) =
         some (true, none, false, 1, 0, 0) ∧ (s.atBarrier 0).length = 1) ∧
    ((demoBarrier (some 9) 0).launchOf 0).map (·.exchange) = some (some 9) ∧ (demoBarrier (some 9) 0).cycle ≤ 9 + 0 ∧
    ((demoBarrier (some 0) 3).launchOf 0).map (fun l => (l.exchange, l.exbud, l.exOver)) = some (some 0, 3, false) ∧
    0 + 3 < (demoBarrier (some 0) 3).cycle := by
  decide +kernel

/-! ### Memory, the host interface, the fabric and the platform -/

/-- The demo device with page tables: three tables and a leaf that maps the page at `page`. -/
def demoWalk : State :=
  let pte (a v : Nat) (m : Mem) : Mem := m.setN ⟨.dev, 0, a⟩ (toBytes 8 v)
  let m := pte 0x40000 0x41001 (pte 0x41000 0x42001 (pte 0x42000 0x60001 (pte (0x60000 + 8 * 2) (page + 3) demo.mem)))
  { demo with mem := m, ctxs := [(0, { demo.ctxOf 0 with troot := 0x40000 })] }

/-- MemoryEvents: a walk that installs, an access that its leaf does not allow; a sector that is absent and one in a window; a
window; maintenance that starts on an aligned range, is refused on another, and ends. -/
theorem witness_memory_events :
    (let s := demoWalk
     decide (aprOf (s.ctxOf 0) (BitVec.ofNat 64 page) = none) && decide (tbHit s.core.tb 0 (BitVec.ofNat 64 page) = none) &&
       answers (walk s.mem (s.ctxOf 0).troot (BitVec.ofNat 64 page)) (fun x => x.allows .read)) = true ∧
    (let s := { demo with mem := demo.mem.setN ⟨.dev, 0, 0x60000 + 8 * 2⟩ [0] }
     tbHit s.core.tb 0 (BitVec.ofNat 64 page) = none ∧ answers (walk s.mem (s.ctxOf 0).troot (BitVec.ofNat 64 page)) (fun _ => true) = false) ∧
    demo.mem.present (devPlace 0x5000) = false ∧
    (match exec (.l2ReadMiss 0x5000 2 false) demo with
     | .next t => decide (t.mem.present (devPlace 0x5000) = true ∧ t.mem.windows.get? (0x5000 / 128) = none)
     | _ => false) = true ∧
    (let s := { demo with mem := { demo.mem with windows := [(3, 1)] } }
     (s.mem.windows.get? (0x180 / 128)).isSome = true ∧ s.mem.windows.rising = true) ∧
    demo.maint.stat.getLsbD 0 = false ∧ (demo.maint.addr.toNat % 512 = 0 ∧ demo.maint.len.toNat % 512 = 0) ∧
    ¬(({ demo.maint with addr := 1 } : Maint).addr.toNat % 512 = 0) ∧
    (let s := { demo with maint := { demo.maint with stat := 1, cmd := 2 } }
     s.maint.stat.getLsbD 0 = true ∧ s.fabric.out = [] ∧ ∀ k ∈ s.core :: s.others, k.storeQ = []) := by
  decide +kernel

/-- A packet: its number 0, its type, and its other bytes from offset 9 on. -/
def packet (type : Nat) (rest : List Byte) : BitVec 512 :=
  BitVec.ofNat 512 (ofBytes (toBytes 8 0 ++ toBytes 1 type ++ rest))

/-- An open port with room in its log that has accepted a packet. -/
def demoPort (p : BitVec 512) : State :=
  { demo with host := { demo.host with ctl := 1, cpln := 64, clogn := 64, accepted := [p] } }

/-- Does an open port take a packet. -/
def taken (type : Nat) (p : BitVec 512) (ok : State → Bool) : Bool :=
  match (demoPort p).takePacket type with
  | some (q, s) => decide (q = p) && ok s
  | none => false

/-- PacketEvents: a packet in sequence and one out of it; each packet whole, with a field that must be zero, and refused for
each of its reasons. -/
theorem witness_packets :
    (let s := { demoPort 0 with host := { (demoPort 0).host with accepted := [], portWrite := true, latch := packet 2 [] } }
     let o := { s with host := { s.host with next := 7 } }
     s.host.portWrite && s.host.accepted.isEmpty && s.host.ctl.getLsbD 0 && s.logRoom &&
       (let c := { s with host := { s.host with ctl := 0 } }
        let b := { s with host := { s.host with latch := packet 9 [] } }
        !c.plat.min && !c.host.ctl.getLsbD 0 && b.logRoom && decide (8 < pktType b.host.latch) &&
          decide (BitVec.ofNat 64 (pkt b.host.latch 0 8) = b.host.next)) &&
       decide (BitVec.ofNat 64 (pkt s.host.latch 0 8) = s.host.next) && decide (pktType s.host.latch = 2) &&
       decide (BitVec.ofNat 64 (pkt o.host.latch 0 8) ≠ o.host.next)) = true ∧
    (([2, 3, 4, 5, 6, 7] : List Nat).all (fun t =>
      taken t (packet t []) (fun _ => pktPlain (packet t []) 0 16) &&
        taken t (packet t (List.replicate 55 255)) (fun _ => !pktPlain (packet t (List.replicate 55 255)) 0 32))) = true ∧
    taken 8 (packet 8 [1]) (fun _ => pktPlain (packet 8 [1]) 1 16) = true ∧
    taken 8 (packet 8 [2]) (fun _ => !pktPlain (packet 8 [2]) 1 16) = true ∧
    taken 2 (packet 2 []) (fun s => decide (s.seedDepth 0 < 16)) = true ∧
    (({ demo with ctxs := [(0, { demo.ctxOf 0 with seeds := List.replicate 16 0 })] } : State).seedDepth 0) = 16 ∧
    taken 6 (packet 6 (List.replicate 15 0 ++ [1])) (fun s => decide (s.launchNamed 0 0 = some 0)) = true ∧
    taken 6 (packet 6 (List.replicate 7 0 ++ [64] ++ List.replicate 7 0 ++ [1])) (fun s => decide (s.launchNamed 0 64 = none)) = true ∧
    pkt (packet 5 (List.replicate 19 0 ++ [3])) 28 1 = 3 ∧ taken 7 (packet 7 []) (fun _ => decide (pkt (packet 7 []) 24 2 = 0)) = true ∧
    taken 7 (packet 7 (List.replicate 15 0 ++ [1])) (fun s => (evictTable (s.mem.setN ⟨.dev, 0, 8⟩ [1]) 0 1).isSome) = true := by
  decide +kernel

/-- A launch header of one spar at the start of a page, and an open port that has accepted its launch as packet 1 behind a
fence with BAR. -/
def demoLaunching : State :=
  let h := toBytes 8 0x10000 ++ [0, 0, 0, 1, 1] ++ List.replicate 7 0 ++ toBytes 4 1 ++ toBytes 8 1 ++ List.replicate 40 0 ++
    toBytes 8 0x30000 ++ toBytes 4 1 ++ List.replicate 20 0 ++ toBytes 4 1
  let p := BitVec.ofNat 512 (1 + 2 ^ 64 + page * 2 ^ 128)
  { demoM with
    host := { demo.host with ctl := 1, cpln := 64, clogn := 64, accepted := [p],
                             fences := [{ cseq := 0, ctx := 0, depth := 0, bar := true, launches := [] }] }
    lanes := { demo.lanes with ctl := 1 }
    mem := demo.mem.setN ⟨.dev, 0, page⟩ h }

/-- PacketEvents: a launch that is refused, and one that is created behind a fence; a fence that may be posted; a packet of
minimal mode. -/
theorem witness_launch :
    (taken 1 (packet 1 []) (fun s => match s.launchFrom (packet 1 []) with
      | .error st => decide (st = 3)
      | .ok _ => false)) = true ∧
    (match demoLaunching.takePacket 1 with
     | none => false
     | some (p, s1) => decide (pkt p 40 4 = 0) && (match s1.launchFrom p with
       | .error _ => false
       | .ok l => match (s1.noteDevice l.ctx (BitVec.ofNat 64 (pkt p 16 8)) 192).createLaunch l with
         | none => false
         | some s2 => s2.barred l)) = true ∧
    (let f : Fence := { cseq := 0, ctx := 0, depth := 0, bar := true, launches := [] }
     demoLaunching.host.fences[0]? = some f ∧ f.launches = [] ∧ demoLaunching.effectsDone f.ctx = true) ∧
    (let s := { demo with plat := { demo.plat with min := true }, host := { demo.host with ctl := 5, clogn := 64, cpln := 64 } }
     let p := BitVec.ofNat 512 (ofBytes ((List.range 64).map (fun i => s.mem.get ⟨.host, 0,
      s.host.clogb.toNat + 64 * (s.host.next.toNat % s.host.clogn.toNat) + i⟩)))
     s.plat.min = true ∧ s.host.ctl.getLsbD 0 = true ∧ s.host.clogn ≠ 0 ∧ s.logRoom = true ∧ BitVec.ofNat 64 (pkt p 0 8) = s.host.next) := by
  decide +kernel

/-- A link that is up, on link 0 of the demo device. -/
def linked (l : Link) : State := { demo with fabric := { demo.fabric with links := demo.fabric.links.set 0 l } }

/-- HostAndFabricEvents: HOSTCTL with logs within their limits and a header, and without; the window; a data flit in sequence
and out of it, a damaged one, a retrain request; a link in retraining; the pair's next number and another; an acknowledgement;
transactions that have been sent, below and at eight times; a flag; an inbound window. -/
theorem witness_fabric :
    (let s := { demoLaunching with host := { demo.host with clogn := 64, cpln := 64, disphdr := BitVec.ofNat 64 page } }
     s.hostUp = true ∧ s.host.ctl.getLsbD 0 = false ∧ s.plat.min = false ∧ logSizeOk s.host.clogn = true ∧ logSizeOk s.host.cpln = true ∧
       s.host.clogb.toNat % 4096 = 0 ∧ s.host.cplb.toNat % 4096 = 0 ∧ s.host.disphdr ≠ 0 ∧
       (s.wake.readHeader 0 s.host.disphdr).isSome = true ∧ logSizeOk demo.host.clogn = false) ∧
    (let s := { demo with host := { demo.host with hwlen := 0x10000, hwhpa := 0x40000000, hwbase := 0x10000000 } }
     s.windowAddr 0x40000100 1 = some 0x10000100 ∧ 0x10000100 + 1 ≤ portBase ∧ s.windowAddr 0 1 = none ∧ s.mem.wf = true) ∧
    (let s := linked { state := 2, width := 0 }
     let d := flitOf (flitBody 0 0 0 7)
     s.fabric.links[(0 : Fin 12)].state = 2 ∧ flitSound d = true ∧ flitField d 3 1 = 0 ∧
       seqDiff (flitField d 0 3) s.fabric.links[(0 : Fin 12)].expect.toNat = 0 ∧ flitSound (d ^^^ 1) = false ∧
       seqDiff (flitField (flitOf (flitBody 5 0 0 7)) 0 3) 0 ≠ 0 ∧ flitSound (flitOf (flitBody 0 3 0 0)) = true ∧
       flitField (flitOf (flitBody 0 3 0 0)) 3 1 = 3 ∧ 3 < flitField (flitOf (flitBody 0 4 0 0)) 3 1) ∧
    (let s := linked { state := 2, width := 0, inbound := [0] }
     s.fabric.links[(0 : Fin 12)].state = 2 ∧ payloadDst 0 = 0) ∧
    (linked { state := 3 }).fabric.links[(0 : Fin 12)].retraining = true ∧
    (linked { state := 3 }).fabric.links[(0 : Fin 12)].state ≠ 0 ∧ (linked { state := 1, trained := true }).fabric.links[(0 : Fin 12)].trained = true ∧
    (demoPort 0).host.ctl.getLsbD 0 = true ∧ (demoPort 0).hostUp = true ∧
    (let o (sent : Bool) (n : Nat) : OutTxn :=
       { dst := 1, psn := 0, txn := .store 0 [7], core := 0, id := ⟨0, 0⟩, cmd := none, sent := sent, resends := n }
     let s (q : OutTxn) : State := { demo with fabric := { demo.fabric with out := [q] } }
     let two : State := { demo with fabric := { demo.fabric with out := [o true 0, { o true 0 with psn := 1 }] } }
     (s (o true 0)).fabric.out.filter (fun q => decide (q.dst = 1)) = [] ++ o true 0 :: [] ∧
       two.fabric.out.filter (fun q => decide (q.dst = 1)) = [o true 0] ++ { o true 0 with psn := 1 } :: [] ∧
       (∀ q ∈ (s (o true 0)).fabric.out.filter (fun q => decide (q.dst = 1)), q.psn ≠ 5) ∧
       (∀ k ∈ two.allCoresList, k.lanesUnposted = []) ∧ (∀ k ∈ two.allCoresList, k.fabric = []) ∧ two.mem.wf = true ∧
       (s (o true 7)).fabric.out.find? (fun q => decide (q.dst = 1 ∧ q.sent)) = some (o true 7) ∧
       (s (o true 8)).fabric.out.find? (fun q => decide (q.dst = 1 ∧ q.sent)) = some (o true 8) ∧ 8 ≤ (o true 8).resends) ∧
    (let s := { demo with mem := demo.mem.setN ⟨.dev, 0, 0⟩ (toBytes 8 (2 ^ 16 + 2 ^ 48)) }
     s.inWindow 0x10000 8 = true ∧ s.inWindow 0 8 = false ∧ 0x10000 + 8 ≤ portBase ∧ s.fabric.expect.getD 1 0 = 0 ∧ s.mem.wf = true) ∧
    (let s := { demo with fabric := { demo.fabric with flags := [(1, 0, page, 7)] } }
     s.fabric.flags.find? (fun q => decide (q.1 = 1)) = some (1, 0, page, 7) ∧ page + 8 ≤ portBase) := by
  decide +kernel

/-- A portable image of one bundle whose key id and signature bytes are zeros. -/
def demoImage : List Byte :=
  imageBytes 1 1 0 [{ type := 1, align := 64, data := List.replicate 64 0 }, { type := 15, align := 8, data := List.replicate 4648 0 }]

/-- PlatformEvents: a boot at its first and its last stage and a reason of a stage, minimal mode, a report being formed, P2, an
image that parses with a whole signature section (whether a key admits it is free), a kernel that is idle. -/
theorem witness_platform :
    ({ State.reset.plat with stage := 5 } : Platform).booting = true ∧ ({ State.reset.plat with att := 1 } : Platform).att.getLsbD 0 = true ∧
    ({ State.reset.plat with pst := 2 } : Platform).pst = 2 ∧
    State.reset.plat.booting = true ∧ State.reset.plat.stage = 0 ∧ 0 < 5 ∧ 1 ∈ stageReasons 0 1 ∧ 5 ∈ stageReasons 0 5 ∧
    ({ State.reset.plat with min := true }.lc ≠ 3) ∧ (1 : Word).getLsbD 0 = true ∧
    (match parseImage demoImage with
     | some i => decide (i.form = 1 ∧ i.arev ≤ arev ∧ (i.sec 15).length = 4648 ∧ savedN (i.sec 15) 0 16 = i.keyId ∧
         savedN (i.sec 15) 4643 5 = 0 ∧ demo.plat.lc ≠ 3) && !(demo.images.any (fun p => decide (p.1 = demoImage)))
     | none => false) = true ∧
    (let k : Kernel := { ctx := 0, entry := 0, bundles := 1, codePa := 0, dataPa := 0, lcores := [0], bank0 := 0, banks := 1,
                         shape := 0, plan := [], exch := [], sfu := [] }
     let s : State := { demo with kernels := [(4, k)] }
     s.kernels.get? 4 = some k ∧ s.kernels.rising = true ∧ s.kernelBusy 4 = false) ∧
    demo.plat.lc.toNat < (3 : BitVec 2).toNat ∧ demo.hostUp = true ∧ demo.plat.pst ≠ 3 ∧ demo.plat.thinj.getLsbD 33 = false ∧
    demo.ownsCore 0 = true ∧ demo.ownsCore 96 = false ∧ demo.ownsLink 0 = true ∧ demo.ownsChan 0 = true ∧ demo.ownsChan 256 = false ∧
    ({ State.reset.plat with pst := 3 } : Platform).pst = 3 := by
  decide +kernel

/-- The slots of a bundle: all succeed, one waits, none waits. -/
def slotsOf (s : State) (w : BitVec 512) : Bool × Bool × List Nat :=
  let b := decodeBundle w
  let outs := slotResults s b (meetPops s.core.ctx [] (popsOf b))
  (outs.all (fun o => o.2.succeeds), outs.any (fun o => o.2.waits), (slotFaults s outs).map (·.cause))

/-- BundleIssue: a bundle of two operations, one that waits, faults of lane F in two slots, a fault of lane P alone, a guard
that does not hold, an ill-formed bundle, and a pending software trap. -/
theorem witness_bundles :
    (let two := encode (.add (sr 1 2 3 0)) ||| encode (.vadd (va 0 (tl 2) (tl 3) (tl 0)))
     let ld := encode (.ld (la false 2 (tl 5) 0))
     let ck := encode (.rskck (va5 0 (tl 0) (ctlOp 5) (tl 0) (tl 0) (tl 0)))
     demo.clear (decodeBundle two) = true ∧ (slotsOf demo two).1 = true ∧
       demo.clear (decodeBundle (encode (.waita (ya 0 0 2)))) = true ∧ (slotsOf demo (encode (.waita (ya 0 0 2)))).2.1 = true ∧
       (at2 demo 1).clear (decodeBundle (ld ||| ck)) = true ∧ (slotsOf (at2 demo 1) (ld ||| ck)).2 = (false, [14, 16]) ∧
       (at2 demo 0x8000000).clear (decodeBundle ld) = true ∧ (slotsOf (at2 demo 0x8000000) ld).2 = (false, [0x40])) ∧
    (let g : Instr := .add { sr 1 2 3 0 with g := 3 }
     demo.clear (aloneBundle g) = true ∧ guardTrue demo.core.ctx g = false) ∧
    illegal (decodeBundle (encode (.add (sr 1 2 3 1)))) demo.core.ctx = some 0x12 ∧ demo.canIssue = true ∧ demo.core.ctx.due = [] ∧
    (let s := demoC (fun c => { c with kept := { c.kept with swpend := some (5, 7) } })
     let w := encode (.add (sr 1 2 3 0))
     s.canIssue = true ∧ s.core.ctx.engTraps = [] ∧ s.core.ctx.kept.swpend = some (5, 7) ∧ illegal (decodeBundle w) s.core.ctx = none ∧
       popsMet s.core.ctx (decodeBundle w) = true ∧ (slotsOf s w).1 = true ∧
       s.yieldFaults (decodeBundle w) = []) := by
  decide +kernel

/-- The numbers of the cores are distinct, as a test. -/
def coresNumbered (s : State) : Bool := decide ((s.allCoresList.map (·.num)).Nodup)

/-- StepRunsDecoded: a bundle that decodes, one that cannot be fetched, an event, and nothing that moves. -/
theorem witness_step :
    demo.chosen = some (.bundle 0) ∧ answers (demo.swapTo 0).fetchBytes (fun bs => (decode bs).isOk) = true ∧
    (let s := demo.onCore (fun k => { k with pc := 2 ^ 40 })
     s.chosen = some (.bundle 0) ∧ (match (s.swapTo 0).fetchBytes with
       | .ok _ => false
       | .error _ => true) = true ∧ (s.swapTo 0).core.ctx.engTraps = [] ∧ coresNumbered s = true) ∧
    State.reset.chosen = some (.event 0 (.bootStage .done)) ∧
    ({ State.reset with others := [], plat := { State.reset.plat with booting := false }, inputs := [.deviceReset] } : State).chosen =
      some (.input .deviceReset) ∧ isEvent .deviceReset = true ∧
    ({ State.reset with others := [], plat := { State.reset.plat with booting := false } } : State).chosen = none := by
  decide +kernel

/-- RoundTrip and StorageStaysCanonical, whose first premises hold of the demo device and of reset. -/
theorem witness_round_trip :
    inBundle (.add (sr 1 2 3 0)) = true ∧ WellFormed (.add (sr 1 2 3 0)) ∧ demo.mem.wf = true ∧
    coresNumbered demo = true ∧ coresNumbered State.reset = true := by
  decide +kernel

/-- ControlWrites: a segment that is empty, moved where its descriptor can be written and where it cannot; AFR. -/
theorem witness_segment :
    ([demoSys demoD, demoSys demo].all (fun s => ([0x031, 0x032, 0x050, 0x061].all (fun n => s.runs (.crw (si 0 1 n)))) &&
      decide (s.core.ctx.rskp = s.core.ctx.rskb + 64))) = true ∧
    answers (ioWrite (demoSys demoD) 0 none 0 (toBytes 8 64 ++ toBytes 56 0)) (fun _ => true) = true ∧
    answers (ioWrite (demoSys demo) 0 none 0 (toBytes 8 64 ++ toBytes 56 0)) (fun _ => true) = false := by
  decide +kernel

/-- InvalidLines, its last parts: column 16 of sixteen as the destination of VCVT and SFEV, as the first source of VCMP, and as
the source of an SFEV into QS. -/
theorem witness_lines :
    (let a := { va5 1 ⟨0, 2, false, false, 1⟩ (tl 2) (ctlOp 0) (tl 0) (tl 0) with line := 16 }
     demo.runs (.vcvt a) = true ∧ linesOk demo a (max (setFmt a.o2.ctl).bits a.fmt.bits)
       [(demo.envFor (.vcvt a)).src (setFmt a.o2.ctl) 1 a.o1] = false) ∧
    (let a := { va5 0 (tl 0) ⟨0, 2, false, false, 2⟩ (tl 3) (ctlOp 0xB7) (ctlOp 0x35) with line := 16 }
     demo.runs (.vcmp a) = true ∧ a.o1.isTile = true ∧
       lineValid a.o1.dir.toNat a.line.toNat demo.core.ctx.nr (demo.core.ctx.nc a.fmt.bits) = false) ∧
    (let a := { va5 0 ⟨0, 2, false, false, 1⟩ (tl 2) (ctlOp 1) (tl 0) (tl 0) with inB := true, line := 16 }
     demo.runs (.sfev a) = true ∧ (a.o2.ctl / 16) % 2 = 0 ∧
       linesOk demo a a.fmt.bits [(demo.envFor (.sfev a)).src a.fmt 1 a.o1] = false) ∧
    (let a := { va5 0 (tl 0) ⟨0, 2, false, false, 2⟩ (ctlOp 17) (tl 0) (tl 0) with inB := true, line := 16 }
     demo.runs (.sfev a) = true ∧ (a.o2.ctl / 16) % 2 = 1 ∧
       ((demo.envFor (.sfev a)).src a.fmt 1 a.o1).fits 0 a.line.toNat demo.core.ctx.nr (demo.core.ctx.nc a.fmt.bits) = false) := by
  decide +kernel

/-- SpecialFunctions: landings of which two are due and one is not, and none that is due. -/
theorem witness_landings :
    (let l (at_ n : Nat) : Landing := { at_ := at_, dests := [⟨0, n⟩], writes := [⟨0, 32, 1⟩], qs := [], flags := Flags.none }
     let s := demoC (fun c => { c with shadow := [l 0 1, l 5 2, l 0 1] })
     let due := s.core.ctx.shadow.filter (fun l => decide (l.at_ ≤ s.core.ctx.tau))
     due = [l 0 1, l 0 1] ∧ (∀ l ∈ due, l.dests.Nodup ∧ ∀ d ∈ l.dests, d.lvl < 3) ∧ s.laneRoom = true ∧
       (demoC (fun c => { c with shadow := [l 5 2] })).core.ctx.shadow.filter (fun l => decide (l.at_ ≤ demo.core.ctx.tau)) = []) := by
  decide +kernel

/-- StackTraffic: RSKSP and RSKFL with a request entry free, and behind a store that has left its queue. -/
theorem witness_stack_free :
    (let s := demo.onCore (fun k => { k with storeQ := [{ queued .dev with left := true }] })
     let a := va5 0 (tl 0) (ctlOp 14) (tl 0) (tl 0) (tl 0)
     s.stackFree = false ∧ demo.stackFree = true ∧ s.runs (.rsksp a) = true ∧ s.runs (.rskfl a) = true ∧ engineFree demoD = true ∧
       engineFree (demoD.onCtx (fun c => { c with rskp := 917512 })) = true) := by
  decide +kernel

/-- MatrixEngineEvents: products of a group before its end and at its end, with their panel and without it; an MLAT with its
rows, with rows to gather and with one that cannot be repaired; a projection to load. -/
theorem witness_ksteps :
    (let g := ma 0 (tl 2) (tl 0) 0x80003F
     let j : MJob := { op := .mmag g, addr := 0, cfg := demo.core.ctx.mcfgr }
     let p : Prod := { a := g, k := g.k, fa := .bf16, micro := false, acc := false, tf := Fmt.bf16.tf }
     let s (j : MJob) := demoC (fun c => { c with running := some j })
     let l : WLoad := { fmt := .bf16, k := 64, fromTiles := false, src := page, addr := 0, seq := 1, push := false }
     let late := (s { j with seq := 7 }).onCtx (fun c => { c with ws0 := { active := some l } })
     mmaFmt j.op = some (g, .bf16) ∧ j.stopped = false ∧ (s j).plat.dbg ≠ 2 ∧ (s j).laneRoom = true ∧ (s j).core.kstepsOn j = true ∧
       (s j).core.ctx.panelReady j p 0 = true ∧ 0 % g.groupSteps ≠ g.groupSteps - 1 ∧ 1 ≠ (g.k + 31) / 32 ∧
       1 < (g.k + 31) / 32 ∧ 1 % g.groupSteps = g.groupSteps - 1 ∧ late.core.kstepsOn { j with seq := 7 } = true ∧
       late.core.ctx.panelReady { j with seq := 7 } p 0 = false) ∧
    (let a := ma 5 (tl 12) (tl 11) 0x200
     let j : MJob := { op := .mlatAbsorb a, addr := 0, cfg := demo.core.ctx.mcfgr }
     let s := (banked demo).onCtx (fun c => { c with running := some j })
     let bad := { s with mem := s.mem.setN ⟨.spm, 0, 0⟩ (List.replicate 8 0x55) }
     latArgs j.op = some a ∧ (j.prod.map (fun p => decide (0 < (p.k + 31) / 32))) = some true ∧ s.core.kstepsOn j = true ∧
       ({ j with rows := some [] } : MJob).rows = some [] ∧
       (match (gatherRows s a.lfmt a.dc [0, 0x80000000]).2 with
        | .ok rs => decide (rs.length = 2)
        | .error _ => false) = true ∧
       (match (gatherRows bad a.lfmt a.dc [0]).2 with
        | .ok _ => false
        | .error p => decide (p = 0)) = true) ∧
    (let a := ma 0 (tl 1) (tl 0) 0x202
     let j : MJob := { op := .mlatLoad a, addr := 0, cfg := 0, xs := BitVec.ofNat 64 page }
     let s := demoM.onCtx (fun c => { c with running := some j })
     s.core.kstepsOn j = true ∧ j.kstep < a.f 9 5 + 1 ∧ engineFree s = true ∧
       answers (projBlock s j.xs a.dc (loadDh a) j.kstep) (fun _ => true) = true) := by
  decide +kernel

/-- MatrixEngineEvents: the instructions of one step; a check that finds nothing, one that fails in one element, one whose
chain is not fresh; a job whose k-steps have run, and one with some left. -/
theorem witness_checks :
    (let s (op : Instr) : State := demoC (fun c => { c with running := some { op := op, addr := 0, cfg := c.mcfgr } })
     [Instr.mzero (ma 0 (tl 0) (tl 0) 1), .sacc (ma 0 (tl 2) (tl 3) 0x180), .mdrn (ma 0 (tl 2) (tl 0) 1), .mchk (ma 0 (tl 0) (tl 0) 1),
      .mchk (ma 0 (tl 0) (tl 0) 0), .mrecomp (ma 0 (tl 0) (tl 0) 0)].all (fun i =>
        (s i).core.ctx.waiting.all (fun w => !isPanelLoad w) && decide ((s i).core.lanesUnposted = []))) = true ∧
    Machine.failing (demo.core.ctx.rz 0) (demo.core.ctx.zth 0) = ([], []) ∧
    (let h : ZThatch := { fm := 2, fn := 2, kt := 3, tf := 8 }
     let one := demoC (fun c => (c.wz 0 (BitVec.ofNat 393216 0x45200000)).setZth 0 h)
     let z := one.core.ctx.rz 0
     Machine.failing z h = ([0], [0]) ∧ (rowBad (correctCell z h 0 0) h 0 || colBad (correctCell z h 0 0) h 0) = false ∧
       demo.recomputable h = true ∧ Machine.failing (replay one.core.ctx 0 h) h = ([], []) ∧
       demo.recomputable { h with chain := List.replicate 9 { op := .mzero (ma 0 (tl 0) (tl 0) 0), addr := 0, cfg := 0 } } = false ∧
       Machine.failing (z ||| BitVec.ofNat 393216 (0x45200000 * 2 ^ (32 * 97))) h = ([0, 1], [0, 1])) ∧
    (let j : MJob := { op := .mmaBf16 (ma 0 (tl 2) (tl 0) 31), addr := 0, cfg := 0 }
     j.prod.map (fun p => (p.k + 31) / 32) = some 1) := by
  decide +kernel

/-- ScalarLoadsAndStores and TileTransfers: a load that waits for its own core's store. -/
theorem witness_load_waits :
    (let s := demoP.onCore (fun k => { k with storeQ := [queued .dev] })
     let a := la false 2 (tl 5) 0
     (s.runs (.ld a) && s.eaOk a 8 && answers (access s a.sp .read (s.ea a) 8) (s.queueMeets (fun _ => true)) &&
       s.runs (.tld a) && s.eaOk a 64 &&
       answers (access s a.sp .read (s.ea a) ((s.envFor (.tld a)).tileBytes a)) (s.queueMeets (fun _ => true)) &&
       answers (access demoP a.sp .read (demoP.ea a) 8) (fun ts => !demoP.queueMeets (fun _ => true) ts)) = true) := by
  decide +kernel

/-- The demo device in a privileged spar, with A2 at the command port. -/
def demoAtPort : State :=
  let tb : TbEnt := { ctx := 0, base := page, size := 65536, pte := BitVec.ofNat 64 (0xFFFFFFFF0000 + 3) }
  at2 (demoSys (demo.onCore (fun k => { k with tb := tb :: k.tb }))) (BitVec.ofNat 64 (page + 0xF000))

/-- Atomics: at the command port. -/
theorem witness_atomic_port :
    (let a := la false 2 (tl 5) 0
     ([Instr.aadd, .acas, .axch, .amax, .amin].all (fun f => demoAtPort.runs (f a))) && demoAtPort.eaOk a 8 &&
       answers (access demoAtPort a.sp .write (demoAtPort.ea a) 8) (fun ts => match ts with
        | [(.place p _, _)] => decide (portAt p 8 = some 0)
        | _ => false) &&
       requestsFree demoAtPort 1 && atomicReady demoAtPort .dev a.strong a.scope && demoAtPort.mem.wf) = true := by
  decide +kernel

/-- AddressFaults: the tile forms, a gathered row, a stash, and TAGL and TAGI of an address. -/
theorem witness_tile_faults :
    ([(Instr.tld, Access.read, false), (.tst, .write, true)].all (fun p => ([0, 2] : List (BitVec 5)).all (fun mode =>
      let a := la p.2.2 2 (tl 5) mode
      let far := at2 demo (2 ^ 57)
      let odd := at2 demo 0x1234567
      let bare := at2 demo 0x8000000
      far.runs (p.1 a) && !canonical (far.core.ctx.ra 2).sum && odd.runs (p.1 a) && canonical (odd.core.ctx.ra 2).sum &&
        decide ((odd.ea a).toNat % 64 ≠ 0) && bare.runs (p.1 a) && bare.eaOk a 128 &&
        !answers (access bare a.sp p.2.1 (bare.ea a) ((bare.envFor (p.1 a)).tileBytes a)) (fun _ => true)))) = true ∧
    (let a := la false 2 (tl 5) 2
     let s := demoP.onCtx (fun c => { c with shape := 0x000F })
     s.runs (.tld a) = true ∧ canonical (s.core.ctx.ra 2).sum = true ∧ s.core.ctx.nb % ((tileFmt a).bits / 8) ≠ 0) ∧
    (let a := la false 2 (tl 5) 0
     let one (s : State) : State := s.onCtx (fun c => { c with shape := 0x3F00 })
     let far := one (at2 demo (2 ^ 57))
     let odd := one (at2 demo 0x12345F0)
     let bare := one (at2 demo 0x8000000)
     let spm := one (at2 (banked demo) (2 ^ 57))
     let b := la false 2 (tl 5) 1
     ([far, odd, bare].all (fun s => s.runs (.gld a)) && spm.runs (.gld b) && b.sp && !canonical (spm.core.ctx.ra 2).sum &&
       decide (bare.core.ctx.nr = 1 ∧ BitVec.ofNat 32 (tileField (bare.core.ctx.rt a.dat.tile) 0 32) ≠ 0x80000000) &&
       !canonical (far.core.ctx.ra 2).sum && decide (512 < (odd.ea a).toNat % 512 + odd.core.ctx.nb) &&
       decide ((bare.ea a).toNat % 512 + bare.core.ctx.nb ≤ 512) &&
       !answers (access bare false .read (bare.ea a) bare.core.ctx.nb) (fun _ => true)) = true) ∧
    (let a := la true 2 (tl 5) 2
     let s := at2 demo 0x8000000
     (s.runs (.tsts a) && s.eaOk a 2048 && !stashBad s.core.ctx a && decide (s.core.ctx.nc (stashFmt a).bits ≠ 0) &&
       (match (stashImages s.core.ctx a).1.head? with
        | some r => !answers (access s a.sp .write (s.ea a) r.2.length) (fun _ => true)
        | none => false) &&
       (let far := at2 demoTags (2 ^ 57)
        far.runs (.tagl (la false 2 (tl 5) 0)) && far.runs (.tagiA (la true 2 (tl 0) 1)) && !canonical (far.core.ctx.ra 2).sum)) = true) := by
  decide +kernel

/-- StorePerformed: a store of two pieces, one that releases, one to two peers, and one that no peer is written by. -/
theorem witness_store_pieces :
    (let two : StoreEnt := { queued .dev with segs := [(devPlace page, [7]), (devPlace (page + 8), [8])] }
     let rel : StoreEnt := { queued .dev with rel := some (5, true) }
     let peers : StoreEnt := { queued .peer with segs := [(⟨.peer, 1, page⟩, [7]), (⟨.peer, 2, page⟩, [8])] }
     let s (e : StoreEnt) := demo.onCore (fun k => { k with storeQ := [e] })
     (s two).readyUnits 0 = two.segs ∧ (s rel).readyUnits 0 = rel.segs ∧ (s peers).readyUnits 0 = peers.segs ∧
       (∀ g ∈ (s two).readyUnits 0, g.1.space ≠ .peer ∧ portAt g.1 g.2.length = none) ∧
       (∀ g ∈ (s rel).readyUnits 0, g.1.space ≠ .peer ∧ portAt g.1 g.2.length = none) ∧
       (∀ g ∈ (s peers).readyUnits 0, g.1.space = .peer) ∧ two.homes.all (fun h => decide (h.1 ≠ .peer)) = true ∧
       rel.failed = false ∧ (s two).mem.wf = true ∧ (s peers).laneRoom = true) := by
  decide +kernel

/-- An emergency area is copied to a save area of context 0 there. -/
theorem wide_emergency {s : State} (h : wide s) (hr : s.core.rskHeld = none) (l : Launch) (hl : l.ctx = 0) (o : OpenRec) (c : Ctx) :
    ∃ s1, s.copyEmergency l o c = .ok s1 := by
  have hs : s.spillHeld l o c = .ok s := by simp [State.spillHeld, hr]
  simp only [State.copyEmergency, hs, hl, bind, Except.bind]
  generalize hp : putParts 0 _ _ s = q
  have h1 := wide_parts (s.saveArea o.id) (((0, List.replicate 64 (0 : Byte)) :: savedParts c s.tick).map (fun p =>
    (p.1, s.mem.dev.readN (s.emBase + p.1) p.2.length))) h
  rw [hp] at h1
  obtain ⟨s2, b⟩ := q
  obtain ⟨rfl, hw⟩ : b = none ∧ wide s2 := h1
  obtain ⟨t, ht, -, -⟩ := wide_write hw (l.recVa o.id.idx + 8) (recordMark { s2.runOf with sys := l.sys, rst := l.rst }
    (BitVec.ofNat 64 (ofBytes (s.mem.dev.readN s.emBase 8))) 0)
  dsimp only
  rw [ht]
  exact ⟨_, rfl⟩

/-- SoftwareTrapAndReturn, its last parts: a context that a core holds, whose save ends in its area or is held again; one in an
emergency area, that can be copied or not. -/
theorem witness_held :
    (let s (k : State) := k.onCore (fun k => { k with phase := .held 2 0x10000 0 })
     (s demoH).swapTo 0 = s demoH ∧ (s demoH).core.phase = .held 2 0x10000 0 ∧
       ((s demoH).saveCtx false (s demoH).runOf 0x10000 0 0 2).2 = .area ∧
       (match ((s demo).saveCtx false (s demo).runOf 0x10000 0 0 2).2 with
        | .held _ => true
        | _ => false) = true) ∧
    demoH.launchOf 0 = some demoLaunch ∧ (∃ s1, demoH.copyEmergency demoLaunch (openRec0 none) {} = .ok s1) ∧
    answers (demo.copyEmergency fetchLaunch (openRec0 none) {}) (fun _ => true) = false := by
  refine ⟨⟨by decide +kernel, by decide +kernel, ?_, by decide +kernel⟩, by decide +kernel, ?_, by decide +kernel⟩
  · exact wide_save ⟨by decide +kernel, by decide +kernel⟩ (by decide +kernel) _ _ (by decide +kernel) _ _ _ _
  · exact wide_emergency ⟨by decide +kernel, by decide +kernel⟩ (by decide +kernel) _ (by decide +kernel) _ _

/-- CopyEvents: a record read where a request entry is free; a fold of a thatched tile that is sound, and of one that cannot be
corrected. -/
theorem witness_fold_checks :
    (let g := gutterOf (List.replicate 52 0 ++ [4, 4])
     let sound := List.replicate 256 (0 : Byte)
     let torn := List.replicate 8 (0x45 : Byte) ++ List.replicate 248 0
     ((thParse 32 g.tr g.tc sound).verified .fp32 0 (fun _ => noScale) g.tc).isSome = true ∧
       ((thParse 32 g.tr g.tc torn).verified .fp32 0 (fun _ => noScale) g.tc).isNone = true) ∧
    engineFree (demoM.onCore (fun k => { k with engines := k.engines.set 0 [cmdOf (.cpy (ca 1 2 3 5 16))] })) = true := by
  decide +kernel

/-- A collective of two members, started, with this core's block: of single FP32 elements, or of thatched tiles of one; lengths
and offsets of its blocks stand at `page`. -/
def demoColl (op : CArgs → Instr) (th : Bool) (own : List Byte) : State :=
  let at_ (n : Nat) : List Byte := toBytes 8 (if collVariant (op (ca 1 2 3 5 0)) = some 3 then n else 0)
  let desc := toBytes 8 0 ++ toBytes 4 2 ++ List.replicate 10 0 ++ [if th then 5 else 4] ++ List.replicate 5 0 ++
    (if th then [1, 0, 1, 0] else List.replicate 4 0) ++ toBytes 8 1 ++ at_ 0x20000 ++ at_ 0x20000 ++ at_ 0x20000 ++ at_ 0x20080 ++
    List.replicate 56 0
  let c := { cmdOf (op (ca 1 2 3 5 0)) with started := true, tsr := some desc, out := [(0, own)] }
  let s := (banked demoM).onCore (fun k => { k with fabric := [c] })
  { s with mem := (s.mem.setN ⟨.dev, 0, page⟩ (toBytes 8 128 ++ toBytes 8 128)).setN ⟨.dev, 0, page + 128⟩ (toBytes 8 0 ++ toBytes 8 128) }

/-- What the completion of a collective of a variant needs beside its blocks, and of two blocks that are sound or not. -/
def collReady (s : State) (v : Nat) (blocks : List (List Byte)) (sound : Bool) : Bool :=
  match s.openColl with
  | some (c, d, own) =>
    let bs := blocks.set d.rank own
    decide (c.variant = v) && s.collClear c d && engineFree s && s.laneRoom && d.ok v && d.dsp && decide (d.n = blocks.length) &&
      bs.all (fun b => decide (b.length = d.block)) && spmIn c.bank0 c.banks c.da.toNat (2 * d.block) && s.mem.wf &&
      ((bs.all (fun b => !d.th || ((List.range (b.length / d.unit)).all (fun u =>
        (collTile d ((b.drop (u * d.unit)).take d.unit)).isSome)))) == sound)
  | none => false

/-- CopyEvents: a reduction of thatched tiles, whole and with one that cannot be corrected; blocks carried by an all-gather
and by an all-to-all, whose lengths and offsets agree with them. -/
theorem witness_collectives :
    (let zero := List.replicate 128 (0 : Byte)
     let torn := List.replicate 4 (0 : Byte) ++ List.replicate 4 0x45 ++ List.replicate 4 0x46 ++ List.replicate 116 0x47
     collReady (demoColl .collAr true zero) 0 [zero, zero] true && collReady (demoColl .collRs true zero) 2 [zero, zero] true &&
       collReady (demoColl .collAr true zero) 0 [zero, torn] false &&
       collReady (demoColl .collAg true zero) 1 [zero, zero] true && collReady (demoColl .collA2a true zero) 3 [zero, zero] true &&
       (match (demoColl .collA2a true zero).openColl with
        | some (c, d, _) =>
          let s := demoColl .collA2a true zero
          [(0, 0), (1, 128)].all (fun q => answers (descWord s c (d.arrays.getD 2 0) q.1) (fun n => decide (n = 128)) &&
            answers (descWord s c (d.arrays.getD 3 0) q.1) (fun n => decide (n = q.2)))
        | none => false)) = true := by
  decide +kernel

/-- SyncSlot: MARK behind a spill and behind a fill that are due. -/
theorem witness_mark :
    (let s := demoC (fun c => { c with rskp := 917512 })
     let f := demoC (fun c => { c with rskp := 65544, rsks := 65536, rskFill := true })
     s.runs (.mark (ya 0 0 0)) = true ∧ s.spillDue = true ∧ f.runs (.mark (ya 0 0 0)) = true ∧ f.fillDue = true) := by
  decide +kernel

/-- SchedulerEvents: a launch whose header's SSOVR can be counted, in an exchange within its budget and over it, of a resident
kernel's list. -/
theorem witness_ssovr :
    (let l : Launch := { demoLaunch with ss := true, exchange := some 0, exbud := 3 }
     let k : Kernel := { ctx := 0, entry := codeBase, bundles := 1, codePa := 0, dataPa := 0, lcores := [0, 1], bank0 := 0, banks := 1,
                         shape := 0, plan := [], exch := [(0, 0, 64, 8)], sfu := [] }
     let s : State := { demoD with sched := { demoD.sched with launches := [(0, l)] }, kernels := [(4, k)], cycle := 9 }
     (s.exchangeKernel l).map (·.exch) = some [(0, 0, 64, 8)] ∧ s.launchOf 0 = some l ∧ l.exOver = false ∧ 0 + l.exbud < s.cycle ∧
       answers (deviceRead s l.ctx (l.hdr + 116) 4) (fun _ => true) = true ∧
       answers (deviceDest (s.noteDevice l.ctx (l.hdr + 116) 4) l.ctx (l.hdr + 116) 4) (fun ps =>
         decide (ps = [(devPlace (page + 116), 4)])) = true ∧ portAt (devPlace (page + 116)) 4 = none ∧ s.mem.wf = true) := by
  decide +kernel

/-- MemoryEvents, HostAndFabricEvents and PlatformEvents in minimal mode, in P3 and out of them; the pinned area; a pair area
apart from an access; a store of the queue whose one transaction is acknowledged; PWRCTL in a decommissioned device. -/
theorem witness_modes :
    (let m : State := { demo with plat := { demo.plat with min := true } }
     let off : State := { demo with plat := { demo.plat with pst := 3 } }
     m.hostUp = true ∧ m.plat.min = true ∧ m.serves = false ∧ off.serves = false ∧ demo.serves = true ∧ demo.plat.min = false ∧
       inMinimal .mntaddr = false ∧ inMinimal .clogb = true ∧ demo.hostUp = true) ∧
    (demo.imageIn 5 = false ∧ 5 < 96) ∧
    ((List.range 8).all (fun i =>
        let p : Place := ⟨.dev, 0, demo.fabric.pairb.toNat + 64⟩
        let q := (devPlace 0x10000).off i
        decide (p.key + 64 ≤ q.key ∨ q.key < p.key)) = true) ∧ demo.mem.badAtoms = [] ∧
    (let e : StoreEnt := { queued .peer with sent := 1, seq := 4 }
     let o : OutTxn := { dst := 1, psn := 0, txn := .store 0 [7], core := 0, id := ⟨0, 0⟩, cmd := none, store := some 4 }
     let s : State := { demo.onCore (fun k => { k with storeQ := [e] }) with fabric := { demo.fabric with out := [o] } }
     s.fabric.out.filter (fun q => decide (q.dst = 1)) = [] ++ o :: [] ∧ ([o].map (·.psn)).Nodup ∧ o.landed = false ∧
       (s.allCoresList.map (·.num)).Nodup ∧ s.core ∈ s.allCoresList ∧ s.core.num = o.core ∧
       s.core.storeQ.find? (fun q => decide (q.seq = 4 ∧ q.id = o.id)) = some e ∧ e.sent = 1 ∧ e.failed = false ∧ e.segs.length = 1) ∧
    (({ demo.plat with lc := 3 } : Platform).lc = 3) ∧ demo.quiet = false ∧ ({ demo.plat with stage := 0, lc := 3 } : Platform).lc = 3 := by
  decide +kernel

/-! ### Results of the manual's worked examples and rules -/

/-- What holds of the next state of an operation. -/
def after (i : Instr) (s : State) (p : Ctx → Bool) : Bool :=
  match exec i s with
  | .next t => p t.core.ctx
  | _ => false

/-- FP32 element (i, j) of a tile. -/
def el (c : Ctx) (n : Nat) (i j : Nat) : Nat := tileField (c.rt ⟨0, n⟩) (512 * i + 32 * j) 32

/-- A tile with FP32 elements in its first rows. -/
def rows32 (lvl n : Nat) (rows : List (List Nat)) (c : Ctx) : Ctx :=
  c.wt ⟨lvl, n⟩ (rows.zipIdx.flatMap (fun r => r.1.zipIdx.map (fun e => ⟨512 * r.2 + 32 * e.2, 32, e.1⟩)))

/-- The `vfma` of the chapter on the tile file, with its W1 values in row 1, since R108 does not admit row 3 of two rows
(log 39): mask, ZER, a line source and an operand file. -/
theorem test_vfma :
    after (.vfma { va5 0 ⟨0, 0, false, true, 20⟩ (tl 4) ⟨1, 1, false, false, 1⟩ ⟨2, 0, false, false, 0⟩ (tl 0) with
        g1 := 1, g2 := 0xA, line := 1 })
      (demoC (fun c =>
        { rows32 1 1 [[], [0x3F000000, 0x3F800000, 0x40000000, 0xBF800000]]
            (rows32 2 0 [[0x41200000, 0x41200000, 0x41200000, 0x41200000], [0, 0, 0, 0x3E800000]]
            (rows32 0 4 [[0x3F800000, 0x40000000, 0x40400000, 0x40800000], [0x40A00000, 0x40C00000, 0x40E00000, 0x41000000]]
            (rows32 0 20 (List.replicate 16 (List.replicate 16 0x41100000)) c))) with
          shape := 0x0F01, p := 3, m := c.m.set 2 (2 ^ 0 + 2 ^ 1 + 2 ^ 3 + 2 ^ 32 + 2 ^ 33) }))
      (fun c => decide ((List.range 5).map (el c 20 0) = [0x41280000, 0x41400000, 0, 0x40C00000, 0x41100000]) &&
        decide ((List.range 5).map (el c 20 1) = [0x40200000, 0x40C00000, 0, 0, 0x41100000]) &&
        decide (el c 20 2 0 = 0x41100000 ∧ c.astat = 0)) = true := by
  decide +kernel

/-- The `qnt.e4m3.bf16` of the same chapter: scale, saturation and its flags. -/
theorem test_qnt :
    after (.qnt (va5 3 (tl 40) (tl 8) (tl 0) (tl 41) (ctlOp 4)))
      (demoC (fun c => { (c.wt ⟨0, 8⟩ [⟨0, 16, 0x447A⟩, ⟨16, 16, 0xC040⟩, ⟨32, 16, 0x3E80⟩]) with shape := 0x3F00 }))
      (fun c => decide (tileField (c.rt ⟨0, 41⟩) 0 8 = 0x80 ∧ tileField (c.rt ⟨0, 40⟩) 0 32 = 0x20BC7E)) = true := by
  decide +kernel

/-- FP32 element (i, j) of an accumulator. -/
def zel (c : Ctx) (n i j : Nat) : Nat := ((c.rz n).extractLsb' (32 * (96 * i + j)) 32).toNat

/-- The `mma.bf16.acc z3, t64, wb1, k=3` of the chapter on the array, as its job. -/
def demoMma : MJob :=
  { op := .mmaBf16 (ma 3 (tl 64) (tl 0) 0x300002), addr := 0, cfg := 0x81, tiles := [(64, ⟨BitVec.ofNat 8192
      (0x3F80 + 0x4000 * 2 ^ 16 + 0x4040 * 2 ^ 32 + (0x4080 + 0x40A0 * 2 ^ 16 + 0x40C0 * 2 ^ 32) * 2 ^ 512), 0⟩)] }

/-- Its k-step: each sum is rounded once into its element, which ties to even at (1, 1); every other element stays. -/
theorem test_kstep :
    after .matrixKstep (demoC (fun c =>
      { c.wz 3 (BitVec.ofNat 393216 (0x3F000000 + 0xBF800000 * 2 ^ 32 + 0x40000000 * 2 ^ 64 + 0x4B800000 * 2 ^ (32 * 97))) with
        running := some demoMma,
        wb1 := { tag := some .bf16, kl := 3, data := BitVec.ofNat 524288 (0x3F80 + 0x3F80 * 2 ^ (1536 + 16) + 0x3F803F80 * 2 ^ 3072) } }))
      (fun c => decide ([zel c 3 0 0, zel c 3 0 1, zel c 3 0 2, zel c 3 1 0, zel c 3 1 1, zel c 3 2 0] =
        [0x40900000, 0x40800000, 0x40000000, 0x41200000, 0x4B800006, 0])) = true := by
  decide +kernel

/-- The drain of the chapter on the Thatch: one flipped element is corrected, its row and column are recorded, and the tiles
take the block and its checksums. -/
theorem test_drain_corrects :
    (match exec .matrixComplete (demoC (fun c =>
      { (c.wz 3 (BitVec.ofNat 393216 (0x40800000 + 0x40A00000 * 2 ^ 32 + 0x45200000 * 2 ^ (32 * 96) + 0x41300000 * 2 ^ (32 * 97)))).setZth 3
          { cr := 0x4180000041600000, cc := 0x41A8000041100000, fm := 2, fn := 2, kt := 3, tf := 8,
            el := [(0, 2), (1, 3), (128, 3), (129, 3)] } with
        running := some { op := .mdrn (ma 3 (tl 100) (tl 101) 0x11), addr := 0, cfg := 0x81 } })) with
     | .next t =>
       let c := t.core.ctx
       let f (n o w : Nat) : Nat := tileField (c.rt ⟨0, n⟩) (8 * o) (8 * w)
       decide ([zel c 3 1 0, f 100 0 4, f 100 64 4, f 101 0 8, f 101 384 8, f 101 896 4] =
         [0x41200000, 0x40A04080, 0x41304120, 0x4180000041600000, 0x41A8000041100000, 0x41F00000]) &&
         decide (t.core.thcnt = 1)
     | _ => false) = true := by
  decide +kernel

/-- X1 after a scalar operation on X2 and X3. -/
def x1After (i : Instr) (a b : Word) (v : Word) : Bool :=
  after i (demoC (fun c => (c.wx 2 a).wx 3 b)) (fun c => decide (c.rx 1 = v))

/-- R87 to R90: wraps, signs, high products, and each line of R88's table. -/
theorem test_scalar_results :
    ([(.add (sr 1 2 3 0), 0xFFFFFFFFFFFFFFFF, 2, 1), (.sub (sr 1 2 3 0), 1, 2, 0xFFFFFFFFFFFFFFFF), (.sra (sr 1 2 3 0), 2 ^ 63, 63, 0xFFFFFFFFFFFFFFFF),
      (.mulh (sr 1 2 3 0), 2 ^ 63, 2 ^ 63, 2 ^ 62), (.div (sr 1 2 3 0), 5, 0, 0xFFFFFFFFFFFFFFFF), (.rem (sr 1 2 3 0), 5, 0, 5),
      (.div (sr 1 2 3 1), 5, 0, 0xFFFFFFFFFFFFFFFF), (.div (sr 1 2 3 0), 2 ^ 63, 0xFFFFFFFFFFFFFFFF, 2 ^ 63),
      (.rem (sr 1 2 3 0), 2 ^ 63, 0xFFFFFFFFFFFFFFFF, 0), (.rem (sr 1 2 3 0), 0xFFFFFFFFFFFFFFF9, 2, 0xFFFFFFFFFFFFFFFF),
      (.addi (si 1 2 0xFFFFFF), 0, 0, 0xFFFFFFFFFFFFFFFF), (.srai (si 1 2 63), 2 ^ 63, 0, 0xFFFFFFFFFFFFFFFF),
      (.ldi (sl 1 0x20000000), 0, 0, 0xFFFFFFFFE0000000)] : List (Instr × Word × Word × Word)).all
      (fun t => x1After t.1 t.2.1 t.2.2.1 t.2.2.2) = true ∧
    after (.ldih (sl 1 0x34567840)) (demoX 1 0x1FC48) (fun c => decide (c.rx 1 = 0x00007F1234567840)) = true := by
  decide +kernel

/-- The view of the chapter on the remainder stack: four Q16 elements. -/
def q16Row (n : Nat) (v : Nat) (c : Ctx) : Ctx := { c.wt ⟨0, n⟩ [⟨0, 64, v⟩] with shape := 0x0700 }

/-- Its `rmulq.q16 t20, t4, t5, sh=15`: the results, the entry's payload and tag, RSKP and NSEQ. -/
theorem test_rmulq :
    after (.rmulq (va5 10 (tl 20) (tl 4) (tl 5) (ctlOp 15) (tl 0)))
      (demoC (fun c => q16Row 5 0x0000753000052EE0 (q16Row 4 0x00074E20FFFD03E8 c)))
      (fun c => decide (tileField (c.rt ⟨0, 20⟩) 0 64 = 0x00004786FFFF016E ∧ c.rskp = 0x50 ∧ c.nseq = 1 ∧
        ofBytes (c.rskCore.readN 64 8) = 0x00074600FFF11B00 ∧ ofBytes (c.rskCore.readN 72 8) = 0x00003C7000A00142)) = true := by
  decide +kernel

/-- Its undo: every element comes back and the entry is gone; with an element of T5 changed it faults RSKORD VALUE. -/
theorem test_umulq :
    (let s (m : Nat) : State := demoC (fun c =>
      { q16Row 5 m (q16Row 20 0x00004786FFFF016E c) with
        rskp := 0x50, nseq := 1, rskCore := c.rskCore.writeN 64 (toBytes 8 0x00074600FFF11B00 ++ toBytes 8 0x00003C7000A00142) })
     let u : Instr := .umulq (va5 10 (tl 6) (tl 20) (tl 5) (tl 0) (tl 0))
     after u (s 0x0000753000052EE0) (fun c => decide (tileField (c.rt ⟨0, 6⟩) 0 64 = 0x00074E20FFFD03E8 ∧ c.rskp = 0x40 ∧ c.nseq = 0)) &&
       (match exec u (s 0x0000753000042EE0) with
        | .next t => decide (t.core.ctx.rskp = 0x50 ∧ tileField (t.core.ctx.rt ⟨0, 6⟩) 0 64 = 0) &&
          (match t.core.phase with
           | .stopping q => decide (q.cause = 0x0E ∧ q.det ≠ 0)
           | _ => false)
        | _ => false)) = true := by
  decide +kernel

/-- ST lays its register's bytes out with the lowest first (R3); the core's next load of them waits until the store is
performed, and then reads them (R238, R240). -/
theorem test_store_before_load :
    (let ld : Instr := .ld (la false 2 (tl 6) 0)
     match exec (.st (la true 2 (tl 5) 0)) (demoP.onCtx (fun c => c.wx 5 0x0123456789ABCDEF)) with
     | .next t => decide (t.mem.get ⟨.dev, 0, page⟩ = 0) &&
       (match exec ld t with
        | .next u => decide (u.core.pc = t.core.pc ∧ u.core.ctx.rx 6 = 0)
        | _ => false) &&
       (match t.core.storeQ, t.readyUnits 0 with
        | [e], [g] =>
          let u := t.performUnit e g
          decide (u.mem.get ⟨.dev, 0, page⟩ = 0xEF ∧ u.mem.get ⟨.dev, 0, page + 7⟩ = 0x01 ∧ u.core.storeQ = []) &&
            after ld u (fun c => decide (c.rx 6 = 0x0123456789ABCDEF))
        | _, _ => false)
     | _ => false) = true := by
  decide +kernel

/-- A step from the state with a bundle at the PC runs it: `addi x1, x0, 5` leaves 5 in X1 and moves the PC on by 64. -/
theorem test_step_runs_bundle :
    (match step { State.reset.withFetchWord 512 (encode (.addi (si 1 0 5))).toNat with others := [] } with
     | .next t => decide (t.core.ctx.rx 1 = 5 ∧ t.core.pc = BitVec.ofNat 64 (codeBase + 64))
     | _ => false) = true := by
  decide +kernel

end Sys2Proof.Tests.Slice0
end

section
/-! The scalar slot (R86 to R93): what makes a lone scalar operation ill-formed with reason 2, the quotients, conditions
and predicate words of its operations, and the statements O2 to O6. -/

namespace Sys2Proof.Machine

/-! ### The reason of an ill-formed operation (R40) -/

/-- The lowest reason of those found before a condition and, where it holds, its own. -/
def lowered (m : Option Nat) (c : Cond) : Option Nat := if c.1 then some (m.elim c.2 (min · c.2)) else m

/-- The lowest reason is found condition by condition. -/
theorem lowest_eq_foldl (cs : List Cond) : lowest cs = cs.foldl lowered none := by
  refine congrArg (fun f => cs.foldl f none) (funext fun m => funext fun c => ?_)
  cases m <;> rfl

/-- A condition does not lower the reason below a bound of those found and its own. -/
theorem le_of_lowered {r k : Nat} {m : Option Nat} {c : Cond} (hm : ∀ k, m = some k → r ≤ k) (hc : c.1 = true → r ≤ c.2)
    (h : lowered m c = some k) : r ≤ k := by
  unfold lowered at h
  by_cases hb : c.1 = true
  · rw [if_pos hb] at h
    obtain rfl := Option.some.inj h
    cases m with
    | none => exact hc hb
    | some j => exact Nat.le_min.2 ⟨hm j rfl, hc hb⟩
  · rw [if_neg hb] at h
    exact hm k h

/-- A reason that bounds those found and a condition's own is found where it was found before or the condition gives it. -/
theorem lowered_eq_some {r : Nat} {m : Option Nat} {c : Cond} (hm : ∀ k, m = some k → r ≤ k)
    (hc : c.1 = true → r ≤ c.2) (h : m = some r ∨ c = (true, r)) : lowered m c = some r := by
  rcases h with rfl | rfl
  · unfold lowered
    by_cases hb : c.1 = true
    · rw [if_pos hb]
      exact congrArg some (Nat.min_eq_left (hc hb))
    · exact if_neg hb
  · cases m with
    | none => rfl
    | some j => exact congrArg some (Nat.min_eq_right (hm j rfl))

/-- A reason that bounds all is the lowest where it was found before or a condition gives it. -/
theorem foldl_lowered_eq_some {r : Nat} (cs : List Cond) (m : Option Nat) (hm : ∀ k, m = some k → r ≤ k)
    (hcs : ∀ c ∈ cs, c.1 = true → r ≤ c.2) (h : m = some r ∨ (true, r) ∈ cs) : cs.foldl lowered m = some r := by
  induction cs generalizing m with
  | nil => exact h.resolve_right List.not_mem_nil
  | cons c cs ih =>
    have hc : c.1 = true → r ≤ c.2 := hcs c List.mem_cons_self
    refine ih (lowered m c) (fun k => le_of_lowered hm hc) (fun d hd => hcs d (List.mem_cons_of_mem c hd)) ?_
    rcases h with h | h
    · exact .inl (lowered_eq_some hm hc (.inl h))
    · exact (List.mem_cons.1 h).imp_left fun e => lowered_eq_some hm hc (.inr e.symm)

/-- The lowest reason is that of a condition that holds where no other that holds has a lower one. -/
theorem lowest_eq_some {cs : List Cond} {r : Nat} (h : (true, r) ∈ cs) (hle : ∀ c ∈ cs, c.1 = true → r ≤ c.2) :
    lowest cs = some r :=
  (lowest_eq_foldl cs).trans (foldl_lowered_eq_some cs none (fun _ hk => nomatch hk) hle (.inr h))

/-- A bit vector with a value above a mask of low bits has bits outside it. -/
theorem exceeds_of_lt {n m k : Nat} {v : BitVec n} (hm : m + 1 = 2 ^ k) (h : m < v.toNat) : exceeds v m = true := by
  refine decide_eq_true fun h0 => ?_
  have hlt : v.toNat < 2 ^ k := Nat.lt_pow_two_of_testBit _ fun j hj => by
    have hj0 := congrArg (·.getLsbD j) h0
    have hmj : m.testBit j = false := by
      rw [show m = 2 ^ k - 1 by omega, Nat.testBit_two_pow_sub_one]
      simpa using hj
    by_cases hn : j < n
    · simpa only [BitVec.getLsbD_and, BitVec.getLsbD_not, BitVec.getLsbD_ofNat, hmj, hn, decide_true, Bool.and_false,
        Bool.not_false, Bool.and_true, BitVec.ofNat_eq_ofNat, Nat.zero_testBit, BitVec.testBit_toNat] using hj0
    · exact BitVec.getLsbD_of_ge v j (by omega)
  omega

/-- A field that the operation does not have is set where it is not zero. -/
theorem exceeds_zero_of_ne {n : Nat} {v : BitVec n} (h : v ≠ 0) : exceeds v 0 = true := by
  simpa [exceeds] using h

/-- The header of a lone scalar operation breaks none of the rules for headers (R23, R25). -/
theorem lowest_headerConds_ofScalar (i : Instr) : lowest (headerConds (.ofScalar i)) = none :=
  (lowest_none _).2 (by simp [headerConds, Bundle.ofScalar, Bundle.bare, plainHdr])

/-- A lone scalar operation whose own conditions all carry reason 2 is ill-formed with that reason where one of them holds:
the other conditions of its slot have higher ones. -/
theorem reasonTwo_of {i : Instr} {bs : List Bool} (hb : aloneBundle i = .ofScalar i) (ho : opConds i = bs.map (·, 2))
    (hj : jointConds (.ofScalar i) i = []) (h : true ∈ bs) : ReasonTwo i := by
  intro c
  have hs : lowest (slotConds (.ofScalar i) [] (matrixCfgBad c) (.op i)) = some 2 := by
    refine lowest_eq_some (by simp [slotConds, ho, h]) fun q hq _ => ?_
    simp only [slotConds, ho, hj, List.append_nil, List.mem_append, List.mem_map, List.mem_cons, List.not_mem_nil,
      or_false] at hq
    obtain ⟨_, _, rfl⟩ | rfl | rfl := hq <;> simp
  rw [hb, illegal, illegalWith, lowest_headerConds_ofScalar]
  simp only [Bundle.slots, Bundle.ofScalar] at hs ⊢
  simp [lowestSlot, hs]

/-! ### Division (R88) -/

/-- Signed division answers the quotient rounded toward zero, but for the one quotient that does not fit. -/
theorem sdiv_eq_ofInt_tdiv {x y : Word} (h : ¬(x = 0x8000000000000000 ∧ y = 0xFFFFFFFFFFFFFFFF)) :
    x.sdiv y = BitVec.ofInt 64 (x.toInt.tdiv y.toInt) := by
  rw [← BitVec.toInt_sdiv_of_ne_or_ne x y (Classical.not_and_iff_not_or_not.1 h), BitVec.ofInt_toInt]

/-- Signed remainder answers the remainder of that quotient on every operand. -/
theorem srem_eq_ofInt_tmod (x y : Word) : x.srem y = BitVec.ofInt 64 (x.toInt.tmod y.toInt) := by
  rw [← BitVec.toInt_srem, BitVec.ofInt_toInt]

/-- A remainder that is not zero has the sign of the dividend. -/
theorem tmod_neg_iff {a b : Int} (h : a.tmod b ≠ 0) : a.tmod b < 0 ↔ a < 0 := by
  have hd : ¬ b ∣ a := fun hd => h (Int.tmod_eq_zero_of_dvd hd)
  rw [← Int.sign_eq_neg_one_iff_neg, Int.sign_tmod, if_neg hd, Int.sign_eq_neg_one_iff_neg]

/-- Settles O2: the model's quotient and remainder against the table of R88, row by row. -/
theorem division : Obligations.Division := by
  intro s a x y uns low
  refine ⟨fun hr => writesX_of rfl hr rfl (congrArg (setX a.rd) ?_),
    fun hr => writesX_of rfl hr rfl (congrArg (setX a.rd) ?_), fun _ => tmod_neg_iff⟩
  · change (if y = 0 then BitVec.allOnes 64 else if uns then x / y else x.sdiv y) = _
    by_cases h0 : y = 0
    · rw [if_pos h0, if_pos h0]
      rfl
    rw [if_neg h0, if_neg h0]
    by_cases hu : uns = true
    · rw [if_pos hu, if_pos hu, ← BitVec.toNat_udiv, BitVec.ofNat_toNat, BitVec.setWidth_eq]
    rw [if_neg hu, if_neg hu]
    by_cases hm : x = low ∧ y = 0xFFFFFFFFFFFFFFFF
    · rw [if_pos hm, hm.1, hm.2]
      exact BitVec.intMin_sdiv_neg_one
    · rw [if_neg hm]
      exact sdiv_eq_ofInt_tdiv hm
  · change (if y = 0 then x else if uns then x % y else x.srem y) = _
    by_cases h0 : y = 0
    · rw [if_pos h0, if_pos h0]
    rw [if_neg h0, if_neg h0]
    by_cases hu : uns = true
    · rw [if_pos hu, if_pos hu, ← BitVec.toNat_umod, BitVec.ofNat_toNat, BitVec.setWidth_eq]
    rw [if_neg hu, if_neg hu]
    by_cases hm : x = low ∧ y = 0xFFFFFFFFFFFFFFFF
    · rw [if_pos hm, hm.1, hm.2]
      decide
    · rw [if_neg hm]
      exact srem_eq_ofInt_tmod x y

/-! ### Immediates (R89, R90) -/

/-- A shift by an immediate that does not fit its six bits is ill-formed (R89). -/
theorem reasonTwo_of_imm {i : Instr} {a : SI} (hb : aloneBundle i = .ofScalar i) (ho : opConds i = [a.only 63 63 63])
    (hj : jointConds (.ofScalar i) i = []) (h : 63 < a.imm.toNat) : ReasonTwo i :=
  reasonTwo_of (bs := [(a.only 63 63 63).1]) hb ho hj (by simp [SI.only, exceeds_of_lt (k := 6) rfl h])

/-- The word of LDIH is its sum modulo 2^64 (R90). -/
theorem ldih_word (x : Word) (n : BitVec 30) :
    x * 2 ^ 30 + n.setWidth 64 = BitVec.ofNat 64 (x.toNat * 2 ^ 30 + n.toNat) := by
  rw [BitVec.ofNat_add, BitVec.ofNat_mul, BitVec.ofNat_toNat, BitVec.ofNat_toNat, BitVec.setWidth_eq]
  rfl

/-- Settles O3: each slot answers the row of its table, and an over-long shift count sets bits that the field has not. -/
theorem immediates : Obligations.Immediates := by
  refine ⟨fun s a => ⟨?addi, ?andi, ?ori, ?xori, ?shli, ?shri, ?srai, ?long⟩, fun s a => ⟨?ldi, ?ldih⟩⟩
  case long =>
    exact fun h => ⟨reasonTwo_of_imm rfl rfl rfl h, reasonTwo_of_imm rfl rfl rfl h, reasonTwo_of_imm rfl rfl rfl h⟩
  case ldih => exact fun hr => writesX_of rfl hr rfl (congrArg (setX a.rd) (ldih_word _ _))
  all_goals exact fun hr => writesX_of rfl hr rfl rfl

/-! ### Comparison (R91) -/

/-- The model's conditions are those of the table. -/
theorem condHolds_iff (code : Nat) (x y : Word) : condHolds code x y = true ↔ condTable code x y := by
  match code with
  | 0 | 1 => exact decide_eq_true_iff
  | 2 | 7 => exact BitVec.slt_iff_toInt_lt
  | 4 | 9 => exact BitVec.ult_iff_toNat_lt
  | 3 | 6 => simp [condHolds, condTable, BitVec.slt]
  | 5 | 8 => simp [condHolds, condTable, BitVec.ult]
  | n + 10 => exact decide_eq_true_iff

/-- The whole of a value that fits its field. -/
theorem bits_zero_of_lt {v w : Nat} (h : v < 2 ^ w) : bits v 0 w = v := by
  simp [bits, Nat.mod_eq_of_lt h]

/-- Settles O4: CMP and CMPI write the table's condition; a reserved code of CMP stands in FN[3:0] or sets FN[11:4]. -/
theorem comparison : Obligations.Comparison := by
  refine ⟨fun s a hr h => ⟨_, writesP_of rfl hr rfl rfl, ?_⟩, fun s a hr _ => ⟨_, writesP_of rfl hr rfl rfl, ?_⟩,
    fun a h => ?_, fun a h => ?_⟩
  · rw [bits_zero_of_lt (by omega)]
    exact condHolds_iff _ _ _
  · exact condHolds_iff _ _ _
  · refine reasonTwo_of (bs := [(a.only 15 63 63 15).1, decide (10 < bits a.fn.toNat 0 4)]) rfl rfl rfl ?_
    by_cases hf : 15 < a.fn.toNat
    · simp [SR.only, exceeds_of_lt (k := 4) rfl hf]
    · simp [bits_zero_of_lt (v := a.fn.toNat) (w := 4) (by omega), h]
  · exact reasonTwo_of (bs := [(a.only 15 63 0xFFFFFF).1, decide (10 < bits a.imm.toNat 20 4)]) rfl rfl rfl (by simp [h])

/-! ### Selection and predicate words (R92) -/

/-- Every predicate but P0 is in MOVP's list. -/
theorem eq_zero_of_not_mem_movp :
    ∀ k : BitVec 4, k ∉ (List.range 15).map (fun n => BitVec.ofNat 4 (n + 1)) → k = 0 := by decide

/-- The masks by which MOVP keeps bit 0 of the predicate word and replaces the others. -/
theorem movp_masks (k : BitVec 4) (h : k ≠ 0) :
    (1 : BitVec 16).getLsbD k.toNat = false ∧ (0xFFFE : BitVec 16).getLsbD k.toNat = true := by
  revert k
  decide

/-- A change of P1 to P15 leaves every other register, and all else, unchanged. -/
theorem onlyRegs_setP (s : State) (b : Bundle) (pc : Word) (w : BitVec 16) :
    OnlyRegs s (s.afterAt b pc { s.core.ctx with p := w })
      { ps := (List.range 15).map (fun n => BitVec.ofNat 4 (n + 1)) } := by
  refine onlyRegs_afterAt ⟨fun _ _ => rfl, fun k hk => ?_, fun _ _ => rfl, fun _ _ => rfl, fun _ _ _ => rfl, fun _ _ => rfl,
    fun _ _ _ => rfl⟩ ⟨rfl, rfl, rfl, rfl, rfl, rfl, rfl, rfl⟩
    ⟨rfl, rfl, rfl, rfl, rfl, rfl, rfl, rfl, rfl, rfl, rfl, rfl, rfl, rfl, rfl⟩ rfl
  rw [eq_zero_of_not_mem_movp k hk]
  rfl

/-- The scalar that MOVP writes holds each predicate in its bit, P0 true. -/
theorem getLsbD_predicateWord (c : Ctx) (k : BitVec 4) : ((c.p ||| 1).setWidth 64).getLsbD k.toNat = c.rp k := by
  have hk : k.toNat < 64 := by omega
  rw [BitVec.getLsbD_setWidth, BitVec.getLsbD_or, Ctx.rp]
  by_cases h : k = 0
  · simp [h]
  · rw [if_neg h, (movp_masks k h).1, decide_eq_true hk, Bool.or_false, Bool.true_and]

/-- A predicate after MOVP from a scalar; P0 reads true. -/
theorem rp_movpToP (c : Ctx) (x : Word) (k : BitVec 4) :
    ({ c with p := (c.p &&& 1) ||| (x.setWidth 16 &&& 0xFFFE) } : Ctx).rp k = if k = 0 then true else x.getLsbD k.toNat := by
  by_cases h : k = 0
  · simp [Ctx.rp, h]
  · obtain ⟨h1, h2⟩ := movp_masks k h
    have hk : k.toNat < 16 := k.isLt
    simp only [Ctx.rp, h, if_false, BitVec.getLsbD_or, BitVec.getLsbD_and, BitVec.getLsbD_setWidth, h1, h2, hk]
    simp

/-- MOVP to the predicates runs to the commit with the new predicate word. -/
theorem exec_movpToP {s : State} {a : SR} (hr : s.runs (.movpToP a) = true) :
    exec (.movpToP a) s = .next (s.afterAt (aloneBundle (.movpToP a)) s.nextPc
      { s.core.ctx with p := (s.core.ctx.p &&& 1) ||| ((s.core.ctx.rx a.ra).setWidth 16 &&& 0xFFFE) }) :=
  exec_at rfl hr rfl rfl rfl

/-- Settles O5: SEL by its slot, MOVP through its predicate word bit by bit, and the fields that are not theirs. -/
theorem selectAndPredicateMoves : Obligations.SelectAndPredicateMoves := by
  refine ⟨fun s a hr => writesX_of rfl hr rfl rfl,
    fun s a hr => ⟨_, writesX_of rfl hr rfl rfl, getLsbD_predicateWord s.core.ctx, ?_⟩,
    fun s a hr => ⟨_, exec_movpToP hr, rfl, fun k => ?_, onlyRegs_setP s _ _ _⟩,
    fun a h => ?_, fun a h => ?_, fun a h => ?_⟩
  · rw [BitVec.toNat_setWidth]
    exact Nat.lt_of_le_of_lt (Nat.mod_le _ _) (BitVec.isLt _)
  · rw [afterAt_rp]
    exact rp_movpToP s.core.ctx _ k
  · exact reasonTwo_of (bs := [(a.only 63 63 63 15).1]) rfl rfl rfl (by simp [SR.only, exceeds_of_lt (k := 4) rfl h])
  · refine reasonTwo_of (bs := [(a.only 63 0 0 0).1]) rfl rfl rfl ?_
    rcases h with h | h
    · have hf : 0 < a.fn.toNat := by omega
      simp [SR.only, exceeds_of_lt (k := 0) rfl hf]
    · simp [SR.only, exceeds_zero_of_ne h]
  · refine reasonTwo_of (bs := [(a.only 0 63 0 1).1]) rfl rfl rfl ?_
    rcases h with h | h
    · simp [SR.only, exceeds_of_lt (k := 1) rfl h]
    · simp [SR.only, exceeds_zero_of_ne h]

/-! ### Predicate logic (R93) -/

/-- FN[11:2] set is ill-formed in PAND, POR and PXOR. -/
theorem reasonTwo_of_fn {i : Instr} {a : SR} (hb : aloneBundle i = .ofScalar i) (ho : opConds i = [a.only 15 15 15 3])
    (hj : jointConds (.ofScalar i) i = []) (h : 3 < a.fn.toNat) : ReasonTwo i :=
  reasonTwo_of (bs := [(a.only 15 15 15 3).1]) hb ho hj (by simp [SR.only, exceeds_of_lt (k := 2) rfl h])

/-- Settles O6: each slot answers the operation on its terms, and a set field that the form has not is reason 2. -/
theorem predicateLogic : Obligations.PredicateLogic := by
  intro s a pa pb ta tb pd
  refine ⟨fun hr => writesP_of rfl hr rfl rfl, fun hr => writesP_of rfl hr rfl rfl, fun hr => writesP_of rfl hr rfl rfl,
    fun hr => writesP_of rfl hr rfl rfl, fun h => ?_, fun h => ?_⟩
  · exact ⟨reasonTwo_of_fn rfl rfl rfl h, reasonTwo_of_fn rfl rfl rfl h, reasonTwo_of_fn rfl rfl rfl h⟩
  · refine reasonTwo_of (bs := [(a.only 15 15 0 0).1]) rfl rfl rfl ?_
    rcases h with h | h
    · simp [SR.only, exceeds_zero_of_ne h]
    · simp [SR.only, exceeds_zero_of_ne h]

end Sys2Proof.Machine
end
